-- ==== Sys2Proof/Word.lean ====
section
/-! DEFINITION. The word types of the BitReader codec block: a byte of a space, a 32-bit host register, the
64-bit bit accumulator (`ACCW` = 64, 00_scope.md R10 and decision D3) and the named constants of
R10 that the source itself gives. -/

namespace Sys2Proof

/-- One byte of `SRC`, `SINK`, `WIN` or `OUT` (20_memory.md R60). -/
abbrev Byte := BitVec 8

/-- One 32-bit host register (10_state.md section 2). -/
abbrev Word := BitVec 32

/-- The bit accumulator `ACC`, `ACCW` bits (10_state.md R30). -/
abbrev Acc := BitVec 64

/-- `ACCW`: width of the bit accumulator in bits (00_scope.md R10). -/
abbrev ACCW : Nat := 64

/-- `NMAX` = `ACCW` − 7: the largest `n` of one `read_bits` (00_scope.md R10, 40_bitreader.md R120). -/
abbrev NMAX : Nat := 57

/-- `WIN_SIZE`: bytes in the sliding window (00_scope.md R10). -/
abbrev WIN_SIZE : Nat := 4096

/-- `MM_MINHDR`, `MM_MINSIZE`, `MM_MAXSIZE` (00_scope.md R10). -/
abbrev MM_MINHDR : Nat := 14
abbrev MM_MINSIZE : Nat := 16
abbrev MM_MAXSIZE : Nat := 0x8000000

/-- `MDL8_SEED`, `MDL16_SEED`: bytes that seed the accumulator (00_scope.md R10). -/
abbrev MDL8_SEED : Nat := 4
abbrev MDL16_SEED : Nat := 8

/-- The two sample widths of the block, `S` = 8 or 16 (00_scope.md R14). -/
inductive Width where
  | w8
  | w16
deriving DecidableEq, Repr

end Sys2Proof
end

