-- ==== Sys2Proof/Config.lean ====
section
/-! DEFINITION. The named parameters of 00_scope.md R10 and R11 (what the spec supplies from general knowledge,
93_implementation_defined.md section 2, or leaves `OPEN`), and the free values: constants without a body, of which nothing can be proved. The
defaults of the spec are in `Machine/Params.lean`; `State` holds a `Config`, so that a claim about every
state is a claim about every value of the parameters unless it names one. -/

namespace Sys2Proof

/-- Field offsets, entry sizes, magic bytes and flag bits of the MMCMP container
(45_mmcmp.md R241 to R245; from general knowledge, D29). -/
structure MmLayout where
  magicAt : Nat
  magic : List Byte
  headerLen : Nat
  hdrSizeAt : Nat
  nblocksAt : Nat
  fileSizeAt : Nat
  tableAt : Nat
  entryLen : Nat
  blockLen : Nat
  unpkAt : Nat
  pkAt : Nat
  xorAt : Nat
  subAt : Nat
  flagsAt : Nat
  ttAt : Nat
  bitsAt : Nat
  subLen : Nat
  subPosAt : Nat
  subSizeAt : Nat
  compBit : Nat
  deltaBit : Nat
  wideBit : Nat
  abs16Bit : Nat
  /-- `pk_size` counts from `MB_PAY`, so includes the table prefix (R246, G11); 0: from the prefix's end. -/
  pkFromPay : Bool
  /-- Bytes between one raw sub-block's bytes and the next one's in the payload (R264, G11). -/
  rawGap : Nat
deriving DecidableEq, Repr

/-- The named parameters of the model (00_scope.md R10, R11). -/
structure Config where
  /-- `IT_LOW_BIAS` (90_conflicts.md C2). -/
  itLowBias : Nat
  /-- `IT_TOP_BIAS` (D12). -/
  itTopBias : Nat
  /-- `IT_BORDER(8, w)` for `w` = 7, 8 (D11). -/
  itBorder8 : List Nat
  /-- `IT_BORDER(16, w)` for `w` = 7 to 16 (D11). -/
  itBorder16 : List Nat
  /-- How many values from the border on are width changes in the mid range, for 8 and for 16 bits (41_it.md R147, D11,
  G2). -/
  itWindow8 : Nat
  itWindow16 : Nat
  /-- `MDL_LONG_BASE` (D16). -/
  mdlLongBase : Nat
  /-- `MDL_UNARY_STOP` (D16). -/
  mdlUnaryStop : Bool
  /-- Bits of a unary step beyond the first (42_mdl.md R176, D16, G4); a step is one read, so it has 1 to `NMAX` bits. -/
  mdlUnaryMore : Fin NMAX
  /-- `MDL16_LOW_FIRST` (D17). -/
  mdl16LowFirst : Bool
  /-- `MDL_NEG_ONES` (D18). -/
  mdlNegOnes : Bool
  /-- `MAXBITS` (D20). -/
  maxBits : Nat
  /-- `PK_CHUNK` (44_blast_lz77.md R231). -/
  pkChunk : Nat
  /-- `LITLEN` (D21). -/
  litLen : List Byte
  /-- `LENLEN` (D21). -/
  lenLen : List Byte
  /-- `DISTLEN` (D21). -/
  distLen : List Byte
  /-- A descriptor byte's count is its high nibble and its length the low one (30_encoding.md R102, G7);
  false: the other way round. -/
  descCountHigh : Bool
  /-- What is added to the count nibble of a descriptor byte (30_encoding.md R102, G7). -/
  descCountBias : Nat
  /-- `LBASE` (D22). -/
  lbase : List Nat
  /-- `LEXTRA` (D22). -/
  lextra : List Nat
  /-- The `DIST` symbol is the upper part of a distance and the raw bits the lower (44_blast_lz77.md R217,
  G8); false: the symbol's six bits are the lower part. -/
  distSymHigh : Bool
  /-- `MM_CMD8` (D30). -/
  mmCmd8 : List Nat
  /-- `MM_FETCH8` (D30). -/
  mmFetch8 : List Nat
  /-- `MM_CMD16` (D30). -/
  mmCmd16 : List Nat
  /-- `MM_FETCH16` (D30). -/
  mmFetch16 : List Nat
  /-- `E` for 8-bit and for 16-bit blocks: bits of the extended-value field (45_mmcmp.md R256, G14). -/
  mmExt8 : Nat
  mmExt16 : Nat
  /-- What an extended value is added to (45_mmcmp.md R256, G14). -/
  mmExtBase8 : Nat
  mmExtBase16 : Nat
  /-- The bit after an all-ones extended value that makes it the sentinel (45_mmcmp.md R256, G14). -/
  mmEndBit : Bool
  /-- The sentinel ends the whole block (45_mmcmp.md R257, D32, G14); false: the current sub-block only. -/
  mmEndsBlock : Bool
  /-- An odd 16-bit value folds to a negative number (45_mmcmp.md R258, G13); false: an even one does. -/
  mmFoldOddNeg : Bool
  /-- MMCMP field offsets and flag bits (D29). -/
  mm : MmLayout
  /-- `DST_BIG_ENDIAN` (D8). -/
  dstBigEndian : Bool
deriving DecidableEq, Repr

/-! ### Free values -/

/-- The `k`-th phantom byte the reader takes, "8 bits of no defined value" (40_bitreader.md R126;
93_implementation_defined.md U7). -/
opaque Config.phantomByte : Nat → Byte

/-- What cell `i` of `OUT` holds after the `epoch`-th allocation and before a sub-block writes it:
`OUT_FILL`, unspecified (45_mmcmp.md R248; 93_implementation_defined.md U10). -/
opaque Config.outFill (epoch i : Nat) : Byte

/-- What a byte of `SRC` that the host has not filled reads as (20_memory.md R60 gives the block no
value for it). -/
opaque Config.srcUnfilled : Nat → Byte

/-- Power-on contents of `WIN` (10_state.md R50: unspecified; 93_implementation_defined.md U8). -/
opaque Config.winPowerOn : Nat → Byte

/-- Power-on contents of the `COUNT` arrays of `HUF` (10_state.md R40: unspecified). -/
opaque Config.hufPowerOnCount : Nat → Nat

/-- Power-on contents of the `SYMBOL` arrays of `HUF` (10_state.md R40: unspecified). -/
opaque Config.hufPowerOnSymbol : Nat → Byte

end Sys2Proof
end

