-- ==== Sys2Proof/Machine/Params.lean ====
section
/-! DEFINITION. The values of the parameters: the constants per sample width (41_it.md R140, 42_mdl.md R171,
45_mmcmp.md R253), the defaults of 00_scope.md R10, and the functions that look a parameter up. -/

namespace Sys2Proof

/-- `S`, the sample width in bits. -/
def Width.bits : Width → Nat
  | .w8 => 8
  | .w16 => 16

/-- `WMAX` = `S` + 1: the largest and initial IT width (41_it.md R140). -/
def Width.itMax : Width → Nat
  | .w8 => 9
  | .w16 => 17

/-- `FB`: width of the IT low-range escape field (41_it.md R140). -/
def Width.itField : Width → Nat
  | .w8 => 3
  | .w16 => 4

/-- `H` = `S`/2: the half-window of the IT mid range (41_it.md R140). -/
def Width.itHalf : Width → Nat
  | .w8 => 4
  | .w16 => 8

/-- `BLK`: most samples per IT block (41_it.md R140). -/
def Width.itBlock : Width → Nat
  | .w8 => 0x8000
  | .w16 => 0x4000

/-- `SEED`: bytes that seed the MDL accumulator (42_mdl.md R171, R172). -/
def Width.mdlSeed : Width → Nat
  | .w8 => MDL8_SEED
  | .w16 => MDL16_SEED

/-- The container layout of 45_mmcmp.md R241 (header), R242 (block-pointer table), R243 (block header),
R244 (sub-block table) and R245 (flag bits). -/
def MmLayout.default : MmLayout where
  magicAt := 0
  magic := [0x7A, 0x69, 0x52, 0x43, 0x4F, 0x4E, 0x69, 0x61]
  headerLen := 24
  hdrSizeAt := 8
  nblocksAt := 12
  fileSizeAt := 14
  tableAt := 18
  entryLen := 4
  blockLen := 20
  unpkAt := 0
  pkAt := 4
  xorAt := 8
  subAt := 12
  flagsAt := 14
  ttAt := 16
  bitsAt := 18
  subLen := 8
  subPosAt := 0
  subSizeAt := 4
  compBit := 0
  deltaBit := 1
  wideBit := 2
  abs16Bit := 9
  pkFromPay := true
  rawGap := 0

/-- `IT_BORDER(S, w)` = `((2^S − 1) >> (S + 1 − w)) − S/2`, the formula of 41_it.md R147 (D11). -/
def itBorderFormula (S : Width) (w : Nat) : Nat :=
  (2 ^ S.bits - 1) >>> (S.bits + 1 - w) - S.itHalf

/-- The parameter values 00_scope.md R10 gives, the ones 95_test_vectors.md uses. -/
def Config.default : Config where
  itLowBias := 1
  itTopBias := 0
  itBorder8 := (List.range 2).map fun k => itBorderFormula .w8 (k + 7)
  itBorder16 := (List.range 10).map fun k => itBorderFormula .w16 (k + 7)
  itWindow8 := 8
  itWindow16 := 16
  mdlLongBase := 8
  mdlUnaryStop := true
  mdlUnaryMore := 0
  mdl16LowFirst := true
  mdlNegOnes := false
  maxBits := 13
  pkChunk := 65536
  litLen :=
    [11, 124, 8, 7, 28, 7, 188, 13, 76, 4, 10, 8, 12, 10, 12, 10, 8, 23, 8, 9] ++
    [7, 6, 7, 8, 7, 6, 55, 8, 23, 24, 12, 11, 7, 9, 11, 12, 6, 7, 22, 5] ++
    [7, 24, 6, 11, 9, 6, 7, 22, 7, 11, 38, 7, 9, 8, 25, 11, 8, 11, 9, 12] ++
    [8, 12, 5, 38, 5, 38, 5, 11, 7, 5, 6, 21, 6, 10, 53, 8, 7, 24, 10, 27] ++
    [44, 253, 253, 253, 252, 252, 252, 13, 12, 45, 12, 45, 12, 61, 12, 45, 44, 173]
  lenLen := [2, 35, 36, 53, 38, 23]
  distLen := [2, 20, 53, 230, 247, 151, 248]
  descCountHigh := true
  descCountBias := 1
  lbase := [3, 2, 4, 5, 6, 7, 8, 9, 10, 12, 16, 24, 40, 72, 136, 264]
  lextra := [0, 0, 0, 0, 0, 0, 0, 0, 1, 2, 3, 4, 5, 6, 7, 8]
  distSymHigh := true
  mmCmd8 := [0x01, 0x03, 0x07, 0x0F, 0x1E, 0x3C, 0x78, 0xF8]
  mmFetch8 := [3, 3, 3, 3, 2, 1, 0, 0]
  mmCmd16 :=
    [0x01, 0x03, 0x07, 0x0F, 0x1E, 0x3C, 0x78, 0xF0, 0x1F0, 0x3F0, 0x7F0, 0xFF0, 0x1FF0, 0x3FF0,
      0x7FF0, 0xFFF0]
  mmFetch16 := [4, 4, 4, 4, 3, 2, 1, 0, 0, 0, 0, 0, 0, 0, 0, 0]
  mmExt8 := 3
  mmExt16 := 4
  mmExtBase8 := 0xF8
  mmExtBase16 := 0xFFF0
  mmEndBit := true
  mmEndsBlock := true
  mmFoldOddNeg := true
  mm := MmLayout.default
  dstBigEndian := false

/-- The setting 93_implementation_defined.md section 2 gives for files found in the wild (G3, G5). -/
def Config.wild : Config := { Config.default with itTopBias := 1, mdlNegOnes := true }

/-- `IT_BORDER(S, w)` as the parameter gives it; the mid range is `w` = 7 to `WMAX` − 1. -/
def Config.itBorder (c : Config) (S : Width) (w : Nat) : Nat :=
  match S with
  | .w8 => c.itBorder8.getD (w - 7) 0
  | .w16 => c.itBorder16.getD (w - 7) 0

/-- The size of the mid-range window, `S` by default (41_it.md R147). -/
def Config.itWindow (c : Config) : Width → Nat
  | .w8 => c.itWindow8
  | .w16 => c.itWindow16

/-- A field in the mid range is a width change: it lies in the window above the border (41_it.md R147). -/
def Config.inItWindow (c : Config) (S : Width) (w value : Nat) : Bool :=
  decide (c.itBorder S w < value) && decide (value ≤ c.itBorder S w + c.itWindow S)

/-- Bits of one unary step of the MDL long form: 1 by default (42_mdl.md R176). -/
def Config.mdlStepBits (c : Config) : Nat := c.mdlUnaryMore.val + 1

/-- `LBASE[s]` and `LEXTRA[s]` (44_blast_lz77.md R214). -/
def Config.lengthBase (c : Config) (s : Nat) : Nat := c.lbase.getD s 0
def Config.lengthExtra (c : Config) (s : Nat) : Nat := c.lextra.getD s 0

/-- `CMD[w]` and `FETCH[w]` of the tables for `S` (45_mmcmp.md R252). -/
def Config.mmCmd (c : Config) (S : Width) (w : Nat) : Nat :=
  match S with
  | .w8 => c.mmCmd8.getD w 0
  | .w16 => c.mmCmd16.getD w 0

def Config.mmFetch (c : Config) (S : Width) (w : Nat) : Nat :=
  match S with
  | .w8 => c.mmFetch8.getD w 0
  | .w16 => c.mmFetch16.getD w 0

/-- `E`: bits of the extended-value field (45_mmcmp.md R253). -/
def Config.mmExt (c : Config) : Width → Nat
  | .w8 => c.mmExt8
  | .w16 => c.mmExt16

/-- What an extended value is added to: `0xF8` or `0xFFF0` (45_mmcmp.md R253). -/
def Config.mmExtBase (c : Config) : Width → Nat
  | .w8 => c.mmExtBase8
  | .w16 => c.mmExtBase16

/-- The count of raw distance bits: 2 for a match of length 2, else `DICT` (44_blast_lz77.md R217). -/
def distBits (dict len : Nat) : Nat := if len = 2 then 2 else dict

/-- The length of a match: `LBASE[s]` + extra (44_blast_lz77.md R216). -/
def matchLength (c : Config) (sym extra : Nat) : Nat := c.lengthBase sym + extra

/-- The width an MMCMP escape names: `f + ((d − CMD[w]) << FETCH[w])` (45_mmcmp.md R255). -/
def escapeWidth (c : Config) (S : Width) (w d f : Nat) : Nat :=
  f + ((d - c.mmCmd S w) <<< c.mmFetch S w)

end Sys2Proof
end

