-- ==== Sys2Proof/Syntax.lean ====
section
/-! DEFINITION. The instructions of the block: one constructor for every row of spec/opcode_table.json, the 18 host
commands (30_encoding.md R92) and the 14 stream events (R99, R101, R102, R104, R106), and the
decoding context that says which of them a bit string can be (R108: "the same bits decode
differently in different state"). -/

namespace Sys2Proof

/-- The four Huffman tables `t` = 0 `LIT`, 1 `LEN`, 2 `DIST`, 3 `USER` (10_state.md R40). -/
inductive TableSel where
  | lit
  | len
  | dist
  | user
deriving DecidableEq, Repr

/-- The number the field `N` holds for a table (30_encoding.md R93). -/
def TableSel.index : TableSel → Nat
  | .lit => 0
  | .len => 1
  | .dist => 2
  | .user => 3

/-- One Huffman table of `HUF`: `COUNT[0..MAXBITS]`, `SYMBOL[0..]`, `NSYM`, `VALID` (10_state.md R40). A
list shorter than the array holds no value for the cells past its end. -/
@[ext] structure HufTable where
  count : List Nat
  symbol : List Byte
  nsym : Nat
  valid : Bool
deriving DecidableEq, Repr

/-- An instruction. Operands of commands other than `F215` and `N` are the argument registers
(30_encoding.md R93); the operands of a stream event are its fields, of fixed width where the format
fixes it and plain numbers where the width is the decoder's state. -/
inductive Instr where
  /-- `NOP` (30_encoding.md R95). -/
  | nop
  /-- `ITD8`, `ITD8.215` (41_it.md R141). -/
  | itd8 (f215 : Bool)
  /-- `ITD16`, `ITD16.215` (41_it.md R142). -/
  | itd16 (f215 : Bool)
  /-- `MDLD8` (42_mdl.md R171). -/
  | mdld8
  /-- `MDLD16` (42_mdl.md R172). -/
  | mdld16
  /-- `BLAST` (44_blast_lz77.md R211). -/
  | blast
  /-- `MMCMP` (45_mmcmp.md R240). -/
  | mmcmp
  /-- `BRINIT` (40_bitreader.md R129). -/
  | brinit
  /-- `RDBITS.IT n` (40_bitreader.md R130). -/
  | rdbitsIt (n : BitVec 6)
  /-- `RDBITS.MDL n` (40_bitreader.md R131). -/
  | rdbitsMdl (n : BitVec 6)
  /-- `RDBITS.PK n` (40_bitreader.md R132). -/
  | rdbitsPk (n : BitVec 6)
  /-- `BRSEED k` (40_bitreader.md R133). -/
  | brseed (k : BitVec 6)
  /-- `HUFCON t` (43_huffman.md R198). -/
  | hufcon (t : TableSel)
  /-- `HUFDEC t` (43_huffman.md R199). -/
  | hufdec (t : TableSel)
  /-- `WRESET` (44_blast_lz77.md R221). -/
  | wreset
  /-- `WPUT` (44_blast_lz77.md R222). -/
  | wput
  /-- `WCOPY` (44_blast_lz77.md R223). -/
  | wcopy
  /-- `WFLUSH` (44_blast_lz77.md R225). -/
  | wflush
  /-- `it.s`: a sample, its `WIDTH`-bit field (41_it.md R149). -/
  | itS (value : Nat)
  /-- `it.wl`: a width change in the low range, its `FB`-bit field (41_it.md R146). -/
  | itWl (field : Nat)
  /-- `it.wm`: a width change in the mid range, its `WIDTH`-bit field (41_it.md R147). -/
  | itWm (value : Nat)
  /-- `it.wt`: a width change at the maximum width, the `S` bits below the top bit (41_it.md R148). -/
  | itWt (low : Nat)
  /-- `mdl.s.short`: low byte (16-bit variant only), sign, 3-bit magnitude (42_mdl.md R175). -/
  | mdlShort (lo : Option Byte) (sign : Bool) (mag : BitVec 3)
  /-- `mdl.s.long`: low byte (16-bit variant only), sign, run steps, 4-bit remainder (42_mdl.md R176). -/
  | mdlLong (lo : Option Byte) (sign : Bool) (run : Nat) (remainder : BitVec 4)
  /-- `bl.lit`: the byte (44_blast_lz77.md R215). -/
  | blLit (b : Byte)
  /-- `bl.match`: `LEN` symbol, length extra bits, `DIST` symbol, distance extra bits
  (44_blast_lz77.md R216, R217). -/
  | blMatch (sym extra dsym dextra : Nat)
  /-- `bl.end` (44_blast_lz77.md R218). -/
  | blEnd
  /-- `mm.v`: a value field (45_mmcmp.md R254). -/
  | mmV (d : Nat)
  /-- `mm.w`: an escape field and its fetch bits, giving another width (45_mmcmp.md R255). -/
  | mmW (d f : Nat)
  /-- `mm.x`: an escape field and its fetch bits, giving the same width, then the extended field; when
  that is all ones the bit `t` = 0 follows (45_mmcmp.md R256). -/
  | mmX (d f x : Nat)
  /-- `mm.end`: as `mm.x` with the extended field all ones and `t` = 1 (45_mmcmp.md R257). -/
  | mmEnd (d f : Nat)
  /-- `hd.run`: a descriptor byte, `REP` and `LEN` (43_huffman.md R192, 30_encoding.md R102). -/
  | hdRun (rep len : BitVec 4)
deriving DecidableEq, Repr

/-- What the decoder's state says an instruction can be (30_encoding.md R90, R108): a command word, or an
event of one of the formats at a width. -/
inductive Ctx where
  /-- A 32-bit command word (R91). -/
  | command
  /-- An IT event at sample width `S` and `WIDTH` = `w` (R99). -/
  | it (S : Width) (w : Nat)
  /-- An MDL sample event (R101). -/
  | mdl (S : Width)
  /-- A Blast event with the header's `lit` and `dict` (R104). -/
  | blast (lit dict : Nat)
  /-- An MMCMP event of the tables for `S` at `NUMBITS` = `w` (R106). -/
  | mmcmp (S : Width) (w : Nat)
  /-- A Huffman descriptor byte (R102). -/
  | descriptor
deriving DecidableEq, Repr

end Sys2Proof
end

