-- ==== Sys2Proof/Machine/Huffman.lean ====
section
/-! DEFINITION. The canonical Huffman engine's tables (U4, 43_huffman.md): expansion of a descriptor, construction,
and the code words a table stands for. The bit-by-bit walk is in `Decode.lean`, where the bits are. -/

namespace Sys2Proof

/-- A table nothing has constructed: no cell of `COUNT` or `SYMBOL` holds a value, `VALID` = 0
(10_state.md R54, R55). -/
def HufTable.blank : HufTable := { count := [], symbol := [], nsym := 0, valid := false }

/-- The lengths one descriptor byte stands for: `REP` + 1 symbols of length `LEN`
(30_encoding.md R102). -/
def expandRun (c : Config) (rep len : BitVec 4) : List Nat :=
  List.replicate (rep.toNat + c.descCountBias) len.toNat

/-- `REP`, bits 7:4 of a descriptor byte (30_encoding.md R102). -/
def descRep (c : Config) (b : Byte) : BitVec 4 :=
  if c.descCountHigh then b.extractLsb' 4 4 else b.extractLsb' 0 4

/-- `LEN`, bits 3:0 of a descriptor byte (30_encoding.md R102). -/
def descLen (c : Config) (b : Byte) : BitVec 4 :=
  if c.descCountHigh then b.extractLsb' 0 4 else b.extractLsb' 4 4

/-- `expand`: the per-symbol length array of a descriptor (43_huffman.md R192). -/
def expand (c : Config) (desc : List Byte) : List Nat :=
  desc.flatMap fun b => expandRun c (descRep c b) (descLen c b)

/-- A malformed descriptor: more than 256 symbols, or a length above `MAXBITS` (43_huffman.md R193). -/
def malformed (c : Config) (lengths : List Nat) : Bool :=
  decide (lengths.length > 256) || lengths.any fun l => decide (l > c.maxBits)

/-- `COUNT[0..MAXBITS]`: how many symbols have each length (43_huffman.md R194). -/
def tally (c : Config) (lengths : List Nat) : List Nat :=
  (List.range (c.maxBits + 1)).map fun l => lengths.count l

/-- The running `left` of 43_huffman.md R194 over the counts of lengths 1, 2, ...: the number of codes left
unused, or the first negative value. -/
def kraftLeft : List Nat → Int → Int
  | [], left => left
  | n :: ns, left => if 2 * left - n < 0 then 2 * left - n else kraftLeft ns (2 * left - n)

/-- The symbols of one code length, in ascending order. -/
def symbolsOfLength (lengths : List Nat) (l : Nat) : List Nat :=
  (List.range lengths.length).filter fun s => lengths.getD s 0 == l

/-- "Symbols sorted by code length, stable within length" (43_huffman.md R190), lengths 1 to `MAXBITS`. -/
def sortedSymbols (c : Config) (lengths : List Nat) : List Nat :=
  (List.range c.maxBits).flatMap fun l => symbolsOfLength lengths (l + 1)

/-- Every symbol has length 0 (43_huffman.md R195 (a)). -/
def noCodes (lengths : List Nat) : Bool := lengths.count 0 == lengths.length

/-- The construct status (43_huffman.md R195): 0 for no codes or a complete code, negative for an
over-subscribed set, the number of unused codes for an incomplete one. -/
def constructStatus (c : Config) (lengths : List Nat) : Int :=
  if noCodes lengths then 0 else kraftLeft ((tally c lengths).drop 1) 1

/-- `construct` from the expanded lengths, over the table's earlier contents (43_huffman.md R194): an
over-subscribed set leaves `SYMBOL` alone and the table invalid, "no codes" leaves `SYMBOL` alone. DESIGN CHOICE (log 35):
of a malformed set, which R193 lets no descriptor but table 3's have (a static one has it only at changed parameters), a
length above `MAXBITS` is no code and a symbol's number is taken modulo 256. -/
def constructTable (c : Config) (old : HufTable) (lengths : List Nat) : HufTable :=
  if noCodes lengths then
    { old with count := tally c lengths, nsym := lengths.length, valid := true }
  else if constructStatus c lengths < 0 then
    { old with count := tally c lengths, nsym := lengths.length, valid := false }
  else
    let syms := (sortedSymbols c lengths).map (BitVec.ofNat 8)
    { count := tally c lengths
      symbol := syms ++ old.symbol.drop syms.length
      nsym := lengths.length
      valid := true }

/-- The static descriptors (43_huffman.md R196); table 3 has none. -/
def Config.staticDesc (c : Config) : TableSel → List Byte
  | .lit => c.litLen
  | .len => c.lenLen
  | .dist => c.distLen
  | .user => []

/-- The static tables as `construct` builds them from nothing (10_state.md R45). -/
def Config.staticTable (c : Config) (t : TableSel) : HufTable :=
  constructTable c HufTable.blank (expand c (c.staticDesc t))

/-- `COUNT[1..MAXBITS]` as `decode` reads it; a cell never written has its power-on contents. -/
def codeCounts (c : Config) (t : HufTable) : List Nat :=
  (List.range c.maxBits).map fun i => t.count.getD (i + 1) (Config.hufPowerOnCount (i + 1))

/-- `SYMBOL[i]`; a cell never written has its power-on contents. -/
def HufTable.symbolAt (t : HufTable) (i : Nat) : Byte := t.symbol.getD i (Config.hufPowerOnSymbol i)

/-- The code of the `pos`-th symbol of `SYMBOL`, by 43_huffman.md R191: its length and its code word, over the
counts from length `len` on with `first` the first code of that length. -/
def codeAt : List Nat → Nat → Nat → Nat → Option (Nat × Nat)
  | [], _, _, _ => none
  | n :: ns, pos, first, len =>
    if pos < n then some (len, first + pos) else codeAt ns (pos - n) ((first + n) * 2) (len + 1)

/-- The code of a symbol: its length and its code word (43_huffman.md R191). -/
def codeOf (c : Config) (t : HufTable) (sym : Nat) : Option (Nat × Nat) :=
  codeAt (codeCounts c t) (t.symbol.idxOf (BitVec.ofNat 8 sym)) 0 1

/-- A code word as it stands in the stream: most significant bit first, every bit inverted
(43_huffman.md R197, R201). -/
def codeBits (len code : Nat) : List Bool :=
  (List.range len).map fun i => !(code.testBit (len - 1 - i))

end Sys2Proof
end

