-- ==== Sys2Proof/WellFormed.lean ====
section
/-! DEFINITION. Which instructions a decoding context admits, with every field inside the range its encoding gives
it (30_encoding.md R96, R99, R101, R102, R104, R106). -/

namespace Sys2Proof

/-- An escape field of the right width with its fetch bits (45_mmcmp.md R253). -/
def isEscape (c : Config) (S : Width) (w d f : Nat) : Bool :=
  decide (d < 2 ^ (w + 1)) && decide (c.mmCmd S w ≤ d) && decide (f < 2 ^ c.mmFetch S w)

/-- The instruction is one the context decodes, each field inside its range. -/
def WellFormed (c : Config) : Ctx → Instr → Bool
  | .command, .nop => true
  | .command, .itd8 _ => true
  | .command, .itd16 _ => true
  | .command, .mdld8 => true
  | .command, .mdld16 => true
  | .command, .blast => true
  | .command, .mmcmp => true
  | .command, .brinit => true
  | .command, .rdbitsIt n => decide (n.toNat ≤ NMAX)
  | .command, .rdbitsMdl n => decide (n.toNat ≤ NMAX)
  | .command, .rdbitsPk n => decide (n.toNat ≤ NMAX)
  | .command, .brseed k => decide (k.toNat ≤ ACCW / 8)
  | .command, .hufcon _ => true
  | .command, .hufdec _ => true
  | .command, .wreset => true
  | .command, .wput => true
  | .command, .wcopy => true
  | .command, .wflush => true
  | .it S w, .itS v =>
    decide (1 ≤ w) && decide (w ≤ S.itMax) && decide (v < 2 ^ w) &&
      (if w ≤ 6 then decide (v ≠ 2 ^ (w - 1))
       else if w < S.itMax then
        !c.inItWindow S w v
       else decide (v < 2 ^ (w - 1)))
  | .it S w, .itWl f => decide (1 ≤ w) && decide (w ≤ 6) && decide (f < 2 ^ S.itField)
  | .it S w, .itWm v =>
    decide (7 ≤ w) && decide (w < S.itMax) && decide (v < 2 ^ w) && c.inItWindow S w v
  | .it S w, .itWt n => decide (w = S.itMax) && decide (n < 2 ^ S.bits)
  | .mdl S, .mdlShort lo _ _ => lo.isSome == (S == .w16)
  | .mdl S, .mdlLong lo _ _ _ => lo.isSome == (S == .w16)
  | .blast lit _, .blLit b =>
    lit != 1 || (codeOf c (c.staticTable .lit) b.toNat).isSome
  | .blast _ dict, .blMatch sym extra dsym dextra =>
    (codeOf c (c.staticTable .len) sym).isSome && decide (sym < 256) &&
      decide (extra < 2 ^ c.lengthExtra sym) && decide (matchLength c sym extra ≠ 519) &&
      (codeOf c (c.staticTable .dist) dsym).isSome && decide (dsym < 256) &&
      decide (dextra < 2 ^ distBits dict (matchLength c sym extra))
  | .blast _ _, .blEnd => true
  | .mmcmp S w, .mmV d => decide (d < 2 ^ (w + 1)) && decide (d < c.mmCmd S w)
  | .mmcmp S w, .mmW d f => isEscape c S w d f && decide (escapeWidth c S w d f ≠ w)
  | .mmcmp S w, .mmX d f x =>
    isEscape c S w d f && decide (escapeWidth c S w d f = w) && decide (x < 2 ^ c.mmExt S)
  | .mmcmp S w, .mmEnd d f => isEscape c S w d f && decide (escapeWidth c S w d f = w)
  | .descriptor, .hdRun _ _ => true
  | _, _ => false

end Sys2Proof
end

