-- ==== Sys2Proof/Decode.lean ====
section
/-! DEFINITION. Decoding and encoding. The stream decoders are written once over an abstract reader (`rd n s`: the
next `n` bits from the reader state `s`), so that the machine runs them over the BitReader and the
round trip is stated over a list of bits. The command decoder rejects an illegal word by name
(30_encoding.md R96). The encoder is written from the same tables (30_encoding.md R91 to R106). -/

namespace Sys2Proof

/-! ### Bit strings -/

/-- The number a bit string stands for, first bit least significant (00_scope.md R13). -/
def bitsNat : List Bool → Nat
  | [] => 0
  | b :: bs => b.toNat + 2 * bitsNat bs

/-- The low `n` bits of a number, least significant first. -/
def natBits (n v : Nat) : List Bool := (List.range n).map v.testBit

/-! ### The abstract reader -/

/-- Why a command word is illegal (30_encoding.md R96). -/
inductive Illegal where
  /-- `OP` is a reserved value. -/
  | reservedOp
  /-- A reserved bit is 1. -/
  | reservedBit
  /-- `F215` = 1 with `OP` not `ITD8` or `ITD16`. -/
  | f215NotTaken
  /-- `N` ≠ 0 for an operation that takes no `N`. -/
  | nNotTaken
  /-- `N` above the operation's bound. -/
  | nTooLarge
deriving DecidableEq, Repr

/-- What one read gives: a value, or word that a bit beyond the range was consumed. -/
inductive Got (σ : Type) where
  | got (v : Nat) (s : σ)
  | starved (s : σ)
deriving DecidableEq, Repr

/-- What decoding one event gives. Every outcome carries the reader as the reads left it. -/
inductive Decoded (σ : Type) where
  /-- The event. -/
  | event (i : Instr) (s : σ)
  /-- The reader starved inside the event (40_bitreader.md R128). -/
  | starved (s : σ)
  /-- No Huffman code matched within `MAXBITS` bits (43_huffman.md R197). -/
  | noCode (s : σ)
  /-- The IT width is 0 or above `WMAX` (41_it.md R150). -/
  | badWidth (s : σ)
  /-- The command word is illegal (30_encoding.md R96). -/
  | illegal (e : Illegal) (s : σ)
deriving DecidableEq, Repr

/-- A read followed by what is done with its value; a starved read abandons the event. -/
def Got.bind {σ : Type} (g : Got σ) (k : Nat → σ → Decoded σ) : Decoded σ :=
  match g with
  | .got v s => k v s
  | .starved s => .starved s

/-- What a Huffman walk gives. -/
inductive Walked (σ : Type) where
  | sym (v : Nat) (s : σ)
  | starved (s : σ)
  | noCode (s : σ)
deriving DecidableEq, Repr

/-- A walk followed by what is done with its symbol. -/
def Walked.bind {σ : Type} (g : Walked σ) (k : Nat → σ → Decoded σ) : Decoded σ :=
  match g with
  | .sym v s => k v s
  | .starved s => .starved s
  | .noCode s => .noCode s

/-! ### The Huffman walk -/

/-- The loop of `decode` (43_huffman.md R197) over the counts of the code lengths left. -/
def huffWalk {σ : Type} (rd : Nat → σ → Got σ) (t : HufTable) :
    List Nat → Nat → Nat → Nat → σ → Walked σ
  | [], _, _, _, s => .noCode s
  | n :: ns, code, first, index, s =>
    match rd 1 s with
    | .starved s => .starved s
    | .got b s =>
      let code := code ||| (b ^^^ 1)
      if code < first + n then .sym (t.symbolAt (index + (code - first))).toNat s
      else huffWalk rd t ns (code <<< 1) ((first + n) <<< 1) (index + n) s

/-- `decode(t)` (43_huffman.md R197). -/
def huffDecode {σ : Type} (c : Config) (rd : Nat → σ → Got σ) (t : HufTable) (s : σ) : Walked σ :=
  huffWalk rd t (codeCounts c t) 0 0 0 s

/-! ### The stream decoders -/

/-- An IT event: the reads and the choice of `it_step` (41_it.md R145, R146). -/
def decodeIt {σ : Type} (c : Config) (rd : Nat → σ → Got σ) (S : Width) (w : Nat) (s : σ) : Decoded σ :=
  if w = 0 ∨ S.itMax < w then .badWidth s
  else (rd w s).bind fun value s =>
    if w ≤ 6 then
      if value = 1 <<< (w - 1) then (rd S.itField s).bind fun field s => .event (.itWl field) s
      else .event (.itS value) s
    else if w < S.itMax then
      if c.inItWindow S w value then .event (.itWm value) s
      else .event (.itS value) s
    else if value.testBit (w - 1) then .event (.itWt (value % 2 ^ (w - 1))) s
    else .event (.itS value) s

/-- The rest of a short MDL event, and its trailing low byte when `late` (42_mdl.md R175). -/
def mdlFinishEvent {σ : Type} (rd : Nat → σ → Got σ) (late : Bool) (lo : Option Byte)
    (mk : Option Byte → Instr) (s : σ) : Decoded σ :=
  if late then (rd 8 s).bind fun v s => .event (mk (some (BitVec.ofNat 8 v))) s
  else .event (mk lo) s

/-- The unary run and remainder of the long form (42_mdl.md R176): a step whose bits are the number `MDL_UNARY_STOP` ends the
run, any other goes on with it; by default a step is one bit. `fuel` bounds the turns: a reader
starves before it runs out when `fuel` exceeds the bits it can give. -/
def mdlRun {σ : Type} (c : Config) (rd : Nat → σ → Got σ) (late : Bool) (lo : Option Byte) (sign : Bool) :
    Nat → Nat → σ → Decoded σ
  | 0, _, s => .starved s
  | fuel + 1, k, s =>
    (rd c.mdlStepBits s).bind fun b s =>
      if b = c.mdlUnaryStop.toNat then
        (rd 4 s).bind fun r s => mdlFinishEvent rd late lo (.mdlLong · sign k (BitVec.ofNat 4 r)) s
      else mdlRun c rd late lo sign fuel (k + 1) s

/-- An MDL event from its sign bit on (42_mdl.md R175). -/
def mdlBody {σ : Type} (c : Config) (rd : Nat → σ → Got σ) (fuel : Nat) (late : Bool) (lo : Option Byte)
    (s : σ) : Decoded σ :=
  (rd 1 s).bind fun sign s =>
    (rd 1 s).bind fun short s =>
      if short = 1 then
        (rd 3 s).bind fun m s =>
          mdlFinishEvent rd late lo (.mdlShort · (decide (sign = 1)) (BitVec.ofNat 3 m)) s
      else mdlRun c rd late lo (decide (sign = 1)) fuel 0 s

/-- An MDL sample event (30_encoding.md R101, 42_mdl.md R175). -/
def decodeMdl {σ : Type} (c : Config) (rd : Nat → σ → Got σ) (fuel : Nat) (S : Width) (s : σ) : Decoded σ :=
  match S with
  | .w8 => mdlBody c rd fuel false none s
  | .w16 =>
    if c.mdl16LowFirst then
      (rd 8 s).bind fun v s => mdlBody c rd fuel false (some (BitVec.ofNat 8 v)) s
    else mdlBody c rd fuel true none s

/-- The fields of a match after its selector (44_blast_lz77.md R213, R216, R217). -/
def decodeMatch {σ : Type} (c : Config) (rd : Nat → σ → Got σ) (dict : Nat) (len dist : HufTable) (s : σ) :
    Decoded σ :=
  (huffDecode c rd len s).bind fun sym s =>
    (rd (c.lengthExtra sym) s).bind fun extra s =>
      if matchLength c sym extra = 519 then .event .blEnd s
      else (huffDecode c rd dist s).bind fun dsym s =>
        (rd (distBits dict (matchLength c sym extra)) s).bind fun dextra s =>
          .event (.blMatch sym extra dsym dextra) s

/-- A Blast event (30_encoding.md R104, 44_blast_lz77.md R213, R215). -/
def decodeBlast {σ : Type} (c : Config) (rd : Nat → σ → Got σ) (lit dict : Nat)
    (litT lenT distT : HufTable) (s : σ) : Decoded σ :=
  (rd 1 s).bind fun sel s =>
    if sel = 0 then
      if lit = 1 then (huffDecode c rd litT s).bind fun b s => .event (.blLit (BitVec.ofNat 8 b)) s
      else (rd 8 s).bind fun b s => .event (.blLit (BitVec.ofNat 8 b)) s
    else decodeMatch c rd dict lenT distT s

/-- An MMCMP event (30_encoding.md R106, 45_mmcmp.md R253). -/
def decodeMm {σ : Type} (c : Config) (rd : Nat → σ → Got σ) (S : Width) (w : Nat) (s : σ) : Decoded σ :=
  (rd (w + 1) s).bind fun d s =>
    if d < c.mmCmd S w then .event (.mmV d) s
    else (rd (c.mmFetch S w) s).bind fun f s =>
      if escapeWidth c S w d f ≠ w then .event (.mmW d f) s
      else (rd (c.mmExt S) s).bind fun x s =>
        if x = 2 ^ c.mmExt S - 1 then
          (rd 1 s).bind fun t s =>
            if decide (t = 1) = c.mmEndBit then .event (.mmEnd d f) s else .event (.mmX d f x) s
        else .event (.mmX d f x) s

/-- A Huffman descriptor byte (30_encoding.md R102); every byte is one. -/
def decodeDescriptor (c : Config) (b : Byte) : Instr := .hdRun (descRep c b) (descLen c b)

/-! ### The command decoder -/

/-- `OP`, bits 4:0 (30_encoding.md R91). -/
def cmdOp (w : Word) : Nat := (w.extractLsb' 0 5).toNat

/-- `F215`, bit 8. -/
def cmdF215 (w : Word) : Bool := w.getLsbD 8

/-- `N`, bits 21:16. -/
def cmdN (w : Word) : BitVec 6 := w.extractLsb' 16 6

/-- Bits 7:5, 15:9 and 31:22 are 0. -/
def cmdReservedClear (w : Word) : Bool :=
  decide (w.extractLsb' 5 3 = 0) && decide (w.extractLsb' 9 7 = 0) && decide (w.extractLsb' 22 10 = 0)

/-- A command that takes neither `F215` nor `N`. -/
def plainCmd (w : Word) (i : Instr) : Except Illegal Instr :=
  if cmdF215 w then .error .f215NotTaken
  else if cmdN w ≠ 0 then .error .nNotTaken
  else .ok i

/-- A command that takes `F215` and no `N`. -/
def f215Cmd (w : Word) (i : Bool → Instr) : Except Illegal Instr :=
  if cmdN w ≠ 0 then .error .nNotTaken else .ok (i (cmdF215 w))

/-- A command that takes an `N` of at most `bound`. -/
def nCmd (w : Word) (bound : Nat) (i : BitVec 6 → Instr) : Except Illegal Instr :=
  if cmdF215 w then .error .f215NotTaken
  else if (cmdN w).toNat > bound then .error .nTooLarge
  else .ok (i (cmdN w))

/-- The table `N` selects (30_encoding.md R93). -/
def tableOf (n : BitVec 6) : TableSel :=
  if n = 0 then .lit else if n = 1 then .len else if n = 2 then .dist else .user

/-- The instruction of a command word, or why it is illegal (30_encoding.md R91, R92, R96). -/
def decodeCommand (w : Word) : Except Illegal Instr :=
  if cmdReservedClear w then
    match cmdOp w with
    | 0x00 => plainCmd w .nop
    | 0x01 => f215Cmd w .itd8
    | 0x02 => f215Cmd w .itd16
    | 0x03 => plainCmd w .mdld8
    | 0x04 => plainCmd w .mdld16
    | 0x05 => plainCmd w .blast
    | 0x06 => plainCmd w .mmcmp
    | 0x10 => plainCmd w .brinit
    | 0x11 => nCmd w NMAX .rdbitsIt
    | 0x12 => nCmd w NMAX .rdbitsMdl
    | 0x13 => nCmd w NMAX .rdbitsPk
    | 0x14 => nCmd w (ACCW / 8) .brseed
    | 0x18 => nCmd w 3 fun n => .hufcon (tableOf n)
    | 0x19 => nCmd w 3 fun n => .hufdec (tableOf n)
    | 0x1C => plainCmd w .wreset
    | 0x1D => plainCmd w .wput
    | 0x1E => plainCmd w .wcopy
    | 0x1F => plainCmd w .wflush
    | _ => .error .reservedOp
  else .error .reservedBit

/-! ### Decoding a list of bits -/

/-- The reader over a list of bits. -/
def listRead (n : Nat) (bs : List Bool) : Got (List Bool) :=
  if n ≤ bs.length then .got (bitsNat (bs.take n)) (bs.drop n) else .starved bs

/-- The instruction a list of bits starts with in a context, with the bits left over; total on any
bits. -/
def decodeBits (c : Config) (x : Ctx) (bs : List Bool) : Decoded (List Bool) :=
  match x with
  | .command =>
    (listRead 32 bs).bind fun w s =>
      match decodeCommand (BitVec.ofNat 32 w) with
      | .ok i => .event i s
      | .error e => .illegal e s
  | .it S w => decodeIt c listRead S w bs
  | .mdl S => decodeMdl c listRead (bs.length + 1) S bs
  | .blast lit dict =>
    decodeBlast c listRead lit dict (c.staticTable .lit) (c.staticTable .len) (c.staticTable .dist) bs
  | .mmcmp S w => decodeMm c listRead S w bs
  | .descriptor => (listRead 8 bs).bind fun b s => .event (decodeDescriptor c (BitVec.ofNat 8 b)) s

/-! ### The encoder -/

/-- The fields of a command word (30_encoding.md R91). -/
def cmdWord (op : Nat) (f215 : Bool) (n : BitVec 6) : Word :=
  BitVec.ofNat 32 op ||| ((BitVec.ofBool f215).setWidth 32 <<< 8) ||| (n.setWidth 32 <<< 16)

/-- The word of a command (30_encoding.md R92); 0 for a stream event, which has none. -/
def encodeCommand : Instr → Word
  | .nop => cmdWord 0x00 false 0
  | .itd8 f => cmdWord 0x01 f 0
  | .itd16 f => cmdWord 0x02 f 0
  | .mdld8 => cmdWord 0x03 false 0
  | .mdld16 => cmdWord 0x04 false 0
  | .blast => cmdWord 0x05 false 0
  | .mmcmp => cmdWord 0x06 false 0
  | .brinit => cmdWord 0x10 false 0
  | .rdbitsIt n => cmdWord 0x11 false n
  | .rdbitsMdl n => cmdWord 0x12 false n
  | .rdbitsPk n => cmdWord 0x13 false n
  | .brseed k => cmdWord 0x14 false k
  | .hufcon t => cmdWord 0x18 false (BitVec.ofNat 6 t.index)
  | .hufdec t => cmdWord 0x19 false (BitVec.ofNat 6 t.index)
  | .wreset => cmdWord 0x1C false 0
  | .wput => cmdWord 0x1D false 0
  | .wcopy => cmdWord 0x1E false 0
  | .wflush => cmdWord 0x1F false 0
  | .itS _ => 0
  | .itWl _ => 0
  | .itWm _ => 0
  | .itWt _ => 0
  | .mdlShort _ _ _ => 0
  | .mdlLong _ _ _ _ => 0
  | .blLit _ => 0
  | .blMatch _ _ _ _ => 0
  | .blEnd => 0
  | .mmV _ => 0
  | .mmW _ _ => 0
  | .mmX _ _ _ => 0
  | .mmEnd _ _ => 0
  | .hdRun _ _ => 0

/-- A symbol's code as it stands in the stream; no bits for a symbol without a code. -/
def symbolBits (c : Config) (t : HufTable) (sym : Nat) : List Bool :=
  match codeOf c t sym with
  | some (len, code) => codeBits len code
  | none => []

/-- The bits of the low byte of a 16-bit MDL sample. -/
def lowBits : Option Byte → List Bool
  | some b => natBits 8 b.toNat
  | none => []

/-- An MDL event with its low byte first or last (30_encoding.md R101). -/
def mdlBits (c : Config) (lo : Option Byte) (body : List Bool) : List Bool :=
  if c.mdl16LowFirst then lowBits lo ++ body else body ++ lowBits lo

/-- The bits of an instruction in a context, in stream order (30_encoding.md R91, R99, R101, R102, R104,
R106); no bits for an instruction the context does not hold. -/
def encode (c : Config) : Ctx → Instr → List Bool
  | .command, i => natBits 32 (encodeCommand i).toNat
  | .it _ w, .itS v => natBits w v
  | .it S w, .itWl f => natBits w (1 <<< (w - 1)) ++ natBits S.itField f
  | .it _ w, .itWm v => natBits w v
  | .it S w, .itWt n => natBits w (2 ^ S.bits + n)
  | .mdl _, .mdlShort lo sign mag => mdlBits c lo ([sign, true] ++ natBits 3 mag.toNat)
  | .mdl _, .mdlLong lo sign run r =>
    mdlBits c lo ([sign, false] ++ (List.replicate run (natBits c.mdlStepBits (!c.mdlUnaryStop).toNat)).flatten ++
      natBits c.mdlStepBits c.mdlUnaryStop.toNat ++ natBits 4 r.toNat)
  | .blast lit _, .blLit b =>
    false :: (if lit = 1 then symbolBits c (c.staticTable .lit) b.toNat else natBits 8 b.toNat)
  | .blast _ dict, .blMatch sym extra dsym dextra =>
    true :: (symbolBits c (c.staticTable .len) sym ++ natBits (c.lengthExtra sym) extra ++
      symbolBits c (c.staticTable .dist) dsym ++
      natBits (distBits dict (matchLength c sym extra)) dextra)
  | .blast _ _, .blEnd =>
    true :: (symbolBits c (c.staticTable .len) 15 ++ natBits (c.lengthExtra 15) 255)
  | .mmcmp _ w, .mmV d => natBits (w + 1) d
  | .mmcmp S w, .mmW d f => natBits (w + 1) d ++ natBits (c.mmFetch S w) f
  | .mmcmp S w, .mmX d f x =>
    natBits (w + 1) d ++ natBits (c.mmFetch S w) f ++ natBits (c.mmExt S) x ++
      (if x = 2 ^ c.mmExt S - 1 then [!c.mmEndBit] else [])
  | .mmcmp S w, .mmEnd d f =>
    natBits (w + 1) d ++ natBits (c.mmFetch S w) f ++ natBits (c.mmExt S) (2 ^ c.mmExt S - 1) ++ [c.mmEndBit]
  | .descriptor, .hdRun rep len =>
    if c.descCountHigh then natBits 4 len.toNat ++ natBits 4 rep.toNat
    else natBits 4 rep.toNat ++ natBits 4 len.toNat
  | _, _ => []

/-! ### The notation for streams (30_encoding.md R109, R110) -/

/-- `it.w n` at width `w`: whichever width-change event the current width calls for (30_encoding.md R110). -/
def asmWidthChange (c : Config) (S : Width) (w n : Nat) : Instr :=
  let new := if n < w then n else n - 1
  if w ≤ 6 then .itWl (new - c.itLowBias)
  else if w < S.itMax then .itWm (c.itBorder S w + new)
  else .itWt (n - c.itTopBias)

/-- `mdl.s ±m`: the short form when `m` < 8, else the long form (30_encoding.md R110). -/
def asmMdl (c : Config) (lo : Option Byte) (sign : Bool) (m : Nat) : Instr :=
  if m < 8 then .mdlShort lo sign (BitVec.ofNat 3 m)
  else .mdlLong lo sign ((m - c.mdlLongBase) / 16) (BitVec.ofNat 4 ((m - c.mdlLongBase) % 16))

/-! ### The table's numbering -/

/-- The bits of a table word of an event row in stream order: the table writes an event's encoding
"first bit first", so read as one number its first bit is the highest. -/
def tableBits (nbits w : Nat) : List Bool := (natBits nbits w).reverse

/-- The context a table word is read in: 32 bits are a command word; the two event rows the table gives
bits for are `bl.end` (16 bits, read with raw literals and `dict` = 4) and `mm.w` (8 bits, read with the
16-bit tables at `NUMBITS` = 3, as the row says). -/
def tableCtx (nbits : Nat) : Ctx :=
  if nbits ≤ 8 then .mmcmp .w16 3 else if nbits ≤ 16 then .blast 0 4 else .command

/-- The bits of a table word as the decoder meets them, followed by zeros. -/
def tableStream (nbits w : Nat) : List Bool :=
  (if nbits ≤ 16 then tableBits nbits w else natBits 32 w) ++ List.replicate 64 false

/-- The instruction the decoder reads from a table word (its bits numbered as spec/opcode_table.json
numbers them), every bit above it 0. -/
def decodeTableWord (nbits w : Nat) : Option Instr :=
  match decodeBits Config.default (tableCtx nbits) (tableStream nbits w) with
  | .event i _ => some i
  | .starved _ => none
  | .noCode _ => none
  | .badWidth _ => none
  | .illegal _ _ => none

end Sys2Proof
end

