-- ==== Sys2Proof/Machine/State.lean ====
section
/-! DEFINITION. The state of the block as plain data (10_state.md), with the model's own fields marked, the reasons a
step can stop, and the state after power-on reset (10_state.md R54, 70_reset_and_hazards.md R310,
R311). -/

namespace Sys2Proof.Machine

open Sys2Proof

/-! ### Spaces -/

/-- A sparse memory of cells of `w` bits: pairs of an address and a value, addresses strictly rising. An
address that is not listed holds no value, so there is no entry to remove and equal memories are
equal lists. `Memory 8` is a list of `Host.Cell`. -/
abbrev Memory (w : Nat) := List (Nat × BitVec w)

/-- `SRC` and `SRC_LEN` (20_memory.md R60, R61). -/
@[ext] structure Source where
  bytes : Memory 8
  len : Nat
deriving DecidableEq, Repr

/-! ### Registers -/

/-- The host interface registers (10_state.md R22 to R26). `BUSY` (R27) is `State.busy`. -/
@[ext] structure HostRegs where
  /-- `CMD`: the word of the last command the host started (a refused word changes no register, 30_encoding.md R96,
  60_exceptions.md R289); reads as 0 on the host port. -/
  cmd : Word
  /-- `ARG[0]` to `ARG[3]`. -/
  arg0 : Word
  arg1 : Word
  arg2 : Word
  arg3 : Word
  /-- `STATUS`. -/
  status : Word
  /-- `CONSUMED`. -/
  consumed : Word
  /-- `RESULT`. -/
  result : Word
deriving DecidableEq, Repr

/-- The BitReader registers and the source cursor (10_state.md R28 to R34, R56). -/
@[ext] structure Reader where
  /-- `SPOS`. -/
  spos : Nat
  /-- `ACC`. -/
  acc : Acc
  /-- `CNT`. -/
  cnt : Nat
  /-- `REAL`. -/
  real : Nat
  /-- `STARVED`. -/
  starved : Bool
  /-- `BRLIM`. -/
  brlim : Nat
  /-- `SEEDLV`. -/
  seedlv : Nat
  /-- The model's own: how many phantom bytes have been drawn (40_bitreader.md R126). -/
  draws : Nat
deriving DecidableEq, Repr

/-- The IT decoder registers (10_state.md R35 to R37). -/
@[ext] structure ItRegs where
  /-- `WIDTH`. -/
  width : Nat
  /-- `D1`. -/
  d1 : BitVec 16
  /-- `D2`. -/
  d2 : BitVec 16
  /-- `REM`. -/
  rem : Nat
  /-- `BLKLEN`. -/
  blklen : Nat
  /-- `BLKPOS`. -/
  blkpos : Nat
  /-- `BLKEND`. -/
  blkend : Nat
deriving DecidableEq, Repr

/-- The MDL decoder registers (10_state.md R38, R39). -/
@[ext] structure MdlRegs where
  /-- `DLT`. -/
  dlt : Byte
  /-- `MSTART`. -/
  mstart : Nat
  /-- `PLEN`. -/
  plen : Nat
  /-- `MLO`. -/
  mlo : Byte
  /-- `MHI`. -/
  mhi : Byte
  /-- `MSIGN`. -/
  msign : Bool
deriving DecidableEq, Repr

/-- The Huffman table memory `HUF` (10_state.md R40). -/
@[ext] structure HufMem where
  lit : HufTable
  len : HufTable
  dist : HufTable
  user : HufTable
deriving DecidableEq, Repr

/-- The sliding window: `WIN`, `WNEXT`, `WFIRST` (10_state.md R42, R43, R50). `WNEXT` is 4096 only inside
a step. -/
@[ext] structure Window where
  cells : Memory 8
  next : Fin WIN_SIZE
  first : Bool
deriving DecidableEq, Repr

/-- The Blast registers: `LIT`, `DICT`, `INBUF`, `INLEFT` (10_state.md R41, R44). -/
@[ext] structure BlastRegs where
  lit : Nat
  dict : Nat
  inbuf : List Byte
  inleft : Nat
deriving DecidableEq, Repr

/-- The MMCMP registers (10_state.md R46 to R48). -/
@[ext] structure MmRegs where
  /-- `NUMBITS`. -/
  numbits : Nat
  /-- `OLDVAL`. -/
  oldval : BitVec 16
  /-- `SUBK`. -/
  subk : Nat
  /-- `SUBPOS`. -/
  subpos : Nat
  /-- `MM_NBLK`. -/
  nblk : Nat
  /-- `MM_FSIZE`. -/
  fsize : Nat
  /-- `MM_BTAB`. -/
  btab : Nat
  /-- `MB_UNPK`. -/
  unpk : Nat
  /-- `MB_PK`. -/
  pk : Nat
  /-- `MB_XOR`. -/
  xorChk : Nat
  /-- `MB_NSUB`. -/
  nsub : Nat
  /-- `MB_FLAGS`. -/
  flags : BitVec 16
  /-- `MB_TT`. -/
  tt : Nat
  /-- `MB_NBITS`. -/
  nbits : Nat
  /-- `MB_PAY`. -/
  pay : Nat
deriving DecidableEq, Repr

/-- `OUT` and `OUT_VALID` (10_state.md R49, R51). A cell below `len` that is not listed holds `OUT_FILL`;
`epoch`, the model's own, counts the allocations. -/
@[ext] structure OutBuf where
  len : Nat
  cells : Memory 8
  valid : Bool
  epoch : Nat
deriving DecidableEq, Repr

/-- The model's own: the command in progress and where in its pseudocode the block stands, with the
pseudocode's locals (`start`, `n_out`, `s0`, `n_sink`, the block index, the block header's offset). -/
inductive Phase where
  /-- No command in progress. -/
  | idle
  /-- The host has written an acceptable command to `CMD` and the block is about to take it: the command has started
  (10_state.md R22, R27). -/
  | issued
  /-- `it_decode`, at the test of its outer loop (41_it.md R141). -/
  | itTop (S : Width) (f215 : Bool) (start nOut : Nat)
  /-- `it_decode`, at the test of its inner loop. -/
  | itBlock (S : Width) (f215 : Bool) (start nOut : Nat)
  /-- `mdl_decode`, at the test of its sample loop (42_mdl.md R171). -/
  | mdl (S : Width) (nOut : Nat)
  /-- `BLAST`, before an event (44_blast_lz77.md R211). -/
  | blast (s0 nSink : Nat)
  /-- `MMCMP`, before block `b` (45_mmcmp.md R240). -/
  | mmTop (s0 b : Nat)
  /-- `MMCMP`, in the compressed block `b` whose header is at `hdr` (45_mmcmp.md R251). -/
  | mmComp (S : Width) (s0 b hdr : Nat)
  /-- `HUFCON 3`, `left` descriptor bytes of `n` still to expand (43_huffman.md R198, R192). -/
  | hufcon (n left : Nat) (lengths : List Nat)
deriving DecidableEq, Repr

/-- The state of the block. -/
@[ext]
structure State where
  /-- The model's own: the parameters of 00_scope.md R10, which no step changes. -/
  cfg : Config
  host : HostRegs
  src : Source
  rd : Reader
  it : ItRegs
  /-- `DPOS`, shared by the IT and MDL decoders (10_state.md R37, R39). -/
  dpos : Nat
  mdl : MdlRegs
  huf : HufMem
  win : Window
  blast : BlastRegs
  mm : MmRegs
  out : OutBuf
  /-- `DST`: element `i` is one sample, an 8-bit one with its upper 8 bits 0 (20_memory.md R62). -/
  dst : Memory 16
  /-- `DST_CAP` (20_memory.md R60). -/
  dstCap : Nat
  /-- `SINK`, in the order appended (20_memory.md R63). -/
  sink : List Byte
  phase : Phase
deriving DecidableEq, Repr

/-- `BUSY` (10_state.md R27): 1 from the write of `CMD` that starts a command to the command's end. -/
def State.busy (s : State) : Bool := !(s.phase == .idle)

/-! ### Outcomes -/

/-- Why a step stops with a fault. No run of the block reaches one: they stand for states no rule of the
spec speaks of, and are safe (the model stops where the spec says nothing). -/
inductive Fault where
  /-- Raised by the meaning of a stream event when the command in progress is not one that decodes it
  (30_encoding.md R90: an event is found by the loop of its command). Safe. -/
  | eventOutsideCommand
  /-- Raised by a step that would read `SRC` at or beyond `SRC_LEN` (20_memory.md R72). Safe. -/
  | sourceBounds
  /-- Raised by an event that would write `DST` at or beyond `DST_CAP` (20_memory.md R72). Safe. -/
  | destinationBounds
  /-- Raised by an event that would write `OUT` at or beyond its length (20_memory.md R72). Safe. -/
  | outputBounds
deriving DecidableEq, Repr

/-- Why a step is refused a meaning. The block's own refusals (60_exceptions.md R289) are next states. -/
inductive Refusal where
  /-- Raised by an arm of `exec` that has no meaning yet; no arm is such. Safe. -/
  | notModelled (mnemonic : String)
deriving DecidableEq, Repr

/-- The outcome of one step of this machine. -/
abbrev Result := Host.Outcome State Fault Refusal

/-- Every status code of 60_exceptions.md R281. -/
inductive StatusCode where
  | ok
  | stopTruncated
  | errHdrLit
  | errHdrDict
  | errDist
  | errOversub
  | errStarved
  | errWidth
  | errHeader
  | errCapacity
  | errNoCode
  | errBounds
  | errIllegalCmd
deriving DecidableEq, Repr

/-- A piece of a command's pseudocode that may `raise Stop(code)` (60_exceptions.md R290). -/
inductive Run where
  | on (s : State)
  | stop (code : StatusCode) (s : State)
deriving DecidableEq, Repr

/-- What the block does next: what `fetch` of Machine/Fetch.lean answers. -/
inductive Fetched where
  /-- Nothing: the block is idle. -/
  | rest
  /-- The command word is illegal; the state has taken it. -/
  | illegal (e : Illegal) (s : State)
  /-- The next instruction; the state has moved past it. -/
  | instr (i : Instr) (s : State)
  /-- A step of the sequencer's own: a block's start or end, the end of the command. -/
  | control (s : State)
  /-- The step would break a bound. -/
  | fault (r : Fault)
deriving DecidableEq, Repr

/-! ### Reset -/

/-- The machine right after power-on reset (10_state.md R54, 70_reset_and_hazards.md R310, R311). -/
def State.reset : State where
  cfg := Config.default
  host :=
    { cmd := 0, arg0 := 0, arg1 := 0, arg2 := 0, arg3 := 0, status := 0
      consumed := 0, result := 0 }
  src := { bytes := [], len := 0 }
  rd := { spos := 0, acc := 0, cnt := 0, real := 0, starved := false, brlim := 0, seedlv := 0, draws := 0 }
  it := { width := 0, d1 := 0, d2 := 0, rem := 0, blklen := 0, blkpos := 0, blkend := 0 }
  dpos := 0
  mdl := { dlt := 0, mstart := 0, plen := 0, mlo := 0, mhi := 0, msign := false }
  huf := { lit := HufTable.blank, len := HufTable.blank, dist := HufTable.blank, user := HufTable.blank }
  win := { cells := [], next := 0, first := true }
  blast := { lit := 0, dict := 0, inbuf := [], inleft := 0 }
  mm :=
    { numbits := 0, oldval := 0, subk := 0, subpos := 0, nblk := 0, fsize := 0, btab := 0, unpk := 0
      pk := 0, xorChk := 0, nsub := 0, flags := 0, tt := 0, nbits := 0, pay := 0 }
  out := { len := 0, cells := [], valid := false, epoch := 0 }
  dst := []
  dstCap := 0
  sink := []
  phase := .idle

end Sys2Proof.Machine
end

