-- ==== Sys2Proof/Machine/Flags.lean ====
section
/-! DEFINITION. The one-bit state of the block (10_state.md R53): there are no condition codes; `STARVED`, `WFIRST`,
`HUF[t].VALID` and `OUT_VALID` are written here and nowhere else (`BUSY` is the view `State.busy`). -/

namespace Sys2Proof.Machine

open Sys2Proof

/-- What consuming `n` bits does to `STARVED` and `REAL` (40_bitreader.md R123, R127): consuming a bit that is
not real sets `STARVED`, which stays set. -/
def Reader.noteConsumed (r : Reader) (n : Nat) : Reader :=
  if n > r.real then { r with starved := true, real := 0 } else { r with real := r.real - n }

/-- `WFIRST` <- 1 with the cursor at 0: a window reset (10_state.md R43). `WIN` keeps its contents. -/
def Window.reset (w : Window) : Window := { w with next := 0, first := true }

/-- `WFIRST` <- 0 with the cursor back at 0: a fill (44_blast_lz77.md R224). -/
def Window.filled (w : Window) : Window := { w with next := 0, first := false }

/-- `OUT_VALID` <- 0 with `OUT` empty (45_mmcmp.md R240). -/
def OutBuf.clear (o : OutBuf) : OutBuf := { o with len := 0, cells := [], valid := false }

/-- `OUT_VALID` <- 1 (45_mmcmp.md R240). -/
def OutBuf.markValid (o : OutBuf) : OutBuf := { o with valid := true }

end Sys2Proof.Machine
end

