-- ==== Sys2Proof/Machine/Ops.lean ====
section
/-! DEFINITION. The named operations over memory and registers that every unit uses, and the end of a command: the
block's exceptions are its stops (60_exceptions.md R280), so `endCommand` and `refuse` are what taking an
exception is here. There is nothing to return to and no return operation (60_exceptions.md R287). -/

namespace Sys2Proof.Machine

open Sys2Proof

/-! ### Memories -/

/-- The value an address holds, none when it holds none. -/
def Memory.read {w : Nat} : Memory w → Nat → Option (BitVec w)
  | [], _ => none
  | (b, x) :: m, a => if a = b then some x else Memory.read m a

/-- The memory with `v` at `a`; the rest as it was (20_memory.md R71). -/
def Memory.write {w : Nat} : Memory w → Nat → BitVec w → Memory w
  | [], a, v => [(a, v)]
  | (b, x) :: m, a, v =>
    if a < b then (a, v) :: (b, x) :: m
    else if a = b then (a, v) :: m
    else (b, x) :: Memory.write m a v

/-- The canonical form: addresses strictly rising. -/
def Memory.wf {w : Nat} : Memory w → Bool
  | [] => true
  | [_] => true
  | (a, _) :: (b, x) :: m => decide (a < b) && Memory.wf ((b, x) :: m)

/-- The memory that holds `bytes` from address `a` on and nothing else. -/
def Memory.ofBytes (a : Nat) : List Byte → Memory 8
  | [] => []
  | b :: bs => (a, b) :: Memory.ofBytes (a + 1) bs

/-! ### The source -/

/-- A source that holds exactly these bytes. -/
def Source.ofBytes (bs : List Byte) : Source := { bytes := Memory.ofBytes 0 bs, len := bs.length }

/-- `MemRead(SRC, a, 1)` (00_scope.md R15). -/
def Source.byte (m : Source) (a : Nat) : Byte := (m.bytes.read a).getD (Config.srcUnfilled a)

/-- `MemRead(SRC, a, n)`: `n` bytes, little-endian (00_scope.md R15, 20_memory.md R64). -/
def Source.le (m : Source) (a : Nat) : Nat → Nat
  | 0 => 0
  | n + 1 => (m.byte a).toNat + 256 * Source.le m (a + 1) n

/-- The bytes `SRC[a .. a + n)` in order. -/
def Source.slice (m : Source) (a : Nat) : Nat → List Byte
  | 0 => []
  | n + 1 => m.byte a :: Source.slice m (a + 1) n

/-- `MemRead(SRC, a, n)` where it lies inside the source, none where it does not (20_memory.md R72). -/
def Source.le? (m : Source) (a n : Nat) : Option Nat := if a + n ≤ m.len then some (m.le a n) else none

/-! ### The output buffer -/

/-- What `OUT[a]` holds: `OUT_FILL` where no sub-block has written (45_mmcmp.md R248), nothing outside. -/
def OutBuf.read (o : OutBuf) (a : Nat) : Option Byte :=
  if a < o.len then some ((o.cells.read a).getD (Config.outFill o.epoch a)) else none

/-- `MemWrite(OUT, a, 1, v)`. -/
def OutBuf.write (o : OutBuf) (a : Nat) (v : Byte) : OutBuf := { o with cells := o.cells.write a v }

/-- `OUT` <- `n` cells, each holding `OUT_FILL` (45_mmcmp.md R240, R248). -/
def OutBuf.allocate (o : OutBuf) (n : Nat) : OutBuf :=
  { o with len := n, cells := [], epoch := o.epoch + 1 }

/-! ### Huffman table memory -/

/-- `HUF[t]`. -/
def HufMem.get (h : HufMem) : TableSel → HufTable
  | .lit => h.lit
  | .len => h.len
  | .dist => h.dist
  | .user => h.user

/-- `HUF[t]` <- a table. -/
def HufMem.set (h : HufMem) (t : TableSel) (x : HufTable) : HufMem :=
  match t with
  | .lit => { h with lit := x }
  | .len => { h with len := x }
  | .dist => { h with dist := x }
  | .user => { h with user := x }

/-! ### The end of a command -/

/-- The number of a status code (60_exceptions.md R281). -/
def StatusCode.num : StatusCode → Int
  | .ok => 0
  | .stopTruncated => 1
  | .errHdrLit => -1
  | .errHdrDict => -2
  | .errDist => -3
  | .errOversub => -4
  | .errStarved => -5
  | .errWidth => -6
  | .errHeader => -7
  | .errCapacity => -8
  | .errNoCode => -9
  | .errBounds => -10
  | .errIllegalCmd => -11

/-- The result registers (10_state.md R24 to R26), each 32 bits. -/
def HostRegs.report (h : HostRegs) (status : Int) (consumed result : Nat) : HostRegs :=
  { h with
    status := BitVec.ofInt 32 status
    consumed := BitVec.ofNat 32 consumed
    result := BitVec.ofNat 32 result }

/-- The end of a command with a status number: the result registers are written and `BUSY` <- 0
(10_state.md R24, 60_exceptions.md R290). -/
def endWith (status : Int) (consumed result : Nat) (s : State) : State :=
  { s with host := s.host.report status consumed result, phase := .idle }

/-- The end of a command with a status code, by completion or by a stop (60_exceptions.md R280, R290). -/
def endCommand (code : StatusCode) (consumed result : Nat) (s : State) : State :=
  endWith code.num consumed result s

/-- A refusal: `ERR_ILLEGAL_CMD`, `CONSUMED` and `RESULT` 0, nothing else (60_exceptions.md R289). -/
def refuse (s : State) : State := endCommand .errIllegalCmd 0 0 s

/-- A command starts only while `BUSY` = 0; while `BUSY` = 1 it is ignored (70_reset_and_hazards.md R316). -/
def whenIdle (s : State) (body : State → State) : Result := .next (if s.busy then s else body s)

/-! ### The window -/

/-- The window with the sink it flushes to and the count `n_sink` of bytes appended
(44_blast_lz77.md R222, R224). -/
@[ext] structure Lz where
  win : Window
  sink : List Byte
  n : Nat
deriving DecidableEq, Repr

/-- `WIN[i]`; a cell never written has its power-on contents (10_state.md R50). -/
def Window.byte (w : Window) (i : Nat) : Byte := (w.cells.read i).getD (Config.winPowerOn i)

/-- The bytes `WIN[0..n)` in address order (20_memory.md R70). -/
def Window.firstBytes (w : Window) (n : Nat) : List Byte := (List.range n).map w.byte

/-- `SinkAppend` with its count (20_memory.md R63). -/
def Lz.append (z : Lz) (bs : List Byte) : Lz := { z with sink := z.sink ++ bs, n := z.n + bs.length }

/-- `put(b)`, with `fill_flush()` when the cursor reaches 4096 (44_blast_lz77.md R222, R224). -/
def Lz.put (z : Lz) (b : Byte) : Lz :=
  let w := { z.win with cells := z.win.cells.write z.win.next.val b }
  if h : z.win.next.val + 1 < WIN_SIZE then { z with win := { w with next := ⟨z.win.next.val + 1, h⟩ } }
  else { z.append (w.firstBytes WIN_SIZE) with win := w.filled }

/-- The read index of a copy: (`WNEXT` − `dist`) mod 4096 (44_blast_lz77.md R223, R227). -/
def Window.behind (w : Window) (dist : Nat) : Nat :=
  (w.next.val + (WIN_SIZE - dist % WIN_SIZE)) % WIN_SIZE

/-- The loop of `copy`: `len` bytes, one at a time, each seeing what the copy has written
(44_blast_lz77.md R223, R227). -/
def Lz.copyLoop (dist : Nat) : Nat → Lz → Lz
  | 0, z => z
  | len + 1, z => Lz.copyLoop dist len (z.put (z.win.byte (z.win.behind dist)))

/-- A distance reaches before the start of output (44_blast_lz77.md R226). -/
def Window.tooFar (w : Window) (dist : Nat) : Bool := w.first && decide (w.next.val < dist)

/-- `flush()` (44_blast_lz77.md R225). -/
def Lz.flush (z : Lz) : Lz :=
  { z.append (z.win.firstBytes z.win.next.val) with win := { z.win with next := 0 } }

/-- The state's window and sink with the count of a command so far. -/
def State.lz (s : State) (n : Nat) : Lz := { win := s.win, sink := s.sink, n := n }

/-- The state with the window and sink of `z`. -/
def State.setLz (s : State) (z : Lz) : State := { s with win := z.win, sink := z.sink }

/-! ### The destination -/

/-- `MemWrite(DST, DPOS, 1 element, v)` (20_memory.md R62). -/
def State.storeSample (s : State) (v : BitVec 16) : State := { s with dst := s.dst.write s.dpos v }

/-- Element `i` of `DST` as bytes: one byte for an 8-bit element, two for a 16-bit one in the order `DST_BIG_ENDIAN`
says (20_memory.md R66). The host sees them between commands only: `hostReadDst`. -/
def State.dstBytes (s : State) (S : Width) (i : Nat) : Option (List Byte) :=
  (s.dst.read i).map fun v =>
    match S with
    | .w8 => [v.extractLsb' 0 8]
    | .w16 =>
      if s.cfg.dstBigEndian then [v.extractLsb' 8 8, v.extractLsb' 0 8]
      else [v.extractLsb' 0 8, v.extractLsb' 8 8]

end Sys2Proof.Machine
end

