-- ==== Sys2Proof/Machine/Operands.lean ====
section
/-! DEFINITION. Every operand form of the block: the argument registers under the names each command gives them
(30_encoding.md R93) and the ways a stream field becomes a number (30_encoding.md R97). -/

namespace Sys2Proof.Machine

open Sys2Proof

/-! ### Argument registers -/

/-- `LEN` of `ITD*` and `MDLD*`. -/
def State.argLen (s : State) : Nat := s.host.arg0.toNat

/-- `STRIDE` of `ITD*`. -/
def State.argStride (s : State) : Nat := s.host.arg1.toNat

/-- `BASE` of `ITD*` and `MDLD*`. -/
def State.argBase (s : State) : Nat := s.host.arg2.toNat

/-- `LIMIT` of `BRINIT`. -/
def State.argLimit (s : State) : Nat := s.host.arg0.toNat

/-- The descriptor length of `HUFCON 3`. -/
def State.argDescLen (s : State) : Nat := s.host.arg0.toNat

/-- The byte of `WPUT`: bits 7:0, bits 31:8 ignored. -/
def State.argByte (s : State) : Byte := s.host.arg0.extractLsb' 0 8

/-- The length of `WCOPY`. -/
def State.argCopyLen (s : State) : Nat := s.host.arg0.toNat

/-- The distance of `WCOPY`. -/
def State.argCopyDist (s : State) : Nat := s.host.arg1.toNat

/-! ### Stream fields -/

/-- `sext_w(v)`: the low `w` bits as a two's complement number (00_scope.md R14). -/
def sext (w v : Nat) : Int :=
  let u := v % 2 ^ w
  if 2 ^ w ≤ 2 * u then (u : Int) - (2 ^ w : Nat) else u

/-- A number modulo 2^S as an element of `S` bits, its upper bits 0 (00_scope.md R14). -/
def sampleOf (S : Width) (v : Int) : BitVec 16 := BitVec.ofNat 16 (v % (2 ^ S.bits : Nat)).toNat

/-- (a + v) mod 2^S. -/
def sampleAdd (S : Width) (a : BitVec 16) (v : Int) : BitVec 16 := sampleOf S (a.toNat + v)

/-- The step of a width change in the low and mid range: `new` when below the current width, else
`new` + 1 (41_it.md R146, R147). -/
def stepWidth (width new : Nat) : Nat := if new < width then new else new + 1

/-- The magnitude of the MDL long form: base, 0x10 for each run step, the remainder, modulo 256
(42_mdl.md R176). -/
def mdlLongMagnitude (c : Config) (run : Nat) (r : BitVec 4) : Byte :=
  BitVec.ofNat 8 (c.mdlLongBase + 0x10 * run + r.toNat)

/-- The signed step of the high byte (42_mdl.md R175, R177). -/
def mdlStep (c : Config) (sign : Bool) (mag : Byte) : Byte :=
  if sign then (if c.mdlNegOnes then 0xFF - mag else 0 - mag) else mag

/-- The distance of a match: `(ds << k) + extra + 1` (44_blast_lz77.md R217, G8). -/
def matchDistance (c : Config) (dict sym extra dsym dextra : Nat) : Nat :=
  if c.distSymHigh then (dsym <<< distBits dict (matchLength c sym extra)) + dextra + 1
  else (dextra <<< 6) + dsym + 1

/-- The fold of a 16-bit MMCMP value: even `d` gives `d/2`, odd `d` gives −(`d` + 1)/2, modulo 2^16 (45_mmcmp.md R258);
with the parameter the other way the signs change places (G13). -/
def mmFold (c : Config) (d : Nat) : BitVec 16 :=
  if decide (d % 2 = 1) = c.mmFoldOddNeg then BitVec.ofInt 16 (-(((d + 1) >>> 1 : Nat) : Int))
  else BitVec.ofNat 16 ((d + 1) >>> 1)

/-- The value of an extended event: `0xFFF0 + x` or `0xF8 + x` (45_mmcmp.md R256). -/
def mmExtended (c : Config) (S : Width) (x : Nat) : Nat := c.mmExtBase S + x

/-! ### Sub-blocks -/

/-- Entry `k` of the sub-block table of the block whose header is at `hdr`: `pos_k`, `size_k`, read from `SRC`
again each time (45_mmcmp.md R244, R250); none where it lies outside the source. -/
def State.subBlock? (s : State) (hdr k : Nat) : Option (Nat × Nat) :=
  let e := hdr + s.cfg.mm.blockLen + s.cfg.mm.subLen * k
  match s.src.le? (e + s.cfg.mm.subPosAt) 4, s.src.le? (e + s.cfg.mm.subSizeAt) 4 with
  | some p, some n => some (p, n)
  | _, _ => none

/-- `elems(k)`: bytes, or whole 16-bit words (45_mmcmp.md R251). -/
def subElems (S : Width) (size : Nat) : Nat :=
  match S with
  | .w8 => size
  | .w16 => size >>> 1

end Sys2Proof.Machine
end

