-- ==== Sys2Proof/Machine/BitReader.lean ====
section
/-! DEFINITION. The BitReader (U1, 40_bitreader.md): the internal operations `fetch` and `read_bits` that every unit
calls, and the meanings of `BRINIT`, `RDBITS.IT`, `RDBITS.MDL`, `RDBITS.PK` and `BRSEED`. -/

namespace Sys2Proof.Machine

open Sys2Proof

/-- The refill disciplines (40_bitreader.md R120). -/
inductive Mode where
  | it
  | mdl
  | pk
deriving DecidableEq, Repr

/-- A byte enters the accumulator at bit `CNT` (10_state.md R30). -/
def Reader.take (r : Reader) (b : Byte) : Reader :=
  { r with acc := r.acc ||| (b.setWidth 64 <<< r.cnt), cnt := r.cnt + 8 }

/-- A real byte is there to fetch: below `BRLIM` and below `SRC_LEN` (40_bitreader.md R122, R126). -/
def Reader.canFetch (r : Reader) (m : Source) : Bool := decide (r.spos < r.brlim) && decide (r.spos < m.len)

/-- `fetch()` (40_bitreader.md R122): a real byte, or a phantom byte whose value is free (R126). -/
def Reader.fetch (m : Source) (r : Reader) : Reader :=
  if r.canFetch m then
    { r.take (m.byte r.spos) with spos := r.spos + 1, real := r.real + 8 }
  else { r.take (Config.phantomByte r.draws) with draws := r.draws + 1 }

/-- `while CNT < n: fetch()`; `n` turns are enough. -/
def Reader.fill (m : Source) (n : Nat) : Nat → Reader → Reader
  | 0, r => r
  | turns + 1, r => if r.cnt < n then Reader.fill m n turns (r.fetch m) else r

/-- `while CNT + 8 ≤ SEEDLV: fetch()`; `SEEDLV` turns are enough. -/
def Reader.topUp (m : Source) : Nat → Reader → Reader
  | 0, r => r
  | turns + 1, r => if r.cnt + 8 ≤ r.seedlv then Reader.topUp m turns (r.fetch m) else r

/-- The low `n` bits leave the accumulator. -/
def Reader.drop (r : Reader) (n : Nat) : Reader := { r with acc := r.acc >>> n, cnt := r.cnt - n }

/-- `read_bits(mode, n)` (40_bitreader.md R123): the value and the reader after it. -/
def Reader.readBits (m : Source) (mode : Mode) (n : Nat) (r : Reader) : Nat × Reader :=
  let r1 := r.fill m n n
  let r2 := (r1.drop n).noteConsumed n
  (r1.acc.toNat % 2 ^ n, match mode with
    | .mdl => r2.topUp m r2.seedlv
    | .it => r2
    | .pk => r2)

/-- A read followed by the test of `STARVED` (40_bitreader.md R128). -/
def readGot (m : Source) (mode : Mode) (n : Nat) (r : Reader) : Got Reader :=
  if (r.readBits m mode n).2.starved then .starved (r.readBits m mode n).2
  else .got (r.readBits m mode n).1 (r.readBits m mode n).2

/-- The reader emptied with a bound and a seed level (10_state.md R30, R34, R56). -/
def Reader.clear (r : Reader) (brlim seedlv : Nat) : Reader :=
  { r with acc := 0, cnt := 0, real := 0, starved := false, brlim := brlim, seedlv := seedlv }

/-- The reader as a codec command finds it at its start: `ACC`, `CNT`, `REAL`, `STARVED` and `SEEDLV` 0, the range
as it was until the command bounds it (10_state.md R54, R56). -/
def Reader.emptied (r : Reader) : Reader := r.clear r.brlim 0

/-- The bits the reader can still give before it starves. -/
def Reader.bitsLeft (r : Reader) (m : Source) : Nat := r.real + 8 * (min r.brlim m.len - r.spos)

/-! ### The leaf commands -/

/-- `RDBITS` in a mode (40_bitreader.md R130): an `N` above `NMAX` is refused (30_encoding.md R96). -/
def rdbits (mode : Mode) (n : Nat) (s : State) : State :=
  if n > NMAX then refuse s
  else
    let r := s.rd.readBits s.src mode n
    let used := r.2.spos - s.rd.spos
    let t := { s with rd := r.2 }
    if r.2.starved then endCommand .stopTruncated used 0 t else endCommand .ok used r.1 t

/-- `BRINIT` (40_bitreader.md R129). -/
def execBrinit (s : State) : Result :=
  whenIdle s fun s =>
    if s.rd.spos > s.src.len then refuse s
    else endCommand .ok 0 0
      { s with rd := s.rd.clear (min (s.rd.spos + s.argLimit) s.src.len) 0 }

/-- `RDBITS.IT n` (40_bitreader.md R130). -/
def execRdbitsIt (n : BitVec 6) (s : State) : Result := whenIdle s (rdbits .it n.toNat)

/-- `RDBITS.MDL n` (40_bitreader.md R131). -/
def execRdbitsMdl (n : BitVec 6) (s : State) : Result := whenIdle s (rdbits .mdl n.toNat)

/-- `RDBITS.PK n` (40_bitreader.md R132). -/
def execRdbitsPk (n : BitVec 6) (s : State) : Result := whenIdle s (rdbits .pk n.toNat)

/-- `BRSEED k` (40_bitreader.md R133). -/
def execBrseed (k : BitVec 6) (s : State) : Result :=
  whenIdle s fun s =>
    if k.toNat > ACCW / 8 then refuse s
    else
      let r := { s.rd with seedlv := 8 * k.toNat }.topUp s.src (8 * k.toNat)
      endCommand .ok (r.spos - s.rd.spos) 0 { s with rd := r }

/-- `NOP` (30_encoding.md R95). -/
def execNop (s : State) : Result := whenIdle s (endCommand .ok 0 0)

end Sys2Proof.Machine
end

