-- ==== Sys2Proof/Machine/It.lean ====
section
/-! DEFINITION. The IT decoder (U2, 41_it.md): `ITD8`, `ITD16`, the block start and end of their loop, and the events
`it.s`, `it.wl`, `it.wm`, `it.wt`. -/

namespace Sys2Proof.Machine

open Sys2Proof

/-! ### The commands -/

/-- The last destination index of `ITD*` lies beyond `DST_CAP` (41_it.md R141, 20_memory.md R74). -/
def itBeyondDst (s : State) : Bool :=
  decide (s.argLen > 0) && decide (s.argBase + (s.argLen - 1) * s.argStride ≥ s.dstCap)

/-- `ITD*` is refused (41_it.md R141, 60_exceptions.md R289). -/
def itRefused (s : State) : Bool :=
  decide (s.argStride = 0) || decide (s.rd.spos > s.src.len) || itBeyondDst s

/-- The start of `it_decode(S)` up to its outer loop (41_it.md R141), the reader emptied (10_state.md R54). -/
def itStart (S : Width) (f215 : Bool) (s : State) : State :=
  if itRefused s then refuse s
  else
    { s with
      rd := s.rd.emptied
      it := { s.it with rem := s.argLen }
      dpos := s.argBase
      phase := .itTop S f215 s.rd.spos 0 }

/-- `ITD8`, `ITD8.215` (41_it.md R141). -/
def execItd8 (f215 : Bool) (s : State) : Result := whenIdle s (itStart .w8 f215)

/-- `ITD16`, `ITD16.215` (41_it.md R142). -/
def execItd16 (f215 : Bool) (s : State) : Result := whenIdle s (itStart .w16 f215)

/-! ### Blocks -/

/-- The end of `ITD*`, by completion or stop: `CONSUMED` is the cursor less its start
(41_it.md R141, R153). -/
def itEnd (code : StatusCode) (start nOut : Nat) (s : State) : State :=
  endCommand code (s.rd.spos - start) nOut s

/-- The cursor moved by the sequencer itself (10_state.md R29). -/
def State.seek (s : State) (p : Nat) : State := { s with rd := { s.rd with spos := p } }

/-- The registers of a block whose `count` bytes start at the cursor (41_it.md R143). -/
def itOpenBlock (S : Width) (f215 : Bool) (start nOut count : Nat) (s : State) : State :=
  { s with
    rd := s.rd.clear (s.rd.spos + count) 0
    it :=
      { s.it with
        blkend := s.rd.spos + count
        blklen := min S.itBlock s.it.rem
        blkpos := 0
        width := S.itMax
        d1 := 0
        d2 := 0 }
    phase := .itBlock S f215 start nOut }

/-- `block_start(S)` (41_it.md R143, R144). -/
def itBlockStart (S : Width) (f215 : Bool) (start nOut : Nat) (s : State) : State :=
  if s.rd.spos + 2 > s.src.len then itEnd .stopTruncated start nOut (s.seek s.src.len)
  else
    let count := s.src.le s.rd.spos 2
    let t := s.seek (s.rd.spos + 2)
    if t.rd.spos + count > s.src.len then itEnd .stopTruncated start nOut t
    else itOpenBlock S f215 start nOut count t

/-- The outer loop of `it_decode` (41_it.md R141, R159). -/
def itTopNext (S : Width) (f215 : Bool) (start nOut : Nat) (s : State) : Fetched :=
  if s.it.rem = 0 then .control (itEnd .ok start nOut s)
  else .control (itBlockStart S f215 start nOut s)

/-- The end of a block (41_it.md R141, R152). -/
def itBlockEnd (S : Width) (f215 : Bool) (start nOut : Nat) (s : State) : State :=
  { s.seek s.it.blkend with
    it := { s.it with rem := s.it.rem - s.it.blklen }
    phase := .itTop S f215 start nOut }

/-- The inner loop of `it_decode`: the next event, or a stop at the event that cannot be read
(41_it.md R145, R150, R151). -/
def itBlockNext (S : Width) (f215 : Bool) (start nOut : Nat) (s : State) : Fetched :=
  if s.it.blkpos < s.it.blklen then
    match decodeIt s.cfg (readGot s.src .it) S s.it.width s.rd with
    | .event i r => .instr i { s with rd := r }
    | .starved r => .control (itEnd .stopTruncated start nOut { s with rd := r })
    | .badWidth r => .control (itEnd .errWidth start nOut { s with rd := r })
    | .noCode r => .control (itEnd .errNoCode start nOut { s with rd := r })
    | .illegal _ r => .control (itEnd .errIllegalCmd start nOut { s with rd := r })
  else .control (itBlockEnd S f215 start nOut s)

/-! ### The events -/

/-- An event of a block in progress; elsewhere there is no such event. -/
def inItBlock (s : State) (body : Width → Bool → Nat → Nat → Result) : Result :=
  match s.phase with
  | .itBlock S f215 start nOut => body S f215 start nOut
  | .idle => .fault .eventOutsideCommand
  | .issued => .fault .eventOutsideCommand
  | .itTop _ _ _ _ => .fault .eventOutsideCommand
  | .mdl _ _ => .fault .eventOutsideCommand
  | .blast _ _ => .fault .eventOutsideCommand
  | .mmTop _ _ => .fault .eventOutsideCommand
  | .mmComp _ _ _ _ => .fault .eventOutsideCommand
  | .hufcon _ _ _ => .fault .eventOutsideCommand

/-- `WIDTH` <- a new width (41_it.md R146 to R148). -/
def State.setWidth (s : State) (w : Nat) : State := { s with it := { s.it with width := w } }

/-- The integrators after a residual, and the sample emitted (41_it.md R149). -/
def itIntegrate (S : Width) (f215 : Bool) (v : Int) (r : ItRegs) : ItRegs × BitVec 16 :=
  let d1 := sampleAdd S r.d1 v
  if f215 then
    let d2 := sampleAdd S r.d2 d1.toNat
    ({ r with d1 := d1, d2 := d2 }, d2)
  else ({ r with d1 := d1 }, d1)

/-- `sample(S, value)` (41_it.md R149). -/
def itSample (S : Width) (f215 : Bool) (start nOut value : Nat) (s : State) : State :=
  let (r, out) := itIntegrate S f215 (sext s.it.width value) s.it
  { s.storeSample out with
    it := { r with blkpos := r.blkpos + 1 }
    dpos := s.dpos + s.argStride
    phase := .itBlock S f215 start (nOut + 1) }

/-- `it.s` (41_it.md R149). -/
def execItS (value : Nat) (s : State) : Result :=
  inItBlock s fun S f215 start nOut =>
    if s.dpos < s.dstCap then .next (itSample S f215 start nOut value s)
    else .fault .destinationBounds

/-- `it.wl` (41_it.md R146). -/
def execItWl (field : Nat) (s : State) : Result :=
  inItBlock s fun _ _ _ _ => .next (s.setWidth (stepWidth s.it.width (field + s.cfg.itLowBias)))

/-- `it.wm` (41_it.md R147). -/
def execItWm (value : Nat) (s : State) : Result :=
  inItBlock s fun S _ _ _ =>
    .next (s.setWidth (stepWidth s.it.width (value - s.cfg.itBorder S s.it.width)))

/-- `it.wt` (41_it.md R148). -/
def execItWt (low : Nat) (s : State) : Result :=
  inItBlock s fun _ _ _ _ => .next (s.setWidth (low + s.cfg.itTopBias))

end Sys2Proof.Machine
end

