-- ==== Sys2Proof/Machine/Huf.lean ====
section
/-! DEFINITION. The Huffman commands (U4, 43_huffman.md): `HUFCON`, whose table 3 is expanded one descriptor byte
(`hd.run`) at a time, and `HUFDEC`. -/

namespace Sys2Proof.Machine

open Sys2Proof

/-- `HUF[t]` <- the table `construct` makes of its static descriptor (43_huffman.md R194, R198). -/
def State.buildStatic (s : State) (t : TableSel) : State :=
  { s with huf := s.huf.set t (constructTable s.cfg (s.huf.get t) (expand s.cfg (s.cfg.staticDesc t))) }

/-- `HUFCON` on a static table (43_huffman.md R198): built only when it is not valid. `STATUS` is the construct
status of what is built (10_state.md R24, 60_exceptions.md R281, R291, D23), which is 0 with the descriptors of R196; a table
that is already valid reports 0. DESIGN CHOICE (log 34): at changed descriptors this follows D23, where R198's pseudocode
writes 0. -/
def hufconStatic (t : TableSel) (s : State) : State :=
  if (s.huf.get t).valid then endCommand .ok 0 (s.huf.get t).nsym s
  else
    let u := s.buildStatic t
    endWith (constructStatus s.cfg (expand s.cfg (s.cfg.staticDesc t))) 0 (u.huf.get t).nsym u

/-- `HUFCON 3` is refused (43_huffman.md R193, R198): the tests are made before the first access. -/
def hufconUserRefused (s : State) : Bool :=
  let n := s.argDescLen
  decide (n = 0) || decide (n > 256) || decide (s.rd.spos + n > s.src.len) ||
    malformed s.cfg (expand s.cfg (s.src.slice s.rd.spos n))

/-- `HUFCON 3` up to its first descriptor byte (43_huffman.md R198). -/
def hufconUser (s : State) : State :=
  if hufconUserRefused s then refuse s else { s with phase := .hufcon s.argDescLen s.argDescLen [] }

/-- `HUFCON t` (43_huffman.md R198). -/
def execHufcon (t : TableSel) (s : State) : Result :=
  whenIdle s fun s =>
    match t with
    | .lit => hufconStatic .lit s
    | .len => hufconStatic .len s
    | .dist => hufconStatic .dist s
    | .user => hufconUser s

/-- The end of `HUFCON 3`: `construct` over the lengths expanded (43_huffman.md R194, R198, R291 of
60_exceptions.md). -/
def hufconFinish (n : Nat) (lengths : List Nat) (s : State) : State :=
  endWith (constructStatus s.cfg lengths) n lengths.length
    { s with huf := s.huf.set .user (constructTable s.cfg s.huf.user lengths) }

/-- The next descriptor byte of `HUFCON 3`, or its end. -/
def hufconNext (n left : Nat) (lengths : List Nat) (s : State) : Fetched :=
  if left = 0 then .control (hufconFinish n lengths s)
  else if s.rd.spos < s.src.len then
    .instr (decodeDescriptor s.cfg (s.src.byte s.rd.spos)) (s.seek (s.rd.spos + 1))
  else .fault .sourceBounds

/-- `hd.run`: `REP` + 1 symbols of length `LEN` are appended (43_huffman.md R192). -/
def execHdRun (rep len : BitVec 4) (s : State) : Result :=
  match s.phase with
  | .hufcon n (left + 1) lengths => .next { s with phase := .hufcon n left (lengths ++ expandRun s.cfg rep len) }
  | .hufcon _ 0 _ => .fault .eventOutsideCommand
  | .idle => .fault .eventOutsideCommand
  | .issued => .fault .eventOutsideCommand
  | .itTop _ _ _ _ => .fault .eventOutsideCommand
  | .itBlock _ _ _ _ => .fault .eventOutsideCommand
  | .mdl _ _ => .fault .eventOutsideCommand
  | .blast _ _ => .fault .eventOutsideCommand
  | .mmTop _ _ => .fault .eventOutsideCommand
  | .mmComp _ _ _ _ => .fault .eventOutsideCommand

/-- `HUFDEC` on a valid table (43_huffman.md R199). -/
def hufdecRun (t : TableSel) (s : State) : State :=
  match huffDecode s.cfg (readGot s.src .pk) (s.huf.get t) s.rd with
  | .sym v r => endCommand .ok (r.spos - s.rd.spos) v { s with rd := r }
  | .starved r => endCommand .errStarved (r.spos - s.rd.spos) 0 { s with rd := r }
  | .noCode r => endCommand .errNoCode (r.spos - s.rd.spos) 0 { s with rd := r }

/-- `HUFDEC t` (43_huffman.md R199). -/
def execHufdec (t : TableSel) (s : State) : Result :=
  whenIdle s fun s => if (s.huf.get t).valid then hufdecRun t s else refuse s

end Sys2Proof.Machine
end

