-- ==== Sys2Proof/Machine/Blast.lean ====
section
/-! DEFINITION. The Blast sequencer and the LZ77 window (U5, 44_blast_lz77.md): `BLAST`, the events `bl.lit`,
`bl.match`, `bl.end`, and the leaf commands `WRESET`, `WPUT`, `WCOPY`, `WFLUSH`. -/

namespace Sys2Proof.Machine

open Sys2Proof

/-! ### The staging buffer -/

/-- ceil(u / PK_CHUNK) chunks have been read when `u` bytes have been taken (44_blast_lz77.md R231). -/
def chunksRead (c : Config) (u : Nat) : Nat := (u + c.pkChunk - 1) / c.pkChunk

/-- `end_position(s0)` (44_blast_lz77.md R231). -/
def blastEndPosition (s0 : Nat) (s : State) : Nat :=
  min s.src.len (s0 + s.cfg.pkChunk * chunksRead s.cfg (s.rd.spos - s0))

/-- `INBUF` and `INLEFT` once the reader has taken its bytes (10_state.md R44): the last chunk read and how
many of its bytes are left. -/
def blastStage (s0 : Nat) (s : State) : State :=
  let u := s.rd.spos - s0
  if u = 0 then s
  else
    let at0 := s0 + s.cfg.pkChunk * (chunksRead s.cfg u - 1)
    { s with
      blast :=
        { s.blast with
          inbuf := s.src.slice at0 (blastEndPosition s0 s - at0)
          inleft := blastEndPosition s0 s - s.rd.spos } }

/-! ### The command -/

/-- The end of `BLAST`, by the end event or a stop: the final flush, the end position, the result registers
(44_blast_lz77.md R211, R229, R231). -/
def blastEnd (code : StatusCode) (s0 nSink : Nat) (s : State) : State :=
  let z := (s.lz nSink).flush
  let t := (s.setLz z).seek (blastEndPosition s0 s)
  endCommand code (t.rd.spos - s0) z.n t

/-- Construction of the static tables that are not valid, stopping at the first status that is not 0
(44_blast_lz77.md R211, R230). -/
def blastTables : List TableSel → State → Run
  | [], s => .on s
  | t :: ts, s =>
    if (s.huf.get t).valid then blastTables ts s
    else if constructStatus s.cfg (expand s.cfg (s.cfg.staticDesc t)) = 0 then blastTables ts (s.buildStatic t)
    else .stop .errOversub (s.buildStatic t)

/-- The second header byte (44_blast_lz77.md R212). -/
def blastHeaderDict (s : State) : Run :=
  match readGot s.src .pk 8 s.rd with
  | .starved r => .stop .errStarved { s with rd := r }
  | .got v r =>
    let t := { s with rd := r, blast := { s.blast with dict := v } }
    if v < 4 ∨ 6 < v then .stop .errHdrDict t else .on t

/-- `header()` (44_blast_lz77.md R212): `lit` is tested before `dict` is read. -/
def blastHeader (s : State) : Run :=
  match readGot s.src .pk 8 s.rd with
  | .starved r => .stop .errStarved { s with rd := r }
  | .got v r =>
    let t := { s with rd := r, blast := { s.blast with lit := v } }
    if v > 1 then .stop .errHdrLit t else blastHeaderDict t

/-- The registers `BLAST` initialises (44_blast_lz77.md R211). -/
def blastClear (s : State) : State :=
  { s with
    rd := s.rd.clear s.src.len 0
    win := s.win.reset
    blast := { s.blast with inleft := 0 } }

/-- The tables, then the header (44_blast_lz77.md R211). -/
def blastPrepare (s : State) : Run :=
  match blastTables [.lit, .len, .dist] s with
  | .on t => blastHeader t
  | .stop code t => .stop code t

/-- `BLAST` up to its first event (44_blast_lz77.md R211). -/
def blastStart (s : State) : State :=
  if s.rd.spos > s.src.len then refuse s
  else
    match blastPrepare (blastClear s) with
    | .on t => { blastStage s.rd.spos t with phase := .blast s.rd.spos 0 }
    | .stop code t => blastEnd code s.rd.spos 0 (blastStage s.rd.spos t)

/-- `BLAST` (44_blast_lz77.md R211). -/
def execBlast (s : State) : Result := whenIdle s blastStart

/-! ### The events -/

/-- The next event of `BLAST`, or the stop at one that cannot be read (44_blast_lz77.md R213, R219). -/
def blastNext (s0 nSink : Nat) (s : State) : Fetched :=
  match decodeBlast s.cfg (readGot s.src .pk) s.blast.lit s.blast.dict s.huf.lit s.huf.len s.huf.dist
      s.rd with
  | .event i r => .instr i (blastStage s0 { s with rd := r })
  | .starved r => .control (blastEnd .errStarved s0 nSink (blastStage s0 { s with rd := r }))
  | .noCode r => .control (blastEnd .errNoCode s0 nSink (blastStage s0 { s with rd := r }))
  | .badWidth r => .control (blastEnd .errWidth s0 nSink (blastStage s0 { s with rd := r }))
  | .illegal _ r => .control (blastEnd .errIllegalCmd s0 nSink (blastStage s0 { s with rd := r }))

/-- An event of `BLAST`; elsewhere there is no such event. -/
def inBlast (s : State) (body : Nat → Nat → State) : Result :=
  match s.phase with
  | .blast s0 nSink => .next (body s0 nSink)
  | .idle => .fault .eventOutsideCommand
  | .issued => .fault .eventOutsideCommand
  | .itTop _ _ _ _ => .fault .eventOutsideCommand
  | .itBlock _ _ _ _ => .fault .eventOutsideCommand
  | .mdl _ _ => .fault .eventOutsideCommand
  | .mmTop _ _ => .fault .eventOutsideCommand
  | .mmComp _ _ _ _ => .fault .eventOutsideCommand
  | .hufcon _ _ _ => .fault .eventOutsideCommand

/-- The state after an event of `BLAST` has changed the window. -/
def blastKeep (s0 : Nat) (z : Lz) (s : State) : State := { s.setLz z with phase := .blast s0 z.n }

/-- `bl.lit` (44_blast_lz77.md R215). -/
def execBlLit (b : Byte) (s : State) : Result :=
  inBlast s fun s0 nSink => blastKeep s0 ((s.lz nSink).put b) s

/-- `copy(len, dist)` inside `BLAST`: a distance too far back ends the command (44_blast_lz77.md R223,
R226). -/
def blastCopy (len dist s0 nSink : Nat) (s : State) : State :=
  if s.win.tooFar dist then blastEnd .errDist s0 nSink s
  else blastKeep s0 (Lz.copyLoop dist len (s.lz nSink)) s

/-- `bl.match` (44_blast_lz77.md R213, R216, R217). -/
def execBlMatch (sym extra dsym dextra : Nat) (s : State) : Result :=
  inBlast s fun s0 nSink =>
    blastCopy (matchLength s.cfg sym extra) (matchDistance s.cfg s.blast.dict sym extra dsym dextra) s0
      nSink s

/-- `bl.end` (44_blast_lz77.md R218). -/
def execBlEnd (s : State) : Result := inBlast s fun s0 nSink => blastEnd .ok s0 nSink s

/-! ### The leaf commands -/

/-- The end of a window command: `RESULT` is what it appended to `SINK` (44_blast_lz77.md R222). -/
def endWindow (z : Lz) (s : State) : State := endCommand .ok 0 z.n (s.setLz z)

/-- `WRESET` (44_blast_lz77.md R221). -/
def execWreset (s : State) : Result :=
  whenIdle s fun s => endCommand .ok 0 0 { s with win := s.win.reset }

/-- `WPUT` (44_blast_lz77.md R222). -/
def execWput (s : State) : Result := whenIdle s fun s => endWindow ((s.lz 0).put s.argByte) s

/-- `WCOPY` is refused (44_blast_lz77.md R223). -/
def wcopyRefused (s : State) : Bool :=
  decide (s.argCopyLen = 0) || decide (s.argCopyDist = 0) || decide (s.argCopyDist > WIN_SIZE)

/-- `WCOPY` (44_blast_lz77.md R223). -/
def execWcopy (s : State) : Result :=
  whenIdle s fun s =>
    if wcopyRefused s then refuse s
    else if s.win.tooFar s.argCopyDist then endCommand .errDist 0 0 s
    else endWindow (Lz.copyLoop s.argCopyDist s.argCopyLen (s.lz 0)) s

/-- `WFLUSH` (44_blast_lz77.md R225). -/
def execWflush (s : State) : Result := whenIdle s fun s => endWindow (s.lz 0).flush s

end Sys2Proof.Machine
end

