-- ==== Sys2Proof/Machine/Mdl.lean ====
section
/-! DEFINITION. The MDL decoder (U3, 42_mdl.md): `MDLD8`, `MDLD16`, their sample loop, and the two forms of `mdl.s`. -/

namespace Sys2Proof.Machine

open Sys2Proof

/-- `MDLD*` is refused (42_mdl.md R171, 60_exceptions.md R289). -/
def mdlRefused (s : State) : Bool :=
  decide (s.rd.spos > s.src.len) ||
    (decide (s.argLen > 0) && decide (s.argBase + s.argLen - 1 ≥ s.dstCap))

/-- `finish(code)` (42_mdl.md R171). -/
def mdlFinish (code : StatusCode) (nOut : Nat) (s : State) : State :=
  endCommand code (s.rd.spos - s.mdl.mstart) nOut s

/-- The final seek: the end of the declared block, cut to the source (42_mdl.md R180). -/
def mdlSeekEnd (s : State) : State := s.seek (min (s.mdl.mstart + 4 + s.mdl.plen) s.src.len)

/-- The accumulator cleared and seeded (42_mdl.md R171, R174). -/
def mdlSeed (S : Width) (s : State) : State :=
  { s with
    rd :=
      (s.rd.clear (min (s.mdl.mstart + 4 + s.mdl.plen) s.src.len) (8 * S.mdlSeed)).topUp s.src
        (8 * S.mdlSeed) }

/-- The registers `mdl_decode` sets at the start of every `MDLD*`, before the length field is tested: `MSTART`, `DPOS`
(42_mdl.md R171), and the reader and `DLT`, which 10_state.md R30, R38, R54 and R56 and 92_eei_decisions.md D19 put here, where R171's
pseudocode has them after the test (log 11; the two differ only where the length field is cut short). -/
def mdlOpen (S : Width) (s : State) : State :=
  { s with
    rd := s.rd.clear s.rd.brlim (8 * S.mdlSeed)
    mdl := { s.mdl with mstart := s.rd.spos, dlt := 0 }
    dpos := s.argBase }

/-- `mdl_decode(S, SEED)` up to its sample loop (42_mdl.md R171, R173). -/
def mdlStart (S : Width) (s : State) : State :=
  if mdlRefused s then refuse s
  else
    let t := mdlOpen S s
    if s.rd.spos + 4 > s.src.len then mdlFinish .stopTruncated 0 (t.seek s.src.len)
    else
      let u := { t.seek (s.rd.spos + 4) with mdl := { t.mdl with plen := s.src.le s.rd.spos 4 } }
      { mdlSeed S u with phase := .mdl S 0 }

/-- `MDLD8` (42_mdl.md R171). -/
def execMdld8 (s : State) : Result := whenIdle s (mdlStart .w8)

/-- `MDLD16` (42_mdl.md R172). -/
def execMdld16 (s : State) : Result := whenIdle s (mdlStart .w16)

/-- The sample loop: the next event; the final seek and the end after `LEN` samples or at the event that
cannot be read (42_mdl.md R171, R179, R180). -/
def mdlNext (S : Width) (nOut : Nat) (s : State) : Fetched :=
  if nOut < s.argLen then
    match decodeMdl s.cfg (readGot s.src .mdl) (s.rd.bitsLeft s.src + 1) S s.rd with
    | .event i r => .instr i { s with rd := r }
    | .starved r => .control (mdlFinish .stopTruncated nOut (mdlSeekEnd { s with rd := r }))
    | .noCode r => .control (mdlFinish .errNoCode nOut (mdlSeekEnd { s with rd := r }))
    | .badWidth r => .control (mdlFinish .errWidth nOut (mdlSeekEnd { s with rd := r }))
    | .illegal _ r => .control (mdlFinish .errIllegalCmd nOut (mdlSeekEnd { s with rd := r }))
  else .control (mdlFinish .ok nOut (mdlSeekEnd s))

/-- An event of `MDLD*`; elsewhere there is no such event. -/
def inMdl (s : State) (body : Width → Nat → Result) : Result :=
  match s.phase with
  | .mdl S nOut => body S nOut
  | .idle => .fault .eventOutsideCommand
  | .issued => .fault .eventOutsideCommand
  | .itTop _ _ _ _ => .fault .eventOutsideCommand
  | .itBlock _ _ _ _ => .fault .eventOutsideCommand
  | .blast _ _ => .fault .eventOutsideCommand
  | .mmTop _ _ => .fault .eventOutsideCommand
  | .mmComp _ _ _ _ => .fault .eventOutsideCommand
  | .hufcon _ _ _ => .fault .eventOutsideCommand

/-- The element `emit` stores (42_mdl.md R178). -/
def mdlElement (S : Width) (r : MdlRegs) : BitVec 16 :=
  match S with
  | .w8 => r.dlt.setWidth 16
  | .w16 => r.dlt ++ r.mlo

/-- The registers after a sample of this magnitude (42_mdl.md R175, R177): the low byte is copied in the 16-bit
variant only. -/
def mdlRegsAfter (c : Config) (S : Width) (lo : Option Byte) (sign : Bool) (mag : Byte) (r : MdlRegs) :
    MdlRegs :=
  { r with
    mlo := match S with
      | .w8 => r.mlo
      | .w16 => lo.getD r.mlo
    msign := sign
    mhi := mdlStep c sign mag
    dlt := r.dlt + mdlStep c sign mag }

/-- A sample of this magnitude, integrated and emitted (42_mdl.md R175, R178). -/
def mdlSample (lo : Option Byte) (sign : Bool) (mag : Byte) (s : State) : Result :=
  inMdl s fun S nOut =>
    if s.dpos < s.dstCap then
      let r := mdlRegsAfter s.cfg S lo sign mag s.mdl
      .next
        { s.storeSample (mdlElement S r) with
          mdl := r
          dpos := s.dpos + 1
          phase := .mdl S (nOut + 1) }
    else .fault .destinationBounds

/-- `mdl.s.short` (42_mdl.md R175). -/
def execMdlShort (lo : Option Byte) (sign : Bool) (mag : BitVec 3) (s : State) : Result :=
  mdlSample lo sign (mag.setWidth 8) s

/-- `mdl.s.long` (42_mdl.md R175, R176). -/
def execMdlLong (lo : Option Byte) (sign : Bool) (run : Nat) (remainder : BitVec 4) (s : State) : Result :=
  mdlSample lo sign (mdlLongMagnitude s.cfg run remainder) s

end Sys2Proof.Machine
end

