-- ==== Sys2Proof/Machine/Mmcmp.lean ====
section
/-! DEFINITION. The MMCMP unpacker (U6, 45_mmcmp.md): `MMCMP`, its header checks, blocks and raw copy, and the events
`mm.v`, `mm.w`, `mm.x`, `mm.end` of a compressed block. -/

namespace Sys2Proof.Machine

open Sys2Proof

/-! ### The container header -/

/-! The reads of the container's tables move `SPOS` as 10_state.md R29 (b) and (c) say, which the pseudocode of R247 and
R250 leaves out: after a table read at an absolute offset (R240) `SPOS` is the offset of the byte after it, and a block starts
with a seek to its header (log 31). R263 puts `SPOS` back. -/

/-- The block-pointer table lies inside the source (45_mmcmp.md R247, its last test); the header has been read. -/
def mmHeaderTable (s : State) : Run :=
  let btab := s.src.le s.cfg.mm.tableAt 4
  let t := { s.seek s.cfg.mm.headerLen with mm := { s.mm with btab := btab } }
  if btab + s.cfg.mm.entryLen * s.mm.nblk > s.src.len then .stop .errHeader t else .on t

/-- The declared file size (45_mmcmp.md R247). -/
def mmHeaderSize (s : State) : Run :=
  let fsize := s.src.le s.cfg.mm.fileSizeAt 4
  let t := { s with mm := { s.mm with fsize := fsize } }
  if fsize ≤ MM_MINSIZE then .stop .errHeader t
  else if fsize > MM_MAXSIZE then .stop .errCapacity t
  else mmHeaderTable t

/-- `check_header()` (45_mmcmp.md R247): the first failing test decides. -/
def mmHeader (s : State) : Run :=
  let l := s.cfg.mm
  if s.src.len < l.headerLen then .stop .errHeader s
  else if s.src.slice l.magicAt l.magic.length ≠ l.magic then .stop .errHeader s
  else if s.src.le l.hdrSizeAt 2 < MM_MINHDR then .stop .errHeader s
  else
    let nblk := s.src.le l.nblocksAt 2
    let t := { s with mm := { s.mm with nblk := nblk } }
    if nblk = 0 then .stop .errHeader t else mmHeaderSize t

/-- The end of `MMCMP` by a stop: no buffer, `SPOS` put back (45_mmcmp.md R240, R263). -/
def mmStop (code : StatusCode) (s0 : Nat) (s : State) : State :=
  endCommand code 0 0 { s.seek s0 with out := s.out.clear }

/-- The end of `MMCMP` with status `OK` (45_mmcmp.md R240, R263). -/
def mmFinish (s0 : Nat) (s : State) : State :=
  endCommand .ok 0 s.mm.fsize { s.seek s0 with out := s.out.markValid }

/-- `MMCMP` up to its first block (45_mmcmp.md R240), the reader emptied (10_state.md R54). -/
def mmStart (s : State) : State :=
  match mmHeader { s with rd := s.rd.emptied, out := s.out.clear } with
  | .on t => { t with out := t.out.allocate t.mm.fsize, phase := .mmTop s.rd.spos 0 }
  | .stop code t => mmStop code s.rd.spos t

/-- `MMCMP` (45_mmcmp.md R240). -/
def execMmcmp (s : State) : Result := whenIdle s mmStart

/-! ### Blocks -/

/-- A bit of `MB_FLAGS` (45_mmcmp.md R245). -/
def MmRegs.flag (r : MmRegs) (i : Nat) : Bool := r.flags.getLsbD i

/-- The fields of the block header at `p` (45_mmcmp.md R243, R250), read from there on (10_state.md R29). -/
def mmBlockRegs (p : Nat) (s : State) : State :=
  let l := s.cfg.mm
  { s.seek (p + l.blockLen) with
    mm :=
      { s.mm with
        unpk := s.src.le (p + l.unpkAt) 4
        pk := s.src.le (p + l.pkAt) 4
        xorChk := s.src.le (p + l.xorAt) 4
        nsub := s.src.le (p + l.subAt) 2
        flags := BitVec.ofNat 16 (s.src.le (p + l.flagsAt) 2)
        tt := s.src.le (p + l.ttAt) 2
        nbits := s.src.le (p + l.bitsAt) 2 } }

/-- Every one of the `n` sub-blocks from `k` on lies inside `OUT` (45_mmcmp.md R249). -/
def mmSubsInside (s : State) (hdr : Nat) : Nat → Nat → Bool
  | _, 0 => true
  | k, n + 1 =>
    match s.subBlock? hdr k with
    | some (pos, size) =>
      decide (pos ≤ s.mm.fsize) && decide (size ≤ s.mm.fsize - pos) && mmSubsInside s hdr (k + 1) n
    | none => false

/-- `n` bytes of `SRC` from `q` into `OUT` from `a`, in address order (45_mmcmp.md R264). -/
def OutBuf.copyFrom (m : Source) : Nat → Nat → Nat → OutBuf → OutBuf
  | 0, _, _, o => o
  | n + 1, a, q, o => OutBuf.copyFrom m n (a + 1) (q + 1) (o.write a (m.byte q))

/-- `raw_block()` from sub-block `k`, `n` of them left, its bytes at `q` (45_mmcmp.md R264); the next ones stand `rawGap`
bytes after it (G11). -/
def mmRawBlock (hdr : Nat) : Nat → Nat → Nat → State → Run
  | 0, _, _, s => .on s
  | n + 1, k, q, s =>
    match s.subBlock? hdr k with
    | some (pos, size) =>
      if q + size > s.src.len then .stop .errStarved s
      else mmRawBlock hdr n (k + 1) (q + size + s.cfg.mm.rawGap) { s with out := s.out.copyFrom s.src size pos q }
    | none => .stop .errStarved s

/-- The end of a compressed payload before it is cut to the source (45_mmcmp.md R246). -/
def mmPayloadEnd (s : State) : Nat :=
  if s.cfg.mm.pkFromPay then s.mm.pay + s.mm.pk else s.mm.pay + s.mm.tt + s.mm.pk

/-- The set-up of `comp_block(N)` (45_mmcmp.md R251, R246, R262). -/
def mmCompOpen (S : Width) (s0 b hdr : Nat) (s : State) : Run :=
  let lim := min (mmPayloadEnd s) s.src.len
  if s.mm.nbits ≥ S.bits then .stop .errWidth s
  else if S = .w8 ∧ s.mm.pay + 256 > s.src.len then .stop .errStarved s
  else .on
    { s with
      mm := { s.mm with numbits := s.mm.nbits, oldval := 0, subk := 0, subpos := 0 }
      rd := { s.rd.clear lim 0 with spos := min (s.mm.pay + s.mm.tt) lim }
      phase := .mmComp S s0 b hdr }

/-- `block(b)` past its header and sub-block table tests (45_mmcmp.md R250): the raw copy, or the set-up of a
compressed block. -/
def mmBlockBody (s0 b hdr : Nat) (s : State) : Run :=
  if !s.mm.flag s.cfg.mm.compBit then
    match mmRawBlock hdr s.mm.nsub 0 s.mm.pay s with
    | .on t => .on { t with phase := .mmTop s0 (b + 1) }
    | .stop code t => .stop code t
  else if s.mm.flag s.cfg.mm.wideBit then mmCompOpen .w16 s0 b hdr s
  else mmCompOpen .w8 s0 b hdr s

/-- `block(b)` from its header at `p` on (45_mmcmp.md R250); `SPOS` stands after the sub-block table (10_state.md R29). -/
def mmBlockAt (s0 b p : Nat) (s : State) : Run :=
  let l := s.cfg.mm
  if p + l.blockLen > s.src.len then .stop .errStarved s
  else
    let t := mmBlockRegs p s
    let pay := p + l.blockLen + l.subLen * t.mm.nsub
    if pay > s.src.len then .stop .errStarved t
    else
      let u := { t.seek pay with mm := { t.mm with pay := pay } }
      if mmSubsInside u p 0 u.mm.nsub then mmBlockBody s0 b p u else .stop .errBounds u

/-- The result of a piece of `MMCMP`: it goes on, or the command ends with the stop's code. -/
def mmSettle (s0 : Nat) : Run → State
  | .on t => t
  | .stop code t => mmStop code s0 t

/-- The loop of `MMCMP` over its blocks (45_mmcmp.md R240). -/
def mmTopNext (s0 b : Nat) (s : State) : Fetched :=
  if b < s.mm.nblk then
    match s.src.le? (s.mm.btab + s.cfg.mm.entryLen * b) 4 with
    | some p => .control (mmSettle s0 (mmBlockAt s0 b p s))
    | none => .fault .sourceBounds
  else .control (mmFinish s0 s)

/-! ### Events of a compressed block -/

/-- The sub-block cursor moved past full sub-blocks (45_mmcmp.md R251, R260), `n` entries left to look at;
none where an entry lies outside the source. -/
def mmAdvance (S : Width) (hdr : Nat) : Nat → State → Option State
  | 0, s => some s
  | n + 1, s =>
    match s.subBlock? hdr s.mm.subk with
    | some (_, size) =>
      if s.mm.subpos ≥ subElems S size then
        mmAdvance S hdr n { s with mm := { s.mm with subk := s.mm.subk + 1, subpos := 0 } }
      else some s
    | none => none

/-- The loop of `comp_block` (45_mmcmp.md R251): the next event, the end of the block when every sub-block is
full, or the stop at an event that cannot be read (R261). -/
def mmCompNext (S : Width) (s0 b hdr : Nat) (s : State) : Fetched :=
  match mmAdvance S hdr (s.mm.nsub - s.mm.subk) s with
  | none => .fault .sourceBounds
  | some t =>
    if t.mm.subk ≥ t.mm.nsub then .control { t with phase := .mmTop s0 (b + 1) }
    else
      match decodeMm t.cfg (readGot t.src .pk) S t.mm.numbits t.rd with
      | .event i r => .instr i { t with rd := r }
      | .starved r => .control (mmStop .errStarved s0 { t with rd := r })
      | .noCode r => .control (mmStop .errNoCode s0 { t with rd := r })
      | .badWidth r => .control (mmStop .errWidth s0 { t with rd := r })
      | .illegal _ r => .control (mmStop .errIllegalCmd s0 { t with rd := r })

/-- An event of a compressed block; elsewhere there is no such event. -/
def inMmComp (s : State) (body : Width → Nat → Nat → Nat → Result) : Result :=
  match s.phase with
  | .mmComp S s0 b hdr => body S s0 b hdr
  | .idle => .fault .eventOutsideCommand
  | .issued => .fault .eventOutsideCommand
  | .itTop _ _ _ _ => .fault .eventOutsideCommand
  | .itBlock _ _ _ _ => .fault .eventOutsideCommand
  | .mdl _ _ => .fault .eventOutsideCommand
  | .blast _ _ => .fault .eventOutsideCommand
  | .mmTop _ _ => .fault .eventOutsideCommand
  | .hufcon _ _ _ => .fault .eventOutsideCommand

/-- The word `store(16, d)` writes, and `OLDVAL` after it (45_mmcmp.md R258). -/
def mmWord (c : Config) (r : MmRegs) (d : Nat) : BitVec 16 × BitVec 16 :=
  if r.flag c.mm.deltaBit then (mmFold c d + r.oldval, mmFold c d + r.oldval)
  else if r.flag c.mm.abs16Bit then (mmFold c d, r.oldval)
  else (mmFold c d ^^^ 0x8000, r.oldval)

/-- The byte `store(8, d)` writes for the permuted value `v`, and `OLDVAL` after it (45_mmcmp.md R259). -/
def mmByte (c : Config) (r : MmRegs) (v : Byte) : Byte × BitVec 16 :=
  if r.flag c.mm.deltaBit then
    (v + r.oldval.setWidth 8, (v + r.oldval.setWidth 8).setWidth 16)
  else (v, r.oldval)

/-- Where `store` writes: `pos_SUBK` + `SUBPOS` elements (45_mmcmp.md R258, R259); none where the entry lies
outside the source. -/
def mmAddress (S : Width) (hdr : Nat) (s : State) : Option Nat :=
  (s.subBlock? hdr s.mm.subk).map fun e => e.1 + S.bits / 8 * s.mm.subpos

/-- `SUBPOS` <- `SUBPOS` + 1 with a new `OLDVAL`. -/
def MmRegs.advance (r : MmRegs) (oldval : BitVec 16) : MmRegs :=
  { r with oldval := oldval, subpos := r.subpos + 1 }

/-- `store(16, d)` at `a` (45_mmcmp.md R258): low byte first. -/
def mmStoreWord (a d : Nat) (s : State) : State :=
  let w := mmWord s.cfg s.mm d
  { s with
    mm := s.mm.advance w.2
    out := (s.out.write a (w.1.extractLsb' 0 8)).write (a + 1) (w.1.extractLsb' 8 8) }

/-- `store(8, d)` at `a` with `PTAB[d]` = `v` (45_mmcmp.md R259). -/
def mmStoreByte (a : Nat) (v : Byte) (s : State) : State :=
  let w := mmByte s.cfg s.mm v
  { s with mm := s.mm.advance w.2, out := s.out.write a w.1 }

/-- `store(N, d)` (45_mmcmp.md R258, R259, R262). -/
def mmStore (S : Width) (hdr d : Nat) (s : State) : Result :=
  match mmAddress S hdr s with
  | none => .fault .sourceBounds
  | some a =>
    match S with
    | .w16 => if a + 1 < s.out.len then .next (mmStoreWord a d s) else .fault .outputBounds
    | .w8 =>
      match s.src.le? (s.mm.pay + d) 1 with
      | none => .fault .sourceBounds
      | some v =>
        if a < s.out.len then .next (mmStoreByte a (BitVec.ofNat 8 v) s) else .fault .outputBounds

/-- `mm.v` (45_mmcmp.md R254). -/
def execMmV (d : Nat) (s : State) : Result := inMmComp s fun S _ _ hdr => mmStore S hdr d s

/-- `mm.w` (45_mmcmp.md R255). -/
def execMmW (d f : Nat) (s : State) : Result :=
  inMmComp s fun S _ _ _ =>
    .next { s with mm := { s.mm with numbits := escapeWidth s.cfg S s.mm.numbits d f } }

/-- `mm.x` (45_mmcmp.md R256): the escape and fetch fields have said that the width stays. -/
def execMmX (_d _f x : Nat) (s : State) : Result :=
  inMmComp s fun S _ _ hdr => mmStore S hdr (mmExtended s.cfg S x) s

/-- `mm.end` (45_mmcmp.md R257): the block's decoding stops, the next block is processed; with the parameter the other way
(G14) only the current sub-block ends. -/
def execMmEnd (_d _f : Nat) (s : State) : Result :=
  inMmComp s fun _ s0 b _ =>
    if s.cfg.mmEndsBlock then .next { s with phase := .mmTop s0 (b + 1) }
    else .next { s with mm := { s.mm with subk := s.mm.subk + 1, subpos := 0 } }

end Sys2Proof.Machine
end

