-- ==== Sys2Proof/Machine/Dispatch.lean ====
section
/-! DEFINITION. One arm per instruction: the meaning it has (30_encoding.md R92, R99, R101, R102, R104, R106). -/

namespace Sys2Proof.Machine

open Sys2Proof

def exec (i : Instr) (s : State) : Host.Outcome State Fault Refusal :=
  match i with
  | .nop => Sys2Proof.Machine.execNop s
  | .itd8 f215 => Sys2Proof.Machine.execItd8 f215 s
  | .itd16 f215 => Sys2Proof.Machine.execItd16 f215 s
  | .mdld8 => Sys2Proof.Machine.execMdld8 s
  | .mdld16 => Sys2Proof.Machine.execMdld16 s
  | .blast => Sys2Proof.Machine.execBlast s
  | .mmcmp => Sys2Proof.Machine.execMmcmp s
  | .brinit => Sys2Proof.Machine.execBrinit s
  | .rdbitsIt n => Sys2Proof.Machine.execRdbitsIt n s
  | .rdbitsMdl n => Sys2Proof.Machine.execRdbitsMdl n s
  | .rdbitsPk n => Sys2Proof.Machine.execRdbitsPk n s
  | .brseed k => Sys2Proof.Machine.execBrseed k s
  | .hufcon t => Sys2Proof.Machine.execHufcon t s
  | .hufdec t => Sys2Proof.Machine.execHufdec t s
  | .wreset => Sys2Proof.Machine.execWreset s
  | .wput => Sys2Proof.Machine.execWput s
  | .wcopy => Sys2Proof.Machine.execWcopy s
  | .wflush => Sys2Proof.Machine.execWflush s
  | .itS value => Sys2Proof.Machine.execItS value s
  | .itWl field => Sys2Proof.Machine.execItWl field s
  | .itWm value => Sys2Proof.Machine.execItWm value s
  | .itWt low => Sys2Proof.Machine.execItWt low s
  | .mdlShort lo sign mag => Sys2Proof.Machine.execMdlShort lo sign mag s
  | .mdlLong lo sign run remainder => Sys2Proof.Machine.execMdlLong lo sign run remainder s
  | .blLit b => Sys2Proof.Machine.execBlLit b s
  | .blMatch sym extra dsym dextra => Sys2Proof.Machine.execBlMatch sym extra dsym dextra s
  | .blEnd => Sys2Proof.Machine.execBlEnd s
  | .mmV d => Sys2Proof.Machine.execMmV d s
  | .mmW d f => Sys2Proof.Machine.execMmW d f s
  | .mmX d f x => Sys2Proof.Machine.execMmX d f x s
  | .mmEnd d f => Sys2Proof.Machine.execMmEnd d f s
  | .hdRun rep len => Sys2Proof.Machine.execHdRun rep len s

end Sys2Proof.Machine
end

