-- ==== Sys2Proof/Machine/Fetch.lean ====
section
/-! DEFINITION. Fetching what the block does next: nothing while it is idle, the command word once the host has written
one, the next stream event or control step of the command in progress (00_scope.md R7, 30_encoding.md R90); and the
placing of a table word where the next fetch finds it. -/

namespace Sys2Proof.Machine

open Sys2Proof

/-- A command's arguments fail the test its rule lists under "refuse" (60_exceptions.md R289 (b)): the very tests its
meaning makes. A stream event is no command and has none. -/
def commandRefused (i : Instr) (s : State) : Bool :=
  match i with
  | .itd8 _ => itRefused s
  | .itd16 _ => itRefused s
  | .mdld8 => mdlRefused s
  | .mdld16 => mdlRefused s
  | .blast => decide (s.rd.spos > s.src.len)
  | .brinit => decide (s.rd.spos > s.src.len)
  | .rdbitsIt n => decide (n.toNat > NMAX)
  | .rdbitsMdl n => decide (n.toNat > NMAX)
  | .rdbitsPk n => decide (n.toNat > NMAX)
  | .brseed k => decide (k.toNat > ACCW / 8)
  | .hufcon .lit => false
  | .hufcon .len => false
  | .hufcon .dist => false
  | .hufcon .user => hufconUserRefused s
  | .hufdec t => !(s.huf.get t).valid
  | .wcopy => wcopyRefused s
  | .nop => false
  | .mmcmp => false
  | .wreset => false
  | .wput => false
  | .wflush => false
  | .itS _ => false
  | .itWl _ => false
  | .itWm _ => false
  | .itWt _ => false
  | .mdlShort _ _ _ => false
  | .mdlLong _ _ _ _ => false
  | .blLit _ => false
  | .blMatch _ _ _ _ => false
  | .blEnd => false
  | .mmV _ => false
  | .mmW _ _ => false
  | .mmX _ _ _ => false
  | .mmEnd _ _ => false
  | .hdRun _ _ => false

/-- The block takes the command word: its meaning is that of a command met by a block with no other in progress. -/
def State.takeCommand (s : State) : State := { s with phase := .idle }

/-- The command word the host has written, decoded (30_encoding.md R91, R96). -/
def fetchCommand (s : State) : Fetched :=
  match decodeCommand s.host.cmd with
  | .ok i => .instr i s.takeCommand
  | .error e => .illegal e s.takeCommand

/-- What the block does next. -/
def fetch (s : State) : Fetched :=
  match s.phase with
  | .idle => .rest
  | .issued => fetchCommand s
  | .itTop S f215 start nOut => itTopNext S f215 start nOut s
  | .itBlock S f215 start nOut => itBlockNext S f215 start nOut s
  | .mdl S nOut => mdlNext S nOut s
  | .blast s0 nSink => blastNext s0 nSink s
  | .mmTop s0 b => mmTopNext s0 b s
  | .mmComp S s0 b hdr => mmCompNext S s0 b hdr s
  | .hufcon n left lengths => hufconNext n left lengths s

/-- The decoding context of a state (30_encoding.md R108). -/
def State.ctx (s : State) : Ctx :=
  match s.phase with
  | .idle => .command
  | .issued => .command
  | .itTop S _ _ _ => .it S s.it.width
  | .itBlock S _ _ _ => .it S s.it.width
  | .mdl S _ => .mdl S
  | .blast _ _ => .blast s.blast.lit s.blast.dict
  | .mmTop _ _ => .command
  | .mmComp S _ _ _ => .mmcmp S s.mm.numbits
  | .hufcon _ _ _ => .descriptor

/-! ### Placing a word -/

/-- The bytes of a bit string, first bit least significant, the last byte padded with zeros. -/
def bitsBytes (bs : List Bool) : List Byte :=
  (List.range ((bs.length + 7) / 8)).map fun i => BitVec.ofNat 8 (bitsNat ((bs.drop (8 * i)).take 8))

/-- The command word `w` written by the host to an idle block. -/
def placeCommand (w : Nat) (s : State) : State :=
  { s with host := { s.host with cmd := BitVec.ofNat 32 w }, phase := .issued }

/-- The stream `bs` as the events of a `BLAST` in progress with raw literals and `dict` = 4. -/
def placeBlast (bs : List Bool) (s : State) : State :=
  let m := Source.ofBytes (bitsBytes bs)
  { s with
    src := m
    rd := { s.rd.clear m.len 0 with spos := 0 }
    huf :=
      { s.huf with
        lit := s.cfg.staticTable .lit
        len := s.cfg.staticTable .len
        dist := s.cfg.staticTable .dist }
    blast := { s.blast with lit := 0, dict := 4 }
    phase := .blast 0 0 }

/-- The stream `bs` as the events of a 16-bit compressed MMCMP block in progress at `NUMBITS` = 3, with one
sub-block of four bytes. -/
def placeMm (bs : List Bool) (s : State) : State :=
  let m := Source.ofBytes (List.replicate 24 0 ++ [4, 0, 0, 0] ++ bitsBytes bs)
  { s with
    src := m
    rd := { s.rd.clear m.len 0 with spos := 28 }
    mm := { s.mm with numbits := 3, nsub := 1, subk := 0, subpos := 0, flags := 5, pay := 28, fsize := 4 }
    out := s.out.allocate 4
    phase := .mmComp .w16 0 0 0 }

/-- A table word placed where the next fetch reads it, in the context `tableCtx` names. -/
def placeWord (nbits w : Nat) (s : State) : State :=
  if nbits ≤ 8 then placeMm (tableStream nbits w) s
  else if nbits ≤ 16 then placeBlast (tableStream nbits w) s
  else placeCommand w s

end Sys2Proof.Machine
end

