-- ==== Sys2Proof/Machine/Step.lean ====
section
/-! DEFINITION. One step of the block (00_scope.md R7): fetch, then run the instruction, take the control step, refuse
the illegal word, or rest. -/

namespace Sys2Proof.Machine

open Sys2Proof

/-- One step. -/
def step (s : State) : Host.Outcome State Fault Refusal :=
  match fetch s with
  | .rest => .next s
  | .illegal _ t => .next (refuse t)
  | .instr i t => exec i t
  | .control t => .next t
  | .fault r => .fault r

/-- The state with a table word stored where `step` fetches its next instruction. -/
def State.withFetchWord (s : State) (nbits w : Nat) : State := placeWord nbits w s

end Sys2Proof.Machine
end

