-- ==== Sys2Proof/Machine/HostPort.lean ====
section
/-! DEFINITION. What the host can do (10_state.md section 2, 70_reset_and_hazards.md R314 to R317): read and write the
registers of the host port, hand over `SRC` and `DST`, read `DST`, `SINK` and `OUT`, empty `SINK`. The host acts only between commands. -/

namespace Sys2Proof.Machine

open Sys2Proof

/-- What the host reads at a register index (10_state.md R22 to R28): `CMD` reads as 0, `BUSY` in bit 0. No
register stands at an index above 9 (log 17). DESIGN CHOICE (log 30): a read of `SPOS` while `BUSY` = 1, which R28
does not speak of, gives the running command's cursor. DESIGN CHOICE (log 29): `OUT_VALID`, which D2 counts among the
read-only registers and to which R22 to R28 give no index, is not read by an index; `hostOutValid` reads it. -/
def hostRead (index : Nat) (s : State) : Option Word :=
  match index with
  | 0 => some 0
  | 1 => some s.host.arg0
  | 2 => some s.host.arg1
  | 3 => some s.host.arg2
  | 4 => some s.host.arg3
  | 5 => some s.host.status
  | 6 => some s.host.consumed
  | 7 => some s.host.result
  | 8 => some ((BitVec.ofBool s.busy).setWidth 32)
  | 9 => some (BitVec.ofNat 32 s.rd.spos)
  | _ => none

/-- What the host reads as `OUT_VALID` (10_state.md R49, D2). DESIGN CHOICE (log 29): a read of its own, at no index, as
the register stands, also while `BUSY` = 1. -/
def hostOutValid (s : State) : Bool := s.out.valid

/-- The host reads `OUT[a]` between commands (70_reset_and_hazards.md R317): there is a buffer to read only while `OUT_VALID`
is 1 (10_state.md R49). -/
def hostReadOut (a : Nat) (s : State) : Option Byte :=
  if s.busy then none else if s.out.valid then s.out.read a else none

/-- A host write of `CMD` while `BUSY` = 0 (10_state.md R22, R27): a legal word whose arguments are acceptable starts its
command and `BUSY` is 1 from here on; an illegal word, or arguments that fail their command's test, are refused in the
write: nothing is started, `BUSY` stays 0 and only the result registers change (30_encoding.md R96, 60_exceptions.md
R280, R289). -/
def hostIssue (v : Word) (s : State) : State :=
  match decodeCommand v with
  | .ok i =>
    if commandRefused i s then refuse s
    else { s with host := { s.host with cmd := v }, phase := .issued }
  | .error _ => refuse s

/-- A host write of a register while `BUSY` = 0. DESIGN CHOICE (log 17): a write of a read-only register or an absent
index changes nothing. -/
def hostWriteIdle (index : Nat) (v : Word) (s : State) : State :=
  match index with
  | 0 => hostIssue v s
  | 1 => { s with host := { s.host with arg0 := v } }
  | 2 => { s with host := { s.host with arg1 := v } }
  | 3 => { s with host := { s.host with arg2 := v } }
  | 4 => { s with host := { s.host with arg3 := v } }
  | 9 => s.seek v.toNat
  | _ => s

/-- A host write of a register: ignored while `BUSY` = 1 (70_reset_and_hazards.md R316). -/
def hostWrite (index : Nat) (v : Word) (s : State) : State :=
  if s.busy then s else hostWriteIdle index v s

/-- The host writes `CMD` and the block takes its first step: for a leaf command, all of it (00_scope.md R7). -/
def hostCommand (w : Word) (s : State) : Result := step (hostWrite 0 w s)

/-- The host provides `SRC` between commands (70_reset_and_hazards.md R314, R317). -/
def hostLoadSource (bytes : List Byte) (s : State) : State :=
  if s.busy then s else { s with src := Source.ofBytes bytes }

/-- The host provides `DST` with its capacity between commands (70_reset_and_hazards.md R314). -/
def hostGiveDst (cap : Nat) (cells : Memory 16) (s : State) : State :=
  if s.busy then s else { s with dst := cells, dstCap := cap }

/-- The host reads element `i` of `DST`, an index below `DST_CAP`, as bytes between commands (20_memory.md R60, R66,
70_reset_and_hazards.md R317). DESIGN CHOICE (log 33): an element that neither the host nor a command has written, to which
the spec gives no value, gives none. DESIGN CHOICE (log 21): the host says at which width it takes the element; at 8 bits
it gets the low byte alone. -/
def hostReadDst (S : Width) (i : Nat) (s : State) : Option (List Byte) :=
  if s.busy then none else if i < s.dstCap then s.dstBytes S i else none

/-- The host reads `SINK` between commands (20_memory.md R63). DESIGN CHOICE (log 32): a read gives all of it and, not
changing the state, leaves its bytes there. -/
def hostReadSink (s : State) : Option (List Byte) :=
  if s.busy then none else some s.sink

/-- The host empties `SINK` between commands (20_memory.md R63). DESIGN CHOICE (log 32): this access hands the host all
the bytes it removes, and removes all of them; while `BUSY` = 1 it gives no byte and removes none. -/
def hostTakeSink (s : State) : List Byte × State :=
  if s.busy then ([], s) else (s.sink, { s with sink := [] })

end Sys2Proof.Machine
end

