-- ==== Sys2Proof/Safety.lean ====
section
/-! DEFINITION. The terms claims use: what the reader, the window and the whole state hold between steps. A state is
safe when it is well formed (`State.Wf`); a safe run is one whose every step gives a next state that is
well formed. -/

namespace Sys2Proof.Machine

open Sys2Proof

/-! ### The bit string of a source -/

/-- Bit `k` of the byte range of `m` that starts at `base`: bit `k mod 8` of byte `k div 8`
(00_scope.md R13). -/
def streamBit (m : Source) (base k : Nat) : Bool := (m.byte (base + k / 8)).getLsbD (k % 8)

/-- The `n`-bit value at stream position `p` (00_scope.md R13). -/
def streamValue (m : Source) (base p n : Nat) : Nat :=
  bitsNat ((List.range n).map fun i => streamBit m base (p + i))

/-- The bits of the byte range `[base, stop)` of `m` from stream position `p` on. -/
def streamRest (m : Source) (base p stop : Nat) : List Bool :=
  (List.range (8 * stop - (8 * base + p))).map fun i => streamBit m base (p + i)

/-- The end of what the reader may fetch. -/
def Reader.limit (r : Reader) (m : Source) : Nat := min r.brlim m.len

/-- `p` bits of the range that starts at `base` have been consumed: the low `REAL` bits of `ACC` are the next
stream bits, the cursor stands after them, and bits above `REAL` came from phantom bytes, of which there are
none before the range's end (40_bitreader.md R121, R122). -/
structure ReaderAt (m : Source) (base p : Nat) (r : Reader) : Prop where
  fresh : r.starved = false
  real_le : r.real ≤ r.cnt
  cnt_le : r.cnt ≤ ACCW
  seed_le : r.seedlv ≤ ACCW
  place : 8 * r.spos = 8 * base + p + r.real
  inside : r.spos ≤ r.limit m
  atEnd : r.real < r.cnt → r.spos = r.limit m
  bits : ∀ i < r.real, r.acc.getLsbD i = streamBit m base (p + i)
  above : ∀ i, r.cnt ≤ i → r.acc.getLsbD i = false

/-- A reader stands before these bits: they are what its range has left. -/
def ReaderBefore (m : Source) (base : Nat) (bs : List Bool) (r : Reader) : Prop :=
  ∃ p, ReaderAt m base p r ∧ bs = streamRest m base p (r.limit m)

/-- The register invariants of the reader between steps (40_bitreader.md R125 (a), (b); 10_state.md R56). -/
structure ReaderOk (r : Reader) : Prop where
  real_le : r.real ≤ r.cnt
  cnt_le : r.cnt ≤ ACCW
  above : r.acc.toNat < 2 ^ r.cnt
  seed_le : r.seedlv ≤ ACCW
  seed_bytes : 8 ∣ r.seedlv

/-! ### The end of a command -/

/-- The state with the result registers written and no command in progress; nothing else changes. -/
def State.ended (s : State) (status : Word) (consumed result : Nat) : State :=
  { s with
    host :=
      { s.host with
        status := status
        consumed := BitVec.ofNat 32 consumed
        result := BitVec.ofNat 32 result }
    phase := .idle }

/-! ### Canonical codes -/

/-- The first code of a length: `first(1)` = 0, `first(len + 1)` = (`first(len)` + `COUNT[len]`) · 2
(43_huffman.md R191). -/
def firstCode (lengths : List Nat) : Nat → Nat
  | 0 => 0
  | 1 => 0
  | l + 2 => (firstCode lengths (l + 1) + lengths.count (l + 1)) * 2

/-- `decode` reports that no code matched (43_huffman.md R197). -/
def foundNoCode {σ : Type} : Walked σ → Bool
  | .noCode _ => true
  | .sym _ _ => false
  | .starved _ => false

/-! ### The output of the window -/

/-- What a copy appends to the output: byte by byte, each from `dist` back in the output so far
(44_blast_lz77.md R227). -/
def lzExtend (dist : Nat) : Nat → List Byte → List Byte
  | 0, out => out
  | len + 1, out => lzExtend dist len (out ++ [out.getD (out.length - dist) 0])

/-- The window holds the last 4096 bytes of the output `out` since the last reset, and `SINK` everything
flushed (44_blast_lz77.md R220); `base` is what `SINK` held at the reset. -/
structure WindowAt (base out : List Byte) (z : Lz) : Prop where
  cursor : z.win.next.val = out.length % WIN_SIZE
  first : z.win.first = decide (out.length < WIN_SIZE)
  flushed : z.sink = base ++ out.take (out.length - out.length % WIN_SIZE)
  held : ∀ j < out.length, out.length ≤ j + WIN_SIZE → some (z.win.byte (j % WIN_SIZE)) = out[j]?

/-! ### The whole state -/

/-- A static table is as at power-on or as `construct` builds it (10_state.md R45, 43_huffman.md R204). -/
def StaticOk (c : Config) (x : HufTable) (t : TableSel) : Prop := x = HufTable.blank ∨ x = c.staticTable t

/-- There is room in `DST` for `k` more samples of `ITD*` (20_memory.md R74). -/
def ItRoom (s : State) (k : Nat) : Prop := 0 < k → s.dpos + (k - 1) * s.argStride < s.dstCap

/-- The container header of the `MMCMP` in progress has passed its checks and `OUT` is allocated
(45_mmcmp.md R247, R248), and `OUT_VALID` is 0 (10_state.md R49). -/
structure MmHeaderOk (s : State) : Prop where
  table : s.mm.btab + 4 * s.mm.nblk ≤ s.src.len
  size : s.mm.fsize ≤ MM_MAXSIZE
  outLen : s.out.len = s.mm.fsize
  notYet : s.out.valid = false

/-- The compressed block in progress has passed its checks (45_mmcmp.md R249 to R251). -/
structure MmBlockOk (S : Width) (hdr : Nat) (s : State) : Prop where
  header : MmHeaderOk s
  pay : s.mm.pay = hdr + 20 + 8 * s.mm.nsub
  inside : s.mm.pay ≤ s.src.len
  subs : mmSubsInside s hdr 0 s.mm.nsub = true
  cursor : s.mm.subk ≤ s.mm.nsub
  width : s.mm.numbits < S.bits
  table : S = .w8 → s.mm.pay + 256 ≤ s.src.len

/-- What holds at each point of a command's pseudocode. -/
def PhaseOk (s : State) : Prop :=
  match s.phase with
  | .idle => True
  | .issued => True
  | .itTop _ _ start _ => start ≤ s.rd.spos ∧ s.rd.spos ≤ s.src.len ∧ ItRoom s s.it.rem
  | .itBlock _ _ start _ =>
    start ≤ s.rd.spos ∧ s.rd.spos ≤ s.it.blkend ∧ s.it.blkend ≤ s.src.len ∧
      s.rd.brlim = s.it.blkend ∧ s.it.blkpos ≤ s.it.blklen ∧ s.it.blklen ≤ s.it.rem ∧
      0 < s.it.blklen ∧ ItRoom s (s.it.rem - s.it.blkpos)
  | .mdl _ nOut =>
    s.mdl.mstart + 4 ≤ s.rd.spos ∧ s.rd.spos ≤ s.rd.brlim ∧ s.rd.brlim ≤ s.src.len ∧ nOut ≤ s.argLen ∧
      s.dpos = s.argBase + nOut ∧ (0 < s.argLen → s.argBase + s.argLen ≤ s.dstCap)
  | .blast s0 _ =>
    s0 ≤ s.rd.spos ∧ s.rd.spos ≤ s.src.len ∧ s.rd.brlim = s.src.len ∧ s.blast.lit ≤ 1 ∧ 4 ≤ s.blast.dict ∧
      s.blast.dict ≤ 6 ∧ s.huf.lit = s.cfg.staticTable .lit ∧ s.huf.len = s.cfg.staticTable .len ∧
      s.huf.dist = s.cfg.staticTable .dist
  | .mmTop _ b => MmHeaderOk s ∧ b ≤ s.mm.nblk
  | .mmComp S _ b hdr => MmBlockOk S hdr s ∧ b < s.mm.nblk ∧ s.rd.spos ≤ s.rd.brlim ∧ s.rd.brlim ≤ s.src.len
  | .hufcon n left _ => s.rd.spos + left ≤ s.src.len ∧ left ≤ n ∧ n ≤ 256

/-- A well-formed state with the default parameters: sizes of the spaces, canonical memories, the reader's
invariants, the static tables, and the point of the command in progress. -/
structure State.Wf (s : State) : Prop where
  cfg : s.cfg = Config.default
  srcLen : s.src.len < 2 ^ 32
  dstCap : s.dstCap < 2 ^ 32
  src : s.src.bytes.wf = true
  dst : s.dst.wf = true
  win : s.win.cells.wf = true
  out : s.out.cells.wf = true
  reader : ReaderOk s.rd
  lit : StaticOk s.cfg s.huf.lit .lit
  len : StaticOk s.cfg s.huf.len .len
  dist : StaticOk s.cfg s.huf.dist .dist
  phase : PhaseOk s

/-- The step gives a next state that is well formed. -/
def SafeStep (s : State) : Prop := ∃ t, step s = .next t ∧ t.Wf

end Sys2Proof.Machine
end

