-- ==== Sys2Proof/Certificates/Slice0/Obligations.lean ====
section
/-! DEFINITION. The statements for the provers, in the order of the sections of spec/. Each docstring names the rule
or the choice it formalises; the parameters appear as `s.cfg` or as `Config.default`. -/

open Sys2Proof Sys2Proof.Machine

/-! ### Reset and the host port -/

/-- 70_reset_and_hazards.md R311: after power-on the block is idle and does nothing by itself. -/
def Obligations.ResetLeaves : Prop :=
  State.reset.busy = false ∧ hostRead 8 State.reset = some 0 ∧ hostRead 5 State.reset = some 0 ∧
    hostRead 9 State.reset = some 0 ∧ (∀ t, (State.reset.huf.get t).valid = false) ∧
    State.reset.out.len = 0 ∧ State.reset.out.valid = false ∧ step State.reset = .next State.reset

/-- 10_state.md R54, the power-on column: every register is 0 but `WFIRST`; the memories `WIN` and `HUF` hold no
value. -/
def Obligations.PowerOnRegisters : Prop :=
  let s := State.reset
  s.host.cmd = 0 ∧ s.host.arg0 = 0 ∧ s.host.arg1 = 0 ∧ s.host.arg2 = 0 ∧ s.host.arg3 = 0 ∧
    s.host.status = 0 ∧ s.host.consumed = 0 ∧ s.host.result = 0 ∧
    s.rd.spos = 0 ∧ s.rd.acc = 0 ∧ s.rd.cnt = 0 ∧ s.rd.real = 0 ∧ s.rd.starved = false ∧ s.rd.brlim = 0 ∧
    s.rd.seedlv = 0 ∧
    s.it = { width := 0, d1 := 0, d2 := 0, rem := 0, blklen := 0, blkpos := 0, blkend := 0 } ∧ s.dpos = 0 ∧
    s.mdl = { dlt := 0, mstart := 0, plen := 0, mlo := 0, mhi := 0, msign := false } ∧
    s.blast.lit = 0 ∧ s.blast.dict = 0 ∧ s.blast.inleft = 0 ∧ s.win.next = 0 ∧ s.win.first = true ∧
    s.mm =
      { numbits := 0, oldval := 0, subk := 0, subpos := 0, nblk := 0, fsize := 0, btab := 0, unpk := 0
        pk := 0, xorChk := 0, nsub := 0, flags := 0, tt := 0, nbits := 0, pay := 0 } ∧
    s.out.valid = false ∧ s.out.len = 0 ∧ s.win.cells = [] ∧
    ∀ t, (s.huf.get t).valid = false ∧ (s.huf.get t).count = [] ∧ (s.huf.get t).symbol = []

/-- 10_state.md R22 to R28: the host reads `STATUS`, `CONSUMED`, `RESULT` and `BUSY` at the indices 5 to 8. While the block is
idle `ARG[0..3]` and `SPOS` read back what the host wrote and a
write changes nothing else; `CMD` reads as 0. The write of a legal command word whose arguments pass the tests of
60_exceptions.md R289 (b) starts it, `BUSY` reading 1 from the write on, before the block's first step; one whose
arguments fail them starts nothing: `BUSY` stays 0 and only the result registers change (R280 (c)). That the block takes
the word in a step after the write (`phase` = `issued`) is the model's choice (log 2). -/
def Obligations.HostPort : Prop :=
  (∀ s : State,
      hostRead 5 s = some s.host.status ∧ hostRead 6 s = some s.host.consumed ∧
        hostRead 7 s = some s.host.result ∧ hostRead 8 s = some (if s.busy then 1 else 0)) ∧
  ∀ (s : State) (v : Word), s.phase = .idle →
    hostRead 1 (hostWrite 1 v s) = some v ∧ hostRead 2 (hostWrite 2 v s) = some v ∧
      hostRead 3 (hostWrite 3 v s) = some v ∧ hostRead 4 (hostWrite 4 v s) = some v ∧
      hostRead 9 (hostWrite 9 v s) = some v ∧ hostRead 0 (hostWrite 0 v s) = some 0 ∧
      hostWrite 1 v s = { s with host := { s.host with arg0 := v } } ∧
      hostWrite 2 v s = { s with host := { s.host with arg1 := v } } ∧
      hostWrite 3 v s = { s with host := { s.host with arg2 := v } } ∧
      hostWrite 4 v s = { s with host := { s.host with arg3 := v } } ∧
      hostWrite 9 v s = { s with rd := { s.rd with spos := v.toNat } } ∧
      ∀ i, decodeCommand v = .ok i →
        let beyond := s.src.len < s.rd.spos
        let itTests :=
          s.argStride = 0 ∨ beyond ∨ (0 < s.argLen ∧ s.dstCap ≤ s.argBase + (s.argLen - 1) * s.argStride)
        let mdlTests := beyond ∨ (0 < s.argLen ∧ s.dstCap ≤ s.argBase + (s.argLen - 1))
        let refused : Prop :=
          match i with
          | .itd8 _ => itTests
          | .itd16 _ => itTests
          | .mdld8 => mdlTests
          | .mdld16 => mdlTests
          | .blast => beyond
          | .brinit => beyond
          | .hufdec t => (s.huf.get t).valid = false
          | .hufcon .user =>
            s.argDescLen = 0 ∨ 256 < s.argDescLen ∨ s.src.len < s.rd.spos + s.argDescLen ∨
              malformed s.cfg (expand s.cfg (s.src.slice s.rd.spos s.argDescLen)) = true
          | .wcopy => s.argCopyLen = 0 ∨ s.argCopyDist = 0 ∨ 4096 < s.argCopyDist
          | _ => False
        (refused → hostWrite 0 v s = s.ended (-11) 0 0 ∧ hostRead 8 (hostWrite 0 v s) = some 0) ∧
          (¬ refused →
            hostWrite 0 v s = { s with host := { s.host with cmd := v }, phase := .issued } ∧
              hostRead 8 (hostWrite 0 v s) = some 1)

/-- 70_reset_and_hazards.md R316: while `BUSY` = 1 a host write of `CMD`, `ARG[0..3]` or `SPOS` is ignored. -/
def Obligations.BusyHostWritesIgnored : Prop :=
  ∀ (s : State) (v : Word), s.busy = true → ∀ index ∈ [0, 1, 2, 3, 4, 9], hostWrite index v s = s

/-- The model's choices (log 15, log 20): an instruction met in the wrong state has no effect. A command met while
another is in progress is ignored, as 70_reset_and_hazards.md R316 has its write ignored; an event of any
stream, met by a block with no command in progress or one it has not yet taken, is no event, and faults; and a word
the block is about to take (log 2) that is illegal, which no host write leaves there, is refused by the step. -/
def Obligations.WrongContext : Prop :=
  ∀ (s : State) (c : Config) (x : Ctx) (i : Instr), WellFormed c x i = true →
    (x = .command → s.busy = true → exec i s = .next s) ∧
      (x ≠ .command → s.phase = .idle ∨ s.phase = .issued → exec i s = .fault .eventOutsideCommand) ∧
      ∀ e, s.phase = .issued → decodeCommand s.host.cmd = .error e → step s = .next (s.ended (-11) 0 0)

/-! ### Command words -/

/-- 30_encoding.md R96: exactly these words are illegal; the write of an illegal word starts nothing and leaves
`STATUS` = `ERR_ILLEGAL_CMD` (−11), `CONSUMED` = 0 and `RESULT` = 0; nothing else changes and `BUSY` stays 0. -/
def Obligations.IllegalWord : Prop :=
  ∀ w : Word,
    let op := (w &&& 0x1F).toNat
    let n := ((w >>> 16) &&& 0x3F).toNat
    let bad :=
      (0x07 ≤ op ∧ op ≤ 0x0F) ∨ (0x15 ≤ op ∧ op ≤ 0x17) ∨ op = 0x1A ∨ op = 0x1B ∨
        w &&& 0xFFC0FEE0 ≠ 0 ∨ (w.getLsbD 8 = true ∧ op ≠ 0x01 ∧ op ≠ 0x02) ∨
        (n ≠ 0 ∧ op ∉ [0x11, 0x12, 0x13, 0x14, 0x18, 0x19]) ∨ (n > 57 ∧ op ∈ [0x11, 0x12, 0x13]) ∨
        (n > 8 ∧ op = 0x14) ∨ (n > 3 ∧ op ∈ [0x18, 0x19])
    ((∃ e, decodeCommand w = .error e) ↔ bad) ∧
      ∀ s : State, s.phase = .idle → bad →
        hostWrite 0 w s = s.ended (-11) 0 0 ∧ hostRead 8 (hostWrite 0 w s) = some 0

/-- 30_encoding.md R91, R92: words written out from the table of operations decode to their commands. -/
def Obligations.CommandWords : Prop :=
  decodeCommand 0x00000000 = .ok .nop ∧ decodeCommand 0x00000001 = .ok (.itd8 false) ∧
    decodeCommand 0x00000102 = .ok (.itd16 true) ∧ decodeCommand 0x00000003 = .ok .mdld8 ∧
    decodeCommand 0x00000004 = .ok .mdld16 ∧ decodeCommand 0x00000005 = .ok .blast ∧
    decodeCommand 0x00000006 = .ok .mmcmp ∧ decodeCommand 0x00000010 = .ok .brinit ∧
    decodeCommand 0x00390011 = .ok (.rdbitsIt 57) ∧ decodeCommand 0x00010012 = .ok (.rdbitsMdl 1) ∧
    decodeCommand 0x00080013 = .ok (.rdbitsPk 8) ∧ decodeCommand 0x00080014 = .ok (.brseed 8) ∧
    decodeCommand 0x00030018 = .ok (.hufcon .user) ∧ decodeCommand 0x00010019 = .ok (.hufdec .len) ∧
    decodeCommand 0x0000001C = .ok .wreset ∧ decodeCommand 0x0000001D = .ok .wput ∧
    decodeCommand 0x0000001E = .ok .wcopy ∧ decodeCommand 0x0000001F = .ok .wflush

/-- 30_encoding.md R95: `NOP` changes nothing but the result registers, which become 0. -/
def Obligations.NopResult : Prop :=
  ∀ s : State, s.phase = .idle → exec .nop s = .next (s.ended 0 0 0)

/-- 60_exceptions.md R289 (b): the arguments that make a command refused, and what a refusal leaves. -/
def Obligations.Refusals : Prop :=
  ∀ s : State, s.phase = .idle →
    (s.src.len < s.rd.spos → ∀ i ∈ [Instr.itd8 false, .itd8 true, .itd16 false, .itd16 true, .mdld8, .mdld16,
        .blast, .brinit], exec i s = .next (s.ended (-11) 0 0)) ∧
      (s.argStride = 0 → ∀ f, exec (.itd8 f) s = .next (s.ended (-11) 0 0) ∧
        exec (.itd16 f) s = .next (s.ended (-11) 0 0)) ∧
      (0 < s.argLen → s.dstCap ≤ s.argBase + (s.argLen - 1) * s.argStride → ∀ f,
        exec (.itd8 f) s = .next (s.ended (-11) 0 0) ∧ exec (.itd16 f) s = .next (s.ended (-11) 0 0)) ∧
      (0 < s.argLen → s.dstCap ≤ s.argBase + (s.argLen - 1) →
        exec .mdld8 s = .next (s.ended (-11) 0 0) ∧ exec .mdld16 s = .next (s.ended (-11) 0 0)) ∧
      (∀ t, (s.huf.get t).valid = false → exec (.hufdec t) s = .next (s.ended (-11) 0 0)) ∧
      (s.argDescLen = 0 ∨ 256 < s.argDescLen ∨ s.src.len < s.rd.spos + s.argDescLen ∨
          malformed s.cfg (expand s.cfg (s.src.slice s.rd.spos s.argDescLen)) = true →
        exec (.hufcon .user) s = .next (s.ended (-11) 0 0)) ∧
      (s.argCopyLen = 0 ∨ s.argCopyDist = 0 ∨ 4096 < s.argCopyDist →
        exec .wcopy s = .next (s.ended (-11) 0 0))

/-! ### Encoding and decoding -/

/-- Every well-formed instruction, in every decoding context, is read back from the bits the encoder gives it,
whatever follows (30_encoding.md R91, R99, R101, R102, R104, R106), at the default parameters. -/
def Obligations.DecodeEncode : Prop :=
  ∀ (x : Ctx) (i : Instr) (rest : List Bool), WellFormed Config.default x i = true →
    decodeBits Config.default x (encode Config.default x i ++ rest) = .event i rest

/-- Whatever the decoder reads is a well-formed instruction, and the bits it has taken are the encoder's: no
two bit strings stand for one instruction in one context, at the default parameters. -/
def Obligations.EncodeDecode : Prop :=
  ∀ (x : Ctx) (i : Instr) (bs rest : List Bool), decodeBits Config.default x bs = .event i rest →
    WellFormed Config.default x i = true ∧ bs = encode Config.default x i ++ rest

/-! ### A step runs the decoded instruction -/

/-- A step fetches, and runs `exec` on what the fetch decoded, in the state that has moved past it: the command word
the host has written, or the next event of the command in progress at the reader (00_scope.md R7). The model's choices:
that the block takes the word in a step after the host's write (log 2), that `HUFCON 3` takes a step
for each descriptor byte, `SPOS` moving a byte at a time (log 22), and that in `BLAST` the hidden staging `INBUF` and `INLEFT` is
brought up to date when the event's reads are done, before it runs (`blastStage`, log 18). -/
def Obligations.StepRunsDecoded : Prop :=
  ∀ (s : State) (i : Instr),
    (s.phase = .issued → decodeCommand s.host.cmd = .ok i → step s = exec i { s with phase := .idle }) ∧
      (∀ S f start n r, s.phase = .itBlock S f start n → s.it.blkpos < s.it.blklen →
        decodeIt s.cfg (readGot s.src .it) S s.it.width s.rd = .event i r → step s = exec i { s with rd := r }) ∧
      (∀ S n r, s.phase = .mdl S n → n < s.argLen →
        decodeMdl s.cfg (readGot s.src .mdl) (s.rd.bitsLeft s.src + 1) S s.rd = .event i r →
          step s = exec i { s with rd := r }) ∧
      (∀ a n r, s.phase = .blast a n →
        decodeBlast s.cfg (readGot s.src .pk) s.blast.lit s.blast.dict s.huf.lit s.huf.len s.huf.dist s.rd =
            .event i r →
          step s = exec i (blastStage a { s with rd := r })) ∧
      (∀ S a b hdr t r, s.phase = .mmComp S a b hdr → mmAdvance S hdr (s.mm.nsub - s.mm.subk) s = some t →
        t.mm.subk < t.mm.nsub →
          decodeMm t.cfg (readGot t.src .pk) S t.mm.numbits t.rd = .event i r →
            step s = exec i { t with rd := r }) ∧
      (∀ n left l, s.phase = .hufcon n (left + 1) l → s.rd.spos < s.src.len →
        i = decodeDescriptor s.cfg (s.src.byte s.rd.spos) →
          step s = exec i { s with rd := { s.rd with spos := s.rd.spos + 1 } })

/-- `ITD*` decodes the bits of its block's byte range (40_bitreader.md R121, 41_it.md R145, R151): when the bits
ahead decode to an event the step runs it with the reader past it; when they run out it stops with
`STOP_TRUNCATED`, every byte of the range fetched. -/
def Obligations.ItStream : Prop :=
  ∀ (s : State) (S : Width) (f : Bool) (start n base : Nat) (bs rest : List Bool),
    s.phase = .itBlock S f start n → s.it.blkpos < s.it.blklen → ReaderBefore s.src base bs s.rd →
      (∀ i, decodeBits s.cfg (.it S s.it.width) bs = .event i rest →
          ∃ r, ReaderBefore s.src base rest r ∧ step s = exec i { s with rd := r }) ∧
        (decodeBits s.cfg (.it S s.it.width) bs = .starved rest →
          ∃ r, r.spos = s.rd.limit s.src ∧
            step s = .next (({ s with rd := r } : State).ended 1 (r.spos - start) n))

/-- `MDLD*` decodes the bits of its payload (42_mdl.md R175, R179, R180): an event is run; when the bits run out the
command stops with `STOP_TRUNCATED` and the final seek is still done. That `MLO`, `MSIGN` and `MHI` then keep the values of
the sample before is the model's choice (log 12). -/
def Obligations.MdlStream : Prop :=
  ∀ (s : State) (S : Width) (n base : Nat) (bs rest : List Bool),
    s.phase = .mdl S n → n < s.argLen → ReaderBefore s.src base bs s.rd →
      (∀ i, decodeBits s.cfg (.mdl S) bs = .event i rest →
          ∃ r, ReaderBefore s.src base rest r ∧ step s = exec i { s with rd := r }) ∧
        (decodeBits s.cfg (.mdl S) bs = .starved rest →
          let q := min (s.mdl.mstart + 4 + s.mdl.plen) s.src.len
          ∃ r : Reader, step s = .next (({ s with rd := { r with spos := q } } : State).ended 1 (q - s.mdl.mstart) n))

/-- `BLAST` decodes the bits of its stream (44_blast_lz77.md R213, R218, R219, R229, R231): an event is run; when the
bits run out the command stops with `ERR_STARVED` (−5), what the window holds is flushed, `WNEXT` is 0 and `WFIRST` as it was
(R225), the reader has starved and `SPOS` is at the end of the source. Nothing else changes; when and how `INBUF` and `INLEFT`
are brought up to date (`blastStage` before an event; the last chunk, 0 left, at the stop) is the model's choice for this hidden
staging (log 18). -/
def Obligations.BlastStream : Prop :=
  ∀ (s : State) (a n base : Nat) (bs rest : List Bool),
    s.phase = .blast a n → s.cfg = Config.default → s.blast.dict ≤ 6 →
      s.huf.lit = s.cfg.staticTable .lit → s.huf.len = s.cfg.staticTable .len →
        s.huf.dist = s.cfg.staticTable .dist → a ≤ s.src.len → s.rd.brlim = s.src.len →
          ReaderBefore s.src base bs s.rd →
            (∀ i, decodeBits s.cfg (.blast s.blast.lit s.blast.dict) bs = .event i rest →
                ∃ r, ReaderBefore s.src base rest r ∧ step s = exec i (blastStage a { s with rd := r })) ∧
              (decodeBits s.cfg (.blast s.blast.lit s.blast.dict) bs = .starved rest →
                let u := s.src.len - a
                let chunk := a + 65536 * ((u + 65535) / 65536 - 1)
                ∃ r : Reader,
                  r.starved = true ∧ r.spos = s.src.len ∧ r.brlim = s.rd.brlim ∧ r.seedlv = s.rd.seedlv ∧
                    step s =
                      .next (({ s with
                        rd := r
                        win := { s.win with next := 0 }
                        blast :=
                          if u = 0 then s.blast
                          else { s.blast with inbuf := s.src.slice chunk (s.src.len - chunk), inleft := 0 }
                        sink := s.sink ++ s.win.firstBytes s.win.next.val } : State).ended (-5) u
                          (n + s.win.next.val)))

/-- A compressed MMCMP block decodes the bits of its payload (45_mmcmp.md R253, R261): while the current sub-block has
room an event is run; when the bits run out `MMCMP` stops with `ERR_STARVED` and without a buffer. -/
def Obligations.MmStream : Prop :=
  ∀ (s : State) (S : Width) (a b hdr base pos size : Nat) (bs rest : List Bool),
    s.phase = .mmComp S a b hdr → s.cfg = Config.default → s.mm.numbits < S.bits → s.mm.subk < s.mm.nsub →
      s.subBlock? hdr s.mm.subk = some (pos, size) → s.mm.subpos < subElems S size →
        ReaderBefore s.src base bs s.rd →
          (∀ i, decodeBits s.cfg (.mmcmp S s.mm.numbits) bs = .event i rest →
              ∃ r, ReaderBefore s.src base rest r ∧ step s = exec i { s with rd := r }) ∧
            (decodeBits s.cfg (.mmcmp S s.mm.numbits) bs = .starved rest →
              ∃ r : Reader,
                step s =
                  .next (({ s with
                    rd := { r with spos := a }
                    out := { len := 0, cells := [], valid := false, epoch := s.out.epoch } } : State).ended
                      (-5) 0 0))

/-! ### The BitReader -/

/-- 40_bitreader.md R129: `BRINIT` empties the reader and bounds it. -/
def Obligations.BrinitResult : Prop :=
  ∀ s : State, s.phase = .idle → s.rd.spos ≤ s.src.len →
    exec .brinit s =
      .next (({ s with
        rd :=
          { s.rd with
            acc := 0
            cnt := 0
            real := 0
            starved := false
            seedlv := 0
            brlim := min (s.rd.spos + s.host.arg0.toNat) s.src.len } } : State).ended 0 0 0)

/-- 40_bitreader.md R121, R127, R128, R130 to R132: in every mode a read of `n` bits at stream position `p` gives the
stream's value (its low 32 bits in `RESULT`) and leaves `p + n` bits consumed; a read past the range, or by a reader
already starved, ends with `STOP_TRUNCATED` and `RESULT` 0. Nothing but the reader and the result
registers changes. -/
def Obligations.RdbitsReads : Prop :=
  ∀ (s : State) (n : BitVec 6), s.phase = .idle → n.toNat ≤ 57 →
    ∀ i ∈ [Instr.rdbitsIt n, .rdbitsMdl n, .rdbitsPk n],
      (∀ base p, ReaderAt s.src base p s.rd →
          (8 * base + p + n.toNat ≤ 8 * s.rd.limit s.src →
              ∃ r, ReaderAt s.src base (p + n.toNat) r ∧
                exec i s =
                  .next (({ s with rd := r } : State).ended 0 (r.spos - s.rd.spos)
                    (streamValue s.src base p n.toNat))) ∧
            (8 * s.rd.limit s.src < 8 * base + p + n.toNat →
              ∃ r, r.starved = true ∧ r.spos = s.rd.limit s.src ∧
                exec i s = .next (({ s with rd := r } : State).ended 1 (r.spos - s.rd.spos) 0))) ∧
        (s.rd.starved = true →
          ∃ r, r.starved = true ∧ exec i s = .next (({ s with rd := r } : State).ended 1 (r.spos - s.rd.spos) 0))

/-- 40_bitreader.md R125 (c), (d), R131, R132: between reads the modes `IT` and `PK` keep `CNT` below 8, mode `MDL` keeps
it within 8 of the seed level; `RDBITS.PK` is `RDBITS.IT`, and so is `RDBITS.MDL` while `SEEDLV` is 0. -/
def Obligations.ReadModes : Prop :=
  (∀ (m : Source) (r : Reader) (n : Nat), n ≤ 57 →
      (r.cnt < 8 → (r.readBits m .it n).2.cnt < 8 ∧ (r.readBits m .pk n).2.cnt < 8) ∧
        (8 ∣ r.seedlv → 0 < r.seedlv → r.seedlv ≤ 64 → r.seedlv < r.cnt + 8 → r.cnt ≤ r.seedlv →
          r.seedlv < (r.readBits m .mdl n).2.cnt + 8 ∧ (r.readBits m .mdl n).2.cnt ≤ r.seedlv)) ∧
    ∀ (s : State) (n : BitVec 6),
      exec (.rdbitsPk n) s = exec (.rdbitsIt n) s ∧
        (s.rd.seedlv = 0 → exec (.rdbitsMdl n) s = exec (.rdbitsIt n) s)

/-- 40_bitreader.md R133: `BRSEED k` fills the accumulator to the seed level without consuming a bit. -/
def Obligations.BrseedFills : Prop :=
  ∀ (s : State) (k : BitVec 6) (base p : Nat), s.phase = .idle → k.toNat ≤ 8 → ReaderAt s.src base p s.rd →
    ∃ r, ReaderAt s.src base p r ∧ r.seedlv = 8 * k.toNat ∧ 8 * k.toNat < r.cnt + 8 ∧
      r.cnt ≤ max s.rd.cnt (8 * k.toNat) ∧ r.brlim = s.rd.brlim ∧
      exec (.brseed k) s = .next (({ s with rd := r } : State).ended 0 (r.spos - s.rd.spos) 0)

/-! ### The IT decoder -/

/-- 41_it.md R141, R142 and 10_state.md R54, R56: `ITD*` with acceptable arguments empties the reader, sets the command's
registers and nothing else, and goes on to its first block. That the reader is empty before the first block is the
model's reading of R54's column, which R141's pseudocode leaves to each block (log 11). -/
def Obligations.ItdStarts : Prop :=
  ∀ (s : State) (f : Bool), s.phase = .idle → s.argStride ≠ 0 → s.rd.spos ≤ s.src.len →
    (0 < s.argLen → s.argBase + (s.argLen - 1) * s.argStride < s.dstCap) →
      exec (.itd8 f) s =
          .next { s with
            rd := { s.rd with acc := 0, cnt := 0, real := 0, starved := false, seedlv := 0 }
            it := { s.it with rem := s.host.arg0.toNat }
            dpos := s.host.arg2.toNat
            phase := .itTop .w8 f s.rd.spos 0 } ∧
        exec (.itd16 f) s =
          .next { s with
            rd := { s.rd with acc := 0, cnt := 0, real := 0, starved := false, seedlv := 0 }
            it := { s.it with rem := s.host.arg0.toNat }
            dpos := s.host.arg2.toNat
            phase := .itTop .w16 f s.rd.spos 0 }

/-- 41_it.md R143, R144: the block prefix: a prefix cut short or a block reaching beyond the source stops with
`STOP_TRUNCATED`; else the block's registers are set. -/
def Obligations.ItBlockStarts : Prop :=
  ∀ (s : State) (S : Width) (f : Bool) (start n : Nat), s.phase = .itTop S f start n → 0 < s.it.rem →
    let q := s.rd.spos + 2
    let count := (s.src.byte s.rd.spos).toNat + 256 * (s.src.byte (s.rd.spos + 1)).toNat
    (s.src.len < q →
        step s =
          .next (({ s with rd := { s.rd with spos := s.src.len } } : State).ended 1 (s.src.len - start) n)) ∧
      (q ≤ s.src.len → s.src.len < q + count →
        step s = .next (({ s with rd := { s.rd with spos := q } } : State).ended 1 (q - start) n)) ∧
      (q + count ≤ s.src.len →
        step s =
          .next { s with
            rd :=
              { s.rd with
                spos := q
                acc := 0
                cnt := 0
                real := 0
                starved := false
                brlim := q + count
                seedlv := 0 }
            it :=
              { s.it with
                width := (match S with | .w8 => 9 | .w16 => 17)
                d1 := 0
                d2 := 0
                blklen := min (match S with | .w8 => 0x8000 | .w16 => 0x4000) s.it.rem
                blkpos := 0
                blkend := q + count }
            phase := .itBlock S f start n })

/-- 41_it.md R141, R145, R150, R152, R153, R159: a full block moves the cursor to its end and takes its samples from
`REM`; with nothing left the command ends `OK`; with an illegal width the step stops before it reads a bit,
with `ERR_WIDTH` (−6). -/
def Obligations.ItBlockEnds : Prop :=
  ∀ (s : State) (S : Width) (f : Bool) (start n : Nat),
    (s.phase = .itBlock S f start n → s.it.blklen ≤ s.it.blkpos →
        step s =
          .next { s with
            rd := { s.rd with spos := s.it.blkend }
            it := { s.it with rem := s.it.rem - s.it.blklen }
            phase := .itTop S f start n }) ∧
      (s.phase = .itTop S f start n → s.it.rem = 0 → step s = .next (s.ended 0 (s.rd.spos - start) n)) ∧
      (s.phase = .itBlock S f start n → s.it.blkpos < s.it.blklen →
        (s.it.width = 0 ∨ S.bits + 1 < s.it.width) → step s = .next (s.ended (-6) (s.rd.spos - start) n))

/-- 41_it.md R149, R155, R157: a sample is sign-extended from the current width and added to `D1` modulo 2^S; with
`F215` = 1 `D1` is added to `D2`, which is stored, else `D1` is. One element of `DST` changes. -/
def Obligations.ItSample : Prop :=
  ∀ (s : State) (S : Width) (f : Bool) (start n v : Nat), s.phase = .itBlock S f start n → s.dpos < s.dstCap →
    let w := s.it.width
    let residual : Int := if 2 ^ w ≤ 2 * (v % 2 ^ w) then (v % 2 ^ w : Nat) - (2 ^ w : Nat) else (v % 2 ^ w : Nat)
    ∃ t, exec (.itS v) s = .next t ∧
      (t.it.d1.toNat : Int) = (s.it.d1.toNat + residual) % (2 ^ S.bits : Nat) ∧
      (f = true → t.it.d2.toNat = (s.it.d2.toNat + t.it.d1.toNat) % 2 ^ S.bits) ∧
      (f = false → t.it.d2 = s.it.d2) ∧
      t.dst.read s.dpos = some (if f then t.it.d2 else t.it.d1) ∧
      (∀ a, a ≠ s.dpos → t.dst.read a = s.dst.read a) ∧
      t =
        { s with
          dst := t.dst
          dpos := s.dpos + s.host.arg1.toNat
          it := { s.it with d1 := t.it.d1, d2 := t.it.d2, blkpos := s.it.blkpos + 1 }
          phase := .itBlock S f start (n + 1) }

/-- 41_it.md R146, R147, R148: a width change writes `WIDTH` and nothing else; no sample is emitted. -/
def Obligations.ItWidthChanges : Prop :=
  ∀ (s : State) (S : Width) (f : Bool) (start n x : Nat), s.phase = .itBlock S f start n →
    let sized (w : Nat) : State := { s with it := { s.it with width := w } }
    let low := x + s.cfg.itLowBias
    let mid := x - s.cfg.itBorder S s.it.width
    exec (.itWl x) s = .next (sized (if low < s.it.width then low else low + 1)) ∧
      exec (.itWm x) s = .next (sized (if mid < s.it.width then mid else mid + 1)) ∧
      exec (.itWt x) s = .next (sized (x + s.cfg.itTopBias))

/-- 41_it.md R146, R147, R150 and 30_encoding.md R110, at the default parameters: from any legal width the change to any
other legal width has a well-formed event, which makes that change; and no low or mid-range event
leads to an illegal width or to the same one. -/
def Obligations.ItWidthTargets : Prop :=
  ∀ (s : State) (S : Width) (f : Bool) (start n : Nat), s.phase = .itBlock S f start n →
    s.cfg = Config.default → 1 ≤ s.it.width → s.it.width ≤ S.bits + 1 →
      (∀ w, 1 ≤ w → w ≤ S.bits + 1 → w ≠ s.it.width →
          WellFormed s.cfg (.it S s.it.width) (asmWidthChange s.cfg S s.it.width w) = true ∧
            exec (asmWidthChange s.cfg S s.it.width w) s = .next { s with it := { s.it with width := w } }) ∧
        (∀ (x : Nat) (t : State),
          (WellFormed s.cfg (.it S s.it.width) (.itWl x) = true ∧ exec (.itWl x) s = .next t) ∨
              (WellFormed s.cfg (.it S s.it.width) (.itWm x) = true ∧ exec (.itWm x) s = .next t) →
            1 ≤ t.it.width ∧ t.it.width ≤ S.bits + 1 ∧ t.it.width ≠ s.it.width)

/-! ### The MDL decoder -/

/-- 42_mdl.md R171 to R174: `MDLD*` reads the packed length, empties the reader, seeds it with 4 or 8 bytes and goes
on to its first sample; a length field cut short stops with `STOP_TRUNCATED`. That on this path too the reader is
empty, `SEEDLV` set and `DLT` 0 follows 10_state.md R30, R38, R54, R56 and D19 against the order of R171's pseudocode:
the model's reading (log 11). -/
def Obligations.MdldStarts : Prop :=
  ∀ (s : State), s.phase = .idle → s.rd.spos ≤ s.src.len →
    (0 < s.argLen → s.argBase + (s.argLen - 1) < s.dstCap) →
      ∀ S i seed, (S = Width.w8 ∧ i = Instr.mdld8 ∧ seed = 4) ∨ (S = .w16 ∧ i = .mdld16 ∧ seed = 8) →
        (s.src.len < s.rd.spos + 4 →
            exec i s =
              .next (({ s with
                mdl := { s.mdl with mstart := s.rd.spos, dlt := 0 }
                dpos := s.host.arg2.toNat
                rd :=
                  { s.rd with
                    spos := s.src.len
                    acc := 0
                    cnt := 0
                    real := 0
                    starved := false
                    seedlv := 8 * seed } } : State).ended 1 (s.src.len - s.rd.spos) 0)) ∧
          (s.rd.spos + 4 ≤ s.src.len →
            let plen := s.src.le s.rd.spos 4
            ∃ r : Reader, ReaderAt s.src (s.rd.spos + 4) 0 r ∧ r.seedlv = 8 * seed ∧ r.cnt = 8 * seed ∧
              r.brlim = min (s.rd.spos + 4 + plen) s.src.len ∧
              exec i s =
                .next { s with
                  mdl := { s.mdl with mstart := s.rd.spos, plen := plen, dlt := 0 }
                  dpos := s.host.arg2.toNat
                  rd := r
                  phase := .mdl S 0 })

/-- 42_mdl.md R175 to R178, R183: a sample's magnitude, negated when its sign is 1, is added to `DLT` modulo 256; the
16-bit variant copies the low byte. One element of `DST` changes. -/
def Obligations.MdlSample : Prop :=
  ∀ (s : State) (S : Width) (n : Nat) (lo : Option Byte) (sign : Bool) (i : Instr) (mag : Nat),
    s.phase = .mdl S n → s.dpos < s.dstCap → lo.isSome = (S == .w16) →
      ((∃ m : BitVec 3, i = .mdlShort lo sign m ∧ mag = m.toNat) ∨
          (∃ k r, i = .mdlLong lo sign k r ∧ mag = (s.cfg.mdlLongBase + 16 * k + r.toNat) % 256)) →
        let signed := if sign then (if s.cfg.mdlNegOnes then 255 - mag else (256 - mag) % 256) else mag
        ∃ t, exec i s = .next t ∧
          t.mdl.dlt.toNat = (s.mdl.dlt.toNat + signed) % 256 ∧
          t.mdl.mhi.toNat = signed ∧
          t.mdl.mlo = (match S with | .w8 => s.mdl.mlo | .w16 => lo.getD 0) ∧
          (∃ x, t.dst.read s.dpos = some x ∧
            x.toNat = (match S with | .w8 => t.mdl.dlt.toNat | .w16 => t.mdl.dlt.toNat * 256 + (lo.getD 0).toNat)) ∧
          (∀ a, a ≠ s.dpos → t.dst.read a = s.dst.read a) ∧
          t =
            { s with
              dst := t.dst
              dpos := s.dpos + 1
              mdl := { s.mdl with dlt := t.mdl.dlt, mlo := t.mdl.mlo, mhi := t.mdl.mhi, msign := sign }
              phase := .mdl S (n + 1) }

/-- 42_mdl.md R176 and 30_encoding.md R110, at the default parameters: every step from −255 to 255 of `DLT` has an event:
the short form below 8, else the long form with fewer than 16 run bits. -/
def Obligations.MdlCoding : Prop :=
  ∀ (s : State) (S : Width) (n m : Nat) (lo : Option Byte) (sign : Bool), s.phase = .mdl S n →
    s.dpos < s.dstCap → s.cfg = Config.default → lo.isSome = (S == .w16) → m < 256 →
      WellFormed s.cfg (.mdl S) (asmMdl s.cfg lo sign m) = true ∧
        ∃ t, exec (asmMdl s.cfg lo sign m) s = .next t ∧
          (t.mdl.dlt.toNat : Int) = (s.mdl.dlt.toNat + (if sign then -(m : Int) else m)) % 256

/-- 42_mdl.md R171, R180, R181: after `LEN` samples, also when `LEN` is 0, `SPOS` is put at the end of the declared
block, cut to the source, and the command ends `OK`. -/
def Obligations.MdlEnds : Prop :=
  ∀ (s : State) (S : Width) (n : Nat), s.phase = .mdl S n → s.argLen ≤ n →
    let q := min (s.mdl.mstart + 4 + s.mdl.plen) s.src.len
    step s = .next (({ s with rd := { s.rd with spos := q } } : State).ended 0 (q - s.mdl.mstart) n)

/-! ### The Huffman engine -/

/-- 43_huffman.md R195, R196, R200, R201: the three static descriptors expand to 256, 16 and 64 symbols, each constructs
to status 0, the tables hold the counts and symbols R200 lists, and the code words, as numbers and as
stream bits, are those of R201. -/
def Obligations.StaticTables : Prop :=
  let c := Config.default
  (∀ t ∈ [TableSel.lit, .len, .dist], constructStatus c (expand c (c.staticDesc t)) = 0) ∧
    (c.staticTable .lit).nsym = 256 ∧ (c.staticTable .len).nsym = 16 ∧ (c.staticTable .dist).nsym = 64 ∧
    (c.staticTable .lit).count = [0, 0, 0, 0, 1, 11, 20, 21, 16, 7, 5, 10, 91, 74] ∧
    (c.staticTable .len).count = [0, 0, 1, 3, 3, 4, 3, 2, 0, 0, 0, 0, 0, 0] ∧
    (c.staticTable .dist).count = [0, 0, 1, 0, 2, 4, 15, 26, 16, 0, 0, 0, 0, 0] ∧
    (c.staticTable .lit).symbol.take 16 =
      [0x20, 0x45, 0x61, 0x65, 0x69, 0x6C, 0x6E, 0x6F, 0x72, 0x73, 0x74, 0x75, 0x2D, 0x31, 0x41, 0x43] ∧
    (c.staticTable .len).symbol = (List.range 16).map (BitVec.ofNat 8) ∧
    (c.staticTable .dist).symbol = (List.range 64).map (BitVec.ofNat 8) ∧
    (List.range 16).map (codeOf c (c.staticTable .len)) =
      [some (2, 0b00), some (3, 0b010), some (3, 0b011), some (3, 0b100), some (4, 0b1010), some (4, 0b1011),
        some (4, 0b1100), some (5, 0b11010), some (5, 0b11011), some (5, 0b11100), some (5, 0b11101),
        some (6, 0b111100), some (6, 0b111101), some (6, 0b111110), some (7, 0b1111110), some (7, 0b1111111)] ∧
    [0, 1, 2, 3, 6, 7, 21, 22, 47, 48, 63].map (codeOf c (c.staticTable .dist)) =
      [some (2, 0b00), some (4, 0b0100), some (4, 0b0101), some (5, 0b01100), some (5, 0b01111),
        some (6, 0b100000), some (6, 0b101110), some (7, 0b1011110), some (7, 0b1110111),
        some (8, 0b11110000), some (8, 0b11111111)] ∧
    [0x20, 0x65, 0x41, 0x49, 0x00, 0xFF].map (codeOf c (c.staticTable .lit)) =
      [some (4, 0b0000), some (5, 0b00100), some (6, 0b011100), some (6, 0b011111), some (11, 0b11110110110),
        some (13, 0b1111111111111)] ∧
    symbolBits c (c.staticTable .len) 0 = [true, true] ∧
    symbolBits c (c.staticTable .len) 8 = [false, false, true, false, false] ∧
    symbolBits c (c.staticTable .len) 15 = [false, false, false, false, false, false, false]

/-- 43_huffman.md R190, R191, R194, R195: what `construct` makes of a list of lengths: `COUNT`, `NSYM`, `VALID` and, when it
succeeds, the symbols that have a code in order of length and of number within a length; and its status. A
length asks for more codes than remain when its first code plus its count is above `2^l`: the status is negative exactly where
some length does, and then it is what remains at the first such length; else it is the number of codes of `MAXBITS` bits that
are left unused. -/
def Obligations.ConstructTable : Prop :=
  ∀ (c : Config) (old : HufTable) (lengths : List Nat), malformed c lengths = false →
    let t := constructTable c old lengths
    let status := constructStatus c lengths
    let asked (l : Nat) : Nat := firstCode lengths l + lengths.count l
    t.nsym = lengths.length ∧ (∀ l ≤ c.maxBits, t.count[l]? = some (lengths.count l)) ∧
      (t.valid = decide (0 ≤ status)) ∧
      (status < 0 ↔ ∃ l, 1 ≤ l ∧ l ≤ c.maxBits ∧ 2 ^ l < asked l) ∧
      (∀ l, 1 ≤ l → l ≤ c.maxBits → 2 ^ l < asked l → (∀ k, 1 ≤ k → k < l → asked k ≤ 2 ^ k) →
        status = (2 ^ l : Int) - asked l) ∧
      (0 ≤ status → (∃ l ∈ lengths, l ≠ 0) → status = (2 ^ c.maxBits : Int) - asked c.maxBits) ∧
      ((∀ l ∈ lengths, l = 0) → status = 0 ∧ t.symbol = old.symbol) ∧
      (status < 0 → t.symbol = old.symbol) ∧
      (0 ≤ status → (∃ l ∈ lengths, l ≠ 0) →
        ∃ order : List Nat, t.symbol = order.map (BitVec.ofNat 8) ++ old.symbol.drop order.length ∧
          (∀ x, x ∈ order ↔ ∃ l, lengths[x]? = some l ∧ l ≠ 0) ∧
          order.Pairwise fun x y =>
            lengths.getD x 0 < lengths.getD y 0 ∨ (lengths.getD x 0 = lengths.getD y 0 ∧ x < y))

/-- 43_huffman.md R191, R197: `decode` reads the canonical code of every symbol of a constructible set of lengths: the
first code of the length plus the symbol's rank within it, most significant bit first, every bit
inverted, whatever follows. -/
def Obligations.CanonicalDecode : Prop :=
  ∀ (c : Config) (old : HufTable) (lengths : List Nat) (sym l : Nat) (rest : List Bool),
    malformed c lengths = false → 0 ≤ constructStatus c lengths → lengths[sym]? = some l → l ≠ 0 →
      huffDecode c listRead (constructTable c old lengths)
          (codeBits l (firstCode lengths l + (lengths.take sym).count l) ++ rest) =
        .sym sym rest

/-- 43_huffman.md R195 (c), (d): the status of a set of lengths that has codes and is not over-subscribed is the number
of bit strings of `MAXBITS` bits on which `decode` finds no code. -/
def Obligations.UnusedCodes : Prop :=
  ∀ (c : Config) (old : HufTable) (lengths : List Nat), malformed c lengths = false →
    0 ≤ constructStatus c lengths → (∃ l ∈ lengths, l ≠ 0) →
      ((((List.range (2 ^ c.maxBits)).filter fun v =>
          foundNoCode (huffDecode c listRead (constructTable c old lengths) (natBits c.maxBits v))).length : Nat) :
        Int) = constructStatus c lengths

/-- 43_huffman.md R198: `HUFCON` on a static table builds it when it is not valid, and else changes nothing; it reports
the number of symbols. `STATUS` is 0 for a table that is valid already, and the construct status of the table it builds
(10_state.md R24, 60_exceptions.md R291, D23), which is 0 with the descriptors of R196. At descriptors changed by the parameters
that status in place of R198's `STATUS <- 0` is the model's choice (log 34), and so is what a malformed one builds (log 35). -/
def Obligations.HufconStatic : Prop :=
  ∀ (s : State), s.phase = .idle → ∀ t ∈ [TableSel.lit, .len, .dist],
    ((s.huf.get t).valid = true → exec (.hufcon t) s = .next (s.ended 0 0 (s.huf.get t).nsym)) ∧
      ((s.huf.get t).valid = false →
        ∃ u, exec (.hufcon t) s = .next u ∧
          u.huf.get t = constructTable s.cfg (s.huf.get t) (expand s.cfg (s.cfg.staticDesc t)) ∧
          (∀ v, v ≠ t → u.huf.get v = s.huf.get v) ∧
          u = ({ s with huf := u.huf } : State).ended
            (BitVec.ofInt 32 (constructStatus s.cfg (expand s.cfg (s.cfg.staticDesc t)))) 0
            (expand s.cfg (s.cfg.staticDesc t)).length)

/-- 43_huffman.md R192, R198: a descriptor byte appends `REP` + 1 symbols of its length (the 1 is the parameter
`descCountBias`). After an accepted `HUFCON 3` of `n` descriptor bytes `SPOS` is past the descriptor, table 3 is what
`construct` makes of its expansion, `STATUS` is the construct status and `RESULT` the number of symbols. That it takes
a step for each descriptor byte and one to construct is the model's choice (log 22): R198 has it in one statement. -/
def Obligations.HufconUser : Prop :=
  ∀ (s : State), (∀ (n left : Nat) (l : List Nat) (rep len : BitVec 4), s.phase = .hufcon n (left + 1) l →
      exec (.hdRun rep len) s =
        .next { s with phase := .hufcon n left (l ++ List.replicate (rep.toNat + s.cfg.descCountBias) len.toNat) }) ∧
    (s.phase = .idle → 1 ≤ s.argDescLen → s.argDescLen ≤ 256 → s.rd.spos + s.argDescLen ≤ s.src.len →
      malformed s.cfg (expand s.cfg (s.src.slice s.rd.spos s.argDescLen)) = false →
        let lengths := expand s.cfg (s.src.slice s.rd.spos s.argDescLen)
        exec (.hufcon .user) s = .next { s with phase := .hufcon s.argDescLen s.argDescLen [] } ∧
          Sys2Proof.core.run (s.argDescLen + 1)
              { s with phase := .hufcon s.argDescLen s.argDescLen [] } =
            .next (({ s with
              rd := { s.rd with spos := s.rd.spos + s.argDescLen }
              huf := { s.huf with user := constructTable s.cfg s.huf.user lengths } } : State).ended
                (BitVec.ofInt 32 (constructStatus s.cfg lengths)) s.argDescLen lengths.length))

/-- 43_huffman.md R199: `HUFDEC` on a valid table decodes one symbol from the bits ahead of the reader: the symbol and
`OK`, or `ERR_NOCODE` (−9), or `ERR_STARVED` (−5), with `RESULT` 0. `CONSUMED` is the bytes fetched (10_state.md R25); that it is
so after `ERR_STARVED` too is the model's reading (log 26). -/
def Obligations.HufdecResult : Prop :=
  ∀ (s : State) (t : TableSel) (base : Nat) (bs : List Bool), s.phase = .idle → (s.huf.get t).valid = true →
    ReaderBefore s.src base bs s.rd →
      (∀ v rest, huffDecode s.cfg listRead (s.huf.get t) bs = .sym v rest →
          ∃ r, ReaderBefore s.src base rest r ∧
            exec (.hufdec t) s = .next (({ s with rd := r } : State).ended 0 (r.spos - s.rd.spos) v)) ∧
        (∀ rest, huffDecode s.cfg listRead (s.huf.get t) bs = .noCode rest →
          ∃ r, ReaderBefore s.src base rest r ∧
            exec (.hufdec t) s = .next (({ s with rd := r } : State).ended (-9) (r.spos - s.rd.spos) 0)) ∧
        (∀ rest, huffDecode s.cfg listRead (s.huf.get t) bs = .starved rest →
          ∃ r, r.spos = s.rd.limit s.src ∧
            exec (.hufdec t) s = .next (({ s with rd := r } : State).ended (-5) (r.spos - s.rd.spos) 0))

/-! ### Blast and the window -/

/-- 44_blast_lz77.md R211, R212, R230: `BLAST` empties the reader and the window, builds the static tables that are not
valid, reads the two header bytes and goes on to its first event. -/
def Obligations.BlastStarts : Prop :=
  ∀ (s : State), s.phase = .idle → s.cfg = Config.default → StaticOk s.cfg s.huf.lit .lit →
    StaticOk s.cfg s.huf.len .len → StaticOk s.cfg s.huf.dist .dist → s.rd.spos + 2 ≤ s.src.len →
      (s.src.byte s.rd.spos).toNat ≤ 1 → 4 ≤ (s.src.byte (s.rd.spos + 1)).toNat →
        (s.src.byte (s.rd.spos + 1)).toNat ≤ 6 →
          ∃ t, exec .blast s = .next t ∧
            t =
              { s with
                rd :=
                  { s.rd with
                    spos := s.rd.spos + 2
                    acc := 0
                    cnt := 0
                    real := 0
                    starved := false
                    brlim := s.src.len
                    seedlv := 0 }
                win := { s.win with next := 0, first := true }
                huf :=
                  { s.huf with
                    lit := s.cfg.staticTable .lit
                    len := s.cfg.staticTable .len
                    dist := s.cfg.staticTable .dist }
                blast :=
                  { t.blast with
                    lit := (s.src.byte s.rd.spos).toNat
                    dict := (s.src.byte (s.rd.spos + 1)).toNat }
                phase := .blast s.rd.spos 0 }

/-- 44_blast_lz77.md R211, R212, R229 to R231: the stops of `BLAST` before its first event. At every setting of the parameters,
a static table that is not valid and does not construct to status 0 stops it with `ERR_OVERSUB` (−4), the tables before it
built, no byte read and `SPOS` as it was; what a malformed descriptor builds is the model's choice (log 35). Then, at the default parameters, the header, `lit` before `dict`: `ERR_STARVED` (−5)
where a byte is missing, `ERR_HDR_LIT` (−1), `ERR_HDR_DICT` (−2), `SPOS` at the end of the chunks read. The reader and the window
are empty, `WFIRST` is 1, nothing is appended and nothing else changes; what `INBUF` and `INLEFT` then hold is the model's
choice for this hidden staging (log 18). -/
def Obligations.BlastHeaderStops : Prop :=
  ∀ (s : State), s.phase = .idle → s.rd.spos ≤ s.src.len →
    let start : State :=
      { s with
        rd := { s.rd with acc := 0, cnt := 0, real := 0, starved := false, brlim := s.src.len, seedlv := 0 }
        win := { s.win with next := 0, first := true }
        blast := { s.blast with inleft := 0 } }
    let lengths (t : TableSel) : List Nat := expand s.cfg (s.cfg.staticDesc t)
    let built (h : HufMem) (t : TableSel) : HufMem :=
      if (h.get t).valid then h else h.set t (constructTable s.cfg (h.get t) (lengths t))
    (∀ (before after : List TableSel) (t : TableSel), [.lit, .len, .dist] = before ++ t :: after →
        (∀ u ∈ before, (s.huf.get u).valid = true ∨ constructStatus s.cfg (lengths u) = 0) →
          (s.huf.get t).valid = false → constructStatus s.cfg (lengths t) ≠ 0 →
            exec .blast s =
              .next (({ start with huf := (before ++ [t]).foldl built s.huf } : State).ended (-4) 0 0)) ∧
      (s.cfg = Config.default → StaticOk s.cfg s.huf.lit .lit → StaticOk s.cfg s.huf.len .len →
        StaticOk s.cfg s.huf.dist .dist →
          let lit := (s.src.byte s.rd.spos).toNat
          let dict := (s.src.byte (s.rd.spos + 1)).toNat
          let stops (code : Word) (used draws : Nat) (regs : BlastRegs) : Prop :=
            let q := min s.src.len (s.rd.spos + 65536 * ((used + 65535) / 65536))
            exec .blast s =
              .next (({ start with
                rd := { start.rd with spos := q, starved := decide (0 < draws), draws := s.rd.draws + draws }
                huf :=
                  { s.huf with
                    lit := s.cfg.staticTable .lit
                    len := s.cfg.staticTable .len
                    dist := s.cfg.staticTable .dist }
                blast :=
                  if used = 0 then regs
                  else
                    { regs with
                      inbuf := s.src.slice s.rd.spos (q - s.rd.spos)
                      inleft := q - (s.rd.spos + used) } } : State).ended code (q - s.rd.spos) 0)
          (s.rd.spos = s.src.len → stops (-5) 0 1 start.blast) ∧
            (s.rd.spos + 1 ≤ s.src.len → 1 < lit → stops (-1) 1 0 { s.blast with lit := lit }) ∧
            (s.rd.spos + 1 = s.src.len → lit ≤ 1 → stops (-5) 1 1 { s.blast with lit := lit }) ∧
            (s.rd.spos + 2 ≤ s.src.len → lit ≤ 1 → (dict < 4 ∨ 6 < dict) →
              stops (-2) 2 0 { s.blast with lit := lit, dict := dict }))

/-- 44_blast_lz77.md R213, R215 to R217, R220, R226, R227, R229: while the window holds the output so far, a literal
appends its byte and a match appends `LBASE[s]` + extra bytes, each from `(ds << k) + dextra + 1` back; a
distance beyond the start of output stops with `ERR_DIST` (−3), nothing copied, the output flushed and `SPOS` at the end
of the chunks read (R231). Nothing else changes (`INBUF` and `INLEFT` stand as the event's reads left them: log 18). The layout of a distance is the parameter `distSymHigh`. -/
def Obligations.BlastEvents : Prop :=
  ∀ (s : State) (a n : Nat) (base out : List Byte), s.phase = .blast a n → s.cfg.distSymHigh = true →
    WindowAt base out (s.lz n) →
    (∀ b, ∃ z, WindowAt base (out ++ [b]) z ∧ z.n + s.sink.length = n + z.sink.length ∧
        exec (.blLit b) s = .next { s with win := z.win, sink := z.sink, phase := .blast a z.n }) ∧
      ∀ sym extra dsym dextra : Nat,
        let len := s.cfg.lengthBase sym + extra
        let dist := dsym * 2 ^ (if len = 2 then 2 else s.blast.dict) + dextra + 1
        dist ≤ 4096 →
          (dist ≤ out.length →
              ∃ z, WindowAt base (lzExtend dist len out) z ∧ z.n + s.sink.length = n + z.sink.length ∧
                exec (.blMatch sym extra dsym dextra) s =
                  .next { s with win := z.win, sink := z.sink, phase := .blast a z.n }) ∧
            (out.length < dist →
              let q := min s.src.len (a + s.cfg.pkChunk * ((s.rd.spos - a + s.cfg.pkChunk - 1) / s.cfg.pkChunk))
              exec (.blMatch sym extra dsym dextra) s =
                .next (({ s with
                  rd := { s.rd with spos := q }
                  win := { s.win with next := 0 }
                  sink := base ++ out } : State).ended (-3) (q - a) (n + out.length)))

/-- 44_blast_lz77.md R218, R225, R229, R231: the end event flushes the window and ends the command `OK`, with `SPOS` at
the end of the chunks read. Nothing else changes (`INBUF` and `INLEFT` stand as the event's reads left them: log 18). -/
def Obligations.BlastEnds : Prop :=
  ∀ (s : State) (a n : Nat), s.phase = .blast a n →
    let q := min s.src.len (a + s.cfg.pkChunk * ((s.rd.spos - a + s.cfg.pkChunk - 1) / s.cfg.pkChunk))
    exec .blEnd s =
        .next (({ s with
          rd := { s.rd with spos := q }
          win := { s.win with next := 0 }
          sink := s.sink ++ (List.range s.win.next.val).map s.win.byte } : State).ended 0 (q - a)
            (n + s.win.next.val)) ∧
      ∀ base out, WindowAt base out (s.lz n) →
        s.sink ++ (List.range s.win.next.val).map s.win.byte = base ++ out

/-- 44_blast_lz77.md R221, R222, R224, R225: `WRESET`, `WPUT` below and at the last cell, and `WFLUSH`. -/
def Obligations.WindowCommands : Prop :=
  ∀ (s : State), s.phase = .idle →
    exec .wreset s = .next (({ s with win := { s.win with next := 0, first := true } } : State).ended 0 0 0) ∧
      (∃ t, exec .wput s = .next t ∧
        (∀ i, t.win.byte i = if i = s.win.next.val then s.host.arg0.extractLsb' 0 8 else s.win.byte i) ∧
        (s.win.next.val < 4095 →
          t.win.next.val = s.win.next.val + 1 ∧ t.win.first = s.win.first ∧ t.sink = s.sink ∧
            t = ({ s with win := t.win } : State).ended 0 0 0) ∧
        (s.win.next.val = 4095 →
          t.win.next = 0 ∧ t.win.first = false ∧ t.sink = s.sink ++ (List.range 4096).map t.win.byte ∧
            t = ({ s with win := t.win, sink := t.sink } : State).ended 0 0 4096)) ∧
      exec .wflush s =
        .next (({ s with
          win := { s.win with next := 0 }
          sink := s.sink ++ (List.range s.win.next.val).map s.win.byte } : State).ended 0 0 s.win.next.val)

/-- 44_blast_lz77.md R220, R223, R226, R227: `WCOPY` appends `len` bytes one at a time, each from `dist` back in the
output; while fewer than 4096 bytes have been produced a distance beyond them is `ERR_DIST` (−3) and
nothing is copied. -/
def Obligations.WcopyExtends : Prop :=
  ∀ (s : State), s.phase = .idle → 1 ≤ s.argCopyLen → 1 ≤ s.argCopyDist → s.argCopyDist ≤ 4096 →
    (s.win.first = true → s.win.next.val < s.argCopyDist → exec .wcopy s = .next (s.ended (-3) 0 0)) ∧
      ((s.win.first = false ∨ s.argCopyDist ≤ s.win.next.val) →
        ∃ z : Lz,
          exec .wcopy s = .next (({ s with win := z.win, sink := z.sink } : State).ended 0 0 z.n) ∧
            z.sink.length = s.sink.length + z.n ∧
            ∀ base out, WindowAt base out (s.lz 0) →
              WindowAt base (lzExtend s.argCopyDist s.argCopyLen out) z)

/-! ### MMCMP -/

/-- 45_mmcmp.md R240, R241, R247, R248, R263 and 10_state.md R54: `MMCMP` empties the reader and makes the header tests in
order; the first that fails ends the command with its code, no buffer, `SPOS` as it was and the header registers read
so far; when none fails `OUT` is allocated and the first block is next. Nothing else changes. That the reader is empty
before a compressed block is the model's reading of R54's column (log 11). That `SPOS` then stands after
the 24 bytes of the header is the model's reading of 10_state.md R29 (b) (log 31). -/
def Obligations.MmcmpHeader : Prop :=
  ∀ (s : State), s.phase = .idle → s.cfg = Config.default →
    let empty : Reader := { s.rd with acc := 0, cnt := 0, real := 0, starved := false, seedlv := 0 }
    let stops (code : Word) (mm : MmRegs) : Prop :=
      exec .mmcmp s =
        .next (({ s with
          rd := empty
          mm := mm
          out := { len := 0, cells := [], valid := false, epoch := s.out.epoch } } : State).ended code 0 0)
    let magic := [0x7A, 0x69, 0x52, 0x43, 0x4F, 0x4E, 0x69, 0x61]
    let nblk := s.src.le 12 2
    let fsize := s.src.le 14 4
    let btab := s.src.le 18 4
    if s.src.len < 24 ∨ s.src.slice 0 8 ≠ magic ∨ s.src.le 8 2 < 14 then stops (-7) s.mm
    else if nblk = 0 then stops (-7) { s.mm with nblk := 0 }
    else if fsize ≤ 16 then stops (-7) { s.mm with nblk := nblk, fsize := fsize }
    else if 0x8000000 < fsize then stops (-8) { s.mm with nblk := nblk, fsize := fsize }
    else if s.src.len < btab + 4 * nblk then stops (-7) { s.mm with nblk := nblk, fsize := fsize, btab := btab }
    else
      exec .mmcmp s =
        .next { s with
          rd := { empty with spos := 24 }
          mm := { s.mm with nblk := nblk, fsize := fsize, btab := btab }
          out := { len := fsize, cells := [], valid := false, epoch := s.out.epoch + 1 }
          phase := .mmTop s.rd.spos 0 }

/-- 45_mmcmp.md R242 to R245, R249 to R251, R262: the tests of a block in order, each with its code, no buffer, `SPOS`
put back (R240, R263) and the header registers read so far, and the set-up of a compressed block. Nothing else changes. -/
def Obligations.MmBlockOpens : Prop :=
  ∀ (s : State) (a b : Nat), s.phase = .mmTop a b → s.cfg = Config.default → b < s.mm.nblk →
    s.mm.btab + 4 * s.mm.nblk ≤ s.src.len →
      let stops (code : Word) (mm : MmRegs) : Prop :=
        step s =
          .next (({ s with
            rd := { s.rd with spos := a }
            mm := mm
            out := { len := 0, cells := [], valid := false, epoch := s.out.epoch } } : State).ended code 0 0)
      let p := s.src.le (s.mm.btab + 4 * b) 4
      let pk := s.src.le (p + 4) 4
      let nsub := s.src.le (p + 12) 2
      let flags : BitVec 16 := BitVec.ofNat 16 (s.src.le (p + 14) 2)
      let nbits := s.src.le (p + 18) 2
      let tt := s.src.le (p + 16) 2
      let pay := p + 20 + 8 * nsub
      let header : MmRegs :=
        { s.mm with
          unpk := s.src.le p 4
          pk := pk
          xorChk := s.src.le (p + 8) 4
          nsub := nsub
          flags := flags
          tt := tt
          nbits := nbits }
      let inside (k : Nat) : Prop :=
        s.src.le (p + 20 + 8 * k) 4 ≤ s.mm.fsize ∧
          s.src.le (p + 24 + 8 * k) 4 ≤ s.mm.fsize - s.src.le (p + 20 + 8 * k) 4
      let S : Width := if flags.getLsbD 2 then .w16 else .w8
      (s.src.len < p + 20 → stops (-5) s.mm) ∧ (p + 20 ≤ s.src.len → s.src.len < pay → stops (-5) header) ∧
        (pay ≤ s.src.len → (∃ k < nsub, ¬ inside k) → stops (-10) { header with pay := pay }) ∧
        (pay ≤ s.src.len → (∀ k < nsub, inside k) → flags.getLsbD 0 = true →
          (S.bits ≤ nbits → stops (-6) { header with pay := pay }) ∧
            (nbits < S.bits → S = .w8 → s.src.len < pay + 256 → stops (-5) { header with pay := pay }) ∧
            (nbits < S.bits → (S = .w8 → pay + 256 ≤ s.src.len) →
              let lim := min (pay + pk) s.src.len
              step s =
                .next { s with
                  mm :=
                    { header with
                      pay := pay
                      numbits := nbits
                      oldval := 0
                      subk := 0
                      subpos := 0 }
                  rd :=
                    { s.rd with
                      spos := min (pay + tt) lim
                      acc := 0
                      cnt := 0
                      real := 0
                      starved := false
                      brlim := lim
                      seedlv := 0 }
                  phase := .mmComp S a b p }))

/-- 45_mmcmp.md R243, R249, R250, R264, R265: a raw block sets the registers of its header and copies the bytes of its
sub-blocks, which follow one another from the payload, each to its place in `OUT`; where two overlap the later
stands; the rest of `OUT` is unchanged. A sub-block that reaches beyond the source ends the command with `ERR_STARVED`
(−5), no buffer, `OUT_VALID` and `CONSUMED` 0 and `SPOS` put back (R240, R263). Nothing else changes. That `SPOS` stands at
the payload after the block is the model's reading of 10_state.md R29 (log 31). -/
def Obligations.MmRawCopy : Prop :=
  ∀ (s : State) (a b : Nat), s.phase = .mmTop a b → s.cfg = Config.default → b < s.mm.nblk →
    s.mm.btab + 4 * s.mm.nblk ≤ s.src.len → s.out.len = s.mm.fsize →
      let p := s.src.le (s.mm.btab + 4 * b) 4
      let nsub := s.src.le (p + 12) 2
      let flags : BitVec 16 := BitVec.ofNat 16 (s.src.le (p + 14) 2)
      let pay := p + 20 + 8 * nsub
      let mm : MmRegs :=
        { s.mm with
          unpk := s.src.le p 4
          pk := s.src.le (p + 4) 4
          xorChk := s.src.le (p + 8) 4
          nsub := nsub
          flags := flags
          tt := s.src.le (p + 16) 2
          nbits := s.src.le (p + 18) 2
          pay := pay }
      let pos (k : Nat) : Nat := s.src.le (p + 20 + 8 * k) 4
      let size (k : Nat) : Nat := s.src.le (p + 24 + 8 * k) 4
      let q (k : Nat) : Nat := pay + ((List.range k).map size).sum
      pay ≤ s.src.len → (∀ k < nsub, pos k ≤ s.mm.fsize ∧ size k ≤ s.mm.fsize - pos k) →
        flags.getLsbD 0 = false →
          ((∀ k < nsub, q k + size k ≤ s.src.len) →
              ∃ o : OutBuf,
                (∀ k < nsub, ∀ i < size k,
                  (∀ k', k < k' → k' < nsub → ¬ (pos k' ≤ pos k + i ∧ pos k + i < pos k' + size k')) →
                    o.read (pos k + i) = some (s.src.byte (q k + i))) ∧
                (∀ x, (∀ k < nsub, ¬ (pos k ≤ x ∧ x < pos k + size k)) → o.read x = s.out.read x) ∧
                o.len = s.out.len ∧ o.valid = s.out.valid ∧ o.epoch = s.out.epoch ∧
                step s =
                  .next { s with
                    rd := { s.rd with spos := pay }
                    mm := mm
                    out := o
                    phase := .mmTop a (b + 1) }) ∧
            ((∃ k < nsub, s.src.len < q k + size k) →
              step s =
                .next (({ s with
                  rd := { s.rd with spos := a }
                  mm := mm
                  out := { len := 0, cells := [], valid := false, epoch := s.out.epoch } } : State).ended (-5) 0 0))

/-- 45_mmcmp.md R254, R256, R258: a 16-bit value is folded, then delta-accumulated (`DELTA`) or XORed with 0x8000 (no
`ABS16`), and stored low byte first at the sub-block's cursor; an extended value is 0xFFF0 + `x`. -/
def Obligations.MmStoreWord : Prop :=
  ∀ (s : State) (a b hdr d pos size : Nat) (i : Instr), s.phase = .mmComp .w16 a b hdr →
    s.cfg = Config.default → s.subBlock? hdr s.mm.subk = some (pos, size) →
      pos + 2 * s.mm.subpos + 1 < s.out.len → (i = .mmV d ∨ ∃ e f x, i = .mmX e f x ∧ d = 0xFFF0 + x) →
        let fold : BitVec 16 := if d % 2 = 1 then BitVec.ofNat 16 (0x10000 - (d + 1) / 2 % 0x10000)
          else BitVec.ofNat 16 (d / 2)
        let v : BitVec 16 :=
          if s.mm.flags.getLsbD 1 then fold + s.mm.oldval
          else if s.mm.flags.getLsbD 9 then fold
          else fold ^^^ 0x8000
        let at0 := pos + 2 * s.mm.subpos
        ∃ t, exec i s = .next t ∧ t.out.read at0 = some (v.extractLsb' 0 8) ∧
          t.out.read (at0 + 1) = some (v.extractLsb' 8 8) ∧
          (∀ x, x ≠ at0 → x ≠ at0 + 1 → t.out.read x = s.out.read x) ∧
          t.out.len = s.out.len ∧ t.out.valid = s.out.valid ∧ t.out.epoch = s.out.epoch ∧
          t =
            { s with
              mm :=
                { s.mm with
                  oldval := if s.mm.flags.getLsbD 1 then v else s.mm.oldval
                  subpos := s.mm.subpos + 1 }
              out := t.out }

/-- 45_mmcmp.md R254, R256, R259, R262: an 8-bit value is looked up in the permutation table in the source,
delta-accumulated (`DELTA`) and stored at the sub-block's cursor; an extended value is 0xF8 + `x`. -/
def Obligations.MmStoreByte : Prop :=
  ∀ (s : State) (a b hdr d pos size : Nat) (i : Instr), s.phase = .mmComp .w8 a b hdr →
    s.cfg = Config.default → s.subBlock? hdr s.mm.subk = some (pos, size) →
      pos + s.mm.subpos < s.out.len → s.mm.pay + d < s.src.len →
        (i = .mmV d ∨ ∃ e f x, i = .mmX e f x ∧ d = 0xF8 + x) →
          let p := s.src.byte (s.mm.pay + d)
          let v : Byte := if s.mm.flags.getLsbD 1 then p + s.mm.oldval.setWidth 8 else p
          let at0 := pos + s.mm.subpos
          ∃ t, exec i s = .next t ∧ t.out.read at0 = some v ∧
            (∀ x, x ≠ at0 → t.out.read x = s.out.read x) ∧
            t.out.len = s.out.len ∧ t.out.valid = s.out.valid ∧ t.out.epoch = s.out.epoch ∧
            t =
              { s with
                mm :=
                  { s.mm with
                    oldval := if s.mm.flags.getLsbD 1 then v.setWidth 16 else s.mm.oldval
                    subpos := s.mm.subpos + 1 }
                out := t.out }

/-- 45_mmcmp.md R255, R257: a width change writes `NUMBITS` and stores nothing; the sentinel ends the block (that it ends
the whole block is the parameter `mmEndsBlock`). -/
def Obligations.MmWidthAndEnd : Prop :=
  ∀ (s : State) (S : Width) (a b hdr d f : Nat), s.phase = .mmComp S a b hdr →
    exec (.mmW d f) s =
        .next { s with
          mm := { s.mm with numbits := f + (d - s.cfg.mmCmd S s.mm.numbits) * 2 ^ s.cfg.mmFetch S s.mm.numbits } } ∧
      (s.cfg.mmEndsBlock = true → exec (.mmEnd d f) s = .next { s with phase := .mmTop a (b + 1) })

/-- 45_mmcmp.md R240, R251, R260, R263: a step of a compressed block passes over full sub-blocks, without touching
`NUMBITS`, `OLDVAL` or the reader; after the last one the next block follows; after the last block `OUT` is
valid, `RESULT` is the file size, `SPOS` is put back and `CONSUMED` is 0. -/
def Obligations.MmAdvances : Prop :=
  ∀ (s : State) (S : Width) (a b hdr : Nat),
    (s.phase = .mmComp S a b hdr → s.mm.nsub ≤ s.mm.subk →
        step s = .next { s with phase := .mmTop a (b + 1) }) ∧
      (s.phase = .mmComp S a b hdr → s.mm.subk < s.mm.nsub → ∀ pos size,
        s.subBlock? hdr s.mm.subk = some (pos, size) → subElems S size ≤ s.mm.subpos →
          step s = step { s with mm := { s.mm with subk := s.mm.subk + 1, subpos := 0 } }) ∧
      (s.phase = .mmTop a b → s.mm.nblk ≤ b →
        step s =
          .next (({ s with
            rd := { s.rd with spos := a }
            out := { s.out with valid := true } } : State).ended 0 0 s.mm.fsize))

/-- 45_mmcmp.md R252, R255, at the default parameters: at every width the escapes with their fetch bits name every width
below `N` exactly once, so no width change leads out of the table. -/
def Obligations.EscapeWidths : Prop :=
  ∀ (S : Width) (w : Nat), w < S.bits →
    (∀ d f, Config.default.mmCmd S w ≤ d → d < 2 ^ (w + 1) → f < 2 ^ Config.default.mmFetch S w →
        escapeWidth Config.default S w d f < S.bits) ∧
      ∀ n, n < S.bits →
        ∃ d f, Config.default.mmCmd S w ≤ d ∧ d < 2 ^ (w + 1) ∧ f < 2 ^ Config.default.mmFetch S w ∧
          escapeWidth Config.default S w d f = n ∧
          ∀ d' f', Config.default.mmCmd S w ≤ d' → d' < 2 ^ (w + 1) → f' < 2 ^ Config.default.mmFetch S w →
            escapeWidth Config.default S w d' f' = n → d' = d ∧ f' = f

/-! ### What every step keeps -/

/-- 20_memory.md R61, 10_state.md R22 to R26: no step changes the source, the argument registers, the command word, the
capacity of `DST` or the parameters; and a step that leaves `BUSY` = 1 leaves the result registers. -/
def Obligations.InputsAndResults : Prop :=
  ∀ s t : State, step s = .next t →
    t.cfg = s.cfg ∧ t.src = s.src ∧ t.dstCap = s.dstCap ∧ t.host.cmd = s.host.cmd ∧
      t.host.arg0 = s.host.arg0 ∧ t.host.arg1 = s.host.arg1 ∧ t.host.arg2 = s.host.arg2 ∧
      t.host.arg3 = s.host.arg3 ∧
      (t.busy = true →
        t.host.status = s.host.status ∧ t.host.consumed = s.host.consumed ∧ t.host.result = s.host.result)

/-- 20_memory.md R60, R63, R66, 10_state.md R49, 70_reset_and_hazards.md R314, R317: `SINK` is append-only: no step loses or
reorders a byte of it; while `BUSY` = 1 the host neither changes `SRC` or `DST` nor reads or empties `DST`, `SINK` or `OUT`;
while `BUSY` = 0 it loads `SRC`, gives `DST` with its capacity, reads an element of `DST` as bytes in the order of the parameter
`DST_BIG_ENDIAN`, reads `SINK` and empties it, and reads `OUT` while `OUT_VALID` is 1. The model's choices: a read of `SINK` leaves
the bytes there, and emptying it removes all of them and hands them to the host (log 32); the host says at which width it reads
an element of `DST`, a read at 8 bits giving its low byte alone (log 21); an element nothing has written gives no value (log 33); the host reads `OUT_VALID` at no index, whether busy or not (log 29); a cell of `OUT` no
sub-block has written gives the free value of log 7. -/
def Obligations.HostSpaces : Prop :=
  (∀ s t : State, step s = .next t → ∃ bs, t.sink = s.sink ++ bs) ∧
    ∀ s : State, hostOutValid s = s.out.valid ∧
      (s.busy = true →
        (∀ bytes, hostLoadSource bytes s = s) ∧ (∀ cap cells, hostGiveDst cap cells s = s) ∧
          (∀ S i, hostReadDst S i s = none) ∧ hostReadSink s = none ∧ hostTakeSink s = ([], s) ∧
          ∀ a, hostReadOut a s = none) ∧
      (s.busy = false →
        (∀ bytes : List Byte, ∃ m : Source, hostLoadSource bytes s = { s with src := m } ∧
            m.len = bytes.length ∧ ∀ i b, bytes[i]? = some b → m.byte i = b) ∧
          (∀ cap cells, hostGiveDst cap cells s = { s with dst := cells, dstCap := cap }) ∧
          (∀ i v, i < s.dstCap → s.dst.read i = some v →
            let low : Byte := BitVec.ofNat 8 (v.toNat % 256)
            let high : Byte := BitVec.ofNat 8 (v.toNat / 256)
            hostReadDst .w8 i s = some [low] ∧
              hostReadDst .w16 i s = some (if s.cfg.dstBigEndian then [high, low] else [low, high])) ∧
          (∀ S i, s.dstCap ≤ i ∨ s.dst.read i = none → hostReadDst S i s = none) ∧
          hostReadSink s = some s.sink ∧ hostTakeSink s = (s.sink, { s with sink := [] }) ∧
          ∀ a, (s.out.valid = false ∨ s.out.len ≤ a → hostReadOut a s = none) ∧
            (s.out.valid = true → a < s.out.len →
              (∀ b, s.out.cells.read a = some b → hostReadOut a s = some b) ∧
                (s.out.cells.read a = none → hostReadOut a s = some (Config.outFill s.out.epoch a))))

/-- 20_memory.md R72, 70_reset_and_hazards.md R322: a step writes at most the element of `DST` at `DPOS`, below
`DST_CAP`; every other element keeps what the host put there. -/
def Obligations.DestinationWrites : Prop :=
  ∀ s t : State, step s = .next t →
    (∀ i, i ≠ s.dpos → t.dst.read i = s.dst.read i) ∧ (t.dst ≠ s.dst → s.dpos < s.dstCap)

/-- 10_state.md R43, R45, R49, R51, 43_huffman.md R204, 44_blast_lz77.md R211, R221, R224: the one-bit state changes only as its
rules say: `WFIRST` goes to 0 only with a flush of 4096 bytes, and to 1 only where `BLAST` or `WRESET` is taken, with `WNEXT` 0; a
static table, once valid, never changes, and before that only where `BLAST` or its `HUFCON` is taken;
`OUT_VALID` goes to 1 only where an `MMCMP` ends `OK`, and outside an `MMCMP` a step leaves `OUT` as it is, but where `MMCMP` is
taken, which ends its validity. That a command is taken in a step of its own is the model's choice (log 2). -/
def Obligations.OneBitState : Prop :=
  ∀ s t : State, step s = .next t →
    let takes (i : Instr) : Prop := s.phase = .issued ∧ decodeCommand s.host.cmd = .ok i
    (s.win.first = true → t.win.first = false → s.sink.length + 4096 ≤ t.sink.length) ∧
      (s.win.first = false → t.win.first = true → (takes .blast ∨ takes .wreset) ∧ t.win.next = 0) ∧
      (∀ u ∈ [TableSel.lit, .len, .dist],
        ((s.huf.get u).valid = true → t.huf.get u = s.huf.get u) ∧
          (t.huf.get u ≠ s.huf.get u → takes .blast ∨ takes (.hufcon u))) ∧
      (s.out.valid = false → t.out.valid = true →
        t.phase = .idle ∧ t.host.status = 0 ∧ t.host.result = BitVec.ofNat 32 s.mm.fsize ∧
          t.out = { s.out with valid := true }) ∧
      ((∀ a b, s.phase ≠ .mmTop a b) → (∀ S a b h, s.phase ≠ .mmComp S a b h) →
        t.out = s.out ∨ (takes .mmcmp ∧ t.out.valid = false))

/-- The model's invariant `State.Wf` (Safety.lean: canonical memories, 40_bitreader.md R125 (a) and (b), static tables,
the bounds of 20_memory.md R72 at each point of a command) holds at reset. -/
def Obligations.ResetIsWellFormed : Prop := State.reset.Wf

/-- From every well-formed state a step gives a next state, no fault and no refusal, and it is well formed: no command
reads past the source or writes past a destination (20_memory.md R72). -/
def Obligations.StepKeepsWellFormed : Prop := ∀ s : State, s.Wf → SafeStep s

/-- What the host may do keeps the state well formed (70_reset_and_hazards.md R314 to R317, 20_memory.md R60). -/
def Obligations.HostKeepsWellFormed : Prop :=
  ∀ s : State, s.Wf →
    (∀ index v, (hostWrite index v s).Wf) ∧
      (∀ bytes : List Byte, bytes.length < 2 ^ 32 → (hostLoadSource bytes s).Wf) ∧
      (∀ cap cells, cap < 2 ^ 32 → Memory.wf cells = true → (hostGiveDst cap cells s).Wf) ∧
      (hostTakeSink s).2.Wf

/-- 70_reset_and_hazards.md R325: from every well-formed state the command in progress ends after finitely many steps. -/
def Obligations.EveryCommandEnds : Prop :=
  ∀ s : State, s.Wf → ∃ k t, Sys2Proof.core.run k s = .next t ∧ t.busy = false

/-! ### The host's other writes -/

/-- The model's choice (log 17): a host write of a read-only register (10_state.md R24 to R27), or at an index that holds no
register, changes nothing, whether the block is busy or not. -/
def Obligations.ReadOnlyWrites : Prop :=
  ∀ (s : State) (index : Nat) (v : Word), index ∉ [0, 1, 2, 3, 4, 9] → hostWrite index v s = s
end

