-- ==== Sys2Proof/Laws/Bits.lean ====
section
/-! SUPPORT. Bit strings and numbers: the value of the bits of a number, the bits of a value, and what a read of a
list of bits gives. -/

namespace Sys2Proof

@[simp] theorem natBits_length (n v : Nat) : (natBits n v).length = n := by simp [natBits]

@[simp] theorem natBits_zero (v : Nat) : natBits 0 v = [] := rfl

/-- The first bit and the others. -/
theorem natBits_succ (n v : Nat) : natBits (n + 1) v = v.testBit 0 :: natBits n (v / 2) := by
  simp only [natBits, List.range_succ_eq_map, List.map_cons, List.map_map]
  congr 1
  apply List.map_congr_left
  intro i _
  simp [Nat.testBit_succ]

/-- The low bits of a number do not see the higher ones. -/
theorem natBits_mod (n v : Nat) : natBits n (v % 2 ^ n) = natBits n v := by
  apply List.map_congr_left
  intro i hi
  simp only [List.mem_range] at hi
  rw [Nat.testBit_mod_two_pow]
  simp [hi]

/-- The bits of a number have its value modulo 2^n. -/
theorem bitsNat_natBits (n v : Nat) : bitsNat (natBits n v) = v % 2 ^ n := by
  induction n generalizing v with
  | zero => simp [bitsNat, Nat.mod_one]
  | succ n ih =>
    rw [natBits_succ, bitsNat, ih, Nat.pow_succ, Nat.mul_comm (2 ^ n) 2, Nat.mod_mul, Nat.testBit_zero]
    congr 1
    rcases Nat.mod_two_eq_zero_or_one v with h | h <;> simp [h]

/-- The bits of a number that fits have its value. -/
theorem bitsNat_natBits_of_lt {n v : Nat} (h : v < 2 ^ n) : bitsNat (natBits n v) = v := by
  rw [bitsNat_natBits, Nat.mod_eq_of_lt h]

/-- A bit string stands for a number below 2^length. -/
theorem bitsNat_lt (bs : List Bool) : bitsNat bs < 2 ^ bs.length := by
  induction bs with
  | nil => simp [bitsNat]
  | cons b bs ih =>
    rw [bitsNat, List.length_cons, Nat.pow_succ]
    cases b <;> simp <;> omega

/-- The bits of a bit string's number are the bit string. -/
theorem natBits_bitsNat (bs : List Bool) : natBits bs.length (bitsNat bs) = bs := by
  induction bs with
  | nil => rfl
  | cons b bs ih =>
    rw [List.length_cons, natBits_succ, bitsNat]
    congr 1
    · cases b <;> simp [Nat.testBit_zero, Nat.add_mod]
    · rw [show (b.toNat + 2 * bitsNat bs) / 2 = bitsNat bs by cases b <;> (simp; try omega)]
      exact ih

/-- Bit `i` of a bit string's number. -/
theorem testBit_bitsNat (bs : List Bool) (i : Nat) : (bitsNat bs).testBit i = bs.getD i false := by
  induction bs generalizing i with
  | nil => simp [bitsNat]
  | cons b bs ih =>
    rw [bitsNat]
    cases i with
    | zero => cases b <;> simp [Nat.testBit_zero, Nat.add_mod]
    | succ i =>
      rw [Nat.testBit_succ, show (b.toNat + 2 * bitsNat bs) / 2 = bitsNat bs by (cases b <;> simp); omega, ih]
      simp

/-! ### Reads of a list of bits -/

/-- A read that the list can serve. -/
theorem listRead_append {n : Nat} {a b : List Bool} (h : a.length = n) :
    listRead n (a ++ b) = .got (bitsNat a) b := by
  subst h
  simp [listRead]

/-- A field is read back. -/
theorem listRead_natBits {n v : Nat} (h : v < 2 ^ n) (b : List Bool) :
    listRead n (natBits n v ++ b) = .got v b := by
  rw [listRead_append (natBits_length n v), bitsNat_natBits_of_lt h]

/-- One bit is read back. -/
theorem listRead_bit (x : Bool) (b : List Bool) : listRead 1 (x :: b) = .got x.toNat b := by
  simp [listRead, bitsNat]

/-- What a read of a list of bits gave: its bits were there, in this order. -/
theorem listRead_got {n v : Nat} {bs rest : List Bool} (h : listRead n bs = .got v rest) :
    bs = natBits n v ++ rest ∧ v < 2 ^ n := by
  unfold listRead at h
  split at h
  · rename_i hn
    cases h
    have hl : (bs.take n).length = n := by simp [hn]
    refine ⟨?_, ?_⟩
    · conv_rhs => rw [← hl]
      rw [hl]
      have := natBits_bitsNat (bs.take n)
      rw [hl] at this
      rw [this, List.take_append_drop]
    · have := bitsNat_lt (bs.take n)
      rwa [hl] at this
  · cases h

/-- A read starves exactly when the list is too short. -/
theorem listRead_starved {n : Nat} {bs rest : List Bool} :
    listRead n bs = .starved rest ↔ bs.length < n ∧ rest = bs := by
  unfold listRead
  split
  · simp; omega
  · simp [eq_comm]; omega

/-! ### Binds -/

@[simp] theorem Got.bind_got {σ : Type} (v : Nat) (s : σ) (k : Nat → σ → Decoded σ) :
    (Got.got v s).bind k = k v s := rfl

@[simp] theorem Got.bind_starved {σ : Type} (s : σ) (k : Nat → σ → Decoded σ) :
    (Got.starved s).bind k = .starved s := rfl

@[simp] theorem Walked.bind_sym {σ : Type} (v : Nat) (s : σ) (k : Nat → σ → Decoded σ) :
    (Walked.sym v s).bind k = k v s := rfl

@[simp] theorem Walked.bind_starved {σ : Type} (s : σ) (k : Nat → σ → Decoded σ) :
    (Walked.starved s).bind k = .starved s := rfl

@[simp] theorem Walked.bind_noCode {σ : Type} (s : σ) (k : Nat → σ → Decoded σ) :
    (Walked.noCode s).bind k = .noCode s := rfl

/-- A bind that gave an event: the read was served. -/
theorem Got.bind_eq_event {σ : Type} {g : Got σ} {k : Nat → σ → Decoded σ} {i : Instr} {s : σ}
    (h : g.bind k = .event i s) : ∃ v t, g = .got v t ∧ k v t = .event i s := by
  cases g with
  | got v t => exact ⟨v, t, rfl, h⟩
  | starved t => cases h

/-- A bind over a walk that gave an event: the walk found a symbol. -/
theorem Walked.bind_eq_event {σ : Type} {g : Walked σ} {k : Nat → σ → Decoded σ} {i : Instr} {s : σ}
    (h : g.bind k = .event i s) : ∃ v t, g = .sym v t ∧ k v t = .event i s := by
  cases g with
  | sym v t => exact ⟨v, t, rfl, h⟩
  | starved t => cases h
  | noCode t => cases h

end Sys2Proof
end

