-- ==== Sys2Proof/Laws/State.lean ====
section
/-! SUPPORT. One lemma per field per named update of `State`, each true by `rfl`, so that no later proof unfolds a
record update. -/

namespace Sys2Proof.Machine

open Sys2Proof

@[simp] theorem State.seek_cfg (s : State) (p : Nat) : (s.seek p).cfg = s.cfg := rfl
@[simp] theorem State.seek_host (s : State) (p : Nat) : (s.seek p).host = s.host := rfl
@[simp] theorem State.seek_src (s : State) (p : Nat) : (s.seek p).src = s.src := rfl
@[simp] theorem State.seek_rd (s : State) (p : Nat) : (s.seek p).rd = { s.rd with spos := p } := rfl
@[simp] theorem State.seek_it (s : State) (p : Nat) : (s.seek p).it = s.it := rfl
@[simp] theorem State.seek_dpos (s : State) (p : Nat) : (s.seek p).dpos = s.dpos := rfl
@[simp] theorem State.seek_mdl (s : State) (p : Nat) : (s.seek p).mdl = s.mdl := rfl
@[simp] theorem State.seek_huf (s : State) (p : Nat) : (s.seek p).huf = s.huf := rfl
@[simp] theorem State.seek_win (s : State) (p : Nat) : (s.seek p).win = s.win := rfl
@[simp] theorem State.seek_blast (s : State) (p : Nat) : (s.seek p).blast = s.blast := rfl
@[simp] theorem State.seek_mm (s : State) (p : Nat) : (s.seek p).mm = s.mm := rfl
@[simp] theorem State.seek_out (s : State) (p : Nat) : (s.seek p).out = s.out := rfl
@[simp] theorem State.seek_dst (s : State) (p : Nat) : (s.seek p).dst = s.dst := rfl
@[simp] theorem State.seek_dstCap (s : State) (p : Nat) : (s.seek p).dstCap = s.dstCap := rfl
@[simp] theorem State.seek_sink (s : State) (p : Nat) : (s.seek p).sink = s.sink := rfl
@[simp] theorem State.seek_phase (s : State) (p : Nat) : (s.seek p).phase = s.phase := rfl

@[simp] theorem State.setWidth_cfg (s : State) (w : Nat) : (s.setWidth w).cfg = s.cfg := rfl
@[simp] theorem State.setWidth_host (s : State) (w : Nat) : (s.setWidth w).host = s.host := rfl
@[simp] theorem State.setWidth_src (s : State) (w : Nat) : (s.setWidth w).src = s.src := rfl
@[simp] theorem State.setWidth_rd (s : State) (w : Nat) : (s.setWidth w).rd = s.rd := rfl
@[simp] theorem State.setWidth_it (s : State) (w : Nat) :
    (s.setWidth w).it = { s.it with width := w } := rfl
@[simp] theorem State.setWidth_dpos (s : State) (w : Nat) : (s.setWidth w).dpos = s.dpos := rfl
@[simp] theorem State.setWidth_mdl (s : State) (w : Nat) : (s.setWidth w).mdl = s.mdl := rfl
@[simp] theorem State.setWidth_huf (s : State) (w : Nat) : (s.setWidth w).huf = s.huf := rfl
@[simp] theorem State.setWidth_win (s : State) (w : Nat) : (s.setWidth w).win = s.win := rfl
@[simp] theorem State.setWidth_blast (s : State) (w : Nat) : (s.setWidth w).blast = s.blast := rfl
@[simp] theorem State.setWidth_mm (s : State) (w : Nat) : (s.setWidth w).mm = s.mm := rfl
@[simp] theorem State.setWidth_out (s : State) (w : Nat) : (s.setWidth w).out = s.out := rfl
@[simp] theorem State.setWidth_dst (s : State) (w : Nat) : (s.setWidth w).dst = s.dst := rfl
@[simp] theorem State.setWidth_dstCap (s : State) (w : Nat) : (s.setWidth w).dstCap = s.dstCap := rfl
@[simp] theorem State.setWidth_sink (s : State) (w : Nat) : (s.setWidth w).sink = s.sink := rfl
@[simp] theorem State.setWidth_phase (s : State) (w : Nat) : (s.setWidth w).phase = s.phase := rfl

@[simp] theorem State.takeCommand_cfg (s : State) : (s.takeCommand).cfg = s.cfg := rfl
@[simp] theorem State.takeCommand_host (s : State) : (s.takeCommand).host = s.host := rfl
@[simp] theorem State.takeCommand_src (s : State) : (s.takeCommand).src = s.src := rfl
@[simp] theorem State.takeCommand_rd (s : State) : (s.takeCommand).rd = s.rd := rfl
@[simp] theorem State.takeCommand_it (s : State) : (s.takeCommand).it = s.it := rfl
@[simp] theorem State.takeCommand_dpos (s : State) : (s.takeCommand).dpos = s.dpos := rfl
@[simp] theorem State.takeCommand_mdl (s : State) : (s.takeCommand).mdl = s.mdl := rfl
@[simp] theorem State.takeCommand_huf (s : State) : (s.takeCommand).huf = s.huf := rfl
@[simp] theorem State.takeCommand_win (s : State) : (s.takeCommand).win = s.win := rfl
@[simp] theorem State.takeCommand_blast (s : State) : (s.takeCommand).blast = s.blast := rfl
@[simp] theorem State.takeCommand_mm (s : State) : (s.takeCommand).mm = s.mm := rfl
@[simp] theorem State.takeCommand_out (s : State) : (s.takeCommand).out = s.out := rfl
@[simp] theorem State.takeCommand_dst (s : State) : (s.takeCommand).dst = s.dst := rfl
@[simp] theorem State.takeCommand_dstCap (s : State) : (s.takeCommand).dstCap = s.dstCap := rfl
@[simp] theorem State.takeCommand_sink (s : State) : (s.takeCommand).sink = s.sink := rfl
@[simp] theorem State.takeCommand_phase (s : State) : (s.takeCommand).phase = .idle := rfl

@[simp] theorem mdlOpen_cfg (S : Width) (s : State) : (mdlOpen S s).cfg = s.cfg := rfl
@[simp] theorem mdlOpen_host (S : Width) (s : State) : (mdlOpen S s).host = s.host := rfl
@[simp] theorem mdlOpen_src (S : Width) (s : State) : (mdlOpen S s).src = s.src := rfl
@[simp] theorem mdlOpen_rd (S : Width) (s : State) :
    (mdlOpen S s).rd = s.rd.clear s.rd.brlim (8 * S.mdlSeed) := rfl
@[simp] theorem mdlOpen_it (S : Width) (s : State) : (mdlOpen S s).it = s.it := rfl
@[simp] theorem mdlOpen_dpos (S : Width) (s : State) : (mdlOpen S s).dpos = s.argBase := rfl
@[simp] theorem mdlOpen_mdl (S : Width) (s : State) :
    (mdlOpen S s).mdl = { s.mdl with mstart := s.rd.spos, dlt := 0 } := rfl
@[simp] theorem mdlOpen_huf (S : Width) (s : State) : (mdlOpen S s).huf = s.huf := rfl
@[simp] theorem mdlOpen_win (S : Width) (s : State) : (mdlOpen S s).win = s.win := rfl
@[simp] theorem mdlOpen_blast (S : Width) (s : State) : (mdlOpen S s).blast = s.blast := rfl
@[simp] theorem mdlOpen_mm (S : Width) (s : State) : (mdlOpen S s).mm = s.mm := rfl
@[simp] theorem mdlOpen_out (S : Width) (s : State) : (mdlOpen S s).out = s.out := rfl
@[simp] theorem mdlOpen_dst (S : Width) (s : State) : (mdlOpen S s).dst = s.dst := rfl
@[simp] theorem mdlOpen_dstCap (S : Width) (s : State) : (mdlOpen S s).dstCap = s.dstCap := rfl
@[simp] theorem mdlOpen_sink (S : Width) (s : State) : (mdlOpen S s).sink = s.sink := rfl
@[simp] theorem mdlOpen_phase (S : Width) (s : State) : (mdlOpen S s).phase = s.phase := rfl

@[simp] theorem State.storeSample_cfg (s : State) (v : BitVec 16) : (s.storeSample v).cfg = s.cfg := rfl
@[simp] theorem State.storeSample_host (s : State) (v : BitVec 16) : (s.storeSample v).host = s.host := rfl
@[simp] theorem State.storeSample_src (s : State) (v : BitVec 16) : (s.storeSample v).src = s.src := rfl
@[simp] theorem State.storeSample_rd (s : State) (v : BitVec 16) : (s.storeSample v).rd = s.rd := rfl
@[simp] theorem State.storeSample_it (s : State) (v : BitVec 16) : (s.storeSample v).it = s.it := rfl
@[simp] theorem State.storeSample_dpos (s : State) (v : BitVec 16) : (s.storeSample v).dpos = s.dpos := rfl
@[simp] theorem State.storeSample_mdl (s : State) (v : BitVec 16) : (s.storeSample v).mdl = s.mdl := rfl
@[simp] theorem State.storeSample_huf (s : State) (v : BitVec 16) : (s.storeSample v).huf = s.huf := rfl
@[simp] theorem State.storeSample_win (s : State) (v : BitVec 16) : (s.storeSample v).win = s.win := rfl
@[simp] theorem State.storeSample_blast (s : State) (v : BitVec 16) :
    (s.storeSample v).blast = s.blast := rfl
@[simp] theorem State.storeSample_mm (s : State) (v : BitVec 16) : (s.storeSample v).mm = s.mm := rfl
@[simp] theorem State.storeSample_out (s : State) (v : BitVec 16) : (s.storeSample v).out = s.out := rfl
@[simp] theorem State.storeSample_dst (s : State) (v : BitVec 16) :
    (s.storeSample v).dst = s.dst.write s.dpos v := rfl
@[simp] theorem State.storeSample_dstCap (s : State) (v : BitVec 16) :
    (s.storeSample v).dstCap = s.dstCap := rfl
@[simp] theorem State.storeSample_sink (s : State) (v : BitVec 16) : (s.storeSample v).sink = s.sink := rfl
@[simp] theorem State.storeSample_phase (s : State) (v : BitVec 16) :
    (s.storeSample v).phase = s.phase := rfl

@[simp] theorem State.setLz_cfg (s : State) (z : Lz) : (s.setLz z).cfg = s.cfg := rfl
@[simp] theorem State.setLz_host (s : State) (z : Lz) : (s.setLz z).host = s.host := rfl
@[simp] theorem State.setLz_src (s : State) (z : Lz) : (s.setLz z).src = s.src := rfl
@[simp] theorem State.setLz_rd (s : State) (z : Lz) : (s.setLz z).rd = s.rd := rfl
@[simp] theorem State.setLz_it (s : State) (z : Lz) : (s.setLz z).it = s.it := rfl
@[simp] theorem State.setLz_dpos (s : State) (z : Lz) : (s.setLz z).dpos = s.dpos := rfl
@[simp] theorem State.setLz_mdl (s : State) (z : Lz) : (s.setLz z).mdl = s.mdl := rfl
@[simp] theorem State.setLz_huf (s : State) (z : Lz) : (s.setLz z).huf = s.huf := rfl
@[simp] theorem State.setLz_win (s : State) (z : Lz) : (s.setLz z).win = z.win := rfl
@[simp] theorem State.setLz_blast (s : State) (z : Lz) : (s.setLz z).blast = s.blast := rfl
@[simp] theorem State.setLz_mm (s : State) (z : Lz) : (s.setLz z).mm = s.mm := rfl
@[simp] theorem State.setLz_out (s : State) (z : Lz) : (s.setLz z).out = s.out := rfl
@[simp] theorem State.setLz_dst (s : State) (z : Lz) : (s.setLz z).dst = s.dst := rfl
@[simp] theorem State.setLz_dstCap (s : State) (z : Lz) : (s.setLz z).dstCap = s.dstCap := rfl
@[simp] theorem State.setLz_sink (s : State) (z : Lz) : (s.setLz z).sink = z.sink := rfl
@[simp] theorem State.setLz_phase (s : State) (z : Lz) : (s.setLz z).phase = s.phase := rfl

@[simp] theorem State.buildStatic_cfg (s : State) (t : TableSel) : (s.buildStatic t).cfg = s.cfg := rfl
@[simp] theorem State.buildStatic_host (s : State) (t : TableSel) : (s.buildStatic t).host = s.host := rfl
@[simp] theorem State.buildStatic_src (s : State) (t : TableSel) : (s.buildStatic t).src = s.src := rfl
@[simp] theorem State.buildStatic_rd (s : State) (t : TableSel) : (s.buildStatic t).rd = s.rd := rfl
@[simp] theorem State.buildStatic_it (s : State) (t : TableSel) : (s.buildStatic t).it = s.it := rfl
@[simp] theorem State.buildStatic_dpos (s : State) (t : TableSel) : (s.buildStatic t).dpos = s.dpos := rfl
@[simp] theorem State.buildStatic_mdl (s : State) (t : TableSel) : (s.buildStatic t).mdl = s.mdl := rfl
@[simp] theorem State.buildStatic_huf (s : State) (t : TableSel) :
    (s.buildStatic t).huf = s.huf.set t (constructTable s.cfg (s.huf.get t) (expand s.cfg (s.cfg.staticDesc t))) := rfl
@[simp] theorem State.buildStatic_win (s : State) (t : TableSel) : (s.buildStatic t).win = s.win := rfl
@[simp] theorem State.buildStatic_blast (s : State) (t : TableSel) :
    (s.buildStatic t).blast = s.blast := rfl
@[simp] theorem State.buildStatic_mm (s : State) (t : TableSel) : (s.buildStatic t).mm = s.mm := rfl
@[simp] theorem State.buildStatic_out (s : State) (t : TableSel) : (s.buildStatic t).out = s.out := rfl
@[simp] theorem State.buildStatic_dst (s : State) (t : TableSel) : (s.buildStatic t).dst = s.dst := rfl
@[simp] theorem State.buildStatic_dstCap (s : State) (t : TableSel) :
    (s.buildStatic t).dstCap = s.dstCap := rfl
@[simp] theorem State.buildStatic_sink (s : State) (t : TableSel) : (s.buildStatic t).sink = s.sink := rfl
@[simp] theorem State.buildStatic_phase (s : State) (t : TableSel) :
    (s.buildStatic t).phase = s.phase := rfl

@[simp] theorem endWith_cfg (s : State) (status : Int) (consumed result : Nat) :
    (endWith status consumed result s).cfg = s.cfg := rfl
@[simp] theorem endWith_host (s : State) (status : Int) (consumed result : Nat) :
    (endWith status consumed result s).host = s.host.report status consumed result := rfl
@[simp] theorem endWith_src (s : State) (status : Int) (consumed result : Nat) :
    (endWith status consumed result s).src = s.src := rfl
@[simp] theorem endWith_rd (s : State) (status : Int) (consumed result : Nat) :
    (endWith status consumed result s).rd = s.rd := rfl
@[simp] theorem endWith_it (s : State) (status : Int) (consumed result : Nat) :
    (endWith status consumed result s).it = s.it := rfl
@[simp] theorem endWith_dpos (s : State) (status : Int) (consumed result : Nat) :
    (endWith status consumed result s).dpos = s.dpos := rfl
@[simp] theorem endWith_mdl (s : State) (status : Int) (consumed result : Nat) :
    (endWith status consumed result s).mdl = s.mdl := rfl
@[simp] theorem endWith_huf (s : State) (status : Int) (consumed result : Nat) :
    (endWith status consumed result s).huf = s.huf := rfl
@[simp] theorem endWith_win (s : State) (status : Int) (consumed result : Nat) :
    (endWith status consumed result s).win = s.win := rfl
@[simp] theorem endWith_blast (s : State) (status : Int) (consumed result : Nat) :
    (endWith status consumed result s).blast = s.blast := rfl
@[simp] theorem endWith_mm (s : State) (status : Int) (consumed result : Nat) :
    (endWith status consumed result s).mm = s.mm := rfl
@[simp] theorem endWith_out (s : State) (status : Int) (consumed result : Nat) :
    (endWith status consumed result s).out = s.out := rfl
@[simp] theorem endWith_dst (s : State) (status : Int) (consumed result : Nat) :
    (endWith status consumed result s).dst = s.dst := rfl
@[simp] theorem endWith_dstCap (s : State) (status : Int) (consumed result : Nat) :
    (endWith status consumed result s).dstCap = s.dstCap := rfl
@[simp] theorem endWith_sink (s : State) (status : Int) (consumed result : Nat) :
    (endWith status consumed result s).sink = s.sink := rfl
@[simp] theorem endWith_phase (s : State) (status : Int) (consumed result : Nat) :
    (endWith status consumed result s).phase = .idle := rfl

/-- The end of a command by a code is the end with the code's number. -/
@[simp] theorem endCommand_eq (code : StatusCode) (consumed result : Nat) (s : State) :
    endCommand code consumed result s = endWith code.num consumed result s := rfl

/-- A refusal is the end with `ERR_ILLEGAL_CMD`. -/
@[simp] theorem refuse_eq (s : State) : refuse s = endWith StatusCode.errIllegalCmd.num 0 0 s := rfl

/-! ### Result registers -/

@[simp] theorem report_cmd (h : HostRegs) (a : Int) (b c : Nat) : (h.report a b c).cmd = h.cmd := rfl
@[simp] theorem report_arg0 (h : HostRegs) (a : Int) (b c : Nat) : (h.report a b c).arg0 = h.arg0 := rfl
@[simp] theorem report_arg1 (h : HostRegs) (a : Int) (b c : Nat) : (h.report a b c).arg1 = h.arg1 := rfl
@[simp] theorem report_arg2 (h : HostRegs) (a : Int) (b c : Nat) : (h.report a b c).arg2 = h.arg2 := rfl
@[simp] theorem report_arg3 (h : HostRegs) (a : Int) (b c : Nat) : (h.report a b c).arg3 = h.arg3 := rfl
@[simp] theorem report_status (h : HostRegs) (a : Int) (b c : Nat) :
    (h.report a b c).status = BitVec.ofInt 32 a := rfl
@[simp] theorem report_consumed (h : HostRegs) (a : Int) (b c : Nat) :
    (h.report a b c).consumed = BitVec.ofNat 32 b := rfl
@[simp] theorem report_result (h : HostRegs) (a : Int) (b c : Nat) :
    (h.report a b c).result = BitVec.ofNat 32 c := rfl

/-! ### The window's view -/

@[simp] theorem lz_win (s : State) (n : Nat) : (s.lz n).win = s.win := rfl
@[simp] theorem lz_sink (s : State) (n : Nat) : (s.lz n).sink = s.sink := rfl
@[simp] theorem lz_n (s : State) (n : Nat) : (s.lz n).n = n := rfl

/-! ### Huffman table memory -/

@[simp] theorem HufMem.get_set_same (h : HufMem) (t : TableSel) (x : HufTable) : (h.set t x).get t = x := by
  cases t <;> rfl

/-- Setting one table leaves the others. -/
theorem HufMem.get_set_other (h : HufMem) {t u : TableSel} (x : HufTable) (hne : u ≠ t) :
    (h.set t x).get u = h.get u := by
  cases t <;> cases u <;> first | rfl | exact absurd rfl hne

/-! ### Commands and `BUSY` -/

/-- `BUSY` = 0 exactly when no command is in progress. -/
@[simp] theorem busy_eq_false {s : State} : s.busy = false ↔ s.phase = .idle := by
  simp [State.busy]

/-- A command meets an idle block. -/
theorem whenIdle_idle {s : State} (h : s.phase = .idle) (body : State → State) :
    whenIdle s body = .next (body s) := by
  simp [whenIdle, State.busy, h]

/-- A command met while `BUSY` = 1 is ignored. -/
theorem whenIdle_busy {s : State} (h : s.phase ≠ .idle) (body : State → State) :
    whenIdle s body = .next s := by
  simp [whenIdle, State.busy, h]

/-- What a command can answer: the state it met, or its own effect on an idle block. -/
theorem whenIdle_cases {s t : State} {body : State → State} (h : whenIdle s body = .next t) :
    (s.phase ≠ .idle ∧ t = s) ∨ (s.phase = .idle ∧ t = body s) := by
  by_cases hi : s.phase = .idle
  · rw [whenIdle_idle hi] at h
    exact .inr ⟨hi, (Host.Outcome.next.inj h).symm⟩
  · rw [whenIdle_busy hi] at h
    exact .inl ⟨hi, (Host.Outcome.next.inj h).symm⟩

/-! ### The write of `CMD` -/

/-- A legal word with acceptable arguments starts its command: `BUSY` is 1 from the write on (10_state.md R22, R27). -/
theorem hostIssue_ok {w : Word} {i : Instr} {s : State} (h : decodeCommand w = .ok i)
    (hr : commandRefused i s = false) :
    hostIssue w s = { s with host := { s.host with cmd := w }, phase := .issued } := by
  simp [hostIssue, h, hr]

/-- Arguments that fail their command's test are refused in the write (60_exceptions.md R289 (b)). -/
theorem hostIssue_refused {w : Word} {i : Instr} {s : State} (h : decodeCommand w = .ok i)
    (hr : commandRefused i s = true) : hostIssue w s = refuse s := by
  simp [hostIssue, h, hr]

/-- An illegal word is refused in its write (30_encoding.md R96). -/
theorem hostIssue_error {w : Word} {e : Illegal} (h : decodeCommand w = .error e) (s : State) :
    hostIssue w s = refuse s := by
  simp [hostIssue, h]

/-- What a write of `CMD` can do to an idle block. -/
theorem hostIssue_cases (w : Word) (s : State) :
    (∃ i, decodeCommand w = .ok i ∧ commandRefused i s = false ∧
        hostIssue w s = { s with host := { s.host with cmd := w }, phase := .issued }) ∨
      hostIssue w s = refuse s := by
  unfold hostIssue
  split
  · rename_i i h
    split
    · exact .inr rfl
    · rename_i hr; exact .inl ⟨i, h, by simpa using hr, rfl⟩
  · exact .inr rfl

/-- The tests made in the write are those of the meanings: a meaning whose test fails refuses too. -/
theorem exec_of_commandRefused {i : Instr} {s : State} (hp : s.phase = .idle) (h : commandRefused i s = true) :
    exec i s = .next (refuse s) := by
  cases i with
  | hufcon t =>
    cases t <;> simp_all [commandRefused, exec, execHufcon, whenIdle_idle, hufconUser]
  | _ =>
    simp_all [commandRefused, exec, execItd8, execItd16, execMdld8, execMdld16, execBlast, execBrinit, execRdbitsIt,
      execRdbitsMdl, execRdbitsPk, execBrseed, execHufdec, execWcopy, whenIdle_idle, itStart, mdlStart, blastStart,
      rdbits]

/-- What fetching the command word can give. -/
theorem fetchCommand_cases (s : State) :
    (∃ i, decodeCommand s.host.cmd = .ok i ∧ fetchCommand s = .instr i s.takeCommand) ∨
      ∃ e, decodeCommand s.host.cmd = .error e ∧ fetchCommand s = .illegal e s.takeCommand := by
  unfold fetchCommand
  split
  · rename_i i h; exact .inl ⟨i, h, rfl⟩
  · rename_i e h; exact .inr ⟨e, h, rfl⟩

end Sys2Proof.Machine
end

