-- ==== Sys2Proof/Laws/Memory.lean ====
section
/-! SUPPORT. What a memory reads after a write, and that every memory operation keeps the canonical form. -/

namespace Sys2Proof.Machine

open Sys2Proof

variable {w : Nat}

/-- A write is read back at its address. -/
theorem Memory.read_write_same (m : Memory w) (a : Nat) (v : BitVec w) :
    Memory.read (Memory.write m a v) a = some v := by
  induction m with
  | nil => simp [Memory.write, Memory.read]
  | cons c m ih =>
    obtain ⟨b, x⟩ := c
    simp only [Memory.write]
    split
    · simp [Memory.read]
    · split
      · simp [Memory.read]
      · rename_i h1 h2
        simp [Memory.read, h2, ih]

/-- A write leaves every other address alone. -/
theorem Memory.read_write_ne (m : Memory w) {a b : Nat} (v : BitVec w) (h : b ≠ a) :
    Memory.read (Memory.write m a v) b = Memory.read m b := by
  induction m with
  | nil => simp [Memory.write, Memory.read, h]
  | cons c m ih =>
    obtain ⟨d, x⟩ := c
    simp only [Memory.write]
    split
    · simp [Memory.read, h]
    · split
      · rename_i h1 h2
        subst h2
        simp [Memory.read, h]
      · simp [Memory.read, ih]

/-- What any address reads after a write. -/
theorem Memory.read_write (m : Memory w) (a b : Nat) (v : BitVec w) :
    Memory.read (Memory.write m a v) b = if b = a then some v else Memory.read m b := by
  split
  · rename_i h; subst h; exact Memory.read_write_same m b v
  · rename_i h; exact Memory.read_write_ne m v h

/-- The first address of a memory lies above `a`. -/
def Memory.above (a : Nat) : Memory w → Bool
  | [] => true
  | (b, _) :: _ => decide (a < b)

/-- The canonical form of a memory with a first cell. -/
theorem Memory.wf_cons (a : Nat) (x : BitVec w) (m : Memory w) :
    Memory.wf ((a, x) :: m) = (Memory.above a m && Memory.wf m) := by
  cases m with
  | nil => rfl
  | cons c m => rfl

/-- A write above `a` into a memory above `a` stays above `a`. -/
theorem Memory.above_write {m : Memory w} {a b : Nat} (v : BitVec w) (hb : a < b)
    (hm : Memory.above a m = true) : Memory.above a (Memory.write m b v) = true := by
  cases m with
  | nil => simpa [Memory.write, Memory.above] using hb
  | cons c m =>
    obtain ⟨d, x⟩ := c
    simp only [Memory.above, decide_eq_true_eq] at hm
    simp only [Memory.write]
    split
    · simpa [Memory.above] using hb
    · split <;> simp [Memory.above, *]

/-- A write keeps the canonical form. -/
theorem Memory.wf_write {m : Memory w} (a : Nat) (v : BitVec w) (hm : Memory.wf m = true) :
    Memory.wf (Memory.write m a v) = true := by
  induction m with
  | nil => rfl
  | cons c m ih =>
    obtain ⟨b, x⟩ := c
    have h := hm
    rw [Memory.wf_cons, Bool.and_eq_true] at h
    simp only [Memory.write]
    split
    · rename_i hab
      rw [Memory.wf_cons, hm]
      simpa [Memory.above] using hab
    · split
      · rename_i hab
        subst hab
        rw [Memory.wf_cons, h.1, h.2]; rfl
      · rename_i h1 h2
        rw [Memory.wf_cons, ih h.2, Memory.above_write v (by omega) h.1]; rfl

/-- The bytes placed from an address on are in canonical form. -/
theorem Memory.wf_ofBytes (a : Nat) (bs : List Byte) : Memory.wf (Memory.ofBytes a bs) = true := by
  induction bs generalizing a with
  | nil => rfl
  | cons b bs ih =>
    rw [Memory.ofBytes, Memory.wf_cons, ih]
    cases bs <;> simp [Memory.ofBytes, Memory.above]

/-- A copy into `OUT` keeps its length, its epoch and its valid bit. -/
@[simp] theorem OutBuf.copyFrom_len (m : Source) (n a q : Nat) (o : OutBuf) :
    (o.copyFrom m n a q).len = o.len := by
  induction n generalizing a q o with
  | zero => rfl
  | succ n ih => rw [OutBuf.copyFrom, ih]; rfl

/-- A copy into `OUT` keeps the canonical form. -/
theorem OutBuf.wf_copyFrom (m : Source) (n a q : Nat) {o : OutBuf} (h : o.cells.wf = true) :
    (o.copyFrom m n a q).cells.wf = true := by
  induction n generalizing a q o with
  | zero => exact h
  | succ n ih => exact ih (a + 1) (q + 1) (Memory.wf_write _ _ h)

end Sys2Proof.Machine
end

