-- ==== Sys2Proof/Laws/Reader.lean ====
section
/-! SUPPORT. What the BitReader's operations do, each said once: `fetch`, `fill`, `topUp` and `read_bits` keep the
reader on its stream, give the stream's value, and starve exactly when the range has not enough bits
(40_bitreader.md R121 to R127). -/

namespace Sys2Proof.Machine

open Sys2Proof

variable {m : Source} {base p n : Nat} {r : Reader} {mode : Mode}

/-! ### Where a reader stands -/

/-- `p + REAL` bits of the range have been fetched. -/
theorem ReaderAt.fetched (h : ReaderAt m base p r) : p + r.real = 8 * (r.spos - base) ∧ base ≤ r.spos := by
  have := h.place
  constructor <;> omega

/-- A bit of a byte placed at `k` above an accumulator that ends there. -/
theorem getLsbD_take (r : Reader) (b : Byte) (i : Nat) (hi : i < 64) :
    (r.take b).acc.getLsbD i = (r.acc.getLsbD i || (decide (r.cnt ≤ i) && b.getLsbD (i - r.cnt))) := by
  simp only [Reader.take, BitVec.getLsbD_or, BitVec.getLsbD_shiftLeft, BitVec.getLsbD_setWidth]
  by_cases h : i < r.cnt
  · simp [h, hi]
  · simp [h, hi, show r.cnt ≤ i by omega, show i - r.cnt < 64 by omega]

theorem Reader.take_cnt (r : Reader) (b : Byte) : (r.take b).cnt = r.cnt + 8 := rfl

/-- `fetch` puts 8 more bits into the accumulator. -/
@[simp] theorem Reader.fetch_cnt (m : Source) (r : Reader) : (r.fetch m).cnt = r.cnt + 8 := by
  unfold Reader.fetch; split <;> rfl

@[simp] theorem Reader.fetch_brlim (m : Source) (r : Reader) : (r.fetch m).brlim = r.brlim := by
  unfold Reader.fetch; split <;> rfl

@[simp] theorem Reader.fetch_seedlv (m : Source) (r : Reader) : (r.fetch m).seedlv = r.seedlv := by
  unfold Reader.fetch; split <;> rfl

@[simp] theorem Reader.fetch_starved (m : Source) (r : Reader) : (r.fetch m).starved = r.starved := by
  unfold Reader.fetch; split <;> rfl

/-- A real byte can be fetched exactly below the end of the range. -/
theorem Reader.canFetch_iff : r.canFetch m = true ↔ r.spos < r.limit m := by
  simp [Reader.canFetch, Reader.limit]

/-- `fetch` keeps the reader on its stream. -/
theorem ReaderAt.fetch (h : ReaderAt m base p r) (hc : r.cnt + 8 ≤ ACCW) : ReaderAt m base p (r.fetch m) := by
  have hc' : r.cnt + 8 ≤ 64 := hc
  have hf := h.fetched
  by_cases hcan : r.canFetch m = true
  · have hlt := Reader.canFetch_iff.mp hcan
    have hreal : r.real = r.cnt := by
      have h1 := h.real_le
      have h2 := h.atEnd
      by_contra hne
      have := h2 (by omega)
      omega
    have hlim : (r.fetch m).limit m = r.limit m := by simp [Reader.limit]
    have hs : (r.fetch m).spos = r.spos + 1 := by simp [Reader.fetch, hcan]
    have hr : (r.fetch m).real = r.real + 8 := by simp [Reader.fetch, hcan]
    have ha : (r.fetch m).acc = (r.take (m.byte r.spos)).acc := by simp [Reader.fetch, hcan]
    refine ⟨by simpa using h.fresh, by simp [hr]; omega, by simpa using hc, by simpa using h.seed_le,
      by rw [hs, hr]; have := h.place; omega, by rw [hs, hlim]; omega, ?_, ?_, ?_⟩
    · intro hlt'; rw [hr, Reader.fetch_cnt] at hlt'; omega
    · intro i hi
      rw [hr] at hi
      rw [ha, getLsbD_take r _ i (by omega)]
      by_cases hir : i < r.real
      · rw [h.bits i hir]; simp [show ¬ r.cnt ≤ i by omega]
      · rw [h.above i (by omega)]
        simp only [show r.cnt ≤ i by omega, decide_true, Bool.true_and, Bool.false_or, streamBit]
        rw [show base + (p + i) / 8 = r.spos by omega, show (p + i) % 8 = i - r.cnt by omega]
    · intro i hi
      rw [Reader.fetch_cnt] at hi
      by_cases h64 : i < 64
      · rw [ha, getLsbD_take r _ i h64, h.above i (by omega)]
        rw [BitVec.getLsbD_of_ge _ (i - r.cnt) (by omega)]
        simp
      · exact BitVec.getLsbD_of_ge _ i (by omega)
  · have hge : r.spos = r.limit m := by
      have := mt Reader.canFetch_iff.mpr hcan
      have := h.inside
      omega
    have hcan' : r.canFetch m = false := by simpa using hcan
    have hlim : (r.fetch m).limit m = r.limit m := by simp [Reader.limit]
    have hs : (r.fetch m).spos = r.spos := by simp [Reader.fetch, hcan', Reader.take]
    have hr : (r.fetch m).real = r.real := by simp [Reader.fetch, hcan', Reader.take]
    have ha : (r.fetch m).acc = (r.take (Config.phantomByte r.draws)).acc := by
      simp [Reader.fetch, hcan']
    have hrl := h.real_le
    refine ⟨by simpa using h.fresh, by rw [hr, Reader.fetch_cnt]; omega, by simpa using hc,
      by simpa using h.seed_le, by rw [hs, hr]; exact h.place, by rw [hs, hlim]; exact h.inside, ?_, ?_, ?_⟩
    · intro _; rw [hs, hlim]; exact hge
    · intro i hi
      rw [hr] at hi
      rw [ha, getLsbD_take r _ i (by omega), h.bits i hi]
      simp [show ¬ r.cnt ≤ i by omega]
    · intro i hi
      rw [Reader.fetch_cnt] at hi
      by_cases h64 : i < 64
      · rw [ha, getLsbD_take r _ i h64, h.above i (by omega)]
        rw [BitVec.getLsbD_of_ge _ (i - r.cnt) (by omega)]
        simp
      · exact BitVec.getLsbD_of_ge _ i (by omega)

/-- The refill keeps the bounds and reaches the wanted count. -/
theorem Reader.fill_cnt (m : Source) (n turns : Nat) (r : Reader) (h : n ≤ r.cnt + 8 * turns) :
    n ≤ (r.fill m n turns).cnt := by
  induction turns generalizing r with
  | zero => simpa [Reader.fill] using h
  | succ k ih =>
    rw [Reader.fill]
    split
    · exact ih _ (by rw [Reader.fetch_cnt]; omega)
    · omega

/-- The refill keeps the reader on its stream. -/
theorem ReaderAt.fill (hn : n ≤ NMAX) (turns : Nat) (h : ReaderAt m base p r) :
    ReaderAt m base p (r.fill m n turns) := by
  induction turns generalizing r with
  | zero => exact h
  | succ k ih =>
    rw [Reader.fill]
    split
    · exact ih (h.fetch (by simp only [NMAX, ACCW] at *; omega))
    · exact h

/-- The lookahead keeps the reader on its stream. -/
theorem ReaderAt.topUp (turns : Nat) (h : ReaderAt m base p r) : ReaderAt m base p (r.topUp m turns) := by
  induction turns generalizing r with
  | zero => exact h
  | succ k ih =>
    rw [Reader.topUp]
    split
    · have := h.seed_le
      exact ih (h.fetch (by omega))
    · exact h

@[simp] theorem Reader.fill_brlim (m : Source) (n turns : Nat) (r : Reader) :
    (r.fill m n turns).brlim = r.brlim := by
  induction turns generalizing r with
  | zero => rfl
  | succ k ih => rw [Reader.fill]; split <;> simp [ih]

@[simp] theorem Reader.fill_seedlv (m : Source) (n turns : Nat) (r : Reader) :
    (r.fill m n turns).seedlv = r.seedlv := by
  induction turns generalizing r with
  | zero => rfl
  | succ k ih => rw [Reader.fill]; split <;> simp [ih]

@[simp] theorem Reader.fill_starved (m : Source) (n turns : Nat) (r : Reader) :
    (r.fill m n turns).starved = r.starved := by
  induction turns generalizing r with
  | zero => rfl
  | succ k ih => rw [Reader.fill]; split <;> simp [ih]

@[simp] theorem Reader.topUp_brlim (m : Source) (turns : Nat) (r : Reader) :
    (r.topUp m turns).brlim = r.brlim := by
  induction turns generalizing r with
  | zero => rfl
  | succ k ih => rw [Reader.topUp]; split <;> simp [ih]

@[simp] theorem Reader.topUp_seedlv (m : Source) (turns : Nat) (r : Reader) :
    (r.topUp m turns).seedlv = r.seedlv := by
  induction turns generalizing r with
  | zero => rfl
  | succ k ih => rw [Reader.topUp]; split <;> simp [ih]

@[simp] theorem Reader.topUp_starved (m : Source) (turns : Nat) (r : Reader) :
    (r.topUp m turns).starved = r.starved := by
  induction turns generalizing r with
  | zero => rfl
  | succ k ih => rw [Reader.topUp]; split <;> simp [ih]

/-- A read leaves the bound and the seed level alone. -/
@[simp] theorem Reader.readBits_brlim : (r.readBits m mode n).2.brlim = r.brlim := by
  cases mode <;> simp [Reader.readBits, Reader.drop, Reader.noteConsumed] <;> split <;> simp

@[simp] theorem Reader.readBits_seedlv : (r.readBits m mode n).2.seedlv = r.seedlv := by
  cases mode <;> simp [Reader.readBits, Reader.drop, Reader.noteConsumed] <;> split <;> simp

@[simp] theorem Reader.noteConsumed_brlim (r : Reader) (n : Nat) : (r.noteConsumed n).brlim = r.brlim := by
  unfold Reader.noteConsumed; split <;> rfl

/-- At the end of the range the lookahead takes phantom bytes only. -/
theorem Reader.topUp_spos_end (turns : Nat) (r : Reader) (h : r.spos = r.limit m) :
    (r.topUp m turns).spos = r.spos := by
  induction turns generalizing r with
  | zero => rfl
  | succ k ih =>
    rw [Reader.topUp]
    split
    · have hcan : r.canFetch m = false := by
        rw [Bool.eq_false_iff]
        intro hc
        have := Reader.canFetch_iff.mp hc
        omega
      have hs : (r.fetch m).spos = r.spos := by simp [Reader.fetch, hcan, Reader.take]
      rw [ih _ (by rw [hs, h]; simp [Reader.limit]), hs]
    · rfl

/-- `n` real bits leave the accumulator. -/
theorem ReaderAt.consume (h : ReaderAt m base p r) (hn : n ≤ r.real) :
    ReaderAt m base (p + n) ((r.drop n).noteConsumed n) := by
  have hr : ¬ (r.drop n).real < n := by simp only [Reader.drop]; omega
  have h1 := h.real_le
  have h2 := h.cnt_le
  have h3 := h.place
  unfold Reader.noteConsumed
  rw [if_neg hr]
  refine ⟨h.fresh, by simp only [Reader.drop]; omega, by simp only [Reader.drop]; omega, h.seed_le,
    by simp only [Reader.drop]; omega, h.inside, ?_, ?_, ?_⟩
  · intro hlt
    simp only [Reader.drop] at hlt
    exact h.atEnd (by omega)
  · intro i hi
    simp only [Reader.drop] at hi
    simp only [Reader.drop, BitVec.getLsbD_ushiftRight]
    rw [h.bits (n + i) (by omega), Nat.add_assoc]
  · intro i hi
    simp only [Reader.drop] at hi
    simp only [Reader.drop, BitVec.getLsbD_ushiftRight]
    exact h.above _ (by omega)

/-- The low `n` real bits of the accumulator are the stream's value. -/
theorem ReaderAt.value (h : ReaderAt m base p r) (hn : n ≤ r.real) :
    r.acc.toNat % 2 ^ n = streamValue m base p n := by
  apply Nat.eq_of_testBit_eq
  intro i
  rw [streamValue, testBit_bitsNat, Nat.testBit_mod_two_pow, List.getD_eq_getElem?_getD]
  by_cases hi : i < n
  · have hb := h.bits i (by omega)
    simp only [List.getElem?_map, List.getElem?_range hi, Option.map_some, Option.getD_some, ← hb]
    simp [hi, BitVec.getLsbD]
  · simp [hi]

/-- Whether the range has `n` more bits is whether they are real once they are in. -/
theorem ReaderAt.real_iff (h : ReaderAt m base p r) (hn : n ≤ r.cnt) :
    n ≤ r.real ↔ 8 * base + p + n ≤ 8 * r.limit m := by
  have h1 := h.place
  have h2 := h.inside
  have h3 := h.atEnd
  constructor
  · intro _; omega
  · intro _
    by_contra hc
    have := h3 (by omega)
    omega

/-- Everything a read can do to a reader that is on its stream (40_bitreader.md R121, R127): with `n` bits left in
the range it gives their value and moves on by `n`; with fewer it starves, every byte of the range fetched. -/
theorem ReaderAt.readBits (h : ReaderAt m base p r) (mode : Mode) (hn : n ≤ NMAX) :
    (8 * base + p + n ≤ 8 * r.limit m ∧ (r.readBits m mode n).1 = streamValue m base p n ∧
        ReaderAt m base (p + n) (r.readBits m mode n).2) ∨
      (8 * r.limit m < 8 * base + p + n ∧ (r.readBits m mode n).2.starved = true ∧
        (r.readBits m mode n).2.spos = r.limit m) := by
  have hf := h.fill hn n
  have hc := Reader.fill_cnt m n n r (by omega)
  have hl : (r.fill m n n).limit m = r.limit m := by simp [Reader.limit]
  by_cases hreal : n ≤ (r.fill m n n).real
  · left
    have hlim := (hf.real_iff hc).mp hreal
    rw [hl] at hlim
    refine ⟨hlim, hf.value hreal, ?_⟩
    have h2 := hf.consume hreal
    cases mode with
    | it => exact h2
    | pk => exact h2
    | mdl => exact h2.topUp _
  · right
    have hlim := mt (hf.real_iff hc).mpr hreal
    have hend := hf.atEnd (by omega)
    rw [hl] at hlim hend
    refine ⟨by omega, ?_⟩
    have h2 : (((r.fill m n n).drop n).noteConsumed n).starved = true ∧
        (((r.fill m n n).drop n).noteConsumed n).spos = r.limit m := by
      unfold Reader.noteConsumed
      rw [if_pos (by simp only [Reader.drop]; omega)]
      exact ⟨rfl, hend⟩
    cases mode with
    | it => exact h2
    | pk => exact h2
    | mdl =>
      refine ⟨by simpa [Reader.readBits] using h2.1, ?_⟩
      simp only [Reader.readBits]
      rw [Reader.topUp_spos_end _ _ (by rw [h2.2]; simp [Reader.limit, Reader.noteConsumed_brlim, Reader.drop])]
      exact h2.2

/-- Once starved, a reader stays starved. -/
theorem Reader.readBits_starved (m : Source) (mode : Mode) (n : Nat) (r : Reader) (h : r.starved = true) :
    (r.readBits m mode n).2.starved = true := by
  have h2 : (((r.fill m n n).drop n).noteConsumed n).starved = true := by
    unfold Reader.noteConsumed
    split
    · rfl
    · simpa [Reader.drop] using h
  cases mode with
  | it => exact h2
  | pk => exact h2
  | mdl => simpa [Reader.readBits] using h2

/-! ### The bits ahead -/

@[simp] theorem streamRest_length (m : Source) (base p stop : Nat) :
    (streamRest m base p stop).length = 8 * stop - (8 * base + p) := by simp [streamRest]

/-- The bits ahead, the next `n` apart. -/
theorem streamRest_take_drop (m : Source) (base p stop n : Nat) (h : 8 * base + p + n ≤ 8 * stop) :
    bitsNat ((streamRest m base p stop).take n) = streamValue m base p n ∧
      (streamRest m base p stop).drop n = streamRest m base (p + n) stop := by
  constructor
  · rw [streamValue, streamRest, ← List.map_take, List.take_range, Nat.min_eq_left (by omega)]
  · rw [streamRest, streamRest, ← List.map_drop]
    apply List.ext_getElem
    · simp; omega
    · intro i h1 h2
      simp [Nat.add_assoc]

/-- The bits a reader can still give are the bits ahead of it. -/
theorem ReaderAt.bitsLeft (h : ReaderAt m base p r) :
    r.bitsLeft m = (streamRest m base p (r.limit m)).length := by
  have h1 := h.place
  have h2 := h.inside
  rw [streamRest_length, Reader.bitsLeft]
  simp only [Reader.limit] at *
  omega

/-- A read of the reader and a read of the bits ahead of it agree. -/
theorem ReaderBefore.read {bs : List Bool} (h : ReaderBefore m base bs r) (mode : Mode) (hn : n ≤ NMAX) :
    (∃ v bs' r', listRead n bs = .got v bs' ∧ readGot m mode n r = .got v r' ∧ ReaderBefore m base bs' r' ∧
        r'.limit m = r.limit m) ∨
      (listRead n bs = .starved bs ∧
        ∃ r', readGot m mode n r = .starved r' ∧ r'.starved = true ∧ r'.spos = r.limit m) := by
  obtain ⟨p, hat, rfl⟩ := h
  rcases hat.readBits mode hn with ⟨hle, hv, hr⟩ | ⟨hlt, hs, hp⟩
  · left
    have htd := streamRest_take_drop m base p (r.limit m) n hle
    refine ⟨streamValue m base p n, streamRest m base (p + n) (r.limit m), (r.readBits m mode n).2, ?_, ?_,
      ⟨p + n, hr, ?_⟩, by simp [Reader.limit]⟩
    · rw [listRead, if_pos (by rw [streamRest_length]; omega), htd.1, htd.2]
    · rw [readGot, hr.fresh, hv]; rfl
    · simp [Reader.limit]
  · right
    refine ⟨?_, (r.readBits m mode n).2, ?_, hs, hp⟩
    · rw [listRead_starved]; 
      have h1 := hat.place
      have h2 := hat.inside
      exact ⟨by rw [streamRest_length]; omega, rfl⟩
    · rw [readGot, hs]; rfl

/-! ### Where the cursor may go -/

theorem Reader.fetch_spos (m : Source) (r : Reader) (h : r.spos ≤ r.limit m) :
    r.spos ≤ (r.fetch m).spos ∧ (r.fetch m).spos ≤ r.limit m := by
  unfold Reader.fetch
  split
  · rename_i hc
    have := Reader.canFetch_iff.mp hc
    simp only
    omega
  · exact ⟨Nat.le_refl _, h⟩

theorem Reader.fill_spos (m : Source) (n turns : Nat) (r : Reader) (h : r.spos ≤ r.limit m) :
    r.spos ≤ (r.fill m n turns).spos ∧ (r.fill m n turns).spos ≤ r.limit m := by
  induction turns generalizing r with
  | zero => exact ⟨Nat.le_refl _, h⟩
  | succ k ih =>
    rw [Reader.fill]
    split
    · have hf := Reader.fetch_spos m r h
      have hl : (r.fetch m).limit m = r.limit m := by simp [Reader.limit]
      have := ih (r.fetch m) (by omega)
      omega
    · exact ⟨Nat.le_refl _, h⟩

theorem Reader.topUp_spos (m : Source) (turns : Nat) (r : Reader) (h : r.spos ≤ r.limit m) :
    r.spos ≤ (r.topUp m turns).spos ∧ (r.topUp m turns).spos ≤ r.limit m := by
  induction turns generalizing r with
  | zero => exact ⟨Nat.le_refl _, h⟩
  | succ k ih =>
    rw [Reader.topUp]
    split
    · have hf := Reader.fetch_spos m r h
      have hl : (r.fetch m).limit m = r.limit m := by simp [Reader.limit]
      have := ih (r.fetch m) (by omega)
      omega
    · exact ⟨Nat.le_refl _, h⟩

/-- A read moves the cursor forward only, and never past the range (40_bitreader.md R125 (f)). -/
theorem Reader.readBits_spos (m : Source) (mode : Mode) (n : Nat) (r : Reader) (h : r.spos ≤ r.limit m) :
    r.spos ≤ (r.readBits m mode n).2.spos ∧ (r.readBits m mode n).2.spos ≤ r.limit m := by
  have hf := Reader.fill_spos m n n r h
  have hs : (((r.fill m n n).drop n).noteConsumed n).spos = (r.fill m n n).spos := by
    unfold Reader.noteConsumed; split <;> rfl
  have hl : (((r.fill m n n).drop n).noteConsumed n).limit m = r.limit m := by
    simp [Reader.limit, Reader.drop]
  cases mode with
  | it => simpa [Reader.readBits, hs] using hf
  | pk => simpa [Reader.readBits, hs] using hf
  | mdl =>
    have ht := Reader.topUp_spos m (((r.fill m n n).drop n).noteConsumed n).seedlv
      (((r.fill m n n).drop n).noteConsumed n) (by omega)
    simp only [Reader.readBits]
    omega

/-- A read gives a number of its width. -/
theorem Reader.readBits_lt (m : Source) (mode : Mode) (n : Nat) (r : Reader) :
    (r.readBits m mode n).1 < 2 ^ n := by
  cases mode <;> exact Nat.mod_lt _ (Nat.pow_pos (by omega))

/-! ### What a read uses up -/

theorem Reader.fetch_bitsLeft (m : Source) (r : Reader) : (r.fetch m).bitsLeft m = r.bitsLeft m := by
  unfold Reader.fetch
  split
  · rename_i h
    have := Reader.canFetch_iff.mp h
    simp only [Reader.limit] at this
    simp only [Reader.bitsLeft, Reader.take]
    omega
  · rfl

theorem Reader.fill_bitsLeft (m : Source) (n turns : Nat) (r : Reader) :
    (r.fill m n turns).bitsLeft m = r.bitsLeft m := by
  induction turns generalizing r with
  | zero => rfl
  | succ k ih => rw [Reader.fill]; split <;> simp [ih, Reader.fetch_bitsLeft]

theorem Reader.topUp_bitsLeft (m : Source) (turns : Nat) (r : Reader) :
    (r.topUp m turns).bitsLeft m = r.bitsLeft m := by
  induction turns generalizing r with
  | zero => rfl
  | succ k ih => rw [Reader.topUp]; split <;> simp [ih, Reader.fetch_bitsLeft]

/-- A read that does not starve uses up its bits. -/
theorem Reader.readBits_bitsLeft (m : Source) (mode : Mode) (n : Nat) (r : Reader)
    (h : (r.readBits m mode n).2.starved = false) :
    (r.readBits m mode n).2.bitsLeft m + n ≤ r.bitsLeft m := by
  have key : ∀ x : Reader, ((x.drop n).noteConsumed n).starved = false →
      ((x.drop n).noteConsumed n).bitsLeft m + n ≤ x.bitsLeft m := by
    intro x hx
    unfold Reader.noteConsumed at hx ⊢
    split at hx
    · cases hx
    · rename_i hgt
      rw [if_neg hgt]
      simp only [Reader.bitsLeft, Reader.drop] at *
      omega
  have hf := Reader.fill_bitsLeft m n n r
  cases mode with
  | it => exact hf ▸ key _ h
  | pk => exact hf ▸ key _ h
  | mdl =>
    simp only [Reader.readBits, Reader.topUp_starved] at h
    simp only [Reader.readBits, Reader.topUp_bitsLeft]
    exact hf ▸ key _ h

/-! ### The register invariants -/

/-- An accumulator below 2^cnt takes a byte and stays below. -/
theorem Reader.take_above (r : Reader) (b : Byte) (hc : r.cnt + 8 ≤ ACCW) (h : r.acc.toNat < 2 ^ r.cnt) :
    (r.take b).acc.toNat < 2 ^ (r.cnt + 8) := by
  have hc' : r.cnt + 8 ≤ 64 := hc
  simp only [Reader.take, BitVec.toNat_or, BitVec.toNat_shiftLeft, BitVec.toNat_setWidth]
  apply Nat.or_lt_two_pow
  · exact h.trans_le (Nat.pow_le_pow_right (by omega) (by omega))
  · have hb := b.isLt
    refine (Nat.mod_le _ _).trans_lt ?_
    rw [Nat.shiftLeft_eq, Nat.mod_eq_of_lt (by omega), Nat.add_comm, Nat.pow_add]
    exact Nat.mul_lt_mul_of_pos_right (by simpa using hb) (Nat.pow_pos (by omega))

theorem ReaderOk.fetch (h : ReaderOk r) (hc : r.cnt + 8 ≤ ACCW) : ReaderOk (r.fetch m) := by
  have hr := h.real_le
  unfold Reader.fetch
  split
  · exact ⟨by simp only [Reader.take]; omega, by simpa [Reader.take] using hc,
      Reader.take_above r _ hc h.above, h.seed_le, h.seed_bytes⟩
  · exact ⟨by simp only [Reader.take]; omega, by simpa [Reader.take] using hc,
      Reader.take_above r _ hc h.above, h.seed_le, h.seed_bytes⟩

theorem ReaderOk.fill (hn : n ≤ NMAX) (turns : Nat) (h : ReaderOk r) : ReaderOk (r.fill m n turns) := by
  induction turns generalizing r with
  | zero => exact h
  | succ k ih =>
    rw [Reader.fill]
    split
    · exact ih (h.fetch (by simp only [NMAX, ACCW] at *; omega))
    · exact h

theorem ReaderOk.topUp (turns : Nat) (h : ReaderOk r) : ReaderOk (r.topUp m turns) := by
  induction turns generalizing r with
  | zero => exact h
  | succ k ih =>
    rw [Reader.topUp]
    split
    · have := h.seed_le
      exact ih (h.fetch (by omega))
    · exact h

theorem ReaderOk.consume (h : ReaderOk r) (hn : n ≤ r.cnt) : ReaderOk ((r.drop n).noteConsumed n) := by
  have h1 := h.real_le
  have h2 := h.cnt_le
  have ha : (r.acc >>> n).toNat < 2 ^ (r.cnt - n) := by
    rw [BitVec.toNat_ushiftRight, Nat.shiftRight_eq_div_pow]
    apply Nat.div_lt_of_lt_mul
    rw [← Nat.pow_add, Nat.add_sub_cancel' hn]
    exact h.above
  unfold Reader.noteConsumed
  split
  · rename_i hgt
    exact ⟨Nat.zero_le _, by simp only [Reader.drop]; omega, ha, h.seed_le, h.seed_bytes⟩
  · rename_i hgt
    simp only [Reader.drop] at hgt
    exact ⟨by simp only [Reader.drop]; omega, by simp only [Reader.drop]; omega, ha, h.seed_le, h.seed_bytes⟩

/-- A read keeps the register invariants of 40_bitreader.md R125 (a), (b). -/
theorem ReaderOk.readBits (h : ReaderOk r) (mode : Mode) (hn : n ≤ NMAX) :
    ReaderOk (r.readBits m mode n).2 := by
  have h2 : ReaderOk (((r.fill m n n).drop n).noteConsumed n) :=
    (h.fill hn n).consume (Reader.fill_cnt m n n r (by omega))
  cases mode with
  | it => exact h2
  | pk => exact h2
  | mdl => exact h2.topUp _

/-- An emptied reader meets the invariants. -/
theorem ReaderOk.clear (r : Reader) (brlim seedlv : Nat) (h1 : seedlv ≤ ACCW) (h2 : 8 ∣ seedlv) :
    ReaderOk (r.clear brlim seedlv) :=
  ⟨Nat.le_refl _, Nat.zero_le _, by simp [Reader.clear], h1, h2⟩

/-- An emptied reader keeps its place, its range and the phantom bytes drawn, and holds nothing (10_state.md R54, R56). -/
theorem Reader.emptied_eq (r : Reader) :
    r.emptied = { r with acc := 0, cnt := 0, real := 0, starved := false, seedlv := 0 } := rfl

theorem ReaderOk.emptied (r : Reader) : ReaderOk r.emptied := ReaderOk.clear _ _ _ (by decide) (by decide)

/-- An emptied reader stands at the start of its range. -/
theorem ReaderAt.clear (r : Reader) (m : Source) (brlim seedlv : Nat) (h1 : seedlv ≤ ACCW)
    (h2 : r.spos ≤ min brlim m.len) : ReaderAt m r.spos 0 (r.clear brlim seedlv) :=
  ⟨rfl, Nat.le_refl _, Nat.zero_le _, h1, by simp [Reader.clear], h2,
    fun h => absurd h (Nat.lt_irrefl _), fun i hi => absurd hi (Nat.not_lt_zero i), by simp [Reader.clear]⟩

end Sys2Proof.Machine
end

