-- ==== Sys2Proof/Laws/Decoders.lean ====
section
/-! SUPPORT. The stream decoders respect any relation between two readers that every read respects. With the relation
"this list is what the reader has left" it says that the machine decodes the bits of its source as
`decodeBits` decodes them; with "equal, and the property holds" that a property of every read is one of
every event. -/

namespace Sys2Proof

variable {σ τ : Type} {R E : σ → τ → Prop}

/-- Two reads that gave the same value and related readers, or that both starved. -/
def GotRel (R E : σ → τ → Prop) (a : Got σ) (b : Got τ) : Prop :=
  (∃ v s t, a = .got v s ∧ b = .got v t ∧ R s t) ∨ (∃ s t, a = .starved s ∧ b = .starved t ∧ E s t)

/-- Two walks with the same outcome. -/
def WalkedRel (R E : σ → τ → Prop) (a : Walked σ) (b : Walked τ) : Prop :=
  (∃ v s t, a = .sym v s ∧ b = .sym v t ∧ R s t) ∨ (∃ s t, a = .starved s ∧ b = .starved t ∧ E s t) ∨
    (∃ s t, a = .noCode s ∧ b = .noCode t ∧ R s t)

/-- Two decodings with the same outcome. -/
def DecodedRel (R E : σ → τ → Prop) (a : Decoded σ) (b : Decoded τ) : Prop :=
  (∃ i s t, a = .event i s ∧ b = .event i t ∧ R s t) ∨ (∃ s t, a = .starved s ∧ b = .starved t ∧ E s t) ∨
    (∃ s t, a = .noCode s ∧ b = .noCode t ∧ R s t) ∨ (∃ s t, a = .badWidth s ∧ b = .badWidth t ∧ R s t)

/-- Reads of at most `N` bits respect the relation. -/
def ReadRel (R E : σ → τ → Prop) (N : Nat) (rd : Nat → σ → Got σ) (rd' : Nat → τ → Got τ) : Prop :=
  ∀ n ≤ N, ∀ s t, R s t → GotRel R E (rd n s) (rd' n t)

theorem DecodedRel.event {s : σ} {t : τ} (i : Instr) (h : R s t) :
    DecodedRel R E (.event i s) (.event i t) := .inl ⟨i, s, t, rfl, rfl, h⟩

theorem DecodedRel.badWidth {s : σ} {t : τ} (h : R s t) : DecodedRel R E (.badWidth s) (.badWidth t) :=
  .inr (.inr (.inr ⟨s, t, rfl, rfl, h⟩))

/-- Related reads go on to related decodings. -/
theorem GotRel.bind {a : Got σ} {b : Got τ} {k : Nat → σ → Decoded σ} {l : Nat → τ → Decoded τ}
    (h : GotRel R E a b) (hk : ∀ v s t, R s t → DecodedRel R E (k v s) (l v t)) :
    DecodedRel R E (a.bind k) (b.bind l) := by
  rcases h with ⟨v, s, t, rfl, rfl, hr⟩ | ⟨s, t, rfl, rfl, he⟩
  · exact hk v s t hr
  · exact .inr (.inl ⟨s, t, rfl, rfl, he⟩)

/-- Related walks go on to related decodings. -/
theorem WalkedRel.bind {a : Walked σ} {b : Walked τ} {k : Nat → σ → Decoded σ} {l : Nat → τ → Decoded τ}
    (h : WalkedRel R E a b) (hk : ∀ v s t, R s t → DecodedRel R E (k v s) (l v t)) :
    DecodedRel R E (a.bind k) (b.bind l) := by
  rcases h with ⟨v, s, t, rfl, rfl, hr⟩ | ⟨s, t, rfl, rfl, he⟩ | ⟨s, t, rfl, rfl, hr⟩
  · exact hk v s t hr
  · exact .inr (.inl ⟨s, t, rfl, rfl, he⟩)
  · exact .inr (.inr (.inl ⟨s, t, rfl, rfl, hr⟩))

variable {N : Nat} {rd : Nat → σ → Got σ} {rd' : Nat → τ → Got τ} {s : σ} {t : τ}

/-- The Huffman walk respects the relation. -/
theorem ReadRel.huffWalk (hrd : ReadRel R E N rd rd') (hN : 1 ≤ N) (T : HufTable) (ns : List Nat)
    (code first index : Nat) (h : R s t) :
    WalkedRel R E (huffWalk rd T ns code first index s) (huffWalk rd' T ns code first index t) := by
  induction ns generalizing code first index s t with
  | nil => exact .inr (.inr ⟨s, t, rfl, rfl, h⟩)
  | cons n ns ih =>
    rcases hrd 1 hN s t h with ⟨v, s', t', hs, ht, hr⟩ | ⟨s', t', hs, ht, he⟩
    · simp only [Sys2Proof.huffWalk, hs, ht]
      split
      · exact .inl ⟨_, s', t', rfl, rfl, hr⟩
      · exact ih _ _ _ hr
    · simp only [Sys2Proof.huffWalk, hs, ht]
      exact .inr (.inl ⟨s', t', rfl, rfl, he⟩)

/-- `decode(t)` respects the relation. -/
theorem ReadRel.huffDecode (hrd : ReadRel R E N rd rd') (hN : 1 ≤ N) (c : Config) (T : HufTable) (h : R s t) :
    WalkedRel R E (huffDecode c rd T s) (huffDecode c rd' T t) := hrd.huffWalk hN T _ _ _ _ h

/-- An IT event respects the relation. -/
theorem ReadRel.decodeIt (hrd : ReadRel R E N rd rd') (hN : 17 ≤ N) (c : Config) (S : Width) (w : Nat)
    (h : R s t) : DecodedRel R E (decodeIt c rd S w s) (decodeIt c rd' S w t) := by
  have h1 : S.itMax ≤ 17 := by cases S <;> decide
  have h2 : S.itField ≤ 17 := by cases S <;> decide
  unfold Sys2Proof.decodeIt
  split
  · exact .badWidth h
  · rename_i hw
    refine (hrd w (by omega) s t h).bind fun v s t h => ?_
    split
    · split
      · exact (hrd _ (by omega) s t h).bind fun f s t h => .event _ h
      · exact .event _ h
    · split
      · split <;> exact .event _ h
      · split <;> exact .event _ h

theorem ReadRel.mdlFinishEvent (hrd : ReadRel R E N rd rd') (hN : 8 ≤ N) (late : Bool) (lo : Option Byte)
    (mk : Option Byte → Instr) (h : R s t) :
    DecodedRel R E (mdlFinishEvent rd late lo mk s) (mdlFinishEvent rd' late lo mk t) := by
  unfold Sys2Proof.mdlFinishEvent
  split
  · exact (hrd 8 hN s t h).bind fun v s t h => .event _ h
  · exact .event _ h

/-- A unary step is one read that a reader can make. -/
theorem Config.mdlStepBits_le (c : Config) : c.mdlStepBits ≤ NMAX := c.mdlUnaryMore.isLt

/-- The unary run respects the relation; a run cut off by its fuel counts as starved. -/
theorem ReadRel.mdlRun (hrd : ReadRel R E N rd rd') (hN : 8 ≤ N) (c : Config) (hc : c.mdlStepBits ≤ N)
    (late : Bool) (lo : Option Byte) (sign : Bool) (hfuel : ∀ s t, R s t → E s t) (fuel k : Nat) (h : R s t) :
    DecodedRel R E (mdlRun c rd late lo sign fuel k s) (mdlRun c rd' late lo sign fuel k t) := by
  induction fuel generalizing k s t with
  | zero => exact .inr (.inl ⟨s, t, rfl, rfl, hfuel s t h⟩)
  | succ fuel ih =>
    unfold Sys2Proof.mdlRun
    refine (hrd _ hc s t h).bind fun b s t h => ?_
    split
    · exact (hrd 4 (by omega) s t h).bind fun r s t h => hrd.mdlFinishEvent hN late lo _ h
    · exact ih _ h

/-- An MDL event respects the relation. -/
theorem ReadRel.decodeMdl (hrd : ReadRel R E N rd rd') (hN : 8 ≤ N) (c : Config) (hc : c.mdlStepBits ≤ N)
    (hfuel : ∀ s t, R s t → E s t) (fuel : Nat) (S : Width) (h : R s t) :
    DecodedRel R E (decodeMdl c rd fuel S s) (decodeMdl c rd' fuel S t) := by
  have body : ∀ (late : Bool) (lo : Option Byte) (s : σ) (t : τ), R s t →
      DecodedRel R E (mdlBody c rd fuel late lo s) (mdlBody c rd' fuel late lo t) := by
    intro late lo s t h
    unfold mdlBody
    refine (hrd 1 (by omega) s t h).bind fun sg s t h => ?_
    refine (hrd 1 (by omega) s t h).bind fun sh s t h => ?_
    split
    · exact (hrd 3 (by omega) s t h).bind fun r s t h => hrd.mdlFinishEvent hN late lo _ h
    · exact hrd.mdlRun hN c hc late lo _ hfuel fuel 0 h
  unfold Sys2Proof.decodeMdl
  cases S with
  | w8 => exact body false none s t h
  | w16 =>
    simp only
    split
    · exact (hrd 8 hN s t h).bind fun v s t h => body false _ s t h
    · exact body true none s t h

/-- A Blast event respects the relation. -/
theorem ReadRel.decodeBlast (hrd : ReadRel R E N rd rd') (hN : 8 ≤ N) (c : Config)
    (hx : ∀ sym, c.lengthExtra sym ≤ N) (lit dict : Nat) (hd : dict ≤ N) (litT lenT distT : HufTable)
    (h : R s t) :
    DecodedRel R E (decodeBlast c rd lit dict litT lenT distT s)
      (decodeBlast c rd' lit dict litT lenT distT t) := by
  unfold Sys2Proof.decodeBlast
  refine (hrd 1 (by omega) s t h).bind fun sel s t h => ?_
  split
  · split
    · exact (hrd.huffDecode (by omega) c litT h).bind fun b s t h => .event _ h
    · exact (hrd 8 hN s t h).bind fun b s t h => .event _ h
  · unfold decodeMatch
    refine (hrd.huffDecode (by omega) c lenT h).bind fun sym s t h => ?_
    refine (hrd _ (hx sym) s t h).bind fun extra s t h => ?_
    split
    · exact .event _ h
    · refine (hrd.huffDecode (by omega) c distT h).bind fun dsym s t h => ?_
      exact (hrd _ (by unfold distBits; split <;> omega) s t h).bind fun dextra s t h => .event _ h

/-- An MMCMP event respects the relation. -/
theorem ReadRel.decodeMm (hrd : ReadRel R E N rd rd') (c : Config) (S : Width) (w : Nat) (hw : w + 1 ≤ N)
    (hf : c.mmFetch S w ≤ N) (hx : c.mmExt S ≤ N) (h : R s t) :
    DecodedRel R E (decodeMm c rd S w s) (decodeMm c rd' S w t) := by
  unfold Sys2Proof.decodeMm
  refine (hrd _ hw s t h).bind fun d s t h => ?_
  split
  · exact .event _ h
  · refine (hrd _ hf s t h).bind fun f s t h => ?_
    split
    · exact .event _ h
    · refine (hrd _ hx s t h).bind fun x s t h => ?_
      split
      · refine (hrd 1 (by omega) s t h).bind fun b s t h => ?_
        split <;> exact .event _ h
      · exact .event _ h

/-- Nothing asked of the readers after a starved read. -/
theorem ReadRel.forget (hrd : ReadRel R E N rd rd') : ReadRel R (fun _ _ => True) N rd rd' := by
  intro n hn s t h
  rcases hrd n hn s t h with h | ⟨s', t', h1, h2, _⟩
  · exact .inl h
  · exact .inr ⟨s', t', h1, h2, trivial⟩

/-! ### What an event uses -/

/-- Every read that is served uses up its bits of the measure `μ`. -/
def ReadUses (μ : σ → Nat) (rd : Nat → σ → Got σ) : Prop :=
  ∀ n s v s', rd n s = .got v s' → μ s' + n ≤ μ s

variable {μ : σ → Nat} {i : Instr} {s s' : σ}

/-- A walk that finds a symbol uses at least one bit. -/
theorem ReadUses.huffWalk (hrd : ReadUses μ rd) (T : HufTable) (ns : List Nat) (code first index : Nat)
    {v : Nat} (h : Sys2Proof.huffWalk rd T ns code first index s = .sym v s') : μ s' + 1 ≤ μ s := by
  induction ns generalizing code first index s with
  | nil => cases h
  | cons n ns ih =>
    rw [Sys2Proof.huffWalk] at h
    split at h
    · cases h
    · rename_i b t hb
      have := hrd 1 s b t hb
      simp only at h
      split at h
      · cases h; exact this
      · have := ih _ _ _ h; omega

theorem ReadUses.huffDecode (hrd : ReadUses μ rd) (c : Config) (T : HufTable) {v : Nat}
    (h : Sys2Proof.huffDecode c rd T s = .sym v s') : μ s' + 1 ≤ μ s := hrd.huffWalk T _ _ _ _ h

/-- An IT event uses at least one bit. -/
theorem ReadUses.decodeIt (hrd : ReadUses μ rd) (c : Config) (S : Width) (w : Nat)
    (h : Sys2Proof.decodeIt c rd S w s = .event i s') : μ s' < μ s := by
  unfold Sys2Proof.decodeIt at h
  split at h
  · cases h
  · rename_i hw
    obtain ⟨v, t, h1, h2⟩ := Got.bind_eq_event h
    have := hrd _ _ _ _ h1
    split at h2
    · split at h2
      · obtain ⟨f, u, h3, h4⟩ := Got.bind_eq_event h2
        have := hrd _ _ _ _ h3
        cases h4; omega
      · cases h2; omega
    · split at h2
      · split at h2 <;> (cases h2; omega)
      · split at h2 <;> (cases h2; omega)

theorem ReadUses.mdlFinishEvent (hrd : ReadUses μ rd) (late : Bool) (lo : Option Byte)
    (mk : Option Byte → Instr) (h : Sys2Proof.mdlFinishEvent rd late lo mk s = .event i s') : μ s' ≤ μ s := by
  unfold Sys2Proof.mdlFinishEvent at h
  split at h
  · obtain ⟨v, t, h1, h2⟩ := Got.bind_eq_event h
    have := hrd _ _ _ _ h1
    cases h2; omega
  · cases h; exact Nat.le_refl _

theorem ReadUses.mdlRun (hrd : ReadUses μ rd) (c : Config) (late : Bool) (lo : Option Byte) (sign : Bool)
    (fuel k : Nat) (h : Sys2Proof.mdlRun c rd late lo sign fuel k s = .event i s') : μ s' ≤ μ s := by
  induction fuel generalizing k s with
  | zero => cases h
  | succ fuel ih =>
    unfold Sys2Proof.mdlRun at h
    obtain ⟨b, t, h1, h2⟩ := Got.bind_eq_event h
    have := hrd _ _ _ _ h1
    split at h2
    · obtain ⟨r, u, h3, h4⟩ := Got.bind_eq_event h2
      have := hrd _ _ _ _ h3
      have := hrd.mdlFinishEvent _ _ _ h4
      omega
    · have := ih _ h2; omega

/-- An MDL event uses at least one bit. -/
theorem ReadUses.decodeMdl (hrd : ReadUses μ rd) (c : Config) (fuel : Nat) (S : Width)
    (h : Sys2Proof.decodeMdl c rd fuel S s = .event i s') : μ s' < μ s := by
  have body : ∀ (late : Bool) (lo : Option Byte) (s : σ),
      mdlBody c rd fuel late lo s = .event i s' → μ s' < μ s := by
    intro late lo s h
    unfold mdlBody at h
    obtain ⟨sg, t, h1, h2⟩ := Got.bind_eq_event h
    have := hrd _ _ _ _ h1
    obtain ⟨sh, u, h3, h4⟩ := Got.bind_eq_event h2
    have := hrd _ _ _ _ h3
    split at h4
    · obtain ⟨r, v, h5, h6⟩ := Got.bind_eq_event h4
      have := hrd _ _ _ _ h5
      have := hrd.mdlFinishEvent _ _ _ h6
      omega
    · have := hrd.mdlRun _ _ _ _ _ _ h4
      omega
  unfold Sys2Proof.decodeMdl at h
  cases S with
  | w8 => exact body _ _ _ h
  | w16 =>
    simp only at h
    split at h
    · obtain ⟨v, t, h1, h2⟩ := Got.bind_eq_event h
      have := hrd _ _ _ _ h1
      have := body _ _ _ h2
      omega
    · exact body _ _ _ h

/-- A Blast event uses at least one bit. -/
theorem ReadUses.decodeBlast (hrd : ReadUses μ rd) (c : Config) (lit dict : Nat)
    (litT lenT distT : HufTable) (h : Sys2Proof.decodeBlast c rd lit dict litT lenT distT s = .event i s') :
    μ s' < μ s := by
  unfold Sys2Proof.decodeBlast at h
  obtain ⟨sel, t, h1, h2⟩ := Got.bind_eq_event h
  have := hrd _ _ _ _ h1
  split at h2
  · split at h2
    · obtain ⟨b, u, h3, h4⟩ := Walked.bind_eq_event h2
      have := hrd.huffDecode _ _ h3
      cases h4; omega
    · obtain ⟨b, u, h3, h4⟩ := Got.bind_eq_event h2
      have := hrd _ _ _ _ h3
      cases h4; omega
  · unfold decodeMatch at h2
    obtain ⟨sym, u, h3, h4⟩ := Walked.bind_eq_event h2
    have := hrd.huffDecode _ _ h3
    obtain ⟨x, u', h5, h6⟩ := Got.bind_eq_event h4
    have := hrd _ _ _ _ h5
    split at h6
    · cases h6; omega
    · obtain ⟨ds, u2, h7, h8⟩ := Walked.bind_eq_event h6
      have := hrd.huffDecode _ _ h7
      obtain ⟨dx, u3, h9, h10⟩ := Got.bind_eq_event h8
      have := hrd _ _ _ _ h9
      cases h10; omega

/-- An MMCMP event uses at least one bit. -/
theorem ReadUses.decodeMm (hrd : ReadUses μ rd) (c : Config) (S : Width) (w : Nat)
    (h : Sys2Proof.decodeMm c rd S w s = .event i s') : μ s' < μ s := by
  unfold Sys2Proof.decodeMm at h
  obtain ⟨d, t, h1, h2⟩ := Got.bind_eq_event h
  have := hrd _ _ _ _ h1
  split at h2
  · cases h2; omega
  · obtain ⟨f, u, h3, h4⟩ := Got.bind_eq_event h2
    have := hrd _ _ _ _ h3
    split at h4
    · cases h4; omega
    · obtain ⟨x, u', h5, h6⟩ := Got.bind_eq_event h4
      have := hrd _ _ _ _ h5
      split at h6
      · obtain ⟨b, u2, h7, h8⟩ := Got.bind_eq_event h6
        have := hrd _ _ _ _ h7
        split at h8 <;> (cases h8; omega)
      · cases h6; omega

end Sys2Proof

namespace Sys2Proof.Machine

open Sys2Proof

/-- The reader and the list of the bits ahead of it read alike (40_bitreader.md R121). -/
theorem readRel_stream (m : Source) (base stop : Nat) (mode : Mode) :
    ReadRel (fun bs r => ReaderBefore m base bs r ∧ r.limit m = stop)
      (fun _ r => r.starved = true ∧ r.spos = stop) NMAX listRead (readGot m mode) := by
  rintro n hn bs r ⟨h, rfl⟩
  rcases h.read mode hn with ⟨v, bs', r', h1, h2, h3, h4⟩ | ⟨h1, r', h2, h3⟩
  · exact .inl ⟨v, bs', r', h1, h2, h3, h4⟩
  · exact .inr ⟨bs, r', h1, h2, h3⟩

/-- The same, with the range and the seed level that no read changes. -/
theorem readRel_streamIn (m : Source) (base stop brlim seedlv : Nat) (mode : Mode) :
    ReadRel (fun bs r => (ReaderBefore m base bs r ∧ r.limit m = stop) ∧ r.brlim = brlim ∧ r.seedlv = seedlv)
      (fun _ r => (r.starved = true ∧ r.spos = stop) ∧ r.brlim = brlim ∧ r.seedlv = seedlv) NMAX listRead
      (readGot m mode) := by
  rintro n hn bs r ⟨h, rfl, rfl⟩
  have keeps : ∀ {t}, (∃ v, readGot m mode n r = .got v t) ∨ readGot m mode n r = .starved t →
      t.brlim = r.brlim ∧ t.seedlv = r.seedlv := by
    intro t ht
    unfold readGot at ht
    split at ht <;> rcases ht with ⟨v, ht⟩ | ht <;> cases ht <;> exact ⟨by simp, by simp⟩
  rcases readRel_stream m base stop mode n hn bs r h with ⟨v, a, b, h1, h2, h3⟩ | ⟨a, b, h1, h2, h3⟩
  · exact .inl ⟨v, a, b, h1, h2, h3, keeps (.inl ⟨v, h2⟩)⟩
  · exact .inr ⟨a, b, h1, h2, h3, keeps (.inr h2)⟩

/-- A property of readers that every read keeps is kept by whatever the decoders do. -/
theorem readRel_keeps (m : Source) (mode : Mode) (P : Reader → Prop)
    (hP : ∀ n ≤ NMAX, ∀ r, P r → P (r.readBits m mode n).2) :
    ReadRel (fun a b => a = b ∧ P a) (fun a b => a = b ∧ P a) NMAX (readGot m mode) (readGot m mode) := by
  rintro n hn r _ ⟨rfl, h⟩
  have h2 := hP n hn r h
  unfold readGot
  split
  · exact .inr ⟨_, _, rfl, rfl, rfl, h2⟩
  · exact .inl ⟨_, _, _, rfl, rfl, rfl, h2⟩

/-- A read of the BitReader uses up its bits. -/
theorem readUses_reader (m : Source) (mode : Mode) : ReadUses (fun r => r.bitsLeft m) (readGot m mode) := by
  intro n r v r' h
  unfold readGot at h
  split at h
  · cases h
  · rename_i hs
    cases h
    exact Reader.readBits_bitsLeft m mode n r (by simpa using hs)

end Sys2Proof.Machine
end

