-- ==== Sys2Proof/Laws/Events.lean ====
section
/-! SUPPORT. What the decoders give is well formed: a stream decoder gives an event of its own context with every field
inside its range (30_encoding.md R99, R101, R102, R104, R106), the command decoder a command
(R96). -/

namespace Sys2Proof

/-- Every value a read gives fits its width. -/
def ReadFits {σ : Type} (rd : Nat → σ → Got σ) : Prop := ∀ n s v s', rd n s = .got v s' → v < 2 ^ n

variable {σ : Type} {rd : Nat → σ → Got σ} {s s' : σ} {i : Instr} {c : Config}

/-- An IT event is well formed. -/
theorem ReadFits.decodeIt (hrd : ReadFits rd) {S : Width} {w : Nat}
    (h : Sys2Proof.decodeIt c rd S w s = .event i s') : WellFormed c (.it S w) i = true := by
  have e : S.itMax = S.bits + 1 := by cases S <;> rfl
  unfold Sys2Proof.decodeIt at h
  split at h
  · cases h
  · rename_i hw
    obtain ⟨v, t, h1, h2⟩ := Got.bind_eq_event h
    have hv := hrd _ _ _ _ h1
    split at h2
    · rename_i h6
      split at h2
      · obtain ⟨f, u, h3, h4⟩ := Got.bind_eq_event h2
        have hf := hrd _ _ _ _ h3
        cases h4
        simp only [WellFormed, Bool.and_eq_true, decide_eq_true_eq]
        exact ⟨⟨by omega, h6⟩, hf⟩
      · rename_i hne
        cases h2
        rw [Nat.one_shiftLeft] at hne
        simp only [WellFormed, h6, if_true, Bool.and_eq_true, decide_eq_true_eq]
        exact ⟨⟨⟨by omega, by omega⟩, hv⟩, hne⟩
    · rename_i h6
      split at h2
      · rename_i h7
        split at h2
        · rename_i hb
          cases h2
          simp only [WellFormed, Bool.and_eq_true, decide_eq_true_eq]
          exact ⟨⟨⟨by omega, h7⟩, hv⟩, hb⟩
        · rename_i hb
          cases h2
          simp only [WellFormed, h6, h7, if_false, if_true, Bool.and_eq_true, decide_eq_true_eq]
          exact ⟨⟨⟨by omega, by omega⟩, hv⟩, by simpa using hb⟩
      · rename_i h7
        have hw' : w = S.bits + 1 := by omega
        split at h2
        · cases h2
          simp only [WellFormed, Bool.and_eq_true, decide_eq_true_eq]
          exact ⟨by omega, by rw [hw', Nat.add_sub_cancel]; exact Nat.mod_lt _ (Nat.pow_pos (by omega))⟩
        · rename_i hb
          cases h2
          simp only [WellFormed, h6, h7, if_false, Bool.and_eq_true, decide_eq_true_eq]
          refine ⟨⟨⟨by omega, by omega⟩, hv⟩, ?_⟩
          by_contra hge
          have hq : v / 2 ^ (w - 1) < 2 := by
            rw [Nat.div_lt_iff_lt_mul (Nat.pow_pos (by omega)), Nat.mul_comm, ← Nat.pow_succ]
            rw [show (w - 1).succ = w by omega]
            exact hv
          have hp : 1 ≤ v / 2 ^ (w - 1) := (Nat.one_le_div_iff (Nat.pow_pos (by omega))).mpr (by omega)
          rw [Nat.testBit_eq_decide_div_mod_eq] at hb
          simp only [decide_eq_true_eq] at hb
          omega

/-- An MDL event is well formed. -/
theorem decodeMdl_wellFormed {fuel : Nat} {S : Width}
    (h : decodeMdl c rd fuel S s = .event i s') : WellFormed c (.mdl S) i = true := by
  have fin : ∀ (late : Bool) (lo : Option Byte) (mk : Option Byte → Instr) (s : σ),
      mdlFinishEvent rd late lo mk s = .event i s' →
        (late = false ∧ i = mk lo) ∨ (late = true ∧ ∃ b, i = mk (some b)) := by
    intro late lo mk s h
    unfold mdlFinishEvent at h
    split at h
    · obtain ⟨v, t, h1, h2⟩ := Got.bind_eq_event h
      rename_i hl
      cases h2
      exact .inr ⟨hl, _, rfl⟩
    · rename_i hl
      cases h
      exact .inl ⟨by simpa using hl, rfl⟩
  have run : ∀ (late : Bool) (lo : Option Byte) (sign : Bool) (fuel k : Nat) (s : σ),
      mdlRun c rd late lo sign fuel k s = .event i s' →
        ∃ k' r, (late = false ∧ i = .mdlLong lo sign k' r) ∨ (late = true ∧ ∃ b, i = .mdlLong (some b) sign k' r) := by
    intro late lo sign fuel
    induction fuel with
    | zero => intro k s h; cases h
    | succ n ih =>
      intro k s h
      unfold mdlRun at h
      obtain ⟨b, t, h1, h2⟩ := Got.bind_eq_event h
      split at h2
      · obtain ⟨r, u, h3, h4⟩ := Got.bind_eq_event h2
        exact ⟨_, _, fin _ _ _ _ h4⟩
      · exact ih _ _ h2
  have body : ∀ (late : Bool) (lo : Option Byte) (s : σ), mdlBody c rd fuel late lo s = .event i s' →
      (if late then WellFormed c (.mdl .w16) i = true
        else WellFormed c (.mdl (if lo.isSome then .w16 else .w8)) i = true) := by
    intro late lo s h
    unfold mdlBody at h
    obtain ⟨sg, t, h1, h2⟩ := Got.bind_eq_event h
    obtain ⟨sh, u, h3, h4⟩ := Got.bind_eq_event h2
    split at h4
    · obtain ⟨r, v, h5, h6⟩ := Got.bind_eq_event h4
      rcases fin _ _ _ _ h6 with ⟨rfl, rfl⟩ | ⟨rfl, b, rfl⟩
      · cases lo <;> rfl
      · rfl
    · obtain ⟨k', r, ⟨rfl, rfl⟩ | ⟨rfl, b, rfl⟩⟩ := run _ _ _ _ _ _ h4
      · cases lo <;> rfl
      · rfl
  unfold decodeMdl at h
  cases S with
  | w8 => exact body _ _ _ h
  | w16 =>
    simp only at h
    split at h
    · obtain ⟨v, t, h1, h2⟩ := Got.bind_eq_event h
      exact body _ _ _ h2
    · exact body _ _ _ h

/-- A Blast event is a literal, a match or the end. -/
theorem decodeBlast_event {lit dict : Nat} {a b d : HufTable}
    (h : decodeBlast c rd lit dict a b d s = .event i s') :
    (∃ x, i = .blLit x) ∨ (∃ x y z w, i = .blMatch x y z w) ∨ i = .blEnd := by
  unfold decodeBlast at h
  obtain ⟨sel, t, h1, h2⟩ := Got.bind_eq_event h
  split at h2
  · split at h2
    · obtain ⟨x, u, h3, h4⟩ := Walked.bind_eq_event h2
      cases h4; exact .inl ⟨_, rfl⟩
    · obtain ⟨x, u, h3, h4⟩ := Got.bind_eq_event h2
      cases h4; exact .inl ⟨_, rfl⟩
  · unfold decodeMatch at h2
    obtain ⟨sym, u, h3, h4⟩ := Walked.bind_eq_event h2
    obtain ⟨x, u', h5, h6⟩ := Got.bind_eq_event h4
    split at h6
    · cases h6; exact .inr (.inr rfl)
    · obtain ⟨ds, u2, h7, h8⟩ := Walked.bind_eq_event h6
      obtain ⟨dx, u3, h9, h10⟩ := Got.bind_eq_event h8
      cases h10; exact .inr (.inl ⟨_, _, _, _, rfl⟩)

/-- An MMCMP event is well formed. -/
theorem ReadFits.decodeMm (hrd : ReadFits rd) {S : Width} {w : Nat}
    (h : Sys2Proof.decodeMm c rd S w s = .event i s') : WellFormed c (.mmcmp S w) i = true := by
  unfold Sys2Proof.decodeMm at h
  obtain ⟨d, t, h1, h2⟩ := Got.bind_eq_event h
  have hd := hrd _ _ _ _ h1
  split at h2
  · rename_i hlt
    cases h2
    simp only [WellFormed, Bool.and_eq_true, decide_eq_true_eq]
    exact ⟨hd, hlt⟩
  · rename_i hge
    obtain ⟨f, u, h3, h4⟩ := Got.bind_eq_event h2
    have hf := hrd _ _ _ _ h3
    have he : isEscape c S w d f = true := by
      simp only [isEscape, Bool.and_eq_true, decide_eq_true_eq]
      exact ⟨⟨hd, by omega⟩, hf⟩
    split at h4
    · rename_i hne
      cases h4
      simp only [WellFormed, he, Bool.true_and, decide_eq_true_eq]
      exact hne
    · rename_i heq
      have heq' : escapeWidth c S w d f = w := by simpa using heq
      obtain ⟨x, u', h5, h6⟩ := Got.bind_eq_event h4
      have hx := hrd _ _ _ _ h5
      split at h6
      · obtain ⟨b, u2, h7, h8⟩ := Got.bind_eq_event h6
        split at h8 <;> cases h8 <;> simp [WellFormed, he, heq', hx]
      · cases h6
        simp [WellFormed, he, heq', hx]

/-- What the command decoder gives is a well-formed command (30_encoding.md R96). -/
theorem decodeCommand_wellFormed {w : Word} (h : decodeCommand w = .ok i) : WellFormed c .command i = true := by
  have plain : ∀ j, WellFormed c .command j = true → plainCmd w j = .ok i → WellFormed c .command i = true := by
    intro j hj h
    unfold plainCmd at h
    split at h
    · cases h
    · split at h
      · cases h
      · cases h; exact hj
  have flag : ∀ k : Bool → Instr, (∀ b, WellFormed c .command (k b) = true) → f215Cmd w k = .ok i →
      WellFormed c .command i = true := by
    intro k hk h
    unfold f215Cmd at h
    split at h
    · cases h
    · cases h; exact hk _
  have num : ∀ (bound : Nat) (k : BitVec 6 → Instr),
      (∀ n : BitVec 6, n.toNat ≤ bound → WellFormed c .command (k n) = true) → nCmd w bound k = .ok i →
        WellFormed c .command i = true := by
    intro bound k hk h
    unfold nCmd at h
    split at h
    · cases h
    · split at h
      · cases h
      · cases h; exact hk _ (by omega)
  unfold decodeCommand at h
  split at h
  · split at h
    all_goals first
      | exact plain _ rfl h
      | exact flag _ (fun _ => rfl) h
      | exact num _ _ (fun _ hn => by first | rfl | exact decide_eq_true hn) h
      | cases h
  · cases h

end Sys2Proof

namespace Sys2Proof.Machine

open Sys2Proof

/-- A read of the BitReader fits its width. -/
theorem readFits_reader (m : Source) (mode : Mode) : ReadFits (readGot m mode) := by
  intro n r v r' h
  unfold readGot at h
  split at h
  · cases h
  · cases h; exact Reader.readBits_lt m mode n r

end Sys2Proof.Machine
end

