-- ==== Sys2Proof/Laws/Huffman.lean ====
section
/-! SUPPORT. The Huffman walk and the canonical code (43_huffman.md R191, R197): the walk over a symbol's code gives the
symbol, a walk that gave a symbol has read its code, and a complete set of counts never fails. Stated
over the list of counts, so that they hold of every table. -/

namespace Sys2Proof

variable {ns : List Nat} {pos first len L c index code : Nat} {T : HufTable} {rest bs : List Bool}

/-- The first bit of a code word, and the others. -/
theorem codeBits_succ (k c : Nat) : codeBits (k + 1) c = (!c.testBit k) :: codeBits k c := by
  simp only [codeBits, List.range_succ_eq_map, List.map_cons, List.map_map]
  congr 1
  apply List.map_congr_left
  intro i hi
  simp only [List.mem_range] at hi
  simp only [Function.comp]
  congr 2
  omega

@[simp] theorem codeBits_length (k c : Nat) : (codeBits k c).length = k := by simp [codeBits]

/-- A code lies at or beyond its level and at or above what its first code is shifted to. -/
theorem codeAt_bounds (h : codeAt ns pos first len = some (L, c)) : len ≤ L ∧ first * 2 ^ (L - len) ≤ c := by
  induction ns generalizing pos first len with
  | nil => cases h
  | cons n ns ih =>
    rw [codeAt] at h
    split at h
    · cases h; simp
    · obtain ⟨h1, h2⟩ := ih h
      refine ⟨by omega, ?_⟩
      refine le_trans ?_ h2
      rw [show L - len = (L - (len + 1)) + 1 by omega, Nat.pow_succ, Nat.mul_comm (2 ^ _) 2,
        ← Nat.mul_assoc]
      exact Nat.mul_le_mul_right _ (by omega)

/-- A set of lengths that is not over-subscribed has codes that fit their length. -/
theorem codeAt_lt {left : Int} (h : codeAt ns pos first len = some (L, c))
    (hk : 0 ≤ kraftLeft ns left) (hf : (first : Int) + 2 * left = 2 ^ len) : c < 2 ^ L := by
  induction ns generalizing pos first len left with
  | nil => cases h
  | cons n ns ih =>
    rw [codeAt] at h
    rw [kraftLeft] at hk
    split at hk
    · omega
    · rename_i hn
      split at h
      · cases h
        have : ((first + pos : Nat) : Int) < ((2 ^ L : Nat) : Int) := by push_cast; omega
        exact_mod_cast this
      · exact ih h hk (by push_cast; rw [pow_succ]; omega)

/-- One bit of a walk: the bit is inverted and becomes the lowest bit of the code. -/
theorem walk_bit (c k : Nat) : 2 * (c >>> (k + 1)) ||| ((!c.testBit k).toNat ^^^ 1) = c >>> k := by
  have h1 : ((!c.testBit k).toNat ^^^ 1) = (c >>> k) % 2 := by
    rw [Nat.testBit_eq_decide_div_mod_eq, Nat.shiftRight_eq_div_pow]
    rcases Nat.mod_two_eq_zero_or_one (c / 2 ^ k) with h | h <;> simp [h]
  have h2 : c >>> (k + 1) = (c >>> k) / 2 := by rw [Nat.shiftRight_succ]
  rw [h1, h2]
  generalize c >>> k = x
  have : 2 * (x / 2) = (x / 2) <<< 1 := by rw [Nat.shiftLeft_eq]; omega
  rw [this, ← Nat.shiftLeft_add_eq_or_of_lt (by omega), Nat.shiftLeft_eq]
  omega

/-- The walk over the bits of a code gives the symbol at the code's place (43_huffman.md R191, R197). -/
theorem huffWalk_code (k : Nat) (h : codeAt ns pos first len = some (len + k, c)) :
    huffWalk listRead T ns (2 * (c >>> (k + 1))) first index (codeBits (k + 1) c ++ rest) =
      .sym (T.symbolAt (index + pos)).toNat rest := by
  induction ns generalizing pos first len index k with
  | nil => cases h
  | cons n ns ih =>
    rw [codeBits_succ, List.cons_append, huffWalk, listRead_bit]
    simp only [walk_bit]
    rw [codeAt] at h
    split at h
    · rename_i hn
      have hk : k = 0 ∧ c = first + pos := by
        simp only [Option.some.injEq, Prod.mk.injEq] at h
        omega
      obtain ⟨rfl, rfl⟩ := hk
      rw [if_pos (by simpa using hn)]
      simp [codeBits]
    · rename_i hn
      have hb := codeAt_bounds h
      obtain ⟨k, rfl⟩ : ∃ j, k = j + 1 := ⟨k - 1, by omega⟩
      have hge : first + n ≤ c >>> (k + 1) := by
        rw [Nat.shiftRight_eq_div_pow, Nat.le_div_iff_mul_le (Nat.pow_pos (by omega))]
        refine le_trans (le_of_eq ?_) hb.2
        rw [show len + (k + 1) - (len + 1) = k by omega, Nat.pow_succ]
        ring
      rw [if_neg (by omega)]
      have := ih (index := index + n) k (by rw [show len + 1 + k = len + (k + 1) by omega]; exact h)
      rw [show index + n + (pos - n) = index + pos by omega] at this
      rw [← this, Nat.shiftLeft_eq, Nat.shiftLeft_eq]
      congr 1
      omega

/-- A walk that gave a symbol has read the code of the symbol's place (43_huffman.md R191, R197). -/
theorem huffWalk_sym {v : Nat} (len : Nat) (h : huffWalk listRead T ns code first index bs = .sym v rest)
    (hfc : first ≤ code) (heven : code % 2 = 0) :
    ∃ pos k c, codeAt ns pos first len = some (len + k, c) ∧ v = (T.symbolAt (index + pos)).toNat ∧
      bs = codeBits (k + 1) c ++ rest ∧ code = 2 * (c >>> (k + 1)) ∧ pos < ns.sum := by
  induction ns generalizing code first index bs len with
  | nil => cases h
  | cons n ns ih =>
    cases bs with
    | nil => simp [huffWalk, listRead] at h
    | cons x bs =>
      rw [huffWalk, listRead_bit] at h
      simp only at h
      have hx : code ||| (x.toNat ^^^ 1) = code + (!x).toNat := by
        have h1 : x.toNat ^^^ 1 = (!x).toNat := by cases x <;> rfl
        have h2 : code = (code / 2) <<< 1 := by rw [Nat.shiftLeft_eq]; omega
        rw [h1]
        conv_lhs => rw [h2]
        rw [← Nat.shiftLeft_add_eq_or_of_lt (by cases x <;> decide), ← h2]
      rw [hx] at h
      have hb : (!x).toNat ≤ 1 := by cases x <;> decide
      split at h
      · rename_i hlt
        cases h
        refine ⟨code + (!x).toNat - first, 0, code + (!x).toNat, ?_, rfl, ?_, ?_, ?_⟩
        · rw [codeAt, if_pos (by omega)]
          simp only [Option.some.injEq, Prod.mk.injEq]
          omega
        · rw [codeBits_succ, Nat.testBit_zero]
          cases x <;> simp [codeBits, heven, Nat.add_mod]
        · rw [Nat.shiftRight_eq_div_pow]; omega
        · simp only [List.sum_cons]; omega
      · rename_i hge
        obtain ⟨pos, k, c, h1, h2, h3, h4, h5⟩ := ih (len + 1) h
          (by rw [Nat.shiftLeft_eq, Nat.shiftLeft_eq]; omega) (by rw [Nat.shiftLeft_eq]; omega)
        rw [Nat.shiftLeft_eq] at h4
        have hc : c >>> (k + 1) = code + (!x).toNat := by omega
        refine ⟨n + pos, k + 1, c, ?_, ?_, ?_, ?_, ?_⟩
        · rw [codeAt, if_neg (by omega), Nat.add_sub_cancel_left]
          rw [Nat.shiftLeft_eq] at h1
          rw [show len + (k + 1) = len + 1 + k by omega, ← h1]
        · rw [h2, Nat.add_assoc]
        · rw [codeBits_succ, List.cons_append, ← h3, Nat.testBit_eq_decide_div_mod_eq,
            ← Nat.shiftRight_eq_div_pow, hc]
          cases x <;> simp [heven, Nat.add_mod]
        · rw [Nat.shiftRight_succ, hc]; omega
        · simp only [List.sum_cons]; omega

/-- A complete set of counts finds a code in every long enough bit string (43_huffman.md R195 (c)). -/
theorem huffWalk_complete {left : Int} (len : Nat) (hk : kraftLeft ns left = 0)
    (hf : (first : Int) + 2 * left = 2 ^ len) (hfc : first ≤ code) (heven : code % 2 = 0)
    (hlt : code < 2 ^ len) (hlen : 1 ≤ len) {s : List Bool} :
    huffWalk listRead T ns code first index bs ≠ .noCode s := by
  induction ns generalizing code first index bs len left with
  | nil =>
    exfalso
    rw [kraftLeft] at hk
    subst hk
    have : (first : Int) = ((2 ^ len : Nat) : Int) := by push_cast; omega
    have : first = 2 ^ len := by exact_mod_cast this
    omega
  | cons n ns ih =>
    cases bs with
    | nil => simp [huffWalk, listRead]
    | cons x bs =>
      rw [huffWalk, listRead_bit]
      simp only
      have hx : code ||| (x.toNat ^^^ 1) = code + (!x).toNat := by
        have h1 : x.toNat ^^^ 1 = (!x).toNat := by cases x <;> rfl
        have h2 : code = (code / 2) <<< 1 := by rw [Nat.shiftLeft_eq]; omega
        rw [h1]
        conv_lhs => rw [h2]
        rw [← Nat.shiftLeft_add_eq_or_of_lt (by cases x <;> decide), ← h2]
      rw [hx]
      have hb : (!x).toNat ≤ 1 := by cases x <;> decide
      have hp : 2 ^ len % 2 = 0 := by
        obtain ⟨j, rfl⟩ : ∃ j, len = j + 1 := ⟨len - 1, by omega⟩
        rw [Nat.pow_succ]; omega
      split
      · simp
      · rename_i hge
        rw [kraftLeft] at hk
        split at hk
        · omega
        · refine ih (len + 1) hk ?_ ?_ ?_ ?_ (by omega)
          · rw [Nat.shiftLeft_eq]; push_cast; rw [pow_succ]; omega
          · rw [Nat.shiftLeft_eq, Nat.shiftLeft_eq]; omega
          · rw [Nat.shiftLeft_eq]; omega
          · rw [Nat.shiftLeft_eq, Nat.pow_succ]; omega

end Sys2Proof
end

