-- ==== Sys2Proof/Laws/PerInstr.lean ====
section
/-! SUPPORT. Two facts of every instruction as syntax, one lemma for each constructor: a well-formed command is read
back from its word (30_encoding.md R91, R92, R96), and an instruction stands in the contexts of one format
only (R108). -/

namespace Sys2Proof

/-- The format of a context (30_encoding.md R91, R99, R101, R102, R104, R106). -/
def Ctx.format : Ctx → Nat
  | .command => 0
  | .it _ _ => 1
  | .mdl _ => 2
  | .blast _ _ => 3
  | .mmcmp _ _ => 4
  | .descriptor => 5

end Sys2Proof

namespace Sys2Proof.Laws

open Sys2Proof

/-- A command that is well formed is what its own word decodes to. -/
def CommandRoundTrip.Statement (i : Instr) : Prop :=
  WellFormed Config.default .command i = true → decodeCommand (encodeCommand i) = .ok i

/-- Two contexts that hold the instruction are of one format. -/
def OneFormat.Statement (i : Instr) : Prop :=
  ∀ (c : Config) (x y : Ctx), WellFormed c x i = true → WellFormed c y i = true → x.format = y.format

/-! ### Commands -/

theorem CommandRoundTrip.nop : CommandRoundTrip.Statement (.nop) := fun _ => by decide

theorem CommandRoundTrip.itd8 (f : Bool) : CommandRoundTrip.Statement (.itd8 f) := by
  cases f <;> exact fun _ => by decide

theorem CommandRoundTrip.itd16 (f : Bool) : CommandRoundTrip.Statement (.itd16 f) := by
  cases f <;> exact fun _ => by decide

theorem CommandRoundTrip.mdld8 : CommandRoundTrip.Statement (.mdld8) := fun _ => by decide

theorem CommandRoundTrip.mdld16 : CommandRoundTrip.Statement (.mdld16) := fun _ => by decide

theorem CommandRoundTrip.blast : CommandRoundTrip.Statement (.blast) := fun _ => by decide

theorem CommandRoundTrip.mmcmp : CommandRoundTrip.Statement (.mmcmp) := fun _ => by decide

theorem CommandRoundTrip.brinit : CommandRoundTrip.Statement (.brinit) := fun _ => by decide

theorem CommandRoundTrip.rdbitsIt (n : BitVec 6) : CommandRoundTrip.Statement (.rdbitsIt n) := by
  revert n
  unfold CommandRoundTrip.Statement
  decide +kernel

theorem CommandRoundTrip.rdbitsMdl (n : BitVec 6) : CommandRoundTrip.Statement (.rdbitsMdl n) := by
  revert n
  unfold CommandRoundTrip.Statement
  decide +kernel

theorem CommandRoundTrip.rdbitsPk (n : BitVec 6) : CommandRoundTrip.Statement (.rdbitsPk n) := by
  revert n
  unfold CommandRoundTrip.Statement
  decide +kernel

theorem CommandRoundTrip.brseed (k : BitVec 6) : CommandRoundTrip.Statement (.brseed k) := by
  revert k
  unfold CommandRoundTrip.Statement
  decide +kernel

theorem CommandRoundTrip.hufcon (t : TableSel) : CommandRoundTrip.Statement (.hufcon t) := by
  cases t <;> exact fun _ => by decide

theorem CommandRoundTrip.hufdec (t : TableSel) : CommandRoundTrip.Statement (.hufdec t) := by
  cases t <;> exact fun _ => by decide

theorem CommandRoundTrip.wreset : CommandRoundTrip.Statement (.wreset) := fun _ => by decide

theorem CommandRoundTrip.wput : CommandRoundTrip.Statement (.wput) := fun _ => by decide

theorem CommandRoundTrip.wcopy : CommandRoundTrip.Statement (.wcopy) := fun _ => by decide

theorem CommandRoundTrip.wflush : CommandRoundTrip.Statement (.wflush) := fun _ => by decide

theorem CommandRoundTrip.itS :
    ∀ v, CommandRoundTrip.Statement (.itS v) := fun _ => nofun

theorem CommandRoundTrip.itWl :
    ∀ f, CommandRoundTrip.Statement (.itWl f) := fun _ => nofun

theorem CommandRoundTrip.itWm :
    ∀ v, CommandRoundTrip.Statement (.itWm v) := fun _ => nofun

theorem CommandRoundTrip.itWt :
    ∀ n, CommandRoundTrip.Statement (.itWt n) := fun _ => nofun

theorem CommandRoundTrip.mdlShort :
    ∀ lo s m, CommandRoundTrip.Statement (.mdlShort lo s m) := fun _ _ _ => nofun

theorem CommandRoundTrip.mdlLong :
    ∀ lo s k r, CommandRoundTrip.Statement (.mdlLong lo s k r) := fun _ _ _ _ => nofun

theorem CommandRoundTrip.blLit :
    ∀ b, CommandRoundTrip.Statement (.blLit b) := fun _ => nofun

theorem CommandRoundTrip.blMatch :
    ∀ a b d e, CommandRoundTrip.Statement (.blMatch a b d e) := fun _ _ _ _ => nofun

theorem CommandRoundTrip.blEnd : CommandRoundTrip.Statement (.blEnd) := nofun

theorem CommandRoundTrip.mmV :
    ∀ d, CommandRoundTrip.Statement (.mmV d) := fun _ => nofun

theorem CommandRoundTrip.mmW :
    ∀ d f, CommandRoundTrip.Statement (.mmW d f) := fun _ _ => nofun

theorem CommandRoundTrip.mmX :
    ∀ d f x, CommandRoundTrip.Statement (.mmX d f x) := fun _ _ _ => nofun

theorem CommandRoundTrip.mmEnd :
    ∀ d f, CommandRoundTrip.Statement (.mmEnd d f) := fun _ _ => nofun

theorem CommandRoundTrip.hdRun :
    ∀ r l, CommandRoundTrip.Statement (.hdRun r l) := fun _ _ => nofun

/-! ### Formats -/

theorem OneFormat.nop : OneFormat.Statement .nop := by
  intro c x y hx hy
  cases x <;> first | rfl | exact absurd hx Bool.false_ne_true | (cases y <;> first | rfl | exact absurd hy Bool.false_ne_true)

theorem OneFormat.itd8 : ∀ f, OneFormat.Statement (.itd8 f) := by
  intro f c x y hx hy
  cases x <;> first | rfl | exact absurd hx Bool.false_ne_true | (cases y <;> first | rfl | exact absurd hy Bool.false_ne_true)

theorem OneFormat.itd16 : ∀ f, OneFormat.Statement (.itd16 f) := by
  intro f c x y hx hy
  cases x <;> first | rfl | exact absurd hx Bool.false_ne_true | (cases y <;> first | rfl | exact absurd hy Bool.false_ne_true)

theorem OneFormat.mdld8 : OneFormat.Statement .mdld8 := by
  intro c x y hx hy
  cases x <;> first | rfl | exact absurd hx Bool.false_ne_true | (cases y <;> first | rfl | exact absurd hy Bool.false_ne_true)

theorem OneFormat.mdld16 : OneFormat.Statement .mdld16 := by
  intro c x y hx hy
  cases x <;> first | rfl | exact absurd hx Bool.false_ne_true | (cases y <;> first | rfl | exact absurd hy Bool.false_ne_true)

theorem OneFormat.blast : OneFormat.Statement .blast := by
  intro c x y hx hy
  cases x <;> first | rfl | exact absurd hx Bool.false_ne_true | (cases y <;> first | rfl | exact absurd hy Bool.false_ne_true)

theorem OneFormat.mmcmp : OneFormat.Statement .mmcmp := by
  intro c x y hx hy
  cases x <;> first | rfl | exact absurd hx Bool.false_ne_true | (cases y <;> first | rfl | exact absurd hy Bool.false_ne_true)

theorem OneFormat.brinit : OneFormat.Statement .brinit := by
  intro c x y hx hy
  cases x <;> first | rfl | exact absurd hx Bool.false_ne_true | (cases y <;> first | rfl | exact absurd hy Bool.false_ne_true)

theorem OneFormat.rdbitsIt : ∀ n, OneFormat.Statement (.rdbitsIt n) := by
  intro n c x y hx hy
  cases x <;> first | rfl | exact absurd hx Bool.false_ne_true | (cases y <;> first | rfl | exact absurd hy Bool.false_ne_true)

theorem OneFormat.rdbitsMdl : ∀ n, OneFormat.Statement (.rdbitsMdl n) := by
  intro n c x y hx hy
  cases x <;> first | rfl | exact absurd hx Bool.false_ne_true | (cases y <;> first | rfl | exact absurd hy Bool.false_ne_true)

theorem OneFormat.rdbitsPk : ∀ n, OneFormat.Statement (.rdbitsPk n) := by
  intro n c x y hx hy
  cases x <;> first | rfl | exact absurd hx Bool.false_ne_true | (cases y <;> first | rfl | exact absurd hy Bool.false_ne_true)

theorem OneFormat.brseed : ∀ k, OneFormat.Statement (.brseed k) := by
  intro k c x y hx hy
  cases x <;> first | rfl | exact absurd hx Bool.false_ne_true | (cases y <;> first | rfl | exact absurd hy Bool.false_ne_true)

theorem OneFormat.hufcon : ∀ t, OneFormat.Statement (.hufcon t) := by
  intro t c x y hx hy
  cases x <;> first | rfl | exact absurd hx Bool.false_ne_true | (cases y <;> first | rfl | exact absurd hy Bool.false_ne_true)

theorem OneFormat.hufdec : ∀ t, OneFormat.Statement (.hufdec t) := by
  intro t c x y hx hy
  cases x <;> first | rfl | exact absurd hx Bool.false_ne_true | (cases y <;> first | rfl | exact absurd hy Bool.false_ne_true)

theorem OneFormat.wreset : OneFormat.Statement .wreset := by
  intro c x y hx hy
  cases x <;> first | rfl | exact absurd hx Bool.false_ne_true | (cases y <;> first | rfl | exact absurd hy Bool.false_ne_true)

theorem OneFormat.wput : OneFormat.Statement .wput := by
  intro c x y hx hy
  cases x <;> first | rfl | exact absurd hx Bool.false_ne_true | (cases y <;> first | rfl | exact absurd hy Bool.false_ne_true)

theorem OneFormat.wcopy : OneFormat.Statement .wcopy := by
  intro c x y hx hy
  cases x <;> first | rfl | exact absurd hx Bool.false_ne_true | (cases y <;> first | rfl | exact absurd hy Bool.false_ne_true)

theorem OneFormat.wflush : OneFormat.Statement .wflush := by
  intro c x y hx hy
  cases x <;> first | rfl | exact absurd hx Bool.false_ne_true | (cases y <;> first | rfl | exact absurd hy Bool.false_ne_true)

theorem OneFormat.itS : ∀ v, OneFormat.Statement (.itS v) := by
  intro v c x y hx hy
  cases x <;> first | rfl | exact absurd hx Bool.false_ne_true | (cases y <;> first | rfl | exact absurd hy Bool.false_ne_true)

theorem OneFormat.itWl : ∀ f, OneFormat.Statement (.itWl f) := by
  intro f c x y hx hy
  cases x <;> first | rfl | exact absurd hx Bool.false_ne_true | (cases y <;> first | rfl | exact absurd hy Bool.false_ne_true)

theorem OneFormat.itWm : ∀ v, OneFormat.Statement (.itWm v) := by
  intro v c x y hx hy
  cases x <;> first | rfl | exact absurd hx Bool.false_ne_true | (cases y <;> first | rfl | exact absurd hy Bool.false_ne_true)

theorem OneFormat.itWt : ∀ n, OneFormat.Statement (.itWt n) := by
  intro n c x y hx hy
  cases x <;> first | rfl | exact absurd hx Bool.false_ne_true | (cases y <;> first | rfl | exact absurd hy Bool.false_ne_true)

theorem OneFormat.mdlShort : ∀ lo s m, OneFormat.Statement (.mdlShort lo s m) := by
  intro lo s m c x y hx hy
  cases x <;> first | rfl | exact absurd hx Bool.false_ne_true | (cases y <;> first | rfl | exact absurd hy Bool.false_ne_true)

theorem OneFormat.mdlLong : ∀ lo s k r, OneFormat.Statement (.mdlLong lo s k r) := by
  intro lo s k r c x y hx hy
  cases x <;> first | rfl | exact absurd hx Bool.false_ne_true | (cases y <;> first | rfl | exact absurd hy Bool.false_ne_true)

theorem OneFormat.blLit : ∀ b, OneFormat.Statement (.blLit b) := by
  intro b c x y hx hy
  cases x <;> first | rfl | exact absurd hx Bool.false_ne_true | (cases y <;> first | rfl | exact absurd hy Bool.false_ne_true)

theorem OneFormat.blMatch : ∀ a b d e, OneFormat.Statement (.blMatch a b d e) := by
  intro a b d e c x y hx hy
  cases x <;> first | rfl | exact absurd hx Bool.false_ne_true | (cases y <;> first | rfl | exact absurd hy Bool.false_ne_true)

theorem OneFormat.blEnd : OneFormat.Statement .blEnd := by
  intro c x y hx hy
  cases x <;> first | rfl | exact absurd hx Bool.false_ne_true | (cases y <;> first | rfl | exact absurd hy Bool.false_ne_true)

theorem OneFormat.mmV : ∀ d, OneFormat.Statement (.mmV d) := by
  intro d c x y hx hy
  cases x <;> first | rfl | exact absurd hx Bool.false_ne_true | (cases y <;> first | rfl | exact absurd hy Bool.false_ne_true)

theorem OneFormat.mmW : ∀ d f, OneFormat.Statement (.mmW d f) := by
  intro d f c x y hx hy
  cases x <;> first | rfl | exact absurd hx Bool.false_ne_true | (cases y <;> first | rfl | exact absurd hy Bool.false_ne_true)

theorem OneFormat.mmX : ∀ d f x, OneFormat.Statement (.mmX d f x) := by
  intro d f x c x y hx hy
  cases x <;> first | rfl | exact absurd hx Bool.false_ne_true | (cases y <;> first | rfl | exact absurd hy Bool.false_ne_true)

theorem OneFormat.mmEnd : ∀ d f, OneFormat.Statement (.mmEnd d f) := by
  intro d f c x y hx hy
  cases x <;> first | rfl | exact absurd hx Bool.false_ne_true | (cases y <;> first | rfl | exact absurd hy Bool.false_ne_true)

theorem OneFormat.hdRun : ∀ r l, OneFormat.Statement (.hdRun r l) := by
  intro r l c x y hx hy
  cases x <;> first | rfl | exact absurd hx Bool.false_ne_true | (cases y <;> first | rfl | exact absurd hy Bool.false_ne_true)

end Sys2Proof.Laws
end

