-- ==== Sys2Proof/Laws/Tables.lean ====
section
/-! SUPPORT. Tables whose symbol list matches their counts: a symbol's code is found by `decode`, and what `decode`
found is the symbol's code. The three static tables are such tables and are complete
(43_huffman.md R195, R196). -/

namespace Sys2Proof

/-- The symbols are as many as the counts say and none is listed twice; no length is over-subscribed. -/
structure TableFits (c : Config) (t : HufTable) : Prop where
  count : (codeCounts c t).sum = t.symbol.length
  nodup : t.symbol.Nodup
  kraft : 0 ≤ kraftLeft (codeCounts c t) 1

/-- A place beyond the counts has no code. -/
theorem codeAt_none (ns : List Nat) (pos first len : Nat) (h : ns.sum ≤ pos) : codeAt ns pos first len = none := by
  induction ns generalizing pos first len with
  | nil => rfl
  | cons n ns ih =>
    simp only [List.sum_cons] at h
    rw [codeAt, if_neg (by omega)]
    exact ih _ _ _ (by omega)

/-- A place inside the counts has a code. -/
theorem codeAt_some (ns : List Nat) (pos first len : Nat) (h : pos < ns.sum) :
    (codeAt ns pos first len).isSome = true := by
  induction ns generalizing pos first len with
  | nil => simp at h
  | cons n ns ih =>
    simp only [List.sum_cons] at h
    rw [codeAt]
    split
    · rfl
    · exact ih _ _ _ (by omega)

variable {c : Config} {t : HufTable} {sym : Nat} {bs rest : List Bool}

/-- `decode` reads a symbol's code back (43_huffman.md R191, R197). -/
theorem TableFits.decode (h : TableFits c t) (hs : sym < 256) (hc : (codeOf c t sym).isSome = true)
    (rest : List Bool) : huffDecode c listRead t (symbolBits c t sym ++ rest) = .sym sym rest := by
  obtain ⟨⟨L, code⟩, hlc⟩ := Option.isSome_iff_exists.mp hc
  have hcode := hlc
  rw [codeOf] at hlc
  have hb := codeAt_bounds hlc
  have hlt := codeAt_lt hlc h.kraft (by norm_num)
  have hpos : t.symbol.idxOf (BitVec.ofNat 8 sym) < t.symbol.length := by
    by_contra hge
    rw [codeAt_none _ _ _ _ (by rw [h.count]; omega)] at hlc
    cases hlc
  obtain ⟨k, rfl⟩ : ∃ k, L = 1 + k := ⟨L - 1, by omega⟩
  have hw := huffWalk_code (T := t) (rest := rest) (index := 0) k hlc
  rw [symbolBits, hcode]
  simp only
  rw [show 2 * (code >>> (k + 1)) = 0 by
    rw [Nat.shiftRight_eq_div_pow, Nat.div_eq_of_lt (by rw [Nat.add_comm]; exact hlt)]] at hw
  rw [huffDecode, Nat.add_comm 1 k, hw, Nat.zero_add, HufTable.symbolAt, List.getD_eq_getElem?_getD,
    List.getElem?_eq_getElem hpos, Option.getD_some, List.getElem_idxOf, BitVec.toNat_ofNat,
    Nat.mod_eq_of_lt hs]

/-- What `decode` found is the symbol's code. -/
theorem TableFits.decoded (h : TableFits c t) (hd : huffDecode c listRead t bs = .sym sym rest) :
    bs = symbolBits c t sym ++ rest ∧ sym < 256 ∧ (codeOf c t sym).isSome = true := by
  obtain ⟨pos, k, code, h1, h2, h3, -, h5⟩ := huffWalk_sym 1 hd (Nat.le_refl _) rfl
  rw [h.count] at h5
  rw [Nat.zero_add, HufTable.symbolAt, List.getD_eq_getElem?_getD, List.getElem?_eq_getElem h5,
    Option.getD_some] at h2
  have hc : codeOf c t sym = some (1 + k, code) := by
    rw [codeOf, h2, BitVec.ofNat_toNat, BitVec.setWidth_eq, h.nodup.idxOf_getElem]
    exact h1
  refine ⟨?_, by rw [h2]; exact (t.symbol[pos]).isLt, by rw [hc]; rfl⟩
  rw [symbolBits, hc]
  simpa [Nat.add_comm] using h3

/-- A complete table never fails to find a code (43_huffman.md R203). -/
theorem huffDecode_complete (hk : kraftLeft (codeCounts c t) 1 = 0) {s : List Bool} :
    huffDecode c listRead t bs ≠ .noCode s :=
  huffWalk_complete 1 hk (by norm_num) (Nat.le_refl _) rfl (by norm_num) (Nat.le_refl _)

/-! ### The static tables -/

theorem static_lit_fits : TableFits Config.default (Config.default.staticTable .lit) :=
  ⟨by decide +kernel, by decide +kernel, by decide +kernel⟩

theorem static_len_fits : TableFits Config.default (Config.default.staticTable .len) :=
  ⟨by decide +kernel, by decide +kernel, by decide +kernel⟩

theorem static_dist_fits : TableFits Config.default (Config.default.staticTable .dist) :=
  ⟨by decide +kernel, by decide +kernel, by decide +kernel⟩

theorem static_lit_complete : kraftLeft (codeCounts Config.default (Config.default.staticTable .lit)) 1 = 0 := by
  decide +kernel

theorem static_len_complete : kraftLeft (codeCounts Config.default (Config.default.staticTable .len)) 1 = 0 := by
  decide +kernel

theorem static_dist_complete : kraftLeft (codeCounts Config.default (Config.default.staticTable .dist)) 1 = 0 := by
  decide +kernel

end Sys2Proof
end

