-- ==== Sys2Proof/Laws/Units.lean ====
section
/-! SUPPORT. What the operations the units share can do: the accumulator's level after a refill, the arithmetic of a
sample, the staging buffer, the static tables, the sub-block table and its cursor, the raw copy. -/

namespace Sys2Proof.Machine

open Sys2Proof

/-! ### The level of the accumulator -/

/-- A refill for `n` bits leaves fewer than `n` + 8 and takes none away (40_bitreader.md R123). -/
theorem Reader.fill_level (m : Source) (n turns : Nat) (r : Reader) (h : r.cnt < n + 8) :
    (r.fill m n turns).cnt < n + 8 ∧ r.cnt ≤ (r.fill m n turns).cnt := by
  induction turns generalizing r with
  | zero => exact ⟨h, Nat.le_refl _⟩
  | succ k ih =>
    rw [Reader.fill]
    split
    · have := ih (r.fetch m) (by rw [Reader.fetch_cnt]; omega)
      rw [Reader.fetch_cnt] at this
      exact ⟨this.1, by omega⟩
    · exact ⟨h, Nat.le_refl _⟩

/-- A top-up from below its level ends less than a byte below it and not above (40_bitreader.md R131). -/
theorem Reader.topUp_level (m : Source) (turns : Nat) (r : Reader) (h1 : r.seedlv ≤ r.cnt + 8 * turns)
    (h2 : r.cnt ≤ r.seedlv) : r.seedlv < (r.topUp m turns).cnt + 8 ∧ (r.topUp m turns).cnt ≤ r.seedlv := by
  induction turns generalizing r with
  | zero => simp only [Reader.topUp]; omega
  | succ k ih =>
    rw [Reader.topUp]
    split
    · have := ih (r.fetch m) (by simp only [Reader.fetch_seedlv, Reader.fetch_cnt]; omega)
        (by simp only [Reader.fetch_seedlv, Reader.fetch_cnt]; omega)
      rwa [Reader.fetch_seedlv] at this
    · omega

/-- Consuming bits takes them from the level and leaves the seed level. -/
theorem Reader.consume_level (r : Reader) (n : Nat) :
    ((r.drop n).noteConsumed n).cnt = r.cnt - n ∧ ((r.drop n).noteConsumed n).seedlv = r.seedlv := by
  unfold Reader.noteConsumed
  split <;> exact ⟨rfl, rfl⟩

/-! ### The arithmetic of a sample -/

/-- The sum of a sample is taken modulo 2^S (41_it.md R149). -/
theorem sampleAdd_toNat (S : Width) (a : BitVec 16) (v : Int) :
    ((sampleAdd S a v).toNat : Int) = (a.toNat + v) % (2 ^ S.bits : Nat) := by
  have h1 : (0 : Int) ≤ ((a.toNat : Int) + v) % (2 ^ S.bits : Nat) := Int.emod_nonneg _ (by cases S <;> decide)
  have h2 : ((a.toNat : Int) + v) % (2 ^ S.bits : Nat) < (2 ^ S.bits : Nat) :=
    Int.emod_lt_of_pos _ (by cases S <;> decide)
  have h3 : (2 ^ S.bits : Nat) ≤ 65536 := by cases S <;> decide
  unfold sampleAdd sampleOf
  rw [BitVec.toNat_ofNat]
  omega

/-- An MMCMP word's fold as a number modulo 2^16 (45_mmcmp.md R258). -/
theorem mmFold_eq (c : Config) (hc : c.mmFoldOddNeg = true) (d : Nat) :
    mmFold c d =
      if d % 2 = 1 then BitVec.ofNat 16 (0x10000 - (d + 1) / 2 % 0x10000) else BitVec.ofNat 16 (d / 2) := by
  unfold mmFold
  rw [hc]
  simp only [decide_eq_true_eq]
  split
  · apply BitVec.eq_of_toNat_eq
    have h : ((d : Int) + 1) / 2 = ((d + 1) / 2 : Nat) := by omega
    simp only [BitVec.toNat_ofInt, BitVec.toNat_ofNat, Nat.shiftRight_eq_div_pow, Nat.pow_one]
    omega
  · congr 1
    simp only [Nat.shiftRight_eq_div_pow, Nat.pow_one]
    omega

/-! ### `construct` -/

/-- What remains after the lengths from `l` + 1 on (43_huffman.md R191, R194): where a length asks for more codes than remain,
what is left at the first such length; else what is left at the last. -/
theorem kraftLeft_counts (lengths : List Nat) (d l : Nat) (left : Int)
    (h : (firstCode lengths (l + 1) : Int) + 2 * left = 2 ^ (l + 1)) :
    let counts := (List.range d).map fun i => lengths.count (l + 1 + i)
    let asked (k : Nat) : Nat := firstCode lengths k + lengths.count k
    (∀ j, l < j → j ≤ l + d → 2 ^ j < asked j → (∀ k, l < k → k < j → asked k ≤ 2 ^ k) →
        kraftLeft counts left = 2 ^ j - (asked j : Int)) ∧
      ((∀ j, l < j → j ≤ l + d → asked j ≤ 2 ^ j) → 0 < d →
        kraftLeft counts left = 2 ^ (l + d) - (asked (l + d) : Int)) := by
  induction d generalizing l left with
  | zero => exact ⟨fun j h1 h2 => by omega, fun _ h => by omega⟩
  | succ d ih =>
    intro counts asked
    have hc : counts = lengths.count (l + 1) :: (List.range d).map fun i => lengths.count (l + 1 + 1 + i) := by
      simp only [counts, List.range_succ_eq_map, List.map_cons, List.map_map, Nat.add_zero]
      congr 1
      apply List.map_congr_left
      intro i _
      simp only [Function.comp]
      congr 1
      omega
    have hleft : 2 * left - lengths.count (l + 1) = 2 ^ (l + 1) - (asked (l + 1) : Int) := by
      simp only [asked]; push_cast; omega
    have fits : asked (l + 1) ≤ 2 ^ (l + 1) → (asked (l + 1) : Int) ≤ 2 ^ (l + 1) := fun h => by exact_mod_cast h
    have beyond : 2 ^ (l + 1) < asked (l + 1) → (2 ^ (l + 1) : Int) < asked (l + 1) := fun h => by exact_mod_cast h
    have after : ((firstCode lengths (l + 1 + 1) : Nat) : Int) + 2 * (2 ^ (l + 1) - (asked (l + 1) : Int)) =
        2 ^ (l + 1 + 1) := by
      simp only [firstCode, asked]; push_cast; ring
    obtain ⟨ih1, ih2⟩ := ih (l + 1) _ after
    rw [hc, kraftLeft, hleft]
    constructor
    · intro j h3 h4 h5 h6
      by_cases hj : j = l + 1
      · subst hj
        have := beyond h5
        rw [if_pos (by omega)]
      · have := fits (h6 (l + 1) (by omega) (by omega))
        rw [if_neg (by omega)]
        exact ih1 j (by omega) (by omega) h5 fun k hk => h6 k (by omega)
    · intro h3 _
      have := fits (h3 (l + 1) (by omega) (by omega))
      rw [if_neg (by omega)]
      by_cases hd : d = 0
      · subst hd; simp [kraftLeft]
      · rw [ih2 (fun j h1 h2 => h3 j (by omega) (by omega)) (by omega)]
        rw [show l + 1 + d = l + (d + 1) by omega]

/-! ### `BLAST` -/

/-- Staging changes `INBUF` and `INLEFT` only. -/
theorem blastStage_eq (s0 : Nat) (s : State) :
    ∃ b l, blastStage s0 s = { s with blast := { s.blast with inbuf := b, inleft := l } } := by
  unfold blastStage
  simp only
  split
  · exact ⟨s.blast.inbuf, s.blast.inleft, rfl⟩
  · exact ⟨_, _, rfl⟩

/-- The static descriptors construct to status 0 and to valid tables (43_huffman.md R195, R196). -/
theorem static_built (t : TableSel) (h : t ≠ .user) :
    constructStatus Config.default (expand Config.default (Config.default.staticDesc t)) = 0 ∧
      (Config.default.staticTable t).valid = true := by
  cases t with
  | lit => decide +kernel
  | len => decide +kernel
  | dist => decide +kernel
  | user => exact absurd rfl h

/-- From static tables that are blank or built, each turn of the construction leaves its table built. -/
theorem blastTables_cons (t : TableSel) (ts : List TableSel) (s : State) (hc : s.cfg = Config.default)
    (ht : t ≠ .user) (hs : StaticOk s.cfg (s.huf.get t) t) :
    blastTables (t :: ts) s = blastTables ts { s with huf := s.huf.set t (s.cfg.staticTable t) } := by
  have hb := static_built t ht
  rw [← hc] at hb
  conv_lhs => unfold blastTables
  rcases hs with hs | hs
  · rw [hs]
    simp only [HufTable.blank, Bool.false_eq_true, if_false]
    rw [if_pos hb.1]
    simp only [State.buildStatic, hs, Config.staticTable]
  · rw [hs, if_pos hb.2, ← hs]
    congr 1
    cases t <;> rfl

/-! ### The sub-block table -/

/-- An entry inside the source is read (45_mmcmp.md R244). -/
theorem subBlock_inside {s : State} {hdr k n : Nat} (hc : s.cfg = Config.default)
    (h : hdr + 20 + 8 * n ≤ s.src.len) (hk : k < n) :
    s.subBlock? hdr k = some (s.src.le (hdr + 20 + 8 * k) 4, s.src.le (hdr + 24 + 8 * k) 4) := by
  have e : s.cfg.mm = MmLayout.default := by rw [hc]; rfl
  have h2 : hdr + 20 + 8 * k + 4 = hdr + 24 + 8 * k := by omega
  simp only [State.subBlock?, e, MmLayout.default, Source.le?]
  rw [if_pos (by omega), if_pos (by omega), h2]
  rfl

/-- Sub-blocks that passed the check lie inside `OUT` (45_mmcmp.md R249). -/
theorem mmSubsInside_bounds {s : State} {hdr n k0 : Nat} (h : mmSubsInside s hdr k0 n = true) {k : Nat}
    (h1 : k0 ≤ k) (h2 : k < k0 + n) :
    ∃ pos size, s.subBlock? hdr k = some (pos, size) ∧ pos + size ≤ s.mm.fsize := by
  induction n generalizing k0 with
  | zero => omega
  | succ n ih =>
    unfold mmSubsInside at h
    split at h
    · rename_i pos size hs
      simp only [Bool.and_eq_true, decide_eq_true_eq] at h
      by_cases hk : k = k0
      · subst hk; exact ⟨_, _, hs, by omega⟩
      · exact ih h.2 (by omega) (by omega)
    · cases h

/-- The check reads the source, the parameters and the file size only. -/
theorem mmSubsInside_congr {s t : State} (h1 : t.cfg = s.cfg) (h2 : t.src = s.src)
    (h3 : t.mm.fsize = s.mm.fsize) (hdr n k : Nat) : mmSubsInside t hdr k n = mmSubsInside s hdr k n := by
  induction n generalizing k with
  | zero => rfl
  | succ n ih => simp only [mmSubsInside, ih, State.subBlock?, h1, h2, h3]

/-- The cursor moves to a sub-block with room, or past the last one (45_mmcmp.md R251, R260). -/
theorem mmAdvance_cases (S : Width) (hdr n : Nat) (s : State) (hc : s.cfg = Config.default)
    (h1 : hdr + 20 + 8 * s.mm.nsub ≤ s.src.len) (h2 : s.mm.subk + n = s.mm.nsub) :
    ∃ k p, mmAdvance S hdr n s = some { s with mm := { s.mm with subk := k, subpos := p } } ∧ k ≤ s.mm.nsub ∧
      (k < s.mm.nsub → p < subElems S (s.src.le (hdr + 24 + 8 * k) 4)) := by
  induction n generalizing s with
  | zero => exact ⟨s.mm.subk, s.mm.subpos, rfl, by omega, by omega⟩
  | succ n ih =>
    unfold mmAdvance
    rw [subBlock_inside hc h1 (by omega)]
    simp only
    split
    · obtain ⟨k, p, q1, q2, q3⟩ :=
        ih { s with mm := { s.mm with subk := s.mm.subk + 1, subpos := 0 } } hc h1 (by simp only; omega)
      exact ⟨k, p, q1, q2, q3⟩
    · exact ⟨s.mm.subk, s.mm.subpos, rfl, by omega, fun _ => by omega⟩

/-! ### The raw copy -/

/-- Copying bytes keeps the validity of `OUT`. -/
@[simp] theorem OutBuf.copyFrom_valid (m : Source) (n a q : Nat) (o : OutBuf) :
    (o.copyFrom m n a q).valid = o.valid := by
  induction n generalizing a q o with
  | zero => rfl
  | succ n ih => exact ih _ _ _

/-- The raw copy changes `OUT`'s cells only, whether it ends or stops. -/
theorem mmRawBlock_cases (hdr n k q : Nat) (s : State) (h : s.out.cells.wf = true) :
    ∃ o : OutBuf, o.len = s.out.len ∧ o.valid = s.out.valid ∧ o.cells.wf = true ∧
      (mmRawBlock hdr n k q s = .on { s with out := o } ∨
        ∃ c, mmRawBlock hdr n k q s = .stop c { s with out := o }) := by
  induction n generalizing k q s with
  | zero => exact ⟨s.out, rfl, rfl, h, .inl rfl⟩
  | succ n ih =>
    unfold mmRawBlock
    split
    · split
      · exact ⟨s.out, rfl, rfl, h, .inr ⟨_, rfl⟩⟩
      · rename_i pos size _ _
        obtain ⟨o, h1, h2, h3, h4⟩ :=
          ih (k + 1) (q + size + s.cfg.mm.rawGap) { s with out := s.out.copyFrom s.src size pos q } (OutBuf.wf_copyFrom _ _ _ _ h)
        exact ⟨o, h1.trans (by simp), h2.trans (by simp), h3, h4⟩
    · exact ⟨s.out, rfl, rfl, h, .inr ⟨_, rfl⟩⟩

end Sys2Proof.Machine
end

