-- ==== Sys2Proof/Laws/Window.lean ====
section
/-! SUPPORT. What the window's operations do, each said once: `put`, the copy loop and `flush` keep the relation of
44_blast_lz77.md R220 between the window, the sink and the output, and only ever append to the
sink. -/

namespace Sys2Proof.Machine

open Sys2Proof

variable {base out : List Byte} {z : Lz}

/-! ### Cells -/

/-- A cell of the window after a write. -/
theorem Window.byte_write (w : Window) (a i : Nat) (b : Byte) :
    ({ w with cells := w.cells.write a b } : Window).byte i = if i = a then b else w.byte i := by
  simp only [Window.byte, Memory.read_write]
  split <;> simp

@[simp] theorem Window.byte_filled (w : Window) (i : Nat) : w.filled.byte i = w.byte i := rfl

@[simp] theorem Window.byte_reset (w : Window) (i : Nat) : w.reset.byte i = w.byte i := rfl

/-- A `put` below the last cell. -/
theorem Lz.put_low (z : Lz) (b : Byte) (h : z.win.next.val + 1 < WIN_SIZE) :
    z.put b =
      { z with
        win :=
          { z.win with
            cells := z.win.cells.write z.win.next.val b
            next := ⟨z.win.next.val + 1, h⟩ } } := by
  simp only [Lz.put]
  rw [dif_pos h]

/-- A `put` into the last cell flushes the whole window (44_blast_lz77.md R224). -/
theorem Lz.put_fill (z : Lz) (b : Byte) (h : ¬ z.win.next.val + 1 < WIN_SIZE) :
    z.put b =
      { win := ({ z.win with cells := z.win.cells.write z.win.next.val b } : Window).filled
        sink :=
          z.sink ++ ({ z.win with cells := z.win.cells.write z.win.next.val b } : Window).firstBytes WIN_SIZE
        n := z.n + WIN_SIZE } := by
  simp only [Lz.put]
  rw [dif_neg h]
  simp [Lz.append, Window.firstBytes]

/-- After a `put` cell `WNEXT` holds the byte and the others what they held. -/
theorem Lz.byte_put (z : Lz) (b : Byte) (i : Nat) :
    (z.put b).win.byte i = if i = z.win.next.val then b else z.win.byte i := by
  by_cases h : z.win.next.val + 1 < WIN_SIZE
  · rw [Lz.put_low z b h]
    exact Window.byte_write z.win _ _ _
  · rw [Lz.put_fill z b h]
    exact Window.byte_write z.win _ _ _

/-! ### The sink only grows -/

/-- What an operation does to the sink: it appends, and counts what it appended; a window that stops being the
first has appended 4096 bytes at least. -/
structure Lz.Grows (z z' : Lz) : Prop where
  sink : ∃ bs, z'.sink = z.sink ++ bs ∧ z'.n = z.n + bs.length
  first : z.win.first = true → z'.win.first = false → z.n + WIN_SIZE ≤ z'.n
  stays : z.win.first = false → z'.win.first = false

theorem Lz.Grows.refl (z : Lz) : z.Grows z :=
  ⟨⟨[], by simp, by simp⟩, fun h1 h2 => absurd (h1.symm.trans h2) (by decide), id⟩

theorem Lz.Grows.trans {z1 z2 z3 : Lz} (h1 : z1.Grows z2) (h2 : z2.Grows z3) : z1.Grows z3 := by
  obtain ⟨a, ha, han⟩ := h1.sink
  obtain ⟨b, hb, hbn⟩ := h2.sink
  refine ⟨⟨a ++ b, by rw [hb, ha, List.append_assoc], by rw [hbn, han, List.length_append]; omega⟩,
    ?_, fun h => h2.stays (h1.stays h)⟩
  intro hf hl
  cases hm : z2.win.first with
  | true => have := h2.first hm hl; omega
  | false => have := h1.first hf hm; omega

theorem Lz.put_grows (z : Lz) (b : Byte) : z.Grows (z.put b) := by
  by_cases h : z.win.next.val + 1 < WIN_SIZE
  · rw [Lz.put_low z b h]
    exact ⟨⟨[], by simp, by simp⟩, fun h1 h2 => absurd (h1.symm.trans h2) (by decide), id⟩
  · rw [Lz.put_fill z b h]
    exact ⟨⟨_, rfl, by simp [Window.firstBytes]⟩, fun _ _ => Nat.le_refl _, fun _ => rfl⟩

theorem Lz.copyLoop_grows (dist len : Nat) (z : Lz) : z.Grows (Lz.copyLoop dist len z) := by
  induction len generalizing z with
  | zero => exact .refl z
  | succ n ih => exact (Lz.put_grows z _).trans (ih _)

theorem Lz.flush_grows (z : Lz) : z.Grows z.flush :=
  ⟨⟨_, rfl, rfl⟩, fun h1 h2 => absurd (h1.symm.trans h2) (by decide), id⟩

/-! ### The window and the output -/

/-- A window just reset stands for no output. -/
theorem WindowAt.reset (w : Window) (sink : List Byte) (n : Nat) :
    WindowAt sink [] { win := w.reset, sink := sink, n := n } :=
  ⟨rfl, rfl, by simp, fun j hj => absurd hj (by simp)⟩

/-- A `put` appends its byte to the output (44_blast_lz77.md R220, R222, R224). -/
theorem WindowAt.put (h : WindowAt base out z) (b : Byte) : WindowAt base (out ++ [b]) (z.put b) := by
  have hc := h.cursor
  have hheld : ∀ j < (out ++ [b]).length, (out ++ [b]).length ≤ j + WIN_SIZE →
      some ((z.put b).win.byte (j % WIN_SIZE)) = (out ++ [b])[j]? := by
    intro j hj hj2
    rw [Lz.byte_put, hc]
    simp only [List.length_append, List.length_singleton] at hj hj2
    by_cases hjl : j < out.length
    · rw [if_neg (by simp only [WIN_SIZE] at *; omega), h.held j hjl (by omega),
        List.getElem?_append_left hjl]
    · have : j = out.length := by omega
      subst this
      simp
  by_cases hn : z.win.next.val + 1 < WIN_SIZE
  · refine ⟨?_, ?_, ?_, hheld⟩
    · rw [Lz.put_low z b hn]
      simp only [List.length_append, List.length_singleton]
      simp only [WIN_SIZE] at *; omega
    · rw [Lz.put_low z b hn]
      simp only [List.length_append, List.length_singleton, h.first]
      congr 1
      simp only [WIN_SIZE] at *
      rw [eq_iff_iff]; omega
    · rw [Lz.put_low z b hn]
      simp only [List.length_append, List.length_singleton, h.flushed]
      have : out.length + 1 - (out.length + 1) % WIN_SIZE = out.length - out.length % WIN_SIZE := by
        simp only [WIN_SIZE] at *; omega
      rw [this, List.take_append_of_le_length (by omega)]
  · have hlen : out.length % WIN_SIZE = 4095 := by
      have := Nat.mod_lt out.length (show WIN_SIZE > 0 by decide)
      simp only [WIN_SIZE] at *; omega
    refine ⟨?_, ?_, ?_, hheld⟩
    · rw [Lz.put_fill z b hn]
      simp only [List.length_append, List.length_singleton, Window.filled]
      simp only [WIN_SIZE] at *
      change 0 = _
      omega
    · rw [Lz.put_fill z b hn]
      simp only [List.length_append, List.length_singleton, Window.filled]
      simp only [WIN_SIZE] at *
      symm
      rw [decide_eq_false_iff_not]
      omega
    · have hsink : (z.put b).sink = z.sink ++ (List.range WIN_SIZE).map (z.put b).win.byte := by
        rw [Lz.put_fill z b hn]; rfl
      rw [hsink, h.flushed, List.append_assoc]
      congr 1
      have e : out.length + 1 - (out.length + 1) % WIN_SIZE = out.length + 1 := by
        simp only [WIN_SIZE] at *; omega
      rw [List.length_append, List.length_singleton, e, List.take_of_length_le (l := out ++ [b]) (by simp)]
      apply List.ext_getElem?
      intro j
      have hlt : (out.take (out.length - out.length % WIN_SIZE)).length = out.length - 4095 := by
        rw [List.length_take, hlen]; omega
      by_cases hj : j < out.length - 4095
      · rw [List.getElem?_append_left (by omega), List.getElem?_take_of_lt (by simp only [WIN_SIZE] at *; omega),
          List.getElem?_append_left (by omega)]
      · rw [List.getElem?_append_right (by omega), hlt]
        by_cases hj2 : j < out.length + 1
        · rw [List.getElem?_map, List.getElem?_range (by simp only [WIN_SIZE] at *; omega), Option.map_some]
          rw [← hheld j (by simp; omega) (by simp; simp only [WIN_SIZE] at *; omega),
            show j % WIN_SIZE = j - (out.length - 4095) by simp only [WIN_SIZE] at *; omega]
        · rw [List.getElem?_eq_none (by simp; simp only [WIN_SIZE] at *; omega),
            List.getElem?_eq_none (by simp; omega)]

/-- The read index of a copy holds the byte `dist` back in the output. -/
theorem WindowAt.behind (h : WindowAt base out z) {dist : Nat} (h1 : 1 ≤ dist) (h2 : dist ≤ WIN_SIZE)
    (h3 : dist ≤ out.length) : z.win.byte (z.win.behind dist) = out.getD (out.length - dist) 0 := by
  have he : z.win.behind dist = (out.length - dist) % WIN_SIZE := by
    rw [Window.behind, h.cursor]
    simp only [WIN_SIZE] at *
    omega
  have := h.held (out.length - dist) (by omega) (by omega)
  rw [he, List.getD_eq_getElem?_getD, ← this]
  rfl

/-- The copy loop appends to the output byte by byte, each from `dist` back (44_blast_lz77.md R223, R227). -/
theorem WindowAt.copyLoop {dist : Nat} (h1 : 1 ≤ dist) (h2 : dist ≤ WIN_SIZE) (len : Nat) :
    ∀ {out : List Byte} {z : Lz}, WindowAt base out z → dist ≤ out.length →
      WindowAt base (lzExtend dist len out) (Lz.copyLoop dist len z) := by
  induction len with
  | zero => intro out z h _; exact h
  | succ n ih =>
    intro out z h h3
    rw [Lz.copyLoop, lzExtend, h.behind h1 h2 h3]
    exact ih (h.put _) (by simp; omega)

/-- A flush completes the sink (44_blast_lz77.md R225, R229). -/
theorem WindowAt.flush (h : WindowAt base out z) : z.flush.sink = base ++ out := by
  have hc := h.cursor
  simp only [Lz.flush, Lz.append]
  rw [h.flushed, List.append_assoc]
  congr 1
  apply List.ext_getElem?
  intro j
  have hm := Nat.mod_le out.length WIN_SIZE
  by_cases hj : j < out.length - out.length % WIN_SIZE
  · rw [List.getElem?_append_left (by simp; omega), List.getElem?_take_of_lt hj]
  · rw [List.getElem?_append_right (by simp; omega)]
    by_cases hj2 : j < out.length
    · rw [Window.firstBytes, List.getElem?_map,
        List.getElem?_range (by simp; omega), Option.map_some]
      have hlt := Nat.mod_lt out.length (show WIN_SIZE > 0 by decide)
      rw [← h.held j hj2 (by omega), List.length_take, Nat.min_eq_left (by omega),
        show j % WIN_SIZE = j - (out.length - out.length % WIN_SIZE) by simp only [WIN_SIZE] at *; omega]
    · rw [List.getElem?_eq_none (by simp [Window.firstBytes]; omega), List.getElem?_eq_none (by omega)]

/-- What a copy appends has its length. -/
@[simp] theorem lzExtend_length (dist len : Nat) (out : List Byte) :
    (lzExtend dist len out).length = out.length + len := by
  induction len generalizing out with
  | zero => rfl
  | succ n ih => rw [lzExtend, ih]; simp; omega

/-- `put` keeps the canonical form of `WIN`. -/
theorem Lz.put_wf {z : Lz} (b : Byte) (h : z.win.cells.wf = true) : (z.put b).win.cells.wf = true := by
  by_cases hn : z.win.next.val + 1 < WIN_SIZE
  · rw [Lz.put_low z b hn]; exact Memory.wf_write _ _ h
  · rw [Lz.put_fill z b hn]; exact Memory.wf_write _ _ h

/-- The copy loop keeps the canonical form of `WIN`. -/
theorem Lz.copyLoop_wf (dist len : Nat) {z : Lz} (h : z.win.cells.wf = true) :
    (Lz.copyLoop dist len z).win.cells.wf = true := by
  induction len generalizing z with
  | zero => exact h
  | succ n ih => exact ih (Lz.put_wf _ h)

end Sys2Proof.Machine
end

