-- ==== Sys2Proof/Tests/Slice0.lean ====
section
/-! SUPPORT. The model's own tests: ill-formed terms that `WellFormed` refuses, every constructor decoded from bits
written out from 30_encoding.md, one step of each instruction against 95_test_vectors.md, and for every
statement with hypotheses a concrete state and operands that meet them. -/

namespace Sys2Proof.Tests

open Sys2Proof Sys2Proof.Machine

/-! ### Well-formedness: each check refuses an ill-formed term -/

abbrev wf (x : Ctx) (i : Instr) : Bool := WellFormed Config.default x i

theorem test_wf_rdbits_it_bound : wf .command (.rdbitsIt 58) = false ∧ wf .command (.rdbitsIt 57) = true := by decide
theorem test_wf_rdbits_mdl_bound : wf .command (.rdbitsMdl 58) = false := by decide
theorem test_wf_rdbits_pk_bound : wf .command (.rdbitsPk 63) = false := by decide
theorem test_wf_brseed_bound : wf .command (.brseed 9) = false ∧ wf .command (.brseed 8) = true := by decide
theorem test_wf_event_is_no_command : wf .command .blEnd = false := by decide
theorem test_wf_command_is_no_event : wf (.mdl .w8) .nop = false := by decide
theorem test_wf_it_sample_escape : wf (.it .w8 4) (.itS 8) = false ∧ wf (.it .w8 4) (.itS 7) = true := by decide
theorem test_wf_it_sample_window : wf (.it .w8 8) (.itS 0x7C) = false ∧ wf (.it .w8 8) (.itS 0x84) = true := by decide
theorem test_wf_it_sample_top : wf (.it .w8 9) (.itS 0x100) = false := by decide
theorem test_wf_it_sample_width : wf (.it .w8 0) (.itS 0) = false ∧ wf (.it .w8 10) (.itS 0) = false := by decide
theorem test_wf_it_low_width : wf (.it .w8 7) (.itWl 0) = false := by decide
theorem test_wf_it_low_field : wf (.it .w8 6) (.itWl 8) = false ∧ wf (.it .w16 6) (.itWl 8) = true := by decide
theorem test_wf_it_mid_window : wf (.it .w8 8) (.itWm 0x7B) = false ∧ wf (.it .w8 8) (.itWm 0x84) = false := by decide
theorem test_wf_it_mid_width : wf (.it .w8 9) (.itWm 0x80) = false := by decide
theorem test_wf_it_top : wf (.it .w8 8) (.itWt 0) = false ∧ wf (.it .w8 9) (.itWt 256) = false := by decide
theorem test_wf_mdl_short_low_byte : wf (.mdl .w8) (.mdlShort (some 0) false 1) = false := by decide
theorem test_wf_mdl_long_low_byte : wf (.mdl .w16) (.mdlLong none false 0 0) = false := by decide
theorem test_wf_match_extra : wf (.blast 0 4) (.blMatch 8 2 0 0) = false := by decide +kernel
theorem test_wf_match_end : wf (.blast 0 4) (.blMatch 15 255 0 0) = false := by decide +kernel
theorem test_wf_match_distance_bits : wf (.blast 0 4) (.blMatch 1 0 0 4) = false := by decide +kernel
theorem test_wf_match_symbol : wf (.blast 0 4) (.blMatch 16 0 0 0) = false := by decide +kernel
theorem test_wf_mm_value : wf (.mmcmp .w16 3) (.mmV 15) = false ∧ wf (.mmcmp .w16 3) (.mmV 14) = true := by decide
theorem test_wf_mm_width_same : wf (.mmcmp .w16 3) (.mmW 15 3) = false := by decide
theorem test_wf_mm_escape_fetch : wf (.mmcmp .w16 3) (.mmW 15 16) = false := by decide
theorem test_wf_mm_extended : wf (.mmcmp .w16 3) (.mmX 15 3 16) = false ∧ wf (.mmcmp .w16 3) (.mmX 15 4 0) = false := by
  decide
theorem test_wf_mm_end_width : wf (.mmcmp .w16 3) (.mmEnd 15 4) = false := by decide

/-! ### Decoding: words and bits written out from the encodings -/

/-- The instruction the bits decode to with nothing left over. -/
def reads (x : Ctx) (bs : List Nat) : Option Instr :=
  match decodeBits Config.default x (bs.map (· == 1)) with
  | .event i [] => some i
  | _ => none

-- 30_encoding.md R92: the operation codes; 95_test_vectors.md section 2.7.
theorem test_word_nop : decodeCommand 0x00000000 = .ok .nop := by decide
theorem test_word_itd8 : decodeCommand 0x00000101 = .ok (.itd8 true) := by decide
theorem test_word_itd16 : decodeCommand 0x00000002 = .ok (.itd16 false) := by decide
theorem test_word_mdld8 : decodeCommand 0x00000003 = .ok .mdld8 := by decide
theorem test_word_mdld16 : decodeCommand 0x00000004 = .ok .mdld16 := by decide
theorem test_word_blast : decodeCommand 0x00000005 = .ok .blast := by decide
theorem test_word_mmcmp : decodeCommand 0x00000006 = .ok .mmcmp := by decide
theorem test_word_brinit : decodeCommand 0x00000010 = .ok .brinit := by decide
theorem test_word_rdbits_it : decodeCommand 0x00090011 = .ok (.rdbitsIt 9) := by decide
theorem test_word_rdbits_mdl : decodeCommand 0x00010012 = .ok (.rdbitsMdl 1) := by decide
theorem test_word_rdbits_pk : decodeCommand 0x00390013 = .ok (.rdbitsPk 57) := by decide
theorem test_word_brseed : decodeCommand 0x00040014 = .ok (.brseed 4) := by decide
theorem test_word_hufcon : decodeCommand 0x00020018 = .ok (.hufcon .dist) := by decide
theorem test_word_hufdec : decodeCommand 0x00010019 = .ok (.hufdec .len) := by decide
theorem test_word_wreset : decodeCommand 0x0000001C = .ok .wreset := by decide
theorem test_word_wput : decodeCommand 0x0000001D = .ok .wput := by decide
theorem test_word_wcopy : decodeCommand 0x0000001E = .ok .wcopy := by decide
theorem test_word_wflush : decodeCommand 0x0000001F = .ok .wflush := by decide

-- The refused words of 95_test_vectors.md section 2.7.
theorem test_word_n_above_nmax : decodeCommand 0x003A0011 = .error .nTooLarge := by decide
theorem test_word_seed_above : decodeCommand 0x00090014 = .error .nTooLarge := by decide
theorem test_word_no_table_4 : decodeCommand 0x00040018 = .error .nTooLarge := by decide
theorem test_word_blast_f215 : decodeCommand 0x00000105 = .error .f215NotTaken := by decide
theorem test_word_blast_n : decodeCommand 0x00010005 = .error .nNotTaken := by decide
theorem test_word_reserved_op : decodeCommand 0x00000007 = .error .reservedOp := by decide
theorem test_word_reserved_bits :
    decodeCommand 0x00000021 = .error .reservedBit ∧ decodeCommand 0x80000001 = .error .reservedBit := by decide

-- 95_test_vectors.md V-IT8, from bits 0, 26, 41 and 9.
theorem test_bits_it_s : reads (.it .w8 9) [1, 0, 1, 0, 0, 0, 0, 0, 0] = some (.itS 5) := by decide
theorem test_bits_it_wl : reads (.it .w8 4) [0, 0, 0, 1, 0, 1, 1] = some (.itWl 6) := by decide
theorem test_bits_it_wm : reads (.it .w8 8) [0, 0, 1, 1, 1, 1, 1, 0] = some (.itWm 0x7C) := by decide
theorem test_bits_it_wt : reads (.it .w8 9) [0, 0, 1, 0, 0, 0, 0, 0, 1] = some (.itWt 4) := by decide
-- 41_it.md R147, by hand: the border at w = 8 is 0x7B; a window of 2 ends at 0x7D, one of 9 at 0x84.
theorem test_it_window :
    decodeBits { Config.default with itWindow8 := 2 } (.it .w8 8) (natBits 8 0x7E) = .event (.itS 0x7E) [] ∧
      decodeBits { Config.default with itWindow8 := 9 } (.it .w8 8) (natBits 8 0x84) = .event (.itWm 0x84) [] := by decide
-- 42_mdl.md R176, by hand: steps of two bits, 10 goes on, 00 goes on, 01 ends the run; then the remainder 8.
theorem test_mdl_unary_step :
    decodeBits { Config.default with mdlUnaryMore := 1 } (.mdl .w8)
        [true, false, false, true, false, false, true, false, false, false, false, true] =
      .event (.mdlLong none true 2 8) [] := by decide
-- V-MDL8, from bits 5 and 17; V-MDL16, from bit 15.
theorem test_bits_mdl_short : reads (.mdl .w8) [1, 1, 1, 0, 0] = some (.mdlShort none true 1) := by decide
theorem test_bits_mdl_long : reads (.mdl .w8) [1, 0, 0, 0, 1, 0, 0, 0, 1] = some (.mdlLong none true 2 8) := by decide
theorem test_bits_mdl_low_byte :
    reads (.mdl .w16) [1, 1, 1, 1, 1, 1, 1, 1, 1, 1, 0, 1, 0] = some (.mdlShort (some 0xFF) true 2) := by decide
-- T1, from bits 16, 34 and 47; BL2, from bit 16.
theorem test_bits_bl_lit : reads (.blast 0 4) [0, 1, 0, 0, 0, 0, 0, 1, 0] = some (.blLit 0x41) := by decide +kernel
theorem test_bits_bl_match :
    reads (.blast 0 4) [1, 0, 0, 1, 0, 0, 1, 1, 1, 1, 0, 0, 0] = some (.blMatch 8 1 0 1) := by decide +kernel
theorem test_bits_bl_end :
    reads (.blast 0 4) [1, 0, 0, 0, 0, 0, 0, 0, 1, 1, 1, 1, 1, 1, 1, 1] = some .blEnd := by decide +kernel
theorem test_bits_bl_coded_lit : reads (.blast 1 4) [0, 1, 0, 0, 0, 1, 1] = some (.blLit 0x41) := by decide +kernel
-- M2, from bits 0, 8, 32 and 57; M3, from bit 19.
theorem test_bits_mm_v : reads (.mmcmp .w16 3) [0, 0, 1, 0] = some (.mmV 4) := by decide
theorem test_bits_mm_w : reads (.mmcmp .w16 3) [1, 1, 1, 1, 1, 1, 1, 0] = some (.mmW 15 7) := by decide
theorem test_bits_mm_x : reads (.mmcmp .w16 3) [1, 1, 1, 1, 1, 1, 0, 0, 0, 1, 0, 0] = some (.mmX 15 3 2) := by decide
theorem test_bits_mm_end :
    reads (.mmcmp .w16 3) [1, 1, 1, 1, 1, 1, 0, 0, 1, 1, 1, 1, 1] = some (.mmEnd 15 3) := by decide
theorem test_bits_mm_x_byte : reads (.mmcmp .w8 6) [0, 1, 1, 1, 1, 1, 1, 1, 0, 0] = some (.mmX 0x7E 0 1) := by decide
-- HF2: the descriptor byte 23 is three symbols of length 3.
theorem test_bits_hd_run : reads .descriptor [1, 1, 0, 0, 0, 1, 0, 0] = some (.hdRun 2 3) := by decide

-- The opcode table's own words.
theorem test_table_bl_end : decodeTableWord 16 0x80FF = some .blEnd := by decide +kernel
theorem test_table_mm_w : decodeTableWord 8 0xF0 = some (.mmW 15 0) := by decide
theorem test_table_itd16 : decodeTableWord 32 0x00000002 = some (.itd16 false) := by decide

/-! ### One step of each instruction, against the vectors -/

/-- The next state of an outcome. -/
def nextOf (r : Result) : Option State :=
  match r with
  | .next t => some t
  | .fault _ => none
  | .refused _ => none

/-- Power-on with a source, eight elements of `DST`, and the argument registers. -/
def powered (bs : List Nat) (a0 a1 a2 : Word) : State :=
  { State.reset with
    src := Source.ofBytes (bs.map (BitVec.ofNat 8))
    dstCap := 8
    host := { State.reset.host with arg0 := a0, arg1 := a1, arg2 := a2, result := 7 } }

/-- The same with the reader over the whole source, from byte `at0` on. -/
def reading (at0 : Nat) (bs : List Nat) (a0 a1 : Word) : State :=
  let s := powered bs a0 a1 0
  { s with rd := { s.rd.clear bs.length 0 with spos := at0 } }

/-- What an instruction leaves of a state, as numbers. -/
def after (i : Instr) (s : State) (f : State → List Nat) : Option (List Nat) := (nextOf (exec i s)).map f

/-- `STATUS`, `RESULT`, `CONSUMED`, `SPOS`. -/
def results (s : State) : List Nat :=
  [s.host.status.toNat, s.host.result.toNat, s.host.consumed.toNat, s.rd.spos]

/-- A reader with something in every register. -/
def dirty : Reader := { spos := 0, acc := 5, cnt := 4, real := 3, starved := true, brlim := 1, seedlv := 8, draws := 0 }

/-- `ACC`, `CNT`, `REAL`, `STARVED`, `SEEDLV`, `BRLIM`: 10_state.md R54 has the first five 0 after a codec command's start. -/
def readerLeft (s : State) : List Nat :=
  [s.rd.acc.toNat, s.rd.cnt, s.rd.real, s.rd.starved.toNat, s.rd.seedlv, s.rd.brlim]

theorem test_nop : after .nop (powered [] 0 0 0) results = some [0, 0, 0, 0] := by decide
-- IT8 (one step) and IT9: the last index is at or beyond `DST_CAP`.
theorem test_itd8_starts :
    after (.itd8 true) { powered [0, 0] 5 1 3 with rd := dirty } (fun t => [t.it.rem, t.dpos] ++ readerLeft t) =
      some [5, 3, 0, 0, 0, 0, 0, 1] := by decide
theorem test_itd8_refused : after (.itd8 false) (powered [0, 0] 5 2 0) results = some [2 ^ 32 - 11, 0, 0, 0] := by decide
theorem test_itd16_starts :
    (nextOf (exec (.itd16 false) (powered [0, 0] 4 2 1))).map (·.phase) = some (.itTop .w16 false 0 0) := by decide
-- MD5: the length field is cut short.
theorem test_mdld8_truncated :
    after .mdld8 { powered [4, 0] 5 0 0 with rd := dirty, mdl := { State.reset.mdl with dlt := 9 } }
      (fun t => results t ++ readerLeft t ++ [t.mdl.dlt.toNat]) = some [1, 0, 2, 2, 0, 0, 0, 0, 32, 1, 0] := by decide
theorem test_mdld16_seeded :
    after .mdld16 (powered [7, 0, 0, 0, 0x34, 0xD4, 0xFF, 5, 0, 0xE0, 1] 3 0 0)
      (fun t => [t.mdl.plen, t.rd.cnt, t.rd.real, t.rd.spos]) = some [7, 64, 56, 11] := by decide
-- BL7 and BL8.
theorem test_blast_lit : after .blast (powered [2] 0 0 0) results = some [2 ^ 32 - 1, 0, 1, 1] := by decide +kernel
theorem test_blast_dict : after .blast (powered [0, 7] 0 0 0) results = some [2 ^ 32 - 2, 0, 2, 2] := by decide +kernel
-- M4h: too short for a header.
theorem test_mmcmp_short :
    after .mmcmp { powered [0x7A, 0x69] 0 0 0 with rd := dirty } (fun t => results t ++ readerLeft t) =
      some [2 ^ 32 - 7, 0, 0, 0, 0, 0, 0, 0, 0, 1] := by decide
theorem test_brinit :
    after .brinit (powered [5, 8] 1 0 0) (fun t => [t.rd.brlim, t.rd.cnt, t.rd.spos]) = some [1, 0, 0] := by decide
-- BR1, BR4 (its first read), BR5, BR8.
theorem test_rdbits_it :
    after (.rdbitsIt 9) (reading 0 [5, 8] 0 0) (fun t => results t ++ [t.rd.cnt]) = some [0, 5, 2, 2, 7] := by decide
theorem test_rdbits_pk :
    after (.rdbitsPk 57) (reading 0 [1, 0, 0, 0, 255, 255, 255, 255] 0 0) (fun t => results t ++ [t.rd.cnt]) =
      some [0, 1, 8, 8, 7] := by decide
theorem test_rdbits_starves :
    after (.rdbitsPk 9) (reading 0 [1] 0 0) (fun t => results t ++ [t.rd.starved.toNat]) = some [1, 0, 1, 1, 1] := by decide
theorem test_brseed :
    after (.brseed 4) (reading 0 [0xEE, 0x90, 0x23, 0x0A, 0x55] 0 0) (fun t => results t ++ [t.rd.cnt]) =
      some [0, 0, 4, 4, 32] := by decide
-- By hand from BR5: 8 bits are EE, and the seed level is kept by fetching 55.
theorem test_rdbits_mdl :
    after (.rdbitsMdl 8) { reading 4 [0xEE, 0x90, 0x23, 0x0A, 0x55] 0 0 with
        rd := { spos := 4, acc := 0x0A2390EE, cnt := 32, real := 32, starved := false, brlim := 5, seedlv := 32, draws := 0 } }
      (fun t => results t ++ [t.rd.cnt]) = some [0, 0xEE, 1, 5, 32] := by decide
-- HF1, HF3.
theorem test_hufcon_static : after (.hufcon .len) (powered [] 0 0 0) results = some [0, 16, 0, 0] := by decide +kernel
theorem test_hufcon_refused : after (.hufcon .user) (powered [0x0E] 1 0 0) results = some [2 ^ 32 - 11, 0, 0, 0] := by decide
-- HF7, HF9.
theorem test_hufdec :
    after (.hufdec .len)
      { reading 0 [4] 0 0 with huf := { State.reset.huf with len := Config.default.staticTable .len } }
      (fun t => results t ++ [t.rd.cnt]) = some [0, 8, 1, 1, 3] := by decide +kernel
theorem test_hufdec_refused : after (.hufdec .user) (powered [4] 0 0 0) results = some [2 ^ 32 - 11, 0, 0, 0] := by decide

/-- A window that holds "AI" (W1). -/
def windowAI : State :=
  { powered [] 11 2 0 with win := { cells := [(0, 0x41), (1, 0x49)], next := 2, first := true } }

theorem test_wreset : after .wreset windowAI (fun t => [t.win.next.val, t.win.first.toNat]) = some [0, 1] := by decide
theorem test_wput :
    after .wput windowAI (fun t => [t.win.next.val, (t.win.byte 2).toNat, t.host.result.toNat]) = some [3, 11, 0] := by
  decide
-- W2, W4.
theorem test_wcopy :
    after .wcopy windowAI (fun t => [t.win.next.val, (t.win.byte 11).toNat, (t.win.byte 12).toNat]) =
      some [13, 0x49, 0x41] := by decide
theorem test_wcopy_too_far : after .wcopy (powered [] 1 1 0) results = some [2 ^ 32 - 3, 0, 0, 0] := by decide
theorem test_wflush :
    after .wflush windowAI (fun t => t.sink.map BitVec.toNat ++ [t.win.next.val, t.host.result.toNat]) =
      some [0x41, 0x49, 0, 2] := by decide

/-- An 8-bit block in progress with stride 2, at a width, with both integrators at 7 (V-IT8). -/
def inBlock (width : Nat) : State :=
  { powered [] 5 2 0 with
    it := { width := width, d1 := 7, d2 := 0x14, rem := 5, blklen := 5, blkpos := 3, blkend := 0 }
    dpos := 6
    phase := .itBlock .w8 true 0 3 }

-- V-IT8 at bit 33: −56 at width 8.
theorem test_it_s :
    after (.itS 0xC8) (inBlock 8) (fun t => [t.it.d1.toNat, t.it.d2.toNat, ((t.dst.read 6).getD 0).toNat, t.dpos]) =
      some [0xCF, 0xE3, 0xE3, 8] := by decide
-- V-IT8 at bits 26, 41 and 9.
theorem test_it_wl : after (.itWl 6) (inBlock 4) (fun t => [t.it.width]) = some [8] := by decide
theorem test_it_wm : after (.itWm 0x7C) (inBlock 8) (fun t => [t.it.width]) = some [1] := by decide
theorem test_it_wt : after (.itWt 4) (inBlock 9) (fun t => [t.it.width]) = some [4] := by decide

/-- A decoder of `MDLD*` in progress, `DLT` = 0x03 (V-MDL8). -/
def inSamples (S : Width) : State :=
  { powered [] 5 0 0 with mdl := { State.reset.mdl with dlt := 3 }, dpos := 1, phase := .mdl S 1 }

-- V-MDL8 at bit 5; V-MDL16 at bit 28 over another `DLT`.
theorem test_mdl_short :
    after (.mdlShort none true 1) (inSamples .w8) (fun t => [t.mdl.dlt.toNat, ((t.dst.read 1).getD 0).toNat, t.dpos]) =
      some [2, 2, 2] := by decide
theorem test_mdl_long :
    after (.mdlLong (some 0xAB) false 7 7) (inSamples .w16)
      (fun t => [t.mdl.dlt.toNat, ((t.dst.read 1).getD 0).toNat]) = some [0x82, 0x82AB] := by decide

/-- A `BLAST` in progress with `dict` = 4 and "AI" in the window (T1). -/
def inStream : State :=
  { windowAI with blast := { State.reset.blast with dict := 4 }, phase := .blast 0 0 }

theorem test_bl_lit : after (.blLit 0x5A) inStream (fun t => [t.win.next.val, (t.win.byte 2).toNat]) = some [3, 0x5A] := by
  decide
theorem test_bl_match :
    after (.blMatch 8 1 0 1) inStream (fun t => [t.win.next.val, (t.win.byte 11).toNat, (t.win.byte 12).toNat]) =
      some [13, 0x49, 0x41] := by decide
-- T2: a distance beyond the output.
theorem test_bl_match_too_far :
    after (.blMatch 0 0 0 2) inStream (fun t => results t ++ t.sink.map BitVec.toNat) =
      some [2 ^ 32 - 3, 2, 0, 0, 0x41, 0x49] := by decide
theorem test_bl_end :
    after .blEnd inStream (fun t => results t ++ t.sink.map BitVec.toNat) = some [0, 2, 0, 0, 0x41, 0x49] := by decide

/-- A compressed block of M2 (16-bit) or M3 (8-bit, permutation table of one used entry), one sub-block of four
bytes. -/
def inComp (S : Width) (flags : BitVec 16) : State :=
  let s := powered (List.replicate 24 0 ++ [4, 0, 0, 0] ++ List.replicate 5 0 ++ [0x10]) 0 0 0
  { s with
    mm := { s.mm with numbits := 3, oldval := 7, nsub := 1, flags := flags, pay := 28, fsize := 4 }
    out := { len := 4, cells := [], valid := false, epoch := 1 }
    phase := .mmComp S 0 0 0 }

/-- `OUT[0]`, `OUT[1]`, `OLDVAL`, `NUMBITS`, `SUBPOS`. -/
def stored (t : State) : List Nat :=
  [((t.out.cells.read 0).getD 0).toNat, ((t.out.cells.read 1).getD 0).toNat, t.mm.oldval.toNat, t.mm.numbits, t.mm.subpos]

-- M2 at bits 4 and 32; M3 at bit 3.
theorem test_mm_v : after (.mmV 5) (inComp .w16 5) stored = some [0xFD, 0x7F, 7, 3, 1] := by decide
theorem test_mm_v_byte : after (.mmV 5) (inComp .w8 3) stored = some [0x17, 0, 0x17, 3, 1] := by decide
theorem test_mm_x : after (.mmX 15 3 2) (inComp .w16 5) stored = some [0xF9, 0xFF, 7, 3, 1] := by decide
theorem test_mm_w : after (.mmW 15 7) (inComp .w16 5) stored = some [0, 0, 7, 7, 0] := by decide
theorem test_mm_end : (nextOf (exec (.mmEnd 15 3) (inComp .w16 5))).map (·.phase) = some (.mmTop 0 1) := by decide
theorem test_hd_run :
    (nextOf (exec (.hdRun 2 3) { powered [] 0 0 0 with phase := .hufcon 1 1 [] })).map (·.phase) =
      some (.hufcon 1 0 [3, 3, 3]) := by decide

/-! ### Witnesses: the hypotheses of every statement that has some are met, clause by clause -/

/-- A state at a point of a command. -/
def at_ (ph : Phase) : State := { powered [4, 2, 9, 9, 1, 0] 3 1 0 with phase := ph }

-- 10_state.md R24 to R26: STATUS, CONSUMED and RESULT stand at the indices 5, 6 and 7.
theorem test_host_results :
    let s := State.reset.ended 1 2 3
    (hostRead 5 s, hostRead 6 s, hostRead 7 s) = (some 1, some 2, some 3) := by decide
theorem wit_HostPort_refused :
    State.reset.phase = .idle ∧ decodeCommand 0x00000101 = .ok (.itd8 true) ∧ State.reset.argStride = 0 := by decide
theorem wit_HostPort_started :
    State.reset.phase = .idle ∧ decodeCommand 0x00000010 = .ok .brinit ∧
      ¬ State.reset.src.len < State.reset.rd.spos := by decide

-- 10_state.md R22, R27, 70_reset_and_hazards.md R316: BUSY reads 1 from the write of CMD, and the next write is ignored.
theorem test_host_busy :
    (hostRead 8 (hostWrite 0 0x10 State.reset), hostRead 5 (hostWrite 0 0x20 State.reset),
      hostRead 8 (hostWrite 0 0x20 State.reset)) = (some 1, some (-11), some 0) := by decide
theorem test_host_second_write :
    hostWrite 0 0 (hostWrite 0 0x10 State.reset) = hostWrite 0 0x10 State.reset ∧
      hostWrite 9 5 (hostWrite 0 0x10 State.reset) = hostWrite 0 0x10 State.reset := by decide
-- 60_exceptions.md R280 (c), R289 (b): a legal word with refused arguments (WCOPY of 0 bytes, ITD8 at STRIDE 0) starts
-- nothing: BUSY stays 0, STATUS reads -11, and an ARG write right after it is taken.
theorem test_host_refused_arguments :
    (hostRead 8 (hostWrite 0 0x1E State.reset), hostRead 5 (hostWrite 0 0x1E State.reset),
      hostRead 8 (hostWrite 0 0x101 State.reset), hostRead 1 (hostWrite 1 7 (hostWrite 0 0x101 State.reset))) =
      (some 0, some (-11), some 0, some 7) := by decide
-- 20_memory.md R66, 70_reset_and_hazards.md R317: DST is read between commands, least significant byte first.
theorem test_host_read_dst :
    let s := hostGiveDst 1 [(0, 0x1234)] State.reset
    hostReadDst .w16 0 s = some [0x34, 0x12] ∧ hostReadDst .w16 0 (hostWrite 0 0x10 s) = none := by decide
-- 20_memory.md R63: the host reads or empties SINK between commands only.
theorem test_host_sink :
    let s := { State.reset with sink := [0x41, 0x49] }
    hostReadSink s = some [0x41, 0x49] ∧ (hostTakeSink s).1 = [0x41, 0x49] ∧ (hostTakeSink s).2.sink = [] ∧
      hostReadSink (hostWrite 0 0x10 s) = none := by decide
theorem wit_BusyHostWritesIgnored : (at_ (.mdl .w8 0)).busy = true := by decide
/-- A word stands in `CMD`, to be taken by the next step. -/
def waiting (w : Word) : State := { State.reset with host := { State.reset.host with cmd := w }, phase := .issued }

/-- The decoder refuses a word. -/
def refusesWord (w : Word) : Bool :=
  match decodeCommand w with
  | .ok _ => false
  | .error _ => true

theorem wit_WrongContext_word :
    (waiting 0x00000007).phase = .issued ∧ refusesWord (waiting 0x00000007).host.cmd = true := by decide
theorem wit_WrongContext_command : wf .command .nop = true ∧ (at_ (.mdl .w8 0)).busy = true := by decide
theorem wit_WrongContext_event :
    wf .descriptor (.hdRun 0 0) = true ∧ State.reset.phase = .idle ∧ (at_ .issued).phase = .issued := by decide

theorem wit_IllegalWord :
    State.reset.phase = .idle ∧ refusesWord 0x00000007 = true := by decide
theorem wit_IllegalWord_op :
    refusesWord 0x0000000F = true ∧ refusesWord 0x00000015 = true ∧ refusesWord 0x00000017 = true ∧
      refusesWord 0x0000001A = true ∧ refusesWord 0x0000001B = true := by decide
theorem wit_IllegalWord_bits :
    refusesWord 0x00000020 = true ∧ refusesWord 0x80000000 = true ∧ refusesWord 0x00000100 = true ∧
      refusesWord 0x0001001F = true := by decide
theorem wit_IllegalWord_n :
    refusesWord 0x003A0011 = true ∧ refusesWord 0x003A0013 = true ∧ refusesWord 0x00090014 = true ∧
      refusesWord 0x00040018 = true ∧ refusesWord 0x00040019 = true := by decide

theorem wit_IllegalWord_legal : refusesWord 0x00390013 = false ∧ refusesWord 0x00080014 = false := by decide
theorem wit_NopResult : State.reset.phase = .idle := rfl

theorem wit_Refusals_cursor :
    let s := { State.reset with rd := { State.reset.rd with spos := 1 } }
    s.phase = .idle ∧ s.src.len < s.rd.spos := by decide
theorem wit_Refusals_stride : State.reset.phase = .idle ∧ State.reset.argStride = 0 := by decide
theorem wit_Refusals_itd_capacity :
    let s := powered [] 1 1 8
    s.phase = .idle ∧ 0 < s.argLen ∧ s.dstCap = s.argBase + (s.argLen - 1) * s.argStride := by decide
theorem wit_Refusals_mdld_capacity :
    let s := powered [] 1 0 8
    s.phase = .idle ∧ 0 < s.argLen ∧ s.dstCap = s.argBase + (s.argLen - 1) := by decide
theorem wit_Refusals_table : (State.reset.huf.get .lit).valid = false := by decide
theorem wit_Refusals_descriptor :
    (powered [1] 0 0 0).argDescLen = 0 ∧ 256 < (powered [1] 257 0 0).argDescLen ∧
      (powered [1] 2 0 0).src.len < (powered [1] 2 0 0).rd.spos + (powered [1] 2 0 0).argDescLen ∧
      malformed Config.default (expand Config.default ((powered [0x0E] 1 0 0).src.slice 0 1)) = true := by decide
theorem wit_Refusals_copy :
    (powered [] 0 1 0).argCopyLen = 0 ∧ (powered [] 1 0 0).argCopyDist = 0 ∧ 4096 < (powered [] 1 4097 0).argCopyDist := by
  decide

theorem wit_DecodeEncode :
    wf .command (.rdbitsIt 57) = true ∧ wf (.it .w16 17) (.itWt 65535) = true ∧ wf (.it .w8 1) (.itWl 7) = true ∧
      wf (.mdl .w16) (.mdlLong (some 0) true 0 15) = true ∧ wf (.blast 1 6) (.blMatch 1 0 63 3) = true ∧
      wf (.blast 1 4) (.blLit 255) = true ∧ wf (.mmcmp .w16 15) (.mmX 0xFFFF 0 15) = true ∧
      wf (.mmcmp .w8 0) (.mmW 1 7) = true ∧ wf .descriptor (.hdRun 15 15) = true := by decide +kernel
theorem wit_EncodeDecode :
    decodeBits Config.default (.mmcmp .w16 0) [true, false, true, false, false] = .event (.mmW 1 2) [] := by decide

/-- A block in progress that has its bits in the source, two bytes from byte 2 on. -/
def itReady (bs : List Nat) : State :=
  let s := reading 2 ([2, 0] ++ bs) 5 1
  { s with
    it := { width := 9, d1 := 0, d2 := 0, rem := 5, blklen := 5, blkpos := 0, blkend := 4 }
    phase := .itBlock .w8 false 0 0 }

/-- The reader `reading` makes stands before the bits of its source. -/
theorem reading_before (at0 : Nat) (bs : List Nat) (a0 a1 : Word) (h : at0 ≤ bs.length) :
    ReaderBefore (reading at0 bs a0 a1).src at0 (streamRest (reading at0 bs a0 a1).src at0 0 bs.length)
      (reading at0 bs a0 a1).rd := by
  have hl : (reading at0 bs a0 a1).rd.limit (reading at0 bs a0 a1).src = bs.length := by
    simp [reading, powered, Reader.limit, Reader.clear, Source.ofBytes]
  refine ⟨0, ?_, by rw [hl]⟩
  refine
    { fresh := rfl
      real_le := Nat.le_refl _
      cnt_le := Nat.zero_le _
      seed_le := Nat.zero_le _
      place := by simp [reading, Reader.clear]
      inside := by rw [hl]; exact h
      atEnd := fun h => absurd h (Nat.lt_irrefl _)
      bits := fun i h => absurd h (Nat.not_lt_zero i)
      above := fun i _ => BitVec.getLsbD_zero }

theorem wit_StepRunsDecoded_command :
    (waiting 0x101).phase = .issued ∧
      decodeCommand (waiting 0x101).host.cmd = .ok (.itd8 true) := by decide

theorem wit_StepRunsDecoded_it :
    (itReady [5, 0]).phase = .itBlock .w8 false 0 0 ∧
      (itReady [5, 0]).it.blkpos < (itReady [5, 0]).it.blklen ∧
      ∃ r, decodeIt Config.default (readGot (itReady [5, 0]).src .it) .w8 9 (itReady [5, 0]).rd = .event (.itS 5) r :=
  ⟨rfl, by decide, _, rfl⟩

/-- `MDLD8` in progress over these payload bytes. -/
def mdlReady (bs : List Nat) : State :=
  let s := reading 4 ([9, 0, 0, 0] ++ bs) 1 0
  { s with mdl := { s.mdl with plen := 9 }, phase := .mdl .w8 0 }

theorem wit_StepRunsDecoded_mdl :
    (mdlReady [2]).phase = .mdl .w8 0 ∧
      0 < (mdlReady [2]).argLen ∧
      ∃ r, decodeMdl Config.default (readGot (mdlReady [2]).src .mdl) ((mdlReady [2]).rd.bitsLeft (mdlReady [2]).src + 1) .w8
          (mdlReady [2]).rd = .event (.mdlShort none false 0) r :=
  ⟨rfl, by decide, _, rfl⟩

/-- `BLAST` in progress over these bytes after its header. -/
def blastReady (bs : List Nat) : State :=
  let s := reading 2 ([0, 4] ++ bs) 0 0
  { s with
    blast := { s.blast with dict := 4 }
    huf :=
      { s.huf with
        lit := s.cfg.staticTable .lit
        len := s.cfg.staticTable .len
        dist := s.cfg.staticTable .dist }
    phase := .blast 0 0 }

/-- The static tables are built. -/
def holdsStatic (s : State) : Prop :=
  s.huf.lit = s.cfg.staticTable .lit ∧ s.huf.len = s.cfg.staticTable .len ∧ s.huf.dist = s.cfg.staticTable .dist

theorem blastReady_static (bs : List Nat) : holdsStatic (blastReady bs) := by
  simp [holdsStatic, blastReady]

theorem wit_StepRunsDecoded_blast :
    (blastReady [0x82, 0]).phase = .blast 0 0 ∧
      ∃ r, decodeBlast Config.default (readGot (blastReady [0x82, 0]).src .pk) 0 4 (blastReady [0x82, 0]).huf.lit
        (blastReady [0x82, 0]).huf.len (blastReady [0x82, 0]).huf.dist (blastReady [0x82, 0]).rd = .event (.blLit 0x41) r :=
  ⟨rfl, _, rfl⟩

/-- A 16-bit compressed block in progress over these bytes, one sub-block of four bytes. -/
def mmReady (bs : List Nat) : State :=
  let s := reading 28 (List.replicate 24 0 ++ [4, 0, 0, 0] ++ bs) 0 0
  { s with
    mm := { s.mm with numbits := 3, nsub := 1, flags := 5, pay := 28, fsize := 4, nblk := 1 }
    out := { len := 4, cells := [], valid := false, epoch := 1 }
    phase := .mmComp .w16 0 0 0 }

theorem wit_StepRunsDecoded_mm :
    (mmReady [0x54]).phase = .mmComp .w16 0 0 0 ∧
      ∃ t r, mmAdvance .w16 0 1 (mmReady [0x54]) = some t ∧ t.mm.subk < t.mm.nsub ∧
      decodeMm t.cfg (readGot t.src .pk) .w16 t.mm.numbits t.rd = .event (.mmV 4) r :=
  ⟨rfl, _, _, rfl, by decide, rfl⟩

theorem wit_StepRunsDecoded_descriptor :
    (at_ (.hufcon 1 1 [])).phase = .hufcon 1 (0 + 1) [] ∧ (at_ (.hufcon 1 1 [])).rd.spos < (at_ (.hufcon 1 1 [])).src.len := by
  decide

theorem wit_ItStream_event :
    (itReady [5, 0]).phase = .itBlock .w8 false 0 0 ∧
      (itReady [5, 0]).it.blkpos < (itReady [5, 0]).it.blklen ∧
      ReaderBefore (itReady [5, 0]).src 2 (streamRest (itReady [5, 0]).src 2 0 4) (itReady [5, 0]).rd ∧
      ∃ rest, decodeBits Config.default (.it .w8 9) (streamRest (itReady [5, 0]).src 2 0 4) = .event (.itS 5) rest :=
  ⟨rfl, by decide, reading_before 2 [2, 0, 5, 0] 5 1 (by decide), _, rfl⟩
theorem wit_ItStream_starved :
    (itReady [5]).it.blkpos < (itReady [5]).it.blklen ∧
      (itReady [5]).phase = .itBlock .w8 false 0 0 ∧
      ReaderBefore (itReady [5]).src 2 (streamRest (itReady [5]).src 2 0 3) (itReady [5]).rd ∧
      ∃ rest, decodeBits Config.default (.it .w8 9) (streamRest (itReady [5]).src 2 0 3) = .starved rest :=
  ⟨by decide, rfl, reading_before 2 [2, 0, 5] 5 1 (by decide), _, rfl⟩

theorem wit_MdlStream_event :
    (mdlReady [2]).phase = .mdl .w8 0 ∧
      0 < (mdlReady [2]).argLen ∧
      ReaderBefore (mdlReady [2]).src 4 (streamRest (mdlReady [2]).src 4 0 5) (mdlReady [2]).rd ∧
      ∃ rest, decodeBits Config.default (.mdl .w8) (streamRest (mdlReady [2]).src 4 0 5) =
        .event (.mdlShort none false 0) rest :=
  ⟨rfl, by decide, reading_before 4 [9, 0, 0, 0, 2] 1 0 (by decide), _, rfl⟩
theorem wit_MdlStream_starved :
    0 < (mdlReady []).argLen ∧
      (mdlReady []).phase = .mdl .w8 0 ∧
      ReaderBefore (mdlReady []).src 4 (streamRest (mdlReady []).src 4 0 4) (mdlReady []).rd ∧
      ∃ rest, decodeBits Config.default (.mdl .w8) (streamRest (mdlReady []).src 4 0 4) = .starved rest :=
  ⟨by decide, rfl, reading_before 4 [9, 0, 0, 0] 1 0 (by decide), _, rfl⟩

theorem wit_BlastStream_event :
    holdsStatic (blastReady [0x82, 0]) ∧
      (blastReady [0x82, 0]).phase = .blast 0 0 ∧ (blastReady [0x82, 0]).cfg = Config.default ∧
      (blastReady [0x82, 0]).blast.dict ≤ 6 ∧ 0 ≤ (blastReady [0x82, 0]).src.len ∧
      (blastReady [0x82, 0]).rd.brlim = (blastReady [0x82, 0]).src.len ∧
      ReaderBefore (blastReady [0x82, 0]).src 2 (streamRest (blastReady [0x82, 0]).src 2 0 4) (blastReady [0x82, 0]).rd ∧
      ∃ rest, decodeBits Config.default (.blast 0 4) (streamRest (blastReady [0x82, 0]).src 2 0 4) =
        .event (.blLit 0x41) rest :=
  ⟨blastReady_static _, rfl, rfl, by decide, Nat.zero_le _, rfl, reading_before 2 [0, 4, 0x82, 0] 0 0 (by decide), _, rfl⟩
theorem wit_BlastStream_starved :
    (blastReady []).blast.dict ≤ 6 ∧ 0 ≤ (blastReady []).src.len ∧
      holdsStatic (blastReady []) ∧
      (blastReady []).phase = .blast 0 0 ∧ (blastReady []).cfg = Config.default ∧
      (blastReady []).rd.brlim = (blastReady []).src.len ∧
      ReaderBefore (blastReady []).src 2 (streamRest (blastReady []).src 2 0 2) (blastReady []).rd ∧
      ∃ rest, decodeBits Config.default (.blast 0 4) (streamRest (blastReady []).src 2 0 2) = .starved rest :=
  ⟨by decide, Nat.zero_le _, blastReady_static _, rfl, rfl, rfl, reading_before 2 [0, 4] 0 0 (by decide), _, rfl⟩

theorem wit_MmStream_event :
    (mmReady [0x54]).phase = .mmComp .w16 0 0 0 ∧ (mmReady [0x54]).cfg = Config.default ∧
      (mmReady [0x54]).mm.numbits < Width.w16.bits ∧ (mmReady [0x54]).mm.subk < (mmReady [0x54]).mm.nsub ∧
      (mmReady [0x54]).subBlock? 0 0 = some (0, 4) ∧ (mmReady [0x54]).mm.subpos < subElems .w16 4 ∧
      ReaderBefore (mmReady [0x54]).src 28 (streamRest (mmReady [0x54]).src 28 0 29) (mmReady [0x54]).rd ∧
      ∃ rest, decodeBits Config.default (.mmcmp .w16 3) (streamRest (mmReady [0x54]).src 28 0 29) = .event (.mmV 4) rest :=
  ⟨rfl, rfl, by decide, by decide, by decide, by decide,
    reading_before 28 (List.replicate 24 0 ++ [4, 0, 0, 0] ++ [0x54]) 0 0 (by decide), _, rfl⟩
theorem wit_MmStream_starved :
    (mmReady []).mm.numbits < Width.w16.bits ∧ (mmReady []).mm.subk < (mmReady []).mm.nsub ∧
      (mmReady []).mm.subpos < subElems .w16 4 ∧
      (mmReady []).phase = .mmComp .w16 0 0 0 ∧ (mmReady []).cfg = Config.default ∧
      (mmReady []).subBlock? 0 0 = some (0, 4) ∧
      ReaderBefore (mmReady []).src 28 (streamRest (mmReady []).src 28 0 28) (mmReady []).rd ∧
      ∃ rest, decodeBits Config.default (.mmcmp .w16 3) (streamRest (mmReady []).src 28 0 28) = .starved rest :=
  ⟨by decide, by decide, by decide, rfl, rfl, by decide, reading_before 28 (List.replicate 24 0 ++ [4, 0, 0, 0] ++ []) 0 0 (by decide), _, rfl⟩

theorem wit_BrinitResult : (reading 2 [5, 8] 0 0).phase = .idle ∧ (reading 2 [5, 8] 0 0).rd.spos ≤ 2 := by decide

/-- Two bytes to read, none read yet. -/
theorem reads_two : ∃ base p, ReaderAt (reading 0 [5, 8] 0 0).src base p (reading 0 [5, 8] 0 0).rd ∧ base = 0 ∧ p = 0 := by
  obtain ⟨p, h, -⟩ := reading_before 0 [5, 8] 0 0 (by decide)
  have := h.place
  have h0 : (reading 0 [5, 8] 0 0).rd.spos = 0 := rfl
  exact ⟨0, p, h, rfl, by omega⟩

theorem wit_RdbitsReads_value :
    (reading 0 [5, 8] 0 0).phase = .idle ∧
      (16 : BitVec 6).toNat ≤ 57 ∧
      8 * 0 + 0 + (16 : BitVec 6).toNat ≤ 8 * (reading 0 [5, 8] 0 0).rd.limit (reading 0 [5, 8] 0 0).src ∧
      ∃ base p, ReaderAt (reading 0 [5, 8] 0 0).src base p (reading 0 [5, 8] 0 0).rd ∧ base = 0 ∧ p = 0 :=
  ⟨rfl, by decide, by decide, reads_two⟩
theorem wit_RdbitsReads_short :
    (17 : BitVec 6).toNat ≤ 57 ∧
      (reading 0 [5, 8] 0 0).phase = .idle ∧
      8 * (reading 0 [5, 8] 0 0).rd.limit (reading 0 [5, 8] 0 0).src < 8 * 0 + 0 + (17 : BitVec 6).toNat ∧
      ∃ base p, ReaderAt (reading 0 [5, 8] 0 0).src base p (reading 0 [5, 8] 0 0).rd ∧ base = 0 ∧ p = 0 :=
  ⟨by decide, rfl, by decide, reads_two⟩
theorem wit_RdbitsReads_starved :
    let s := { State.reset with rd := { State.reset.rd with starved := true } }
    s.phase = .idle ∧ (57 : BitVec 6).toNat ≤ 57 ∧ s.rd.starved = true := by decide

theorem wit_ReadModes :
    State.reset.rd.cnt < 8 ∧ (8 ∣ 64 ∧ 0 < 64 ∧ 64 ≤ 64 ∧ 64 < 57 + 8) ∧ State.reset.rd.seedlv = 0 := by decide
theorem wit_BrseedFills :
    (reading 0 [5, 8] 0 0).phase = .idle ∧
      (8 : BitVec 6).toNat ≤ 8 ∧ ∃ base p, ReaderAt (reading 0 [5, 8] 0 0).src base p (reading 0 [5, 8] 0 0).rd ∧ base = 0 ∧ p = 0 :=
  ⟨rfl, by decide, reads_two⟩

theorem wit_ItdStarts :
    let s := powered [2, 0] 5 1 3
    s.phase = .idle ∧ s.argStride ≠ 0 ∧ s.rd.spos ≤ s.src.len ∧ s.argBase + (s.argLen - 1) * s.argStride + 1 = s.dstCap := by
  decide
theorem wit_ItBlockStarts_prefix_short :
    let s := { powered [2] 5 1 0 with it := { State.reset.it with rem := 1 }, phase := .itTop .w8 false 0 0 }
    s.phase = .itTop .w8 false 0 0 ∧
      0 < s.it.rem ∧ s.src.len < s.rd.spos + 2 := by decide
theorem wit_ItBlockStarts_block_short :
    let s := { powered [1, 0] 5 1 0 with it := { State.reset.it with rem := 1 }, phase := .itTop .w8 false 0 0 }
    s.phase = .itTop .w8 false 0 0 ∧ 0 < s.it.rem ∧
      s.rd.spos + 2 ≤ s.src.len ∧ s.src.len < s.rd.spos + 2 + ((s.src.byte 0).toNat + 256 * (s.src.byte 1).toNat) := by decide
theorem wit_ItBlockStarts_whole :
    let s := { powered [1, 0, 9] 5 1 0 with it := { State.reset.it with rem := 1 }, phase := .itTop .w8 false 0 0 }
    s.phase = .itTop .w8 false 0 0 ∧ 0 < s.it.rem ∧
      s.rd.spos + 2 + ((s.src.byte 0).toNat + 256 * (s.src.byte 1).toNat) = s.src.len := by decide
theorem wit_ItBlockEnds_full :
    let s := { inBlock 9 with it := { (inBlock 9).it with blkpos := 5 } }
    s.phase = .itBlock .w8 true 0 3 ∧ s.it.blklen ≤ s.it.blkpos := by decide
theorem wit_ItBlockEnds_done : (at_ (.itTop .w8 false 0 3)).phase = .itTop .w8 false 0 3 ∧
      (at_ (.itTop .w8 false 0 3)).it.rem = 0 := by decide
theorem wit_ItBlockEnds_width :
    (inBlock 0).phase = .itBlock .w8 true 0 3 ∧ (inBlock 0).it.blkpos < (inBlock 0).it.blklen ∧
      (inBlock 10).phase = .itBlock .w8 true 0 3 ∧
      (inBlock 0).it.width = 0 ∧ Width.w8.bits + 1 < (inBlock 10).it.width ∧ (inBlock 10).it.blkpos < (inBlock 10).it.blklen := by
  decide
theorem wit_ItSample : (inBlock 8).phase = .itBlock .w8 true 0 3 ∧ (inBlock 8).dpos < (inBlock 8).dstCap := by decide
theorem wit_ItSample_plain :
    ({ inBlock 1 with phase := .itBlock .w16 false 0 3 } : State).dpos < (inBlock 1).dstCap := by decide
theorem wit_ItWidthChanges : (inBlock 4).phase = .itBlock .w8 true 0 3 := rfl
theorem wit_ItWidthTargets :
    (inBlock 9).phase = .itBlock .w8 true 0 3 ∧
      (inBlock 9).cfg = Config.default ∧ 1 ≤ (inBlock 9).it.width ∧ (inBlock 9).it.width ≤ Width.w8.bits + 1 ∧ 1 ≠ (inBlock 9).it.width := by
  decide
theorem wit_ItWidthTargets_low : wf (.it .w8 6) (.itWl 7) = true ∧ after (.itWl 7) (inBlock 6) (fun t => [t.it.width]) = some [9] := by
  decide
theorem wit_ItWidthTargets_mid :
    wf (.it .w8 8) (.itWm 0x83) = true ∧ after (.itWm 0x83) (inBlock 8) (fun t => [t.it.width]) = some [9] := by decide

theorem wit_MdldStarts_short :
    let s := powered [1, 0, 0] 8 0 0
    s.phase = .idle ∧
      s.rd.spos ≤ s.src.len ∧ s.argBase + (s.argLen - 1) < s.dstCap ∧ s.src.len < s.rd.spos + 4 := by decide
theorem wit_MdldStarts_whole :
    let s := powered [1, 0, 0, 0] 8 0 0
    s.rd.spos ≤ s.src.len ∧
      s.phase = .idle ∧ s.argBase + (s.argLen - 1) < s.dstCap ∧ s.rd.spos + 4 ≤ s.src.len := by decide
theorem wit_MdlSample_short :
    (inSamples .w8).phase = .mdl .w8 1 ∧
      (inSamples .w8).dpos < (inSamples .w8).dstCap ∧ (none : Option Byte).isSome = (Width.w8 == .w16) := by decide
theorem wit_MdlSample_long :
    (inSamples .w16).phase = .mdl .w16 1 ∧
      (inSamples .w16).dpos < (inSamples .w16).dstCap ∧ (some (0 : Byte)).isSome = (Width.w16 == .w16) ∧
      ∃ k r, Instr.mdlLong (some 0) true 15 15 = .mdlLong (some 0) true k r ∧ 255 - 8 = (16 * k + r.toNat + 248) % 256 :=
  ⟨rfl, by decide, by decide, 15, 15, rfl, by decide⟩
theorem wit_MdlCoding :
    (inSamples .w8).phase = .mdl .w8 1 ∧ (none : Option Byte).isSome = (Width.w8 == .w16) ∧
      (inSamples .w8).cfg = Config.default ∧ (inSamples .w8).dpos < (inSamples .w8).dstCap ∧ 255 < 256 := by decide
theorem wit_MdlEnds :
    (at_ (.mdl .w8 3)).argLen ≤ 3 ∧ ({ at_ (.mdl .w16 0) with host := State.reset.host } : State).argLen ≤ 0 := by decide

-- 43_huffman.md R194, R195 (b): three codes of one bit leave 2 - 3; one of one bit and three of two bits leave 2 - 3.
theorem test_oversubscribed :
    (constructStatus Config.default [1, 1, 1], constructStatus Config.default [1, 2, 2, 2],
      constructStatus Config.default [1, 1, 1, 1]) = (-1, -1, -2) := by decide
-- 43_huffman.md R195 (b), R198: HUFCON 3 reports the negative status and leaves the table not valid.
theorem test_hufcon_oversubscribed :
    ∃ t, step (at_ (.hufcon 1 0 [1, 1, 1])) = .next t ∧ t.host.status = -1 ∧ t.huf.user.valid = false :=
  ⟨_, rfl, by decide, by decide⟩
theorem wit_ConstructTable_oversubscribed :
    malformed Config.default [1, 1, 1] = false ∧ 2 ^ 1 < firstCode [1, 1, 1] 1 + [1, 1, 1].count 1 ∧
      firstCode [1, 2, 2, 2] 1 + [1, 2, 2, 2].count 1 ≤ 2 ^ 1 ∧
      2 ^ 2 < firstCode [1, 2, 2, 2] 2 + [1, 2, 2, 2].count 2 := by decide
theorem wit_ConstructTable :
    malformed Config.default [13, 0, 13] = false ∧ 0 ≤ constructStatus Config.default [13, 0, 13] ∧
      constructStatus Config.default [1, 1, 1] < 0 ∧ constructStatus Config.default [0, 0] = 0 := by decide
theorem wit_CanonicalDecode :
    malformed Config.default [1, 13, 13] = false ∧ 0 ≤ constructStatus Config.default [1, 13, 13] ∧ [1, 13, 13][2]? = some 13 := by
  decide
theorem wit_UnusedCodes :
    malformed Config.default [1] = false ∧ 0 ≤ constructStatus Config.default [1] ∧ ∃ l ∈ [1], l ≠ 0 := by decide
theorem wit_HufconStatic_built :
    let s := { State.reset with huf := { State.reset.huf with lit := { HufTable.blank with valid := true } } }
    s.phase = .idle ∧ (s.huf.get .lit).valid = true := by decide
theorem wit_HufconStatic_new : State.reset.phase = .idle ∧ (State.reset.huf.get .dist).valid = false := by decide
theorem wit_HufconUser_byte : (at_ (.hufcon 2 1 [4])).phase = .hufcon 2 (0 + 1) [4] := rfl
theorem wit_HufconUser_run :
    let s := powered [0x02, 0x23, 0x24, 0x35, 0x26, 0x17] 6 0 0
    s.phase = .idle ∧ 1 ≤ s.argDescLen ∧ s.argDescLen ≤ 256 ∧ s.rd.spos + s.argDescLen ≤ s.src.len ∧
      malformed s.cfg (expand s.cfg (s.src.slice s.rd.spos s.argDescLen)) = false := by decide

/-- Table 3 built from one code of length 1, over one source byte. -/
def hufReady (b : Nat) : State :=
  let s := reading 0 [b] 0 0
  { s with huf := { s.huf with user := constructTable Config.default HufTable.blank [1] } }

theorem wit_HufdecResult_symbol :
    (hufReady 1).phase = .idle ∧
      ((hufReady 1).huf.get .user).valid = true ∧
      ReaderBefore (hufReady 1).src 0 (streamRest (hufReady 1).src 0 0 1) (hufReady 1).rd ∧
      ∃ rest, huffDecode Config.default listRead ((hufReady 1).huf.get .user) (streamRest (hufReady 1).src 0 0 1) = .sym 0 rest :=
  ⟨rfl, by decide, reading_before 0 [1] 0 0 (by decide), _, rfl⟩
theorem wit_HufdecResult_starved :
    (hufReady 0).phase = .idle ∧ ((hufReady 0).huf.get .user).valid = true ∧
      ReaderBefore (hufReady 0).src 0 (streamRest (hufReady 0).src 0 0 1) (hufReady 0).rd ∧
      ∃ rest, huffDecode Config.default listRead ((hufReady 0).huf.get .user) (streamRest (hufReady 0).src 0 0 1) = .starved rest :=
  ⟨rfl, by decide, reading_before 0 [0] 0 0 (by decide), _, rfl⟩
theorem wit_HufdecResult_noCode :
    let s : State := { reading 0 [0, 0] 0 0 with huf := (hufReady 0).huf }
    s.phase = .idle ∧
      (s.huf.get .user).valid = true ∧ ReaderBefore s.src 0 (streamRest s.src 0 0 2) s.rd ∧
      ∃ rest, huffDecode Config.default listRead (s.huf.get .user) (streamRest s.src 0 0 2) = .noCode rest :=
  ⟨rfl, by decide, reading_before 0 [0, 0] 0 0 (by decide), _, rfl⟩

theorem wit_BlastStarts :
    ∀ lit ∈ [0, 1], ∀ dict ∈ [4, 6],
      let s := powered [lit, dict] 0 0 0
      s.phase = .idle ∧ s.cfg = Config.default ∧ StaticOk s.cfg s.huf.lit .lit ∧ StaticOk s.cfg s.huf.len .len ∧
        StaticOk s.cfg s.huf.dist .dist ∧ s.rd.spos + 2 ≤ s.src.len ∧ (s.src.byte 0).toNat = lit ∧ (s.src.byte 1).toNat = dict := by
  intro lit hl dict hd
  refine ⟨rfl, rfl, .inl rfl, .inl rfl, .inl rfl, Nat.le_refl 2, ?_, ?_⟩
  · revert lit; revert dict; decide
  · revert lit; revert dict; decide
/-- A block whose literal table is described by one byte, 16 symbols of length 1. -/
def badTables : State :=
  { powered [0, 4] 0 0 0 with cfg := { Config.default with litLen := [0xF1] } }
-- 43_huffman.md R195 (b), D23: 16 codes of length 1 leave 2 - 16 = -14, and the table is not valid.
theorem test_hufcon_oversub :
    after (.hufcon .lit) badTables (fun t => results t ++ [bif t.huf.lit.valid then 1 else 0]) =
      some [2 ^ 32 - 14, 16, 0, 0, 0] := by decide
-- 44_blast_lz77.md R230: a static table that does not construct to status 0 is ERR_OVERSUB, before the header is read.
theorem test_blast_oversub :
    ∃ t, exec .blast badTables = .next t ∧
      (t.host.status, t.host.consumed, t.rd.spos, t.huf.lit.valid) = (-4, 0, 0, false) := ⟨_, rfl, by decide⟩
theorem wit_BlastHeaderStops_tables :
    badTables.phase = .idle ∧ badTables.rd.spos ≤ badTables.src.len ∧ (badTables.huf.get .lit).valid = false ∧
      constructStatus badTables.cfg (expand badTables.cfg (badTables.cfg.staticDesc .lit)) ≠ 0 := by decide
theorem wit_BlastHeaderStops_empty :
    (powered [] 0 0 0).phase = .idle ∧ (powered [] 0 0 0).cfg = Config.default ∧
      (powered [] 0 0 0).rd.spos = (powered [] 0 0 0).src.len ∧ StaticOk Config.default (powered [] 0 0 0).huf.lit .lit :=
  ⟨rfl, rfl, rfl, .inl rfl⟩
theorem wit_BlastHeaderStops_lit : 1 < ((powered [2] 0 0 0).src.byte 0).toNat ∧ 0 + 1 ≤ (powered [2] 0 0 0).src.len := by decide
theorem wit_BlastHeaderStops_one : ((powered [1] 0 0 0).src.byte 0).toNat ≤ 1 ∧ 0 + 1 = (powered [1] 0 0 0).src.len := by decide
theorem wit_BlastHeaderStops_dict :
    ((powered [0, 3] 0 0 0).src.byte 1).toNat < 4 ∧ 6 < ((powered [0, 7] 0 0 0).src.byte 1).toNat ∧
      0 + 2 ≤ (powered [0, 7] 0 0 0).src.len := by decide

/-- The window of `windowAI` holds the output "AI". -/
theorem windowAI_at : WindowAt [] [0x41, 0x49] (windowAI.lz 0) where
  cursor := by decide
  first := by decide
  flushed := by decide
  held := by decide

theorem wit_BlastEvents_near :
    inStream.phase = .blast 0 0 ∧ inStream.cfg.distSymHigh = true ∧ WindowAt [] [0x41, 0x49] (inStream.lz 0) ∧ 0 * 2 ^ 4 + 1 + 1 ≤ 4096 ∧
      0 * 2 ^ 4 + 1 + 1 ≤ [(0x41 : Byte), 0x49].length := ⟨rfl, rfl, windowAI_at, by decide, by decide⟩
theorem wit_BlastEvents_far :
    inStream.phase = .blast 0 0 ∧ inStream.cfg.distSymHigh = true ∧ WindowAt [] [0x41, 0x49] (inStream.lz 0) ∧ [(0x41 : Byte), 0x49].length < 0 * 2 ^ 4 + 2 + 1 ∧ 63 * 2 ^ 6 + 63 + 1 ≤ 4096 :=
  ⟨rfl, rfl, windowAI_at, by decide, by decide⟩
theorem wit_BlastEnds : inStream.phase = .blast 0 0 ∧ WindowAt [] [0x41, 0x49] (inStream.lz 0) := ⟨rfl, windowAI_at⟩
theorem wit_WindowCommands :
    windowAI.phase = .idle ∧ windowAI.win.next.val < 4095 ∧
      ({ windowAI with win := { windowAI.win with next := 4095 } } : State).win.next.val = 4095 := by decide
theorem wit_WcopyExtends_far :
    let s := powered [] 1 1 0
    s.argCopyDist ≤ 4096 ∧
      s.phase = .idle ∧ 1 ≤ s.argCopyLen ∧ 1 ≤ s.argCopyDist ∧ s.win.first = true ∧ s.win.next.val < s.argCopyDist := by decide
theorem wit_WcopyExtends_near :
    windowAI.phase = .idle ∧ 1 ≤ windowAI.argCopyLen ∧ windowAI.argCopyDist ≤ 4096 ∧
      windowAI.argCopyDist ≤ windowAI.win.next.val ∧ 1 ≤ windowAI.argCopyDist ∧ WindowAt [] [0x41, 0x49] (windowAI.lz 0) :=
  ⟨rfl, by decide, by decide, by decide, by decide, windowAI_at⟩
theorem wit_WcopyExtends_filled :
    let s := { powered [] 2 4096 0 with win := { cells := [], next := 0, first := false } }
    s.phase = .idle ∧ 1 ≤ s.argCopyLen ∧ 1 ≤ s.argCopyDist ∧
      s.argCopyDist ≤ 4096 ∧ s.win.first = false := by decide

/-- A container header: magic, header size, block count, this file size and table offset, no more. -/
def header (nblk : Nat) (fsize btab : List Nat) : List Nat :=
  [0x7A, 0x69, 0x52, 0x43, 0x4F, 0x4E, 0x69, 0x61, 14, 0, 0, 0x13, nblk, 0] ++ fsize ++ btab ++ [0, 0]

/-- The tests of the header on these bytes: short or bad, no block, too small, too large, table outside. -/
def headerTests (bs : List Nat) : List Bool :=
  let s := powered bs 0 0 0
  [decide (s.src.len < 24 ∨ s.src.slice 0 8 ≠ [0x7A, 0x69, 0x52, 0x43, 0x4F, 0x4E, 0x69, 0x61] ∨ s.src.le 8 2 < 14),
    decide (s.src.le 12 2 = 0), decide (s.src.le 14 4 ≤ 16), decide (0x8000000 < s.src.le 14 4),
    decide (s.src.len < s.src.le 18 4 + 4 * s.src.le 12 2)]

theorem wit_MmcmpHeader : (powered [0x7A] 0 0 0).src.len < 24 ∧ (powered [0x7A] 0 0 0).phase = .idle := by decide
theorem wit_MmcmpHeader_blocks :
    (headerTests (header 0 [17, 0, 0, 0] [20, 0, 0, 0])).take 2 = [false, true] := by decide
theorem wit_MmcmpHeader_size :
    (headerTests (header 1 [16, 0, 0, 0] [20, 0, 0, 0])).take 3 = [false, false, true] := by decide
theorem wit_MmcmpHeader_ceiling :
    headerTests (header 1 [1, 0, 0, 8] [20, 0, 0, 0]) = [false, false, false, true, false] ∧
      headerTests (header 1 [0, 0, 0, 8] [20, 0, 0, 0]) = [false, false, false, false, false] := by decide
theorem wit_MmcmpHeader_table :
    headerTests (header 1 [17, 0, 0, 0] [21, 0, 0, 0]) = [false, false, false, false, true] ∧
      headerTests (header 1 [17, 0, 0, 0] [20, 0, 0, 0]) = [false, false, false, false, false] := by decide

/-- An `MMCMP` before its only block: the pointer table at 0, the block header at 4, file size 20. -/
def mmBlock (body : List Nat) : State :=
  let s := powered ([4, 0, 0, 0] ++ body) 0 0 0
  { s with
    mm := { s.mm with nblk := 1, fsize := 20, btab := 0 }
    out := { len := 20, cells := [], valid := false, epoch := 1 }
    phase := .mmTop 0 0 }

/-- A block header: packed size 9, this many sub-blocks, these flags, `tt` and width. -/
def blockHeader (nsub flags tt nbits : Nat) : List Nat :=
  [0, 0, 0, 0, 9, 0, 0, 0, 0, 0, 0, 0, nsub, 0, flags, 0, tt, 0, nbits, 0]

/-- 45_mmcmp.md R241, 00_scope.md R10: the magic stands where the layout says. -/
theorem test_magic_offset :
    let c := { Config.default with mm := { MmLayout.default with magicAt := 1, magic := [0x69] } }
    let magic : List Nat := [0x7A, 0x69, 0x52, 0x43, 0x4F, 0x4E, 0x69, 0x61]
    let file := magic ++ [14, 0, 0, 0, 1, 0, 17, 0, 0, 0, 20, 0, 0, 0, 0, 0]
    (∃ t, exec .mmcmp { powered file 0 0 0 with cfg := c } = .next t ∧ t.phase = .mmTop 0 0) ∧
      ∃ t, exec .mmcmp { powered file 0 0 0 with cfg := { c with mm := { c.mm with magicAt := 2 } } } = .next t ∧
        t.host.status = -7 := ⟨⟨_, rfl, by decide⟩, _, rfl, by decide⟩
theorem wit_MmBlockOpens_header :
    (mmBlock [0]).phase = .mmTop 0 0 ∧ (mmBlock [0]).cfg = Config.default ∧
      (mmBlock [0]).mm.btab + 4 * (mmBlock [0]).mm.nblk ≤ (mmBlock [0]).src.len ∧ 0 < (mmBlock [0]).mm.nblk ∧
      (mmBlock [0]).src.len < (mmBlock [0]).src.le 0 4 + 20 := by decide
theorem wit_MmBlockOpens_table :
    let s := mmBlock (blockHeader 1 1 0 3)
    s.phase = .mmTop 0 0 ∧ 0 < s.mm.nblk ∧ s.mm.btab + 4 * s.mm.nblk ≤ s.src.len ∧
      s.src.le 0 4 + 20 ≤ s.src.len ∧ s.src.len < s.src.le 0 4 + 20 + 8 * s.src.le 16 2 := by decide
theorem wit_MmBlockOpens_bounds :
    let s := mmBlock (blockHeader 1 1 0 3 ++ [0, 0, 0, 0, 21, 0, 0, 0])
    s.phase = .mmTop 0 0 ∧ 0 < s.mm.nblk ∧ s.mm.btab + 4 * s.mm.nblk ≤ s.src.len ∧
      s.src.le 0 4 + 20 + 8 * s.src.le 16 2 = s.src.len ∧ ¬ s.src.le 28 4 ≤ s.mm.fsize - s.src.le 24 4 := by decide
theorem wit_MmBlockOpens_width :
    let s := mmBlock (blockHeader 0 1 0 8)
    s.phase = .mmTop 0 0 ∧ 0 < s.mm.nblk ∧ s.mm.btab + 4 * s.mm.nblk ≤ s.src.len ∧
      s.src.le 0 4 + 20 ≤ s.src.len ∧ (BitVec.ofNat 16 (s.src.le 18 2)).getLsbD 0 = true ∧ Width.w8.bits ≤ s.src.le 22 2 := by decide
theorem wit_MmBlockOpens_permutation :
    let s := mmBlock (blockHeader 0 1 0 7)
    s.phase = .mmTop 0 0 ∧ 0 < s.mm.nblk ∧ s.mm.btab + 4 * s.mm.nblk ≤ s.src.len ∧
      s.src.le 22 2 < Width.w8.bits ∧ s.src.len < 24 + 256 := by decide
theorem wit_MmBlockOpens_words :
    let s := mmBlock (blockHeader 1 5 0 15 ++ [0, 0, 0, 0, 20, 0, 0, 0])
    s.phase = .mmTop 0 0 ∧ 0 < s.mm.nblk ∧ s.mm.btab + 4 * s.mm.nblk ≤ s.src.len ∧
      s.src.le 22 2 < Width.w16.bits ∧ (BitVec.ofNat 16 (s.src.le 18 2)).getLsbD 2 = true ∧
      s.src.le 24 4 ≤ s.mm.fsize ∧ s.src.le 28 4 ≤ s.mm.fsize - s.src.le 24 4 := by decide

theorem wit_MmRawCopy_whole :
    let s := mmBlock (blockHeader 1 0 0 0 ++ [18, 0, 0, 0, 2, 0, 0, 0, 0x41, 0x42])
    s.phase = .mmTop 0 0 ∧ 0 < s.mm.nblk ∧ s.mm.btab + 4 * s.mm.nblk ≤ s.src.len ∧
      s.src.le 0 4 + 20 + 8 * s.src.le 16 2 ≤ s.src.len ∧
      s.out.len = s.mm.fsize ∧ (BitVec.ofNat 16 (s.src.le 18 2)).getLsbD 0 = false ∧ s.src.le 24 4 ≤ s.mm.fsize ∧
      s.src.le 28 4 ≤ s.mm.fsize - s.src.le 24 4 ∧ 32 + s.src.le 28 4 ≤ s.src.len := by decide
theorem wit_MmRawCopy_short :
    let s := mmBlock (blockHeader 1 0 0 0 ++ [18, 0, 0, 0, 2, 0, 0, 0, 0x41])
    s.out.len = s.mm.fsize ∧ (BitVec.ofNat 16 (s.src.le 18 2)).getLsbD 0 = false ∧ s.src.le 24 4 ≤ s.mm.fsize ∧
      s.phase = .mmTop 0 0 ∧ 0 < s.mm.nblk ∧ s.mm.btab + 4 * s.mm.nblk ≤ s.src.len ∧
      s.src.le 0 4 + 20 + 8 * s.src.le 16 2 ≤ s.src.len ∧
      s.src.le 28 4 ≤ s.mm.fsize - s.src.le 24 4 ∧ s.src.len < 32 + s.src.le 28 4 := by decide

theorem wit_MmStoreWord :
    let s := { inComp .w16 5 with mm := { (inComp .w16 5).mm with subpos := 1 } }
    s.phase = .mmComp .w16 0 0 0 ∧ s.cfg = Config.default ∧
      s.subBlock? 0 s.mm.subk = some (0, 4) ∧ 0 + 2 * s.mm.subpos + 1 < s.out.len := by decide
theorem wit_MmStoreByte :
    let s := { inComp .w8 3 with mm := { (inComp .w8 3).mm with subpos := 3 } }
    s.phase = .mmComp .w8 0 0 0 ∧ s.cfg = Config.default ∧
      s.subBlock? 0 s.mm.subk = some (0, 4) ∧ 0 + s.mm.subpos < s.out.len ∧ s.mm.pay + 5 < s.src.len := by decide
theorem wit_MmWidthAndEnd : (inComp .w16 5).phase = .mmComp .w16 0 0 0 ∧ (inComp .w16 5).cfg.mmEndsBlock = true := ⟨rfl, rfl⟩
theorem wit_MmAdvances_last : ({ inComp .w16 5 with mm := State.reset.mm } : State).mm.nsub ≤ 0 := by decide
theorem wit_MmAdvances_full :
    (inComp .w16 5).phase = .mmComp .w16 0 0 0 ∧
      (inComp .w16 5).mm.subk < (inComp .w16 5).mm.nsub ∧ (inComp .w16 5).subBlock? 0 0 = some (0, 4) ∧ subElems .w16 4 ≤ 2 := by
  decide
theorem wit_MmAdvances_end : (at_ (.mmTop 0 0)).mm.nblk ≤ 0 := by decide
theorem wit_EscapeWidths : 15 < Width.w16.bits ∧ Config.default.mmCmd .w16 15 ≤ 0xFFFF ∧ 0xFFFF < 2 ^ 16 := by decide

theorem wit_InputsAndResults : ∃ t, step (at_ (.hufcon 1 1 [])) = .next t ∧ t.busy = true := ⟨_, rfl, by decide⟩
theorem wit_HostSpaces :
    (∃ t, step { inStream with phase := .mmTop 0 0 } = .next t) ∧ (at_ (.mdl .w8 0)).busy = true ∧ State.reset.busy = false :=
  ⟨⟨_, rfl⟩, by decide, by decide⟩
theorem wit_HostSpaces_dst :
    let s := hostGiveDst 2 [(0, 0x1234)] State.reset
    s.busy = false ∧ 0 < s.dstCap ∧ s.dst.read 0 = some 0x1234 ∧ 1 < s.dstCap ∧ s.dst.read 1 = none := by decide
theorem wit_HostSpaces_out :
    let s := { State.reset with out := { len := 2, cells := [(0, 7)], valid := true, epoch := 1 } }
    s.busy = false ∧ s.out.valid = true ∧ 1 < s.out.len ∧ s.out.cells.read 0 = some 7 ∧ s.out.cells.read 1 = none := by decide
theorem wit_DestinationWrites :
    ∃ t, step { itReady [5, 0] with it := { (itReady [5, 0]).it with blklen := 1 } } = .next t ∧ t.dst ≠ (itReady [5, 0]).dst :=
  ⟨_, rfl, by decide⟩
theorem wit_OneBitState_fill :
    let s := { waiting 0x1D with win := { cells := [], next := 4095, first := true } }
    ∃ t, step s = .next t ∧ s.win.first = true ∧ t.win.first = false := ⟨_, rfl, rfl, rfl⟩
theorem wit_OneBitState_reset :
    let s := { waiting 0x1C with win := { cells := [], next := 5, first := false } }
    ∃ t, step s = .next t ∧ s.win.first = false ∧ t.win.first = true := ⟨_, rfl, rfl, rfl⟩
theorem wit_OneBitState_built :
    ∃ t, step (waiting 0x00020018) = .next t ∧ t.huf.get .dist ≠ State.reset.huf.get .dist := ⟨_, rfl, by decide⟩
theorem wit_OneBitState_table :
    let s := { waiting 0x18 with huf := { State.reset.huf with lit := { HufTable.blank with valid := true } } }
    ∃ t, step s = .next t ∧ (s.huf.get .lit).valid = true := ⟨_, rfl, rfl⟩
theorem wit_OneBitState_valid :
    ∃ t, step (at_ (.mmTop 0 0)) = .next t ∧ (at_ (.mmTop 0 0)).out.valid = false ∧ t.out.valid = true := ⟨_, rfl, rfl, rfl⟩
theorem wit_OneBitState_kept :
    let s := { State.reset with out := { State.reset.out with valid := true } }
    ∃ t, step s = .next t ∧ s.out.valid = true ∧ s.phase = .idle := ⟨_, rfl, rfl, rfl⟩

/-- A `HUFCON 3` in progress, its two descriptor bytes ahead, is well formed. -/
theorem wit_Wf : (at_ (.hufcon 2 2 [])).Wf where
  cfg := rfl
  srcLen := by decide
  dstCap := by decide
  src := by decide
  dst := by decide
  win := by decide
  out := by decide
  reader := { real_le := by decide, cnt_le := by decide, above := by decide, seed_le := by decide, seed_bytes := by decide }
  lit := .inl rfl
  len := .inl rfl
  dist := .inl rfl
  phase := ⟨by decide, by decide, by decide⟩

theorem wit_StepKeepsWellFormed : (at_ (.hufcon 2 2 [])).Wf := wit_Wf
theorem wit_HostKeepsWellFormed :
    (at_ (.hufcon 2 2 [])).Wf ∧ ([] : List Byte).length < 2 ^ 32 ∧ 2 ^ 32 - 1 < 2 ^ 32 ∧ Memory.wf ([] : Memory 16) = true :=
  ⟨wit_Wf, by decide, by decide, by decide⟩
theorem wit_EveryCommandEnds : (at_ (.hufcon 2 2 [])).Wf := wit_Wf
theorem wit_ReadOnlyWrites : 5 ∉ [0, 1, 2, 3, 4, 9] ∧ 8 ∉ [0, 1, 2, 3, 4, 9] ∧ 10 ∉ [0, 1, 2, 3, 4, 9] := by decide

end Sys2Proof.Tests
end

section
/-! PROOFS, 00_scope.md R7. One step in terms of its fetch: what each sequencer answers when its decoder gives an event
(30_encoding.md R90, R108), and that the step then runs `exec` on that event. -/

namespace Sys2Proof.Machine

open Sys2Proof

/-! ### What a sequencer answers at an event -/

section Fetching

variable {s t : State} {i : Instr} {r : Reader} {S : Width}

theorem fetchCommand_of_ok (h : decodeCommand s.host.cmd = .ok i) : fetchCommand s = .instr i s.takeCommand := by
  simp only [fetchCommand, h]

theorem itBlockNext_of_event (f215 : Bool) (start nOut : Nat) (hpos : s.it.blkpos < s.it.blklen)
    (h : decodeIt s.cfg (readGot s.src .it) S s.it.width s.rd = .event i r) :
    itBlockNext S f215 start nOut s = .instr i { s with rd := r } := by
  simp only [itBlockNext, if_pos hpos, h]

theorem mdlNext_of_event {nOut : Nat} (hlen : nOut < s.argLen)
    (h : decodeMdl s.cfg (readGot s.src .mdl) (s.rd.bitsLeft s.src + 1) S s.rd = .event i r) :
    mdlNext S nOut s = .instr i { s with rd := r } := by
  simp only [mdlNext, if_pos hlen, h]

/-- The hidden staging follows the event's reads (log 18). -/
theorem blastNext_of_event (s0 nSink : Nat)
    (h : decodeBlast s.cfg (readGot s.src .pk) s.blast.lit s.blast.dict s.huf.lit s.huf.len s.huf.dist s.rd =
      .event i r) :
    blastNext s0 nSink s = .instr i (blastStage s0 { s with rd := r }) := by
  simp only [blastNext, h]

/-- The event is decoded where the cursor stands once full sub-blocks are passed (45_mmcmp.md R251). -/
theorem mmCompNext_of_event (s0 b : Nat) {hdr : Nat}
    (hadv : mmAdvance S hdr (s.mm.nsub - s.mm.subk) s = some t) (hsub : t.mm.subk < t.mm.nsub)
    (h : decodeMm t.cfg (readGot t.src .pk) S t.mm.numbits t.rd = .event i r) :
    mmCompNext S s0 b hdr s = .instr i { t with rd := r } := by
  simp only [mmCompNext, hadv, if_neg (Nat.not_le_of_lt hsub), h]

/-- A descriptor byte is always an event, and the cursor moves past it (log 22). -/
theorem hufconNext_succ (n left : Nat) (lengths : List Nat) (hpos : s.rd.spos < s.src.len) :
    hufconNext n (left + 1) lengths s =
      .instr (decodeDescriptor s.cfg (s.src.byte s.rd.spos)) (s.seek (s.rd.spos + 1)) := by
  simp only [hufconNext, if_neg (Nat.succ_ne_zero left), if_pos hpos]

/-! ### Which sequencer a phase fetches from -/

theorem fetch_of_issued (hp : s.phase = .issued) : fetch s = fetchCommand s := by
  simp only [fetch, hp]

theorem fetch_of_itBlock {f215 : Bool} {start nOut : Nat} (hp : s.phase = .itBlock S f215 start nOut) :
    fetch s = itBlockNext S f215 start nOut s := by
  simp only [fetch, hp]

theorem fetch_of_mdl {nOut : Nat} (hp : s.phase = .mdl S nOut) : fetch s = mdlNext S nOut s := by
  simp only [fetch, hp]

theorem fetch_of_blast {s0 nSink : Nat} (hp : s.phase = .blast s0 nSink) : fetch s = blastNext s0 nSink s := by
  simp only [fetch, hp]

theorem fetch_of_mmComp {s0 b hdr : Nat} (hp : s.phase = .mmComp S s0 b hdr) :
    fetch s = mmCompNext S s0 b hdr s := by
  simp only [fetch, hp]

theorem fetch_of_hufcon {n left : Nat} {lengths : List Nat} (hp : s.phase = .hufcon n left lengths) :
    fetch s = hufconNext n left lengths s := by
  simp only [fetch, hp]

/-! ### The step that runs what was fetched -/

theorem step_of_fetch_instr (h : fetch s = .instr i t) : step s = exec i t := by
  simp only [step, h]

end Fetching

/-- Settles O12, one clause for each phase that fetches an instruction: the phase names the sequencer, the sequencer
answers the decoded event in the state that has moved past it, and the step runs that answer. -/
theorem stepRunsDecoded : Obligations.StepRunsDecoded := by
  intro s i
  refine ⟨?command, ?it, ?mdl, ?blast, ?mmcmp, ?descriptor⟩
  case command =>
    intro hp hdec
    exact step_of_fetch_instr ((fetch_of_issued hp).trans (fetchCommand_of_ok hdec))
  case it =>
    intro S f start n r hp hpos hdec
    exact step_of_fetch_instr ((fetch_of_itBlock hp).trans (itBlockNext_of_event f start n hpos hdec))
  case mdl =>
    intro S n r hp hlen hdec
    exact step_of_fetch_instr ((fetch_of_mdl hp).trans (mdlNext_of_event hlen hdec))
  case blast =>
    intro a n r hp hdec
    exact step_of_fetch_instr ((fetch_of_blast hp).trans (blastNext_of_event a n hdec))
  case mmcmp =>
    intro S a b hdr t r hp hadv hsub hdec
    exact step_of_fetch_instr ((fetch_of_mmComp hp).trans (mmCompNext_of_event a b hadv hsub hdec))
  case descriptor =>
    rintro n left l hp hpos rfl
    exact step_of_fetch_instr ((fetch_of_hufcon hp).trans (hufconNext_succ n left l hpos))

end Sys2Proof.Machine
end

section
/-! PROOFS, 10_state.md R43, R45, R49, R51, 20_memory.md R63. What one step can do to the memories behind the one-bit
state: the window with its sink, the static tables and `OUT`, said once for every step. -/

namespace Sys2Proof.Machine

open Sys2Proof

/-! ### The kinds of effect -/

/-- The window, its sink, the Huffman tables and `OUT` stand as they did. -/
structure SameMemories (s t : State) : Prop where
  win : t.win = s.win
  sink : t.sink = s.sink
  huf : t.huf = s.huf
  out : t.out = s.out

/-- The block is about to take this command (log 2). -/
def State.Takes (s : State) (i : Instr) : Prop := s.phase = .issued ∧ decodeCommand s.host.cmd = .ok i

/-- The command in progress is `MMCMP`. -/
def State.InMmcmp (s : State) : Prop := (∃ a b, s.phase = .mmTop a b) ∨ ∃ S a b h, s.phase = .mmComp S a b h

theorem State.InMmcmp.of_phase {s t : State} (hp : t.phase = s.phase) (h : t.InMmcmp) : s.InMmcmp := by
  rwa [State.InMmcmp, hp] at h

/-- The window and its sink: bytes are put, copied or flushed, or a command that resets the window is taken
(44_blast_lz77.md R211, R221 to R225). -/
inductive WindowEffect (taken : Instr → Prop) (s t : State) : Prop where
  | grows (n m : Nat) (h : (s.lz n).Grows (t.lz m))
  | restarts (htaken : taken .blast ∨ taken .wreset) (hsink : t.sink = s.sink) (hnext : t.win.next = 0)
      (hfirst : t.win.first = true)

/-- The static tables: one that is not valid may be built by `BLAST` or its `HUFCON` (43_huffman.md R198, R204). -/
def TablesEffect (taken : Instr → Prop) (s t : State) : Prop :=
  ∀ u, u ≠ .user →
    t.huf.get u = s.huf.get u ∨ (s.huf.get u).valid = false ∧ (taken .blast ∨ taken (.hufcon u))

/-- `OUT` before the end of an `MMCMP` (45_mmcmp.md R240, R264). -/
inductive OutEffect (taken : Instr → Prop) (s t : State) : Prop where
  | kept (h : t.out = s.out)
  | opened (htaken : taken .mmcmp) (h : t.out.valid = false)
  | unpacking (hmm : s.InMmcmp) (h : t.out.valid = true → s.out.valid = true)

/-- What a step does to the memories, all but the end of an `MMCMP`; `taken` says which command it takes. -/
structure MemoryEffect (taken : Instr → Prop) (s t : State) : Prop where
  window : WindowEffect taken s t
  tables : TablesEffect taken s t
  out : OutEffect taken s t

/-- What a step does to the memories: the end of an `MMCMP` alone makes `OUT` valid (45_mmcmp.md R240). -/
inductive StepEffect (s t : State) : Prop where
  | keeps (h : MemoryEffect s.Takes s t)
  | finishes (s0 b : Nat) (hp : s.phase = .mmTop s0 b) (h : t = mmFinish s0 s)

section Effects

variable {s t u : State} {taken taken' : Instr → Prop} {body : State → State}

theorem SameMemories.refl (s : State) : SameMemories s s := ⟨rfl, rfl, rfl, rfl⟩

theorem SameMemories.trans (h : SameMemories s t) (h' : SameMemories t u) : SameMemories s u :=
  ⟨h'.win.trans h.win, h'.sink.trans h.sink, h'.huf.trans h.huf, h'.out.trans h.out⟩

/-- The end of a command writes the result registers only (60_exceptions.md R290). -/
theorem SameMemories.endWith (status : Int) (consumed result : Nat) (s : State) :
    SameMemories s (endWith status consumed result s) := ⟨rfl, rfl, rfl, rfl⟩

theorem WindowEffect.of_eq (hw : t.win = s.win) (hs : t.sink = s.sink) : WindowEffect taken s t :=
  .grows 0 0 (by rw [State.lz, State.lz, hw, hs]; exact .refl _)

theorem TablesEffect.of_eq (h : t.huf = s.huf) : TablesEffect taken s t := fun u _ => .inl (by rw [h])

theorem SameMemories.effect (h : SameMemories s t) : MemoryEffect taken s t :=
  ⟨.of_eq h.win h.sink, .of_eq h.huf, .kept h.out⟩

/-- Window commands and the events of `BLAST` touch the window and its sink only. -/
theorem MemoryEffect.of_grows (n m : Nat) (hz : (s.lz n).Grows (t.lz m)) (hh : t.huf = s.huf)
    (ho : t.out = s.out) : MemoryEffect taken s t :=
  ⟨.grows n m hz, .of_eq hh, .kept ho⟩

/-- The fetch before an instruction does not touch the memories, so the instruction's effect is the step's. -/
theorem MemoryEffect.of_same (h : MemoryEffect taken t u) (hk : SameMemories s t)
    (htaken : ∀ i, taken i → taken' i) (hmm : t.InMmcmp → s.InMmcmp) : MemoryEffect taken' s u where
  window := by
    have hlz : ∀ n, s.lz n = t.lz n := fun n => by rw [State.lz, State.lz, hk.win, hk.sink]
    cases h.window with
    | grows n m h => exact .grows n m (hlz n ▸ h)
    | restarts ht hs hn hf => exact .restarts (ht.imp (htaken _) (htaken _)) (hs.trans hk.sink) hn hf
  tables := fun v hv => by
    rw [← hk.huf]
    exact (h.tables v hv).imp_right fun ⟨hn, ht⟩ => ⟨hn, ht.imp (htaken _) (htaken _)⟩
  out := by
    cases h.out with
    | kept h => exact .kept (h.trans hk.out)
    | opened ht h => exact .opened (htaken _ ht) h
    | unpacking hm h => exact .unpacking (hmm hm) (hk.out ▸ h)

/-- A command changes what its body changes on an idle block, and nothing on a busy one
(70_reset_and_hazards.md R316). -/
theorem MemoryEffect.of_whenIdle (hb : s.phase = .idle → MemoryEffect taken s (body s))
    (h : whenIdle s body = .next t) : MemoryEffect taken s t := by
  rcases whenIdle_cases h with ⟨-, rfl⟩ | ⟨hp, rfl⟩
  · exact (SameMemories.refl _).effect
  · exact hb hp

theorem MemoryEffect.of_whenIdle_same (hb : SameMemories s (body s)) (h : whenIdle s body = .next t) :
    MemoryEffect taken s t :=
  .of_whenIdle (fun _ => hb.effect) h

end Effects

/-! ### Commands that leave the memories -/

theorem rdbits_same (mode : Mode) (n : Nat) (s : State) : SameMemories s (rdbits mode n s) := by
  unfold rdbits
  split
  · exact .endWith ..
  · dsimp only
    split <;> exact ⟨rfl, rfl, rfl, rfl⟩

theorem itStart_same (S : Width) (f215 : Bool) (s : State) : SameMemories s (itStart S f215 s) := by
  unfold itStart
  split <;> exact ⟨rfl, rfl, rfl, rfl⟩

theorem mdlStart_same (S : Width) (s : State) : SameMemories s (mdlStart S s) := by
  unfold mdlStart
  split
  · exact .endWith ..
  · dsimp only
    split <;> exact ⟨rfl, rfl, rfl, rfl⟩

theorem hufconUser_same (s : State) : SameMemories s (hufconUser s) := by
  unfold hufconUser
  split <;> exact ⟨rfl, rfl, rfl, rfl⟩

theorem hufdecRun_same (t : TableSel) (s : State) : SameMemories s (hufdecRun t s) := by
  unfold hufdecRun
  split <;> exact ⟨rfl, rfl, rfl, rfl⟩

section Commands

variable {s t : State} {taken : Instr → Prop}

theorem execBrinit_effect (h : execBrinit s = .next t) : MemoryEffect taken s t := by
  unfold execBrinit at h
  refine .of_whenIdle_same ?_ h
  split <;> exact ⟨rfl, rfl, rfl, rfl⟩

theorem execBrseed_effect {k : BitVec 6} (h : execBrseed k s = .next t) : MemoryEffect taken s t := by
  unfold execBrseed at h
  refine .of_whenIdle_same ?_ h
  split <;> exact ⟨rfl, rfl, rfl, rfl⟩

theorem execHufdec_effect {x : TableSel} (h : execHufdec x s = .next t) : MemoryEffect taken s t := by
  unfold execHufdec at h
  refine .of_whenIdle_same ?_ h
  split
  · exact hufdecRun_same x s
  · exact .endWith ..

/-! ### Window commands -/

theorem endWindow_effect (n : Nat) {z : Lz} {s : State} (h : (s.lz n).Grows z) :
    MemoryEffect taken s (endWindow z s) :=
  .of_grows n z.n h rfl rfl

theorem execWreset_effect (htaken : s.phase = .idle → taken .wreset) (h : execWreset s = .next t) :
    MemoryEffect taken s t := by
  unfold execWreset at h
  exact .of_whenIdle (fun hp => ⟨.restarts (.inr (htaken hp)) rfl rfl rfl, .of_eq rfl, .kept rfl⟩) h

theorem execWcopy_effect (h : execWcopy s = .next t) : MemoryEffect taken s t := by
  unfold execWcopy at h
  refine .of_whenIdle (fun _ => ?_) h
  split
  · exact (SameMemories.endWith ..).effect
  · split
    · exact (SameMemories.endWith ..).effect
    · exact endWindow_effect 0 (Lz.copyLoop_grows ..)

/-! ### Static tables -/

theorem hufconStatic_effect {t : TableSel} (h : taken (.hufcon t)) (s : State) :
    MemoryEffect taken s (hufconStatic t s) := by
  unfold hufconStatic
  split
  · exact (SameMemories.endWith ..).effect
  · rename_i hv
    refine ⟨.of_eq rfl rfl, fun u _ => ?_, .kept rfl⟩
    by_cases hu : u = t
    · subst hu
      exact .inr ⟨by simpa using hv, .inr h⟩
    · exact .inl (HufMem.get_set_other _ _ hu)

end Commands

/-! ### `BLAST` -/

/-- The state a piece of a command's pseudocode leaves, whether it goes on or stops. -/
def Run.state : Run → State
  | .on s => s
  | .stop _ s => s

/-- What the construction of the tables at the start of `BLAST` leaves: the window, `OUT` and every valid table
(44_blast_lz77.md R211). -/
structure BuildsTables (s t : State) : Prop where
  win : t.win = s.win
  sink : t.sink = s.sink
  out : t.out = s.out
  valid : ∀ u, (s.huf.get u).valid = true → t.huf.get u = s.huf.get u

theorem BuildsTables.trans {s t u : State} (h : BuildsTables s t) (h' : BuildsTables t u) : BuildsTables s u where
  win := h'.win.trans h.win
  sink := h'.sink.trans h.sink
  out := h'.out.trans h.out
  valid v hv := (h'.valid v (by rw [h.valid v hv]; exact hv)).trans (h.valid v hv)

theorem SameMemories.buildsTables {s t : State} (h : SameMemories s t) : BuildsTables s t :=
  ⟨h.win, h.sink, h.out, fun u _ => by rw [h.huf]⟩

theorem buildStatic_builds {t : TableSel} {s : State} (h : (s.huf.get t).valid ≠ true) :
    BuildsTables s (s.buildStatic t) := by
  refine ⟨rfl, rfl, rfl, fun u hu => HufMem.get_set_other _ _ ?_⟩
  rintro rfl
  exact h hu

theorem blastTables_builds (ts : List TableSel) (s : State) : BuildsTables s (blastTables ts s).state := by
  induction ts generalizing s with
  | nil => exact (SameMemories.refl s).buildsTables
  | cons t ts ih =>
    unfold blastTables
    split
    · exact ih s
    · rename_i hv
      split
      · exact (buildStatic_builds hv).trans (ih _)
      · exact buildStatic_builds hv

theorem blastHeaderDict_same (s : State) : SameMemories s (blastHeaderDict s).state := by
  unfold blastHeaderDict
  split
  · exact ⟨rfl, rfl, rfl, rfl⟩
  · dsimp only
    split <;> exact ⟨rfl, rfl, rfl, rfl⟩

theorem blastHeader_same (s : State) : SameMemories s (blastHeader s).state := by
  unfold blastHeader
  split
  · exact ⟨rfl, rfl, rfl, rfl⟩
  · dsimp only
    split
    · exact ⟨rfl, rfl, rfl, rfl⟩
    · exact .trans (by exact ⟨rfl, rfl, rfl, rfl⟩) (blastHeaderDict_same _)

theorem blastPrepare_builds (s : State) : BuildsTables s (blastPrepare s).state := by
  have htables := blastTables_builds [.lit, .len, .dist] s
  unfold blastPrepare
  split <;> rename_i h <;> rw [h] at htables
  · exact htables.trans (blastHeader_same _).buildsTables
  · exact htables

theorem blastStage_same (s0 : Nat) (s : State) :
    SameMemories s (blastStage s0 s) ∧ (blastStage s0 s).phase = s.phase := by
  obtain ⟨b, l, h⟩ := blastStage_eq s0 s
  rw [h]
  exact ⟨⟨rfl, rfl, rfl, rfl⟩, rfl⟩

/-- A window that has just been reset holds nothing to flush. -/
theorem flush_reset (w : Window) (sink : List Byte) (n : Nat) :
    Lz.flush { win := w.reset, sink := sink, n := n } = { win := w.reset, sink := sink, n := n } := by
  simp [Lz.flush, Lz.append, Window.firstBytes, Window.reset]

/-- A stop in the header of `BLAST` flushes a window that has just been reset. -/
theorem blastEnd_of_reset {s : State} {w : Window} (hw : s.win = w.reset) (code : StatusCode) (s0 n : Nat) :
    SameMemories s (blastEnd code s0 n s) := by
  have hz : (s.lz n).flush = s.lz n := by
    rw [State.lz, hw]
    exact flush_reset w s.sink n
  exact ⟨congrArg Lz.win hz, congrArg Lz.sink hz, rfl, rfl⟩

/-- The start of `BLAST`: the window is reset, a valid table stays. -/
theorem BuildsTables.effect {s t : State} {taken : Instr → Prop} (h : taken .blast)
    (ht : BuildsTables (blastClear s) t) : MemoryEffect taken s t where
  window := .restarts (.inl h) ht.sink (by rw [ht.win]; rfl) (by rw [ht.win]; rfl)
  tables u _ := by
    cases hv : (s.huf.get u).valid with
    | true => exact .inl (ht.valid u hv)
    | false => exact .inr ⟨rfl, .inl h⟩
  out := .kept ht.out

theorem blastStart_effect {taken : Instr → Prop} (h : taken .blast) (s : State) :
    MemoryEffect taken s (blastStart s) := by
  have hprep := blastPrepare_builds (blastClear s)
  unfold blastStart
  split
  · exact (SameMemories.endWith ..).effect
  · split
    · rename_i t ht
      rw [ht] at hprep
      have hstage : SameMemories t { blastStage s.rd.spos t with phase := .blast s.rd.spos 0 } :=
        (blastStage_same s.rd.spos t).1.trans ⟨rfl, rfl, rfl, rfl⟩
      exact (hprep.trans hstage.buildsTables).effect h
    · rename_i code t ht
      rw [ht] at hprep
      have hstage := (blastStage_same s.rd.spos t).1
      have hend := blastEnd_of_reset (hstage.win.trans hprep.win) code s.rd.spos 0
      exact (hprep.trans (hstage.trans hend).buildsTables).effect h

/-- A match whose distance reaches too far back ends the command with a flush (44_blast_lz77.md R226). -/
theorem blastEnd_effect {taken : Instr → Prop} (code : StatusCode) (s0 n : Nat) (s : State) :
    MemoryEffect taken s (blastEnd code s0 n s) :=
  .of_grows n _ (Lz.flush_grows (s.lz n)) rfl rfl

theorem blastKeep_effect {taken : Instr → Prop} (s0 n : Nat) {z : Lz} {s : State} (h : (s.lz n).Grows z) :
    MemoryEffect taken s (blastKeep s0 z s) :=
  .of_grows n z.n h rfl rfl

theorem blastCopy_effect {taken : Instr → Prop} (len dist s0 n : Nat) (s : State) :
    MemoryEffect taken s (blastCopy len dist s0 n s) := by
  unfold blastCopy
  split
  · exact blastEnd_effect ..
  · exact blastKeep_effect s0 n (Lz.copyLoop_grows ..)

theorem inBlast_effect {taken : Instr → Prop} {s t : State} {body : Nat → Nat → State}
    (hb : ∀ s0 n, MemoryEffect taken s (body s0 n)) (h : inBlast s body = .next t) : MemoryEffect taken s t := by
  unfold inBlast at h
  split at h <;> cases h
  exact hb _ _

/-! ### Events of `ITD*` and `MDLD*` -/

theorem inItBlock_same {s t : State} {body : Width → Bool → Nat → Nat → Result}
    (hb : ∀ S f215 start nOut, body S f215 start nOut = .next t → SameMemories s t)
    (h : inItBlock s body = .next t) : SameMemories s t := by
  unfold inItBlock at h
  split at h
  · exact hb _ _ _ _ h
  all_goals cases h

theorem execItS_same {value : Nat} {s t : State} (h : execItS value s = .next t) : SameMemories s t := by
  refine inItBlock_same (fun S f215 start nOut hs => ?_) h
  split at hs <;> cases hs
  exact ⟨rfl, rfl, rfl, rfl⟩

theorem mdlSample_same {lo : Option Byte} {sign : Bool} {mag : Byte} {s t : State}
    (h : mdlSample lo sign mag s = .next t) : SameMemories s t := by
  unfold mdlSample inMdl at h
  split at h
  · split at h <;> cases h
    exact ⟨rfl, rfl, rfl, rfl⟩
  all_goals cases h

/-! ### `HUFCON 3` -/

theorem execHdRun_same {rep len : BitVec 4} {s t : State} (h : execHdRun rep len s = .next t) :
    SameMemories s t := by
  unfold execHdRun at h
  split at h <;> cases h
  exact ⟨rfl, rfl, rfl, rfl⟩

/-- `HUFCON 3` builds table 3, which is no static table (43_huffman.md R194). -/
theorem hufconFinish_effect {taken : Instr → Prop} (n : Nat) (lengths : List Nat) (s : State) :
    MemoryEffect taken s (hufconFinish n lengths s) :=
  ⟨.of_eq rfl rfl, fun _ hu => .inl (HufMem.get_set_other _ _ hu), .kept rfl⟩

/-! ### `MMCMP` -/

/-- What the sequencer of `MMCMP` does between its header and its end: only `OUT` is written, and its validity stays. -/
structure Unpacks (s t : State) : Prop where
  win : t.win = s.win
  sink : t.sink = s.sink
  huf : t.huf = s.huf
  valid : t.out.valid = true → s.out.valid = true

theorem Unpacks.trans {s t u : State} (h : Unpacks s t) (h' : Unpacks t u) : Unpacks s u :=
  ⟨h'.win.trans h.win, h'.sink.trans h.sink, h'.huf.trans h.huf, fun hv => h.valid (h'.valid hv)⟩

theorem SameMemories.unpacks {s t : State} (h : SameMemories s t) : Unpacks s t :=
  ⟨h.win, h.sink, h.huf, fun hv => by rwa [h.out] at hv⟩

theorem Unpacks.effect {s t : State} {taken : Instr → Prop} (hmm : s.InMmcmp) (h : Unpacks s t) :
    MemoryEffect taken s t :=
  ⟨.of_eq h.win h.sink, .of_eq h.huf, .unpacking hmm h.valid⟩

/-- A stop leaves no buffer (45_mmcmp.md R240). -/
theorem mmStop_unpacks (code : StatusCode) (s0 : Nat) (s : State) : Unpacks s (mmStop code s0 s) :=
  ⟨rfl, rfl, rfl, fun h => nomatch h⟩

theorem mmHeaderTable_same (s : State) : SameMemories s (mmHeaderTable s).state := by
  unfold mmHeaderTable
  dsimp only
  split <;> exact ⟨rfl, rfl, rfl, rfl⟩

theorem mmHeaderSize_same (s : State) : SameMemories s (mmHeaderSize s).state := by
  unfold mmHeaderSize
  dsimp only
  split
  · exact ⟨rfl, rfl, rfl, rfl⟩
  · split
    · exact ⟨rfl, rfl, rfl, rfl⟩
    · exact .trans (by exact ⟨rfl, rfl, rfl, rfl⟩) (mmHeaderTable_same _)

theorem mmHeader_same (s : State) : SameMemories s (mmHeader s).state := by
  unfold mmHeader
  dsimp only
  split
  · exact .refl s
  · split
    · exact .refl s
    · split
      · exact .refl s
      · split
        · exact ⟨rfl, rfl, rfl, rfl⟩
        · exact .trans (by exact ⟨rfl, rfl, rfl, rfl⟩) (mmHeaderSize_same _)

theorem mmStart_effect {taken : Instr → Prop} (h : taken .mmcmp) (s : State) : MemoryEffect taken s (mmStart s) := by
  have hheader := mmHeader_same { s with rd := s.rd.emptied, out := s.out.clear }
  unfold mmStart
  split <;> rename_i ht <;> rw [ht] at hheader
  · exact ⟨.of_eq hheader.win hheader.sink, .of_eq hheader.huf, .opened h (congrArg OutBuf.valid hheader.out)⟩
  · exact ⟨.of_eq hheader.win hheader.sink, .of_eq hheader.huf, .opened h rfl⟩

theorem mmRawBlock_unpacks (hdr n k q : Nat) (s : State) : Unpacks s (mmRawBlock hdr n k q s).state := by
  induction n generalizing k q s with
  | zero => exact (SameMemories.refl s).unpacks
  | succ n ih =>
    unfold mmRawBlock
    split
    · split
      · exact (SameMemories.refl s).unpacks
      · exact .trans (by exact ⟨rfl, rfl, rfl, fun h => by simpa using h⟩) (ih ..)
    · exact (SameMemories.refl s).unpacks

theorem mmCompOpen_same (S : Width) (s0 b hdr : Nat) (s : State) :
    SameMemories s (mmCompOpen S s0 b hdr s).state := by
  unfold mmCompOpen
  dsimp only
  split
  · exact .refl s
  · split <;> exact ⟨rfl, rfl, rfl, rfl⟩

theorem mmBlockBody_unpacks (s0 b hdr : Nat) (s : State) : Unpacks s (mmBlockBody s0 b hdr s).state := by
  have hraw := mmRawBlock_unpacks hdr s.mm.nsub 0 s.mm.pay s
  unfold mmBlockBody
  split
  · split <;> rename_i ht <;> rw [ht] at hraw <;> exact ⟨hraw.win, hraw.sink, hraw.huf, hraw.valid⟩
  · split <;> exact (mmCompOpen_same ..).unpacks

theorem mmBlockAt_unpacks (s0 b p : Nat) (s : State) : Unpacks s (mmBlockAt s0 b p s).state := by
  unfold mmBlockAt
  dsimp only
  split
  · exact (SameMemories.refl s).unpacks
  · split
    · exact ⟨rfl, rfl, rfl, id⟩
    · split
      · exact .trans (by exact ⟨rfl, rfl, rfl, id⟩) (mmBlockBody_unpacks ..)
      · exact ⟨rfl, rfl, rfl, id⟩

theorem mmSettle_unpacks (s0 : Nat) (r : Run) : Unpacks r.state (mmSettle s0 r) := by
  cases r with
  | on t => exact (SameMemories.refl t).unpacks
  | stop code t => exact mmStop_unpacks code s0 t

/-- Passing full sub-blocks moves the cursor only (45_mmcmp.md R251). -/
theorem mmAdvance_same {S : Width} {hdr n : Nat} {s t : State} (h : mmAdvance S hdr n s = some t) :
    SameMemories s t ∧ t.phase = s.phase := by
  induction n generalizing s with
  | zero => cases h; exact ⟨.refl _, rfl⟩
  | succ n ih =>
    unfold mmAdvance at h
    split at h
    · split at h
      · obtain ⟨hsame, hphase⟩ := ih h
        exact ⟨.trans (by exact ⟨rfl, rfl, rfl, rfl⟩) hsame, hphase⟩
      · cases h; exact ⟨.refl _, rfl⟩
    · cases h

theorem mmStore_unpacks {S : Width} {hdr d : Nat} {s t : State} (h : mmStore S hdr d s = .next t) : Unpacks s t := by
  unfold mmStore at h
  split at h
  · cases h
  · split at h
    · split at h <;> cases h
      exact ⟨rfl, rfl, rfl, id⟩
    · split at h
      · cases h
      · split at h <;> cases h
        exact ⟨rfl, rfl, rfl, id⟩

theorem inMmComp_effect {taken : Instr → Prop} {s t : State} {body : Width → Nat → Nat → Nat → Result}
    (hb : ∀ S s0 b hdr, body S s0 b hdr = .next t → Unpacks s t) (h : inMmComp s body = .next t) :
    MemoryEffect taken s t := by
  unfold inMmComp at h
  split at h
  · rename_i hp
    exact (hb _ _ _ _ h).effect (.inr ⟨_, _, _, _, hp⟩)
  all_goals cases h

theorem execMmEnd_effect {taken : Instr → Prop} (d f : Nat) {s t : State} (h : execMmEnd d f s = .next t) :
    MemoryEffect taken s t := by
  refine inMmComp_effect (fun S s0 b hdr hs => ?_) h
  split at hs <;> cases hs <;> exact ⟨rfl, rfl, rfl, id⟩

/-! ### Every instruction -/

/-- What an instruction does to the memories, whatever the block is doing. -/
theorem exec_effect {i : Instr} {s t : State} (h : exec i s = .next t) :
    MemoryEffect (fun j => s.phase = .idle ∧ j = i) s t := by
  cases i with
  | nop => exact .of_whenIdle_same (.endWith ..) h
  | itd8 f215 => exact .of_whenIdle_same (itStart_same ..) h
  | itd16 f215 => exact .of_whenIdle_same (itStart_same ..) h
  | mdld8 => exact .of_whenIdle_same (mdlStart_same ..) h
  | mdld16 => exact .of_whenIdle_same (mdlStart_same ..) h
  | blast => exact .of_whenIdle (fun hp => blastStart_effect ⟨hp, rfl⟩ s) h
  | mmcmp => exact .of_whenIdle (fun hp => mmStart_effect ⟨hp, rfl⟩ s) h
  | brinit => exact execBrinit_effect h
  | rdbitsIt n => exact .of_whenIdle_same (rdbits_same ..) h
  | rdbitsMdl n => exact .of_whenIdle_same (rdbits_same ..) h
  | rdbitsPk n => exact .of_whenIdle_same (rdbits_same ..) h
  | brseed k => exact execBrseed_effect h
  | hufcon t =>
    cases t with
    | user => exact .of_whenIdle_same (hufconUser_same s) h
    | lit => exact .of_whenIdle (fun hp => hufconStatic_effect ⟨hp, rfl⟩ s) h
    | len => exact .of_whenIdle (fun hp => hufconStatic_effect ⟨hp, rfl⟩ s) h
    | dist => exact .of_whenIdle (fun hp => hufconStatic_effect ⟨hp, rfl⟩ s) h
  | hufdec t => exact execHufdec_effect h
  | wreset => exact execWreset_effect (fun hp => ⟨hp, rfl⟩) h
  | wput => exact .of_whenIdle (fun _ => endWindow_effect 0 (Lz.put_grows ..)) h
  | wcopy => exact execWcopy_effect h
  | wflush => exact .of_whenIdle (fun _ => endWindow_effect 0 (Lz.flush_grows _)) h
  | itS value => exact (execItS_same h).effect
  | itWl field => exact (inItBlock_same (fun _ _ _ _ hs => by cases hs; exact ⟨rfl, rfl, rfl, rfl⟩) h).effect
  | itWm value => exact (inItBlock_same (fun _ _ _ _ hs => by cases hs; exact ⟨rfl, rfl, rfl, rfl⟩) h).effect
  | itWt low => exact (inItBlock_same (fun _ _ _ _ hs => by cases hs; exact ⟨rfl, rfl, rfl, rfl⟩) h).effect
  | mdlShort lo sign mag => exact (mdlSample_same h).effect
  | mdlLong lo sign run r => exact (mdlSample_same h).effect
  | blLit b => exact inBlast_effect (fun s0 n => blastKeep_effect s0 n (Lz.put_grows ..)) h
  | blMatch sym extra dsym dextra => exact inBlast_effect (fun s0 n => blastCopy_effect ..) h
  | blEnd => exact inBlast_effect (fun s0 n => blastEnd_effect ..) h
  | mmV d => exact inMmComp_effect (fun _ _ _ _ => mmStore_unpacks) h
  | mmW d f => exact inMmComp_effect (fun _ _ _ _ hs => by cases hs; exact ⟨rfl, rfl, rfl, id⟩) h
  | mmX d f x => exact inMmComp_effect (fun _ _ _ _ => mmStore_unpacks) h
  | mmEnd d f => exact execMmEnd_effect d f h
  | hdRun rep len => exact (execHdRun_same h).effect

/-! ### Every fetch -/

/-- What a fetch does to the memories: before an instruction nothing, in a control step what the step does. -/
inductive Fetched.Keeps (s : State) : Fetched → Prop where
  | rest : Fetched.Keeps s .rest
  | illegal (e : Illegal) (t : State) (h : SameMemories s t) : Fetched.Keeps s (.illegal e t)
  | command (i : Instr) (h : s.Takes i) : Fetched.Keeps s (.instr i s.takeCommand)
  | event (i : Instr) (t : State) (h : SameMemories s t) (hp : t.phase = s.phase) (hbusy : s.phase ≠ .idle) :
    Fetched.Keeps s (.instr i t)
  | control (t : State) (h : StepEffect s t) : Fetched.Keeps s (.control t)
  | fault (r : Fault) : Fetched.Keeps s (.fault r)

section Fetches

variable {s : State} {S : Width}

theorem Fetched.Keeps.same {t : State} (h : SameMemories s t) : Fetched.Keeps s (.control t) :=
  .control t (.keeps h.effect)

theorem itBlockStart_same (f215 : Bool) (start nOut : Nat) : SameMemories s (itBlockStart S f215 start nOut s) := by
  unfold itBlockStart
  split
  · exact ⟨rfl, rfl, rfl, rfl⟩
  · dsimp only
    split <;> exact ⟨rfl, rfl, rfl, rfl⟩

theorem itTopNext_keeps (f215 : Bool) (start nOut : Nat) : (itTopNext S f215 start nOut s).Keeps s := by
  unfold itTopNext
  split
  · exact .same (.endWith ..)
  · exact .same (itBlockStart_same ..)

theorem itBlockNext_keeps {f215 : Bool} {start nOut : Nat} (hp : s.phase = .itBlock S f215 start nOut) :
    (itBlockNext S f215 start nOut s).Keeps s := by
  unfold itBlockNext
  split
  · split
    · exact .event _ _ ⟨rfl, rfl, rfl, rfl⟩ rfl (by simp [hp])
    all_goals exact .same ⟨rfl, rfl, rfl, rfl⟩
  · exact .same ⟨rfl, rfl, rfl, rfl⟩

theorem mdlNext_keeps {nOut : Nat} (hp : s.phase = .mdl S nOut) : (mdlNext S nOut s).Keeps s := by
  unfold mdlNext
  split
  · split
    · exact .event _ _ ⟨rfl, rfl, rfl, rfl⟩ rfl (by simp [hp])
    all_goals exact .same ⟨rfl, rfl, rfl, rfl⟩
  · exact .same ⟨rfl, rfl, rfl, rfl⟩

/-- The reader has moved and the staging has followed: the memories stand as they did. -/
theorem blastStage_rd_same (s0 : Nat) (r : Reader) (s : State) :
    SameMemories s (blastStage s0 { s with rd := r }) ∧ (blastStage s0 { s with rd := r }).phase = s.phase := by
  obtain ⟨hsame, hphase⟩ := blastStage_same s0 { s with rd := r }
  exact ⟨.trans (by exact ⟨rfl, rfl, rfl, rfl⟩) hsame, hphase⟩

theorem blastNext_keeps {s0 n : Nat} (hp : s.phase = .blast s0 n) : (blastNext s0 n s).Keeps s := by
  have hend (code : StatusCode) (r : Reader) :
      StepEffect s (blastEnd code s0 n (blastStage s0 { s with rd := r })) := by
    obtain ⟨hsame, hphase⟩ := blastStage_rd_same s0 r s
    exact .keeps ((blastEnd_effect ..).of_same hsame (fun _ => id) (.of_phase hphase))
  unfold blastNext
  split
  · obtain ⟨hsame, hphase⟩ := blastStage_rd_same s0 _ s
    exact .event _ _ hsame hphase (by simp [hp])
  all_goals exact .control _ (hend ..)

theorem mmTopNext_keeps {s0 b : Nat} (hp : s.phase = .mmTop s0 b) : (mmTopNext s0 b s).Keeps s := by
  unfold mmTopNext
  split
  · split
    · exact .control _ (.keeps (((mmBlockAt_unpacks ..).trans (mmSettle_unpacks ..)).effect (.inl ⟨_, _, hp⟩)))
    · exact .fault _
  · exact .control _ (.finishes s0 b hp rfl)

theorem mmCompNext_keeps {s0 b hdr : Nat} (hp : s.phase = .mmComp S s0 b hdr) :
    (mmCompNext S s0 b hdr s).Keeps s := by
  unfold mmCompNext
  split
  · exact .fault _
  · rename_i t hadv
    obtain ⟨hsame, hphase⟩ := mmAdvance_same hadv
    have hmove (r : Reader) : SameMemories s { t with rd := r } := ⟨hsame.win, hsame.sink, hsame.huf, hsame.out⟩
    split
    · exact .same ⟨hsame.win, hsame.sink, hsame.huf, hsame.out⟩
    · split
      · exact .event _ _ (hmove _) hphase (by simp [hp])
      all_goals
        exact .control _ (.keeps (((hmove _).unpacks.trans (mmStop_unpacks ..)).effect (.inr ⟨_, _, _, _, hp⟩)))

theorem hufconNext_keeps {n left : Nat} {lengths : List Nat} (hp : s.phase = .hufcon n left lengths) :
    (hufconNext n left lengths s).Keeps s := by
  unfold hufconNext
  split
  · exact .control _ (.keeps (hufconFinish_effect ..))
  · split
    · exact .event _ _ ⟨rfl, rfl, rfl, rfl⟩ rfl (by simp [hp])
    · exact .fault _

theorem fetchCommand_keeps (hp : s.phase = .issued) : (fetchCommand s).Keeps s := by
  rcases fetchCommand_cases s with ⟨i, hi, hf⟩ | ⟨e, -, hf⟩ <;> rw [hf]
  · exact .command i ⟨hp, hi⟩
  · exact .illegal e _ ⟨rfl, rfl, rfl, rfl⟩

theorem fetch_keeps (s : State) : (fetch s).Keeps s := by
  unfold fetch
  split <;> rename_i hp
  · exact .rest
  · exact fetchCommand_keeps hp
  · exact itTopNext_keeps ..
  · exact itBlockNext_keeps hp
  · exact mdlNext_keeps hp
  · exact blastNext_keeps hp
  · exact mmTopNext_keeps hp
  · exact mmCompNext_keeps hp
  · exact hufconNext_keeps hp

end Fetches

/-- What a step does to the memories: the step's instruction does it, or its control step does. -/
theorem step_effect {s t : State} (h : step s = .next t) : StepEffect s t := by
  have hf := fetch_keeps s
  unfold step at h
  generalize fetch s = f at h hf
  cases hf with
  | rest => cases h; exact .keeps (SameMemories.refl s).effect
  | illegal e u hu => cases h; exact .keeps (hu.trans (.endWith ..)).effect
  | command i hi =>
    have heffect := exec_effect (s := s.takeCommand) h
    exact .keeps (heffect.of_same ⟨rfl, rfl, rfl, rfl⟩ (fun j hj => hj.2 ▸ hi) (by simp [State.InMmcmp]))
  | event i u hu hp hbusy =>
    have heffect := exec_effect (s := u) h
    exact .keeps (heffect.of_same hu (fun j hj => absurd (hp.symm.trans hj.1) hbusy) (.of_phase hp))
  | control u hu => cases h; exact hu
  | fault r => cases h

/-! ### `SINK` and the one-bit state -/

section Steps

variable {s t : State} {taken : Instr → Prop}

/-- `SINK` only grows (20_memory.md R63). -/
theorem WindowEffect.sink_append (h : WindowEffect taken s t) : ∃ bs, t.sink = s.sink ++ bs := by
  cases h with
  | grows n m h => exact h.sink.imp fun _ => And.left
  | restarts _ hsink => exact ⟨[], by simp [hsink]⟩

/-- `WFIRST` ends with the flush of a whole window (44_blast_lz77.md R224). -/
theorem WindowEffect.first_ends (h : WindowEffect taken s t) (hs : s.win.first = true) (ht : t.win.first = false) :
    s.sink.length + 4096 ≤ t.sink.length := by
  cases h with
  | grows n m h =>
    obtain ⟨bs, hsink, hn⟩ := h.sink
    have hflushed := h.first hs ht
    simp only [lz_sink, lz_n, WIN_SIZE] at hsink hn hflushed
    rw [hsink, List.length_append]
    omega
  | restarts _ _ _ hfirst => exact absurd (hfirst.symm.trans ht) (by decide)

/-- `WFIRST` starts again with a reset of the window only (44_blast_lz77.md R211, R221). -/
theorem WindowEffect.first_starts (h : WindowEffect taken s t) (hs : s.win.first = false) (ht : t.win.first = true) :
    (taken .blast ∨ taken .wreset) ∧ t.win.next = 0 := by
  cases h with
  | grows n m h => exact absurd (ht.symm.trans (h.stays hs)) (by decide)
  | restarts htaken _ hnext => exact ⟨htaken, hnext⟩

theorem TablesEffect.changes (h : TablesEffect taken s t) {u : TableSel} (hu : u ≠ .user) :
    ((s.huf.get u).valid = true → t.huf.get u = s.huf.get u) ∧
      (t.huf.get u ≠ s.huf.get u → taken .blast ∨ taken (.hufcon u)) := by
  rcases h u hu with hkept | ⟨hvalid, htaken⟩
  · exact ⟨fun _ => hkept, fun hne => absurd hkept hne⟩
  · exact ⟨fun hv => absurd (hv.symm.trans hvalid) (by decide), fun _ => htaken⟩

/-- Before its end no step of `MMCMP`, and no other step, makes `OUT` valid. -/
theorem OutEffect.not_validated (h : OutEffect taken s t) (hs : s.out.valid = false) : t.out.valid = false := by
  cases h with
  | kept h => rw [h, hs]
  | opened _ h => exact h
  | unpacking _ h => exact Bool.eq_false_iff.mpr fun ht => absurd (hs.symm.trans (h ht)) (by decide)

theorem OutEffect.outside (h : OutEffect taken s t) (hmm : ¬ s.InMmcmp) :
    t.out = s.out ∨ taken .mmcmp ∧ t.out.valid = false := by
  cases h with
  | kept h => exact .inl h
  | opened htaken h => exact .inr ⟨htaken, h⟩
  | unpacking hm _ => exact absurd hm hmm

theorem StepEffect.window (h : StepEffect s t) : WindowEffect s.Takes s t := by
  cases h with
  | keeps h => exact h.window
  | finishes s0 b hp h => exact h ▸ .of_eq rfl rfl

theorem StepEffect.tables (h : StepEffect s t) : TablesEffect s.Takes s t := by
  cases h with
  | keeps h => exact h.tables
  | finishes s0 b hp h => exact h ▸ .of_eq rfl

/-- No step loses or reorders a byte of `SINK`. -/
theorem step_sink_append (h : step s = .next t) : ∃ bs, t.sink = s.sink ++ bs :=
  (step_effect h).window.sink_append

end Steps

/-- Settles O55: each clause from the effect of the step on the memory it speaks of. -/
theorem oneBitState : Obligations.OneBitState := by
  intro s t hstep takes
  have heffect := step_effect hstep
  refine ⟨heffect.window.first_ends, heffect.window.first_starts, ?tables, ?validated, ?outside⟩
  case tables =>
    intro u hu
    exact heffect.tables.changes (by rintro rfl; simp at hu)
  case validated =>
    intro hs ht
    cases heffect with
    | keeps h => exact absurd (ht.symm.trans (h.out.not_validated hs)) (by decide)
    | finishes s0 b hp h => subst h; exact ⟨rfl, rfl, rfl, rfl⟩
  case outside =>
    intro htop hcomp
    cases heffect with
    | keeps h =>
      refine h.out.outside ?_
      rintro (⟨a, b, hp⟩ | ⟨S, a, b, hdr, hp⟩)
      · exact htop a b hp
      · exact hcomp S a b hdr hp
    | finishes s0 b hp => exact absurd hp (htop s0 b)

end Sys2Proof.Machine
end

section
/-! PROOFS, 10_state.md R22 to R28, R54, R55, 20_memory.md R60 to R66, 70_reset_and_hazards.md R314 to R317. The registers
at power-on, and what the host reads, writes and hands over. -/

namespace Sys2Proof.Machine

open Sys2Proof

/-! ### Power-on -/

/-- Settles O2: reset gives every register its value, and every table is blank. -/
theorem powerOnRegisters : Obligations.PowerOnRegisters := by
  have hblank (t : TableSel) : State.reset.huf.get t = HufTable.blank := by cases t <;> rfl
  unfold Obligations.PowerOnRegisters
  simp only [hblank]
  simp [State.reset, HufTable.blank]

/-- Settles O56: at reset the memories are empty, the reader is clear, the tables are blank and no command is in
progress. -/
theorem resetIsWellFormed : Obligations.ResetIsWellFormed where
  cfg := rfl
  srcLen := by decide
  dstCap := by decide
  src := rfl
  dst := rfl
  win := rfl
  out := rfl
  reader := ReaderOk.clear State.reset.rd 0 0 (by decide) (by decide)
  lit := .inl rfl
  len := .inl rfl
  dist := .inl rfl
  phase := trivial

/-! ### The registers of the host port -/

section Registers

variable {s : State}

/-- A busy block ignores a write of any register (70_reset_and_hazards.md R316). -/
theorem hostWrite_busy (h : s.busy = true) (index : Nat) (v : Word) : hostWrite index v s = s := by
  simp [hostWrite, h]

theorem hostWrite_idle (h : s.phase = .idle) (index : Nat) (v : Word) :
    hostWrite index v s = hostWriteIdle index v s := by
  simp [hostWrite, busy_eq_false.mpr h]

/-- An index at which nothing is written (log 17). -/
theorem hostWriteIdle_other {index : Nat} (h : index ∉ [0, 1, 2, 3, 4, 9]) (v : Word) (s : State) :
    hostWriteIdle index v s = s := by
  simp only [List.mem_cons, List.not_mem_nil, or_false, not_or] at h
  unfold hostWriteIdle
  split <;> [omega; omega; omega; omega; omega; omega; rfl]

theorem hostRead_busy (s : State) : hostRead 8 s = some (if s.busy then 1 else 0) := by
  cases h : s.busy <;> simp [hostRead, h]

/-- The state after a refusal, its result registers as numbers (60_exceptions.md R289). -/
theorem refuse_eq_ended (s : State) : refuse s = s.ended (-11) 0 0 := rfl

end Registers

/-- Settles O60: a busy block ignores the write, an idle one has no register there to write. -/
theorem readOnlyWrites : Obligations.ReadOnlyWrites := by
  intro s index v hindex
  cases hb : s.busy with
  | true => exact hostWrite_busy hb index v
  | false => rw [hostWrite_idle (busy_eq_false.mp hb), hostWriteIdle_other hindex]

/-! ### The tests made in the write of `CMD` -/

section Tests

variable {s : State}

theorem itRefused_iff : itRefused s = true ↔
    s.argStride = 0 ∨ s.src.len < s.rd.spos ∨
      (0 < s.argLen ∧ s.dstCap ≤ s.argBase + (s.argLen - 1) * s.argStride) := by
  simp [itRefused, itBeyondDst, or_assoc]

theorem mdlRefused_iff : mdlRefused s = true ↔
    s.src.len < s.rd.spos ∨ (0 < s.argLen ∧ s.dstCap ≤ s.argBase + (s.argLen - 1)) := by
  simp only [mdlRefused, Bool.or_eq_true, Bool.and_eq_true, decide_eq_true_eq]
  omega

theorem hufconUserRefused_iff : hufconUserRefused s = true ↔
    s.argDescLen = 0 ∨ 256 < s.argDescLen ∨ s.src.len < s.rd.spos + s.argDescLen ∨
      malformed s.cfg (expand s.cfg (s.src.slice s.rd.spos s.argDescLen)) = true := by
  simp [hufconUserRefused, or_assoc]

theorem wcopyRefused_iff : wcopyRefused s = true ↔
    s.argCopyLen = 0 ∨ s.argCopyDist = 0 ∨ 4096 < s.argCopyDist := by
  simp [wcopyRefused, or_assoc]

/-- What the write of a legal command word does, from what its command's test says (60_exceptions.md R289). -/
theorem hostWrite_cmd {i : Instr} {v : Word} {refused : Prop} (hp : s.phase = .idle) (hi : decodeCommand v = .ok i)
    (htest : commandRefused i s = true ↔ refused) :
    (refused → hostWrite 0 v s = s.ended (-11) 0 0 ∧ hostRead 8 (hostWrite 0 v s) = some 0) ∧
      (¬ refused →
        hostWrite 0 v s = { s with host := { s.host with cmd := v }, phase := .issued } ∧
          hostRead 8 (hostWrite 0 v s) = some 1) := by
  have hissue : hostWrite 0 v s = hostIssue v s := hostWrite_idle hp 0 v
  constructor
  · intro hr
    rw [hissue, hostIssue_refused hi (htest.mpr hr)]
    exact ⟨rfl, rfl⟩
  · intro hr
    rw [hissue, hostIssue_ok hi (Bool.eq_false_iff.mpr (mt htest.mp hr))]
    exact ⟨rfl, rfl⟩

/-- The operand bounds of `RDBITS` and `BRSEED` are part of the word: no legal one exceeds them (30_encoding.md R96). -/
theorem rdbits_bound {v : Word} {n : BitVec 6}
    (h : decodeCommand v = .ok (.rdbitsIt n) ∨ decodeCommand v = .ok (.rdbitsMdl n) ∨
      decodeCommand v = .ok (.rdbitsPk n)) : ¬ n.toNat > NMAX := by
  rcases h with h | h | h <;>
    exact Nat.not_lt.mpr (of_decide_eq_true (decodeCommand_wellFormed (c := Config.default) h))

theorem brseed_bound {v : Word} {k : BitVec 6} (h : decodeCommand v = .ok (.brseed k)) : ¬ k.toNat > ACCW / 8 :=
  Nat.not_lt.mpr (of_decide_eq_true (decodeCommand_wellFormed (c := Config.default) h))

end Tests

/-- Settles O3: the reads and writes of single registers from the definitions, the write of `CMD` command by command
from its test. -/
theorem hostPort : Obligations.HostPort := by
  refine ⟨fun s => ⟨rfl, rfl, rfl, hostRead_busy s⟩, fun s v hp => ?_⟩
  have hw (index : Nat) := hostWrite_idle hp index v
  refine ⟨?arg0, ?arg1, ?arg2, ?arg3, ?spos, rfl, hw 1, hw 2, hw 3, hw 4, hw 9, ?cmd⟩
  case arg0 => rw [hw]; rfl
  case arg1 => rw [hw]; rfl
  case arg2 => rw [hw]; rfl
  case arg3 => rw [hw]; rfl
  case spos => rw [hw]; simp [hostRead, hostWriteIdle]
  case cmd =>
    intro i hi
    refine hostWrite_cmd hp hi ?_
    cases i with
    | itd8 f215 => exact itRefused_iff
    | itd16 f215 => exact itRefused_iff
    | mdld8 => exact mdlRefused_iff
    | mdld16 => exact mdlRefused_iff
    | blast => exact decide_eq_true_iff
    | brinit => exact decide_eq_true_iff
    | rdbitsIt n => simpa [commandRefused] using rdbits_bound (.inl hi)
    | rdbitsMdl n => simpa [commandRefused] using rdbits_bound (.inr (.inl hi))
    | rdbitsPk n => simpa [commandRefused] using rdbits_bound (.inr (.inr hi))
    | brseed k => simpa [commandRefused] using brseed_bound hi
    | hufcon t =>
      cases t with
      | user => exact hufconUserRefused_iff
      | _ => simp [commandRefused]
    | hufdec t => simp [commandRefused]
    | wcopy => exact wcopyRefused_iff
    | _ => simp [commandRefused]

/-! ### The spaces of the host -/

/-- Bytes placed from an address on are read back in order. -/
theorem Memory.read_ofBytes (a : Nat) (bytes : List Byte) (i : Nat) :
    Memory.read (Memory.ofBytes a bytes) (a + i) = bytes[i]? := by
  induction bytes generalizing a i with
  | nil => rfl
  | cons b bytes ih =>
    cases i with
    | zero => simp [Memory.ofBytes, Memory.read]
    | succ i =>
      have hnext := ih (a + 1) i
      rw [Nat.add_right_comm, Nat.add_assoc] at hnext
      simp [Memory.ofBytes, Memory.read, hnext]

/-- A source holds the bytes it was loaded with (20_memory.md R60). -/
theorem Source.byte_ofBytes {bytes : List Byte} {i : Nat} {b : Byte} (h : bytes[i]? = some b) :
    (Source.ofBytes bytes).byte i = b := by
  have hread := Memory.read_ofBytes 0 bytes i
  rw [Nat.zero_add, h] at hread
  simp [Source.byte, Source.ofBytes, hread]

/-- The low and the high byte of an element as numbers (20_memory.md R66). -/
theorem extractLow (v : BitVec 16) : v.extractLsb' 0 8 = BitVec.ofNat 8 (v.toNat % 256) := by
  apply BitVec.eq_of_toNat_eq
  simp

theorem extractHigh (v : BitVec 16) : v.extractLsb' 8 8 = BitVec.ofNat 8 (v.toNat / 256) := by
  apply BitVec.eq_of_toNat_eq
  simp [Nat.shiftRight_eq_div_pow]

section Spaces

variable {s : State}

/-- An element of `DST` as bytes (20_memory.md R66). -/
theorem dstBytes_of_read {i : Nat} {v : BitVec 16} (h : s.dst.read i = some v) :
    let low : Byte := BitVec.ofNat 8 (v.toNat % 256)
    let high : Byte := BitVec.ofNat 8 (v.toNat / 256)
    s.dstBytes .w8 i = some [low] ∧
      s.dstBytes .w16 i = some (if s.cfg.dstBigEndian then [high, low] else [low, high]) := by
  simp [State.dstBytes, h, extractLow, extractHigh]

theorem dstBytes_of_none {i : Nat} (h : s.dst.read i = none) (S : Width) : s.dstBytes S i = none := by
  simp [State.dstBytes, h]

variable (hb : s.busy = false)
include hb

theorem hostReadDst_idle (S : Width) (i : Nat) :
    hostReadDst S i s = if i < s.dstCap then s.dstBytes S i else none := by
  simp [hostReadDst, hb]

theorem hostReadOut_idle (a : Nat) : hostReadOut a s = if s.out.valid then s.out.read a else none := by
  simp [hostReadOut, hb]

theorem hostReadDst_none {S : Width} {i : Nat} (h : s.dstCap ≤ i ∨ s.dst.read i = none) :
    hostReadDst S i s = none := by
  rw [hostReadDst_idle hb]
  rcases h with h | h
  · rw [if_neg (Nat.not_lt.mpr h)]
  · rw [dstBytes_of_none h, ite_self]

/-- There is nothing to read while `OUT_VALID` is 0, nor beyond the buffer (10_state.md R49). -/
theorem hostReadOut_none {a : Nat} (h : s.out.valid = false ∨ s.out.len ≤ a) : hostReadOut a s = none := by
  rw [hostReadOut_idle hb]
  rcases h with h | h
  · simp [h]
  · simp [OutBuf.read, Nat.not_lt.mpr h]

/-- A cell of a valid `OUT`: what was written, else the free value of log 7. -/
theorem hostReadOut_cell {a : Nat} (hv : s.out.valid = true) (ha : a < s.out.len) :
    hostReadOut a s = some ((s.out.cells.read a).getD (Config.outFill s.out.epoch a)) := by
  simp [hostReadOut_idle hb, OutBuf.read, hv, ha]

end Spaces

/-- Settles O53: the steps by what they do to the sink, the host's accesses one by one, while `BUSY` is 1 and while it
is 0. -/
theorem hostSpaces : Obligations.HostSpaces := by
  refine ⟨fun s t => step_sink_append, fun s => ⟨rfl, fun hb => ?busy, fun hb => ?idle⟩⟩
  case busy =>
    simp [hostLoadSource, hostGiveDst, hostReadDst, hostReadSink, hostTakeSink, hostReadOut, hb]
  case idle =>
    refine ⟨fun bytes => ⟨Source.ofBytes bytes, ?load, rfl, fun i b => Source.byte_ofBytes⟩,
      fun cap cells => ?give, fun i v hi hv => ?element, fun S i => hostReadDst_none hb, ?read, ?take,
      fun a => ⟨hostReadOut_none hb, fun hv ha => ?cell⟩⟩
    case load => simp [hostLoadSource, hb]
    case give => simp [hostGiveDst, hb]
    case element =>
      rw [hostReadDst_idle hb, hostReadDst_idle hb, if_pos hi, if_pos hi]
      exact dstBytes_of_read hv
    case read => simp [hostReadSink, hb]
    case take => simp [hostTakeSink, hb]
    case cell =>
      rw [hostReadOut_cell hb hv ha]
      exact ⟨fun b h => by rw [h]; rfl, fun h => by rw [h]; rfl⟩

end Sys2Proof.Machine
end

section
/-! PROOFS, 45_mmcmp.md R240, R241, R247, R248, R263. The header tests of `MMCMP` at the default layout, and how the
command starts from what they say. -/

namespace Sys2Proof.Machine

open Sys2Proof

section Header

variable {s t : State}

/-- The last test of the header at the default layout, and the registers it leaves (45_mmcmp.md R247). -/
theorem mmHeaderTable_default (hl : s.cfg.mm = MmLayout.default) :
    mmHeaderTable s =
      let btab := s.src.le 18 4
      let t := { s.seek 24 with mm := { s.mm with btab := btab } }
      if s.src.len < btab + 4 * s.mm.nblk then .stop .errHeader t else .on t := by
  simp only [mmHeaderTable, hl]
  rfl

/-- The tests of the declared size at the default layout (45_mmcmp.md R247). -/
theorem mmHeaderSize_default (hl : s.cfg.mm = MmLayout.default) :
    mmHeaderSize s =
      let fsize := s.src.le 14 4
      let t := { s with mm := { s.mm with fsize := fsize } }
      if fsize ≤ 16 then .stop .errHeader t
      else if 0x8000000 < fsize then .stop .errCapacity t
      else mmHeaderTable t := by
  simp only [mmHeaderSize, hl]
  rfl

/-- The tests of length, magic and header size share their code and leave every register (45_mmcmp.md R247). -/
theorem mmHeader_default (hl : s.cfg.mm = MmLayout.default) :
    mmHeader s =
      let nblk := s.src.le 12 2
      let t := { s with mm := { s.mm with nblk := nblk } }
      if s.src.len < 24 ∨ s.src.slice 0 8 ≠ [0x7A, 0x69, 0x52, 0x43, 0x4F, 0x4E, 0x69, 0x61] ∨
          s.src.le 8 2 < 14 then
        .stop .errHeader s
      else if nblk = 0 then .stop .errHeader t
      else mmHeaderSize t := by
  simp only [mmHeader, hl, ite_or]
  rfl

/-- The state in which `MMCMP` makes its header tests: the reader emptied, no buffer (10_state.md R54). -/
def State.mmCleared (s : State) : State := { s with rd := s.rd.emptied, out := s.out.clear }

theorem mmStart_of_stop {code : StatusCode} (h : mmHeader s.mmCleared = .stop code t) :
    mmStart s = mmStop code s.rd.spos t := by
  unfold mmStart
  rw [show mmHeader { s with rd := s.rd.emptied, out := s.out.clear } = .stop code t from h]

theorem mmStart_of_on (h : mmHeader s.mmCleared = .on t) :
    mmStart s = { t with out := t.out.allocate t.mm.fsize, phase := .mmTop s.rd.spos 0 } := by
  unfold mmStart
  rw [show mmHeader { s with rd := s.rd.emptied, out := s.out.clear } = .on t from h]

end Header

/-- Settles O44: the first test that fails says in which state the header stops, and `MMCMP` ends there. -/
theorem mmcmpHeader : Obligations.MmcmpHeader := by
  intro s hp hc empty stops magic nblk fsize btab
  have hexec : exec .mmcmp s = .next (mmStart s) := whenIdle_idle hp mmStart
  have hl : s.cfg.mm = MmLayout.default := by rw [hc]; rfl
  have hheader := mmHeader_default (s := s.mmCleared) hl
  have hsize := mmHeaderSize_default (s := { s.mmCleared with mm := { s.mm with nblk := nblk } }) hl
  have htable := mmHeaderTable_default
    (s := { s.mmCleared with mm := { s.mm with nblk := nblk, fsize := fsize } }) hl
  have stopped {code : StatusCode} {t : State} (h : mmHeader s.mmCleared = .stop code t) :
      exec .mmcmp s = .next (mmStop code s.rd.spos t) := by rw [hexec, mmStart_of_stop h]
  split_ifs with hfirst hblocks hsmall hlarge hbeyond
  · exact stopped (hheader.trans (if_pos hfirst))
  · rw [show (0 : Nat) = nblk from hblocks.symm]
    exact stopped (hheader.trans ((if_neg hfirst).trans (if_pos hblocks)))
  all_goals replace hheader := (hheader.trans ((if_neg hfirst).trans (if_neg hblocks))).trans hsize
  · exact stopped (hheader.trans (if_pos hsmall))
  · exact stopped (hheader.trans ((if_neg hsmall).trans (if_pos hlarge)))
  all_goals replace hheader := (hheader.trans ((if_neg hsmall).trans (if_neg hlarge))).trans htable
  · exact stopped (hheader.trans (if_pos hbeyond))
  · rw [hexec, mmStart_of_on (hheader.trans (if_neg hbeyond))]
    rfl

end Sys2Proof.Machine
end

section
/-! PROOFS, 20_memory.md R72, 40_bitreader.md R125, 43_huffman.md R204. The vocabulary of the step invariant:
the clauses of `State.Wf` that hold at every point of a command, what each point asks for beside them, and what any run
of reads keeps. -/

namespace Sys2Proof

/-! ### Outcomes of the decoders whose reader has a property -/

/-- A read leaves a reader with the property. -/
inductive GotKeeps {σ : Type} (P : σ → Prop) : Got σ → Prop where
  | got (v : Nat) (r : σ) (h : P r) : GotKeeps P (.got v r)
  | starved (r : σ) (h : P r) : GotKeeps P (.starved r)

/-- A walk leaves a reader with the property. -/
inductive WalkedKeeps {σ : Type} (P : σ → Prop) : Walked σ → Prop where
  | sym (v : Nat) (r : σ) (h : P r) : WalkedKeeps P (.sym v r)
  | starved (r : σ) (h : P r) : WalkedKeeps P (.starved r)
  | noCode (r : σ) (h : P r) : WalkedKeeps P (.noCode r)

/-- A stream decoder leaves a reader with the property; it finds no illegal word. -/
inductive DecodedKeeps {σ : Type} (P : σ → Prop) : Decoded σ → Prop where
  | event (i : Instr) (r : σ) (h : P r) : DecodedKeeps P (.event i r)
  | starved (r : σ) (h : P r) : DecodedKeeps P (.starved r)
  | noCode (r : σ) (h : P r) : DecodedKeeps P (.noCode r)
  | badWidth (r : σ) (h : P r) : DecodedKeeps P (.badWidth r)

section Keeps

variable {σ : Type} {P : σ → Prop}

theorem GotRel.keeps {g : Got σ} (h : GotRel (fun a b => a = b ∧ P a) (fun a b => a = b ∧ P a) g g) :
    GotKeeps P g := by
  rcases h with ⟨v, r, _, rfl, -, -, h⟩ | ⟨r, _, rfl, -, -, h⟩
  · exact .got v r h
  · exact .starved r h

theorem WalkedRel.keeps {g : Walked σ} (h : WalkedRel (fun a b => a = b ∧ P a) (fun a b => a = b ∧ P a) g g) :
    WalkedKeeps P g := by
  rcases h with ⟨v, r, _, rfl, -, -, h⟩ | ⟨r, _, rfl, -, -, h⟩ | ⟨r, _, rfl, -, -, h⟩
  · exact .sym v r h
  · exact .starved r h
  · exact .noCode r h

theorem DecodedRel.keeps {d : Decoded σ} (h : DecodedRel (fun a b => a = b ∧ P a) (fun a b => a = b ∧ P a) d d) :
    DecodedKeeps P d := by
  rcases h with ⟨i, r, _, rfl, -, -, h⟩ | ⟨r, _, rfl, -, -, h⟩ | ⟨r, _, rfl, -, -, h⟩ | ⟨r, _, rfl, -, -, h⟩
  · exact .event i r h
  · exact .starved r h
  · exact .noCode r h
  · exact .badWidth r h

end Keeps

end Sys2Proof

namespace Sys2Proof.Machine

open Sys2Proof

/-! ### The clauses that hold at every point -/

/-- The clauses of `State.Wf` but the last, over the fields they speak of: a change of any other field keeps them by
definition. -/
structure FieldsOk (c : Config) (src : Source) (dstCap : Nat) (dst : Memory 16) (win out : Memory 8) (r : Reader)
    (huf : HufMem) : Prop where
  cfg : c = Config.default
  srcLen : src.len < 2 ^ 32
  dstCap : dstCap < 2 ^ 32
  src : src.bytes.wf = true
  dst : dst.wf = true
  win : win.wf = true
  out : out.wf = true
  reader : ReaderOk r
  lit : StaticOk c huf.lit .lit
  len : StaticOk c huf.len .len
  dist : StaticOk c huf.dist .dist

/-- What `State.Wf` asks wherever the command in progress stands. -/
def State.MemOk (s : State) : Prop :=
  FieldsOk s.cfg s.src s.dstCap s.dst s.win.cells s.out.cells s.rd s.huf

section Parts

variable {s : State}

theorem State.Wf.memOk (h : s.Wf) : s.MemOk :=
  ⟨h.cfg, h.srcLen, h.dstCap, h.src, h.dst, h.win, h.out, h.reader, h.lit, h.len, h.dist⟩

theorem State.MemOk.wf (h : s.MemOk) (hp : PhaseOk s) : s.Wf :=
  ⟨h.cfg, h.srcLen, h.dstCap, h.src, h.dst, h.win, h.out, h.reader, h.lit, h.len, h.dist, hp⟩

/-- The end of a command asks nothing more: no command is in progress. -/
theorem State.MemOk.ended (h : s.MemOk) (status : Int) (consumed result : Nat) :
    (endWith status consumed result s).Wf :=
  State.MemOk.wf h trivial

theorem State.MemOk.withReader (h : s.MemOk) {r : Reader} (hr : ReaderOk r) : ({ s with rd := r } : State).MemOk :=
  { h with reader := hr }

/-- Where the cursor stands is no clause of the reader's. -/
theorem ReaderOk.seek {r : Reader} (h : ReaderOk r) (p : Nat) : ReaderOk { r with spos := p } :=
  ⟨h.real_le, h.cnt_le, h.above, h.seed_le, h.seed_bytes⟩

theorem State.MemOk.seek (h : s.MemOk) (p : Nat) : (s.seek p).MemOk := h.withReader (h.reader.seek p)

theorem State.MemOk.withDst (h : s.MemOk) {m : Memory 16} (hm : m.wf = true) : ({ s with dst := m } : State).MemOk :=
  { h with dst := hm }

theorem State.MemOk.withWin (h : s.MemOk) {w : Window} (hw : w.cells.wf = true) : ({ s with win := w } : State).MemOk :=
  { h with win := hw }

theorem State.MemOk.withOut (h : s.MemOk) {o : OutBuf} (ho : o.cells.wf = true) : ({ s with out := o } : State).MemOk :=
  { h with out := ho }

theorem State.MemOk.layout (h : s.MemOk) : s.cfg.mm = MmLayout.default := by rw [h.cfg]; rfl

/-- A static table is blank or as `construct` builds it (43_huffman.md R204). -/
theorem State.MemOk.static (h : s.MemOk) {t : TableSel} (ht : t ≠ .user) : StaticOk s.cfg (s.huf.get t) t := by
  cases t with
  | lit => exact h.lit
  | len => exact h.len
  | dist => exact h.dist
  | user => exact absurd rfl ht

theorem State.MemOk.withTable (h : s.MemOk) {t : TableSel} {x : HufTable} (hx : t ≠ .user → StaticOk s.cfg x t) :
    ({ s with huf := s.huf.set t x } : State).MemOk := by
  cases t with
  | lit => exact { h with lit := hx (by decide) }
  | len => exact { h with len := hx (by decide) }
  | dist => exact { h with dist := hx (by decide) }
  | user => exact { h with lit := h.lit }

end Parts

/-! ### What each point of a command asks beside them -/

section Phases

variable {s : State} {S : Width}

theorem phaseOk_itTop {f215 : Bool} {start nOut : Nat} (hp : s.phase = .itTop S f215 start nOut) :
    PhaseOk s ↔ start ≤ s.rd.spos ∧ s.rd.spos ≤ s.src.len ∧ ItRoom s s.it.rem := by
  simp only [PhaseOk, hp]

theorem phaseOk_itBlock {f215 : Bool} {start nOut : Nat} (hp : s.phase = .itBlock S f215 start nOut) :
    PhaseOk s ↔
      start ≤ s.rd.spos ∧ s.rd.spos ≤ s.it.blkend ∧ s.it.blkend ≤ s.src.len ∧ s.rd.brlim = s.it.blkend ∧
        s.it.blkpos ≤ s.it.blklen ∧ s.it.blklen ≤ s.it.rem ∧ 0 < s.it.blklen ∧
        ItRoom s (s.it.rem - s.it.blkpos) := by
  simp only [PhaseOk, hp]

theorem phaseOk_mdl {nOut : Nat} (hp : s.phase = .mdl S nOut) :
    PhaseOk s ↔
      s.mdl.mstart + 4 ≤ s.rd.spos ∧ s.rd.spos ≤ s.rd.brlim ∧ s.rd.brlim ≤ s.src.len ∧ nOut ≤ s.argLen ∧
        s.dpos = s.argBase + nOut ∧ (0 < s.argLen → s.argBase + s.argLen ≤ s.dstCap) := by
  simp only [PhaseOk, hp]

theorem phaseOk_blast {s0 nSink : Nat} (hp : s.phase = .blast s0 nSink) :
    PhaseOk s ↔
      s0 ≤ s.rd.spos ∧ s.rd.spos ≤ s.src.len ∧ s.rd.brlim = s.src.len ∧ s.blast.lit ≤ 1 ∧ 4 ≤ s.blast.dict ∧
        s.blast.dict ≤ 6 ∧ s.huf.lit = s.cfg.staticTable .lit ∧ s.huf.len = s.cfg.staticTable .len ∧
        s.huf.dist = s.cfg.staticTable .dist := by
  simp only [PhaseOk, hp]

theorem phaseOk_mmTop {s0 b : Nat} (hp : s.phase = .mmTop s0 b) : PhaseOk s ↔ MmHeaderOk s ∧ b ≤ s.mm.nblk := by
  simp only [PhaseOk, hp]

theorem phaseOk_mmComp {s0 b hdr : Nat} (hp : s.phase = .mmComp S s0 b hdr) :
    PhaseOk s ↔
      MmBlockOk S hdr s ∧ b < s.mm.nblk ∧ s.rd.spos ≤ s.rd.brlim ∧ s.rd.brlim ≤ s.src.len := by
  simp only [PhaseOk, hp]

theorem phaseOk_hufcon {n left : Nat} {lengths : List Nat} (hp : s.phase = .hufcon n left lengths) :
    PhaseOk s ↔ s.rd.spos + left ≤ s.src.len ∧ left ≤ n ∧ n ≤ 256 := by
  simp only [PhaseOk, hp]

end Phases

/-! ### What reads keep -/

/-- The reader's invariants hold and its cursor stands between `low` and the end of its range. -/
structure ReaderIn (m : Source) (low brlim : Nat) (r : Reader) : Prop where
  ok : ReaderOk r
  range : r.brlim = brlim
  low_le : low ≤ r.spos
  le_limit : r.spos ≤ r.limit m

section Reads

variable {m : Source} {low brlim n : Nat} {r : Reader}

theorem ReaderIn.le_brlim (h : ReaderIn m low brlim r) : r.spos ≤ brlim :=
  h.range ▸ h.le_limit.trans (Nat.min_le_left ..)

theorem ReaderIn.le_len (h : ReaderIn m low brlim r) : r.spos ≤ m.len := h.le_limit.trans (Nat.min_le_right ..)

/-- A reader inside its range stands between its own cursor and the end of the range. -/
theorem ReaderIn.of_le (hok : ReaderOk r) (hlow : low ≤ r.spos) (hrange : r.brlim = brlim) (hle : r.spos ≤ brlim)
    (hlen : r.spos ≤ m.len) : ReaderIn m low brlim r :=
  ⟨hok, hrange, hlow, Nat.le_min.mpr ⟨hrange ▸ hle, hlen⟩⟩

theorem ReaderIn.readBits (h : ReaderIn m low brlim r) (mode : Mode) (hn : n ≤ NMAX) :
    ReaderIn m low brlim (r.readBits m mode n).2 := by
  obtain ⟨hforth, hlimit⟩ := Reader.readBits_spos m mode n r h.le_limit
  have hrange : (r.readBits m mode n).2.brlim = r.brlim := Reader.readBits_brlim
  exact ⟨h.ok.readBits mode hn, hrange.trans h.range, h.low_le.trans hforth, by rwa [Reader.limit, hrange]⟩

/-- Every read keeps the reader inside its range, so whatever the decoders do keeps it there. -/
theorem readRel_in (m : Source) (mode : Mode) (low brlim : Nat) :
    ReadRel (fun a b => a = b ∧ ReaderIn m low brlim a) (fun a b => a = b ∧ ReaderIn m low brlim a) NMAX
      (readGot m mode) (readGot m mode) :=
  readRel_keeps m mode _ fun _ hn _ h => h.readBits mode hn

/-- The same of the register invariants alone. -/
theorem readRel_ok (m : Source) (mode : Mode) :
    ReadRel (fun a b => a = b ∧ ReaderOk a) (fun a b => a = b ∧ ReaderOk a) NMAX (readGot m mode)
      (readGot m mode) :=
  readRel_keeps m mode _ fun _ hn _ h => h.readBits mode hn

end Reads

/-! ### Safe answers -/

/-- The answer is a next state that is well formed. -/
def Safe (a : Result) : Prop := ∃ t, a = .next t ∧ t.Wf

theorem Safe.next {t : State} (h : t.Wf) : Safe (.next t) := ⟨t, rfl, h⟩

/-- Running what was fetched is safe; a fault is not. -/
def Fetched.Safe : Fetched → Prop
  | .rest => True
  | .illegal _ t => t.MemOk
  | .instr i t => Machine.Safe (exec i t)
  | .control t => t.Wf
  | .fault _ => False

theorem safeStep_of_fetch {s : State} (h : s.Wf) (hf : (fetch s).Safe) : SafeStep s := by
  change Safe (step s)
  unfold step
  cases hfetch : fetch s with rw [hfetch] at hf
  | rest => exact .next h
  | illegal e t => exact .next (State.MemOk.ended hf ..)
  | instr i t => exact hf
  | control t => exact .next hf
  | fault r => exact absurd hf id

/-- A command met by an idle block answers its own effect. -/
theorem safe_whenIdle {s : State} {body : State → State} (hp : s.phase = .idle) (h : (body s).Wf) :
    Safe (whenIdle s body) := by
  rw [whenIdle_idle hp]
  exact .next h

end Sys2Proof.Machine
end

section
/-! PROOFS, 40_bitreader.md R125, 43_huffman.md R204. The commands that take one step, the window commands and the IT
decoder keep the state well formed. -/

namespace Sys2Proof.Machine

open Sys2Proof

section Leaf

variable {s : State}

/-! ### The BitReader and the Huffman engine -/

theorem rdbits_wf (h : s.MemOk) (mode : Mode) (n : Nat) : (rdbits mode n s).Wf := by
  unfold rdbits
  split
  · exact h.ended ..
  · rename_i hn
    have hr := h.withReader (h.reader.readBits (m := s.src) mode (Nat.not_lt.mp hn))
    dsimp only
    split <;> exact hr.ended ..

theorem execBrinit_safe (h : s.MemOk) (hp : s.phase = .idle) : Safe (execBrinit s) := by
  refine safe_whenIdle hp ?_
  split
  · exact h.ended ..
  · exact (h.withReader (ReaderOk.clear _ _ _ (by decide) (by decide))).ended ..

theorem execBrseed_safe (h : s.MemOk) (hp : s.phase = .idle) (k : BitVec 6) : Safe (execBrseed k s) := by
  refine safe_whenIdle hp ?_
  split
  · exact h.ended ..
  · rename_i hk
    have hr := h.reader
    have hseeded : ReaderOk { s.rd with seedlv := 8 * k.toNat } :=
      ⟨hr.real_le, hr.cnt_le, hr.above, by simp only [ACCW] at *; omega, Nat.dvd_mul_right ..⟩
    exact (h.withReader (hseeded.topUp _)).ended ..

/-- A static table that is not valid is blank, and is built as R204 of 43_huffman.md has it. -/
theorem hufconStatic_wf (h : s.MemOk) {t : TableSel} (ht : t ≠ .user) : (hufconStatic t s).Wf := by
  unfold hufconStatic
  split
  · exact h.ended ..
  · rename_i hv
    have hblank : s.huf.get t = HufTable.blank := by
      refine (h.static ht).resolve_right fun hbuilt => hv ?_
      rw [hbuilt, h.cfg]
      exact (static_built t ht).2
    exact (h.withTable fun _ => .inr (by rw [hblank]; rfl)).ended ..

theorem hufconUser_wf (h : s.MemOk) : (hufconUser s).Wf := by
  unfold hufconUser
  split
  · exact h.ended ..
  · rename_i hr
    rw [hufconUserRefused_iff] at hr
    push Not at hr
    obtain ⟨-, hcount, hinside, -⟩ := hr
    exact State.MemOk.wf h ((phaseOk_hufcon rfl).mpr ⟨hinside, Nat.le_refl _, hcount⟩)

theorem execHufcon_safe (h : s.MemOk) (hp : s.phase = .idle) (t : TableSel) : Safe (execHufcon t s) := by
  refine safe_whenIdle hp ?_
  cases t with
  | lit => exact hufconStatic_wf h (by decide)
  | len => exact hufconStatic_wf h (by decide)
  | dist => exact hufconStatic_wf h (by decide)
  | user => exact hufconUser_wf h

theorem hufdecRun_wf (h : s.MemOk) (t : TableSel) : (hufdecRun t s).Wf := by
  have hwalk := ((readRel_ok s.src .pk).huffDecode (by decide) s.cfg (s.huf.get t) ⟨rfl, h.reader⟩).keeps
  unfold hufdecRun
  generalize huffDecode s.cfg (readGot s.src .pk) (s.huf.get t) s.rd = w at hwalk ⊢
  cases hwalk with
  | sym v r hr | starved r hr | noCode r hr => exact (h.withReader hr).ended ..

theorem execHufdec_safe (h : s.MemOk) (hp : s.phase = .idle) (t : TableSel) : Safe (execHufdec t s) := by
  refine safe_whenIdle hp ?_
  split
  · exact hufdecRun_wf h t
  · exact h.ended ..

/-- `HUFCON 3` reads its bytes inside the source, the cursor moving with them (43_huffman.md R192). -/
theorem hufconNext_safe (h : s.Wf) {n left : Nat} {lengths : List Nat} (hp : s.phase = .hufcon n left lengths) :
    (hufconNext n left lengths s).Safe := by
  obtain ⟨hinside, hleft, hn⟩ := (phaseOk_hufcon hp).mp h.phase
  cases left with
  | zero => exact (h.memOk.withTable fun hu => absurd rfl hu).ended ..
  | succ left =>
    rw [hufconNext_succ n left lengths (by omega)]
    have hrun (rep len : BitVec 4) : execHdRun rep len (s.seek (s.rd.spos + 1)) =
        .next { s.seek (s.rd.spos + 1) with phase := .hufcon n left (lengths ++ expandRun s.cfg rep len) } := by
      simp only [execHdRun, State.seek_phase, hp, State.seek_cfg]
    refine ⟨_, hrun _ _, State.MemOk.wf (h.memOk.seek (s.rd.spos + 1)) ((phaseOk_hufcon rfl).mpr ⟨?_, by omega, hn⟩)⟩
    change s.rd.spos + 1 + left ≤ s.src.len
    omega

/-! ### The window commands -/

theorem endWindow_wf (h : s.MemOk) {z : Lz} (hz : z.win.cells.wf = true) : (endWindow z s).Wf :=
  State.MemOk.ended (s := s.setLz z) (h.withWin hz) ..

theorem execWreset_safe (h : s.MemOk) (hp : s.phase = .idle) : Safe (execWreset s) := by
  refine safe_whenIdle hp ?_
  exact State.MemOk.ended (s := { s with win := s.win.reset }) (h.withWin h.win) ..

theorem execWcopy_safe (h : s.MemOk) (hp : s.phase = .idle) : Safe (execWcopy s) := by
  refine safe_whenIdle hp ?_
  split
  · exact h.ended ..
  · split
    · exact h.ended ..
    · exact endWindow_wf h (Lz.copyLoop_wf _ _ h.win)

end Leaf

/-! ### `ITD*` -/

section It

variable {s : State} {S : Width} {f215 : Bool} {start nOut : Nat}

/-- There is room for the next sample, and for one less after it (20_memory.md R74). -/
theorem ItRoom.head {k : Nat} (h : ItRoom s (k + 1)) : s.dpos < s.dstCap := by
  have := h (by omega)
  omega

theorem ItRoom.tail {t : State} {k : Nat} (h : ItRoom s (k + 1)) (hpos : t.dpos = s.dpos + s.argStride)
    (hstride : t.argStride = s.argStride) (hcap : t.dstCap = s.dstCap) : ItRoom t k := by
  intro hk
  obtain ⟨j, rfl⟩ : ∃ j, k = j + 1 := ⟨k - 1, by omega⟩
  have hlast := h (by omega)
  rw [hpos, hstride, hcap]
  simp only [Nat.add_sub_cancel, Nat.add_mul, Nat.one_mul] at hlast ⊢
  omega

theorem itStart_wf (h : s.MemOk) : (itStart S f215 s).Wf := by
  unfold itStart
  split
  · exact h.ended ..
  · rename_i hr
    rw [itRefused_iff] at hr
    push Not at hr
    obtain ⟨-, hspos, hroom⟩ := hr
    exact State.MemOk.wf (h.withReader (ReaderOk.emptied s.rd))
      ((phaseOk_itTop rfl).mpr ⟨Nat.le_refl _, hspos, fun hk => hroom hk⟩)

theorem itOpenBlock_wf (h : s.MemOk) (hstart : start ≤ s.rd.spos) {count : Nat}
    (hcount : s.rd.spos + count ≤ s.src.len) (hrem : s.it.rem ≠ 0) (hroom : ItRoom s s.it.rem) :
    (itOpenBlock S f215 start nOut count s).Wf := by
  have hblk : 0 < S.itBlock := by cases S <;> decide
  refine State.MemOk.wf (h.withReader (ReaderOk.clear _ _ _ (by decide) (by decide))) ((phaseOk_itBlock rfl).mpr ?_)
  exact ⟨hstart, Nat.le_add_right .., hcount, rfl, Nat.zero_le _, Nat.min_le_right ..,
    Nat.lt_min.mpr ⟨hblk, Nat.pos_of_ne_zero hrem⟩, hroom⟩

theorem itTopNext_safe (h : s.Wf) (hp : s.phase = .itTop S f215 start nOut) :
    (itTopNext S f215 start nOut s).Safe := by
  obtain ⟨hstart, hlen, hroom⟩ := (phaseOk_itTop hp).mp h.phase
  unfold itTopNext
  split
  · exact h.memOk.ended ..
  · rename_i hrem
    change (itBlockStart S f215 start nOut s).Wf
    unfold itBlockStart
    split
    · exact (h.memOk.seek _).ended ..
    · dsimp only
      split
      · exact (h.memOk.seek _).ended ..
      · rename_i hinside
        exact itOpenBlock_wf (h.memOk.seek _) (Nat.le_trans hstart (Nat.le_add_right ..)) (Nat.not_lt.mp hinside) hrem
          hroom

/-- An IT event is a sample or a change of width (30_encoding.md R99). -/
theorem wellFormed_it {c : Config} {w : Nat} {i : Instr} (h : WellFormed c (.it S w) i = true) :
    (∃ v, i = .itS v) ∨ (∃ f, i = .itWl f) ∨ (∃ v, i = .itWm v) ∨ ∃ n, i = .itWt n := by
  cases i with
  | itS v => exact .inl ⟨v, rfl⟩
  | itWl f => exact .inr (.inl ⟨f, rfl⟩)
  | itWm v => exact .inr (.inr (.inl ⟨v, rfl⟩))
  | itWt n => exact .inr (.inr (.inr ⟨n, rfl⟩))
  | _ => cases h

theorem inItBlock_of_phase (hp : s.phase = .itBlock S f215 start nOut)
    (body : Width → Bool → Nat → Nat → Result) : inItBlock s body = body S f215 start nOut := by
  simp only [inItBlock, hp]

/-- No clause speaks of `WIDTH`: a width change keeps all of them. -/
theorem setWidth_wf (h : s.Wf) (hp : s.phase = .itBlock S f215 start nOut) (w : Nat) : (s.setWidth w).Wf :=
  State.MemOk.wf h.memOk ((phaseOk_itBlock (s := s.setWidth w) hp).mpr ((phaseOk_itBlock hp).mp h.phase))

/-- A sample is written below `DST_CAP`, and there is room for those left (41_it.md R156). -/
theorem itSample_wf (h : s.Wf) (hp : s.phase = .itBlock S f215 start nOut) (hpos : s.it.blkpos < s.it.blklen)
    (v : Nat) : s.dpos < s.dstCap ∧ (itSample S f215 start nOut v s).Wf := by
  obtain ⟨hstart, hend, hlen, hlim, -, hrem, hblk, hroom⟩ := (phaseOk_itBlock hp).mp h.phase
  obtain ⟨k, hk⟩ : ∃ k, s.it.rem - s.it.blkpos = k + 1 := ⟨s.it.rem - s.it.blkpos - 1, by omega⟩
  rw [hk] at hroom
  refine ⟨hroom.head, ?_⟩
  unfold itSample itIntegrate
  dsimp only
  split
  all_goals
    refine State.MemOk.wf (h.memOk.withDst (Memory.wf_write _ _ h.dst))
      ((phaseOk_itBlock rfl).mpr ⟨hstart, hend, hlen, hlim, hpos, hrem, hblk, ?_⟩)
    dsimp only
    rw [show s.it.rem - (s.it.blkpos + 1) = k by omega]
    exact hroom.tail rfl rfl rfl

theorem itEvent_safe (h : s.Wf) (hp : s.phase = .itBlock S f215 start nOut) (hpos : s.it.blkpos < s.it.blklen)
    {c : Config} {w : Nat} {i : Instr} (hi : WellFormed c (.it S w) i = true) : Safe (exec i s) := by
  obtain ⟨v, rfl⟩ | ⟨f, rfl⟩ | ⟨v, rfl⟩ | ⟨n, rfl⟩ := wellFormed_it hi
  · obtain ⟨hroom, hnext⟩ := itSample_wf h hp hpos v
    refine ⟨_, ?_, hnext⟩
    simp only [exec, execItS, inItBlock_of_phase hp, if_pos hroom]
  all_goals exact ⟨_, inItBlock_of_phase hp _, setWidth_wf h hp _⟩

theorem itBlockEnd_wf (h : s.Wf) (hp : s.phase = .itBlock S f215 start nOut) (hpos : ¬ s.it.blkpos < s.it.blklen) :
    (itBlockEnd S f215 start nOut s).Wf := by
  obtain ⟨hstart, hend, hlen, -, hblkpos, -, -, hroom⟩ := (phaseOk_itBlock hp).mp h.phase
  rw [show s.it.blkpos = s.it.blklen by omega] at hroom
  exact State.MemOk.wf (h.memOk.seek _) ((phaseOk_itTop rfl).mpr ⟨hstart.trans hend, hlen, hroom⟩)

theorem itBlockNext_safe (h : s.Wf) (hp : s.phase = .itBlock S f215 start nOut) :
    (itBlockNext S f215 start nOut s).Safe := by
  obtain ⟨hstart, hend, hlen, hlim, hblkpos, hrem, hblk, hroom⟩ := (phaseOk_itBlock hp).mp h.phase
  unfold itBlockNext
  split
  · rename_i hpos
    have hin : ReaderIn s.src start s.it.blkend s.rd := .of_le h.reader hstart hlim hend (hend.trans hlen)
    have hkeeps := ((readRel_in s.src .it start s.it.blkend).decodeIt (by decide) s.cfg S s.it.width ⟨rfl, hin⟩).keeps
    generalize hdec : decodeIt s.cfg (readGot s.src .it) S s.it.width s.rd = d at hkeeps ⊢
    cases hkeeps with
    | event i r hr =>
      have hwf : ({ s with rd := r } : State).Wf := State.MemOk.wf (h.memOk.withReader hr.ok)
        ((phaseOk_itBlock (s := { s with rd := r }) hp).mpr
          ⟨hr.low_le, hr.le_brlim, hlen, hr.range, hblkpos, hrem, hblk, hroom⟩)
      exact itEvent_safe hwf hp hpos ((readFits_reader s.src .it).decodeIt hdec)
    | starved r hr | noCode r hr | badWidth r hr => exact (h.memOk.withReader hr.ok).ended ..
  · rename_i hpos
    exact itBlockEnd_wf h hp hpos

end It

end Sys2Proof.Machine
end

section
/-! PROOFS, 42_mdl.md R182, 44_blast_lz77.md R232. The MDL decoder and `BLAST` keep the state well formed. -/

namespace Sys2Proof.Machine

open Sys2Proof

/-! ### `MDLD*` -/

section Mdl

variable {s : State} {S : Width} {nOut : Nat}

theorem mdlSeed_bytes (S : Width) : 8 * S.mdlSeed ≤ ACCW ∧ 8 ∣ 8 * S.mdlSeed := by cases S <;> decide

/-- The reader of the sample loop: seeded inside the declared block, cut to the source (42_mdl.md R174). -/
theorem mdlSeed_readerIn (hlow : s.mdl.mstart + 4 ≤ s.rd.spos) (hhigh : s.rd.spos ≤ s.mdl.mstart + 4 + s.mdl.plen)
    (hlen : s.rd.spos ≤ s.src.len) :
    ReaderIn s.src (s.mdl.mstart + 4) (min (s.mdl.mstart + 4 + s.mdl.plen) s.src.len) (mdlSeed S s).rd := by
  obtain ⟨hlevel, hbytes⟩ := mdlSeed_bytes S
  have hlimit : (s.rd.clear (min (s.mdl.mstart + 4 + s.mdl.plen) s.src.len) (8 * S.mdlSeed)).spos ≤
      (s.rd.clear (min (s.mdl.mstart + 4 + s.mdl.plen) s.src.len) (8 * S.mdlSeed)).limit s.src :=
    Nat.le_min.mpr ⟨Nat.le_min.mpr ⟨hhigh, hlen⟩, hlen⟩
  obtain ⟨hforth, hend⟩ := Reader.topUp_spos s.src (8 * S.mdlSeed) _ hlimit
  exact ⟨(ReaderOk.clear _ _ _ hlevel hbytes).topUp _, Reader.topUp_brlim .., hlow.trans hforth,
    by rwa [Reader.limit, mdlSeed, Reader.topUp_brlim]⟩

theorem mdlStart_wf (h : s.MemOk) : (mdlStart S s).Wf := by
  obtain ⟨hlevel, hbytes⟩ := mdlSeed_bytes S
  unfold mdlStart
  split
  · exact h.ended ..
  · rename_i hr
    rw [mdlRefused_iff] at hr
    push Not at hr
    obtain ⟨-, hroom⟩ := hr
    have hopen : (mdlOpen S s).MemOk := h.withReader (ReaderOk.clear _ _ _ hlevel hbytes)
    dsimp only
    split
    · exact (hopen.seek _).ended ..
    · rename_i hfield
      have hin := mdlSeed_readerIn (S := S)
        (s := { (mdlOpen S s).seek (s.rd.spos + 4) with
                mdl := { (mdlOpen S s).mdl with plen := s.src.le s.rd.spos 4 } })
        (Nat.le_refl _) (Nat.le_add_right ..) (Nat.not_lt.mp hfield)
      refine State.MemOk.wf (h.withReader hin.ok) ((phaseOk_mdl rfl).mpr
        ⟨hin.low_le, hin.range ▸ hin.le_brlim, hin.range ▸ Nat.min_le_right .., Nat.zero_le _, rfl, fun hlen => ?_⟩)
      have := hroom hlen
      change s.argBase + s.argLen ≤ s.dstCap
      change 0 < s.argLen at hlen
      omega

theorem mdlFinish_wf (h : s.MemOk) (code : StatusCode) : (mdlFinish code nOut (mdlSeekEnd s)).Wf :=
  (h.seek _).ended ..

/-- An MDL event is a sample of one of the two forms (30_encoding.md R101). -/
theorem wellFormed_mdl {c : Config} {i : Instr} (h : WellFormed c (.mdl S) i = true) :
    (∃ lo sign mag, i = .mdlShort lo sign mag) ∨ ∃ lo sign run r, i = .mdlLong lo sign run r := by
  cases i with
  | mdlShort lo sign mag => exact .inl ⟨lo, sign, mag, rfl⟩
  | mdlLong lo sign run r => exact .inr ⟨lo, sign, run, r, rfl⟩
  | _ => cases h

/-- A sample is written below `DST_CAP` (42_mdl.md R182). -/
theorem mdlSample_safe (h : s.Wf) (hp : s.phase = .mdl S nOut) (hn : nOut < s.argLen) (lo : Option Byte)
    (sign : Bool) (mag : Byte) : Safe (mdlSample lo sign mag s) := by
  obtain ⟨hlow, hhigh, hlen, -, hdpos, hroom⟩ := (phaseOk_mdl hp).mp h.phase
  have hcap := hroom (by omega)
  have hbelow : s.dpos < s.dstCap := by omega
  simp only [mdlSample, inMdl, hp, if_pos hbelow]
  exact .next (State.MemOk.wf (h.memOk.withDst (Memory.wf_write _ _ h.dst))
    ((phaseOk_mdl rfl).mpr ⟨hlow, hhigh, hlen, hn, congrArg (· + 1) hdpos, hroom⟩))

theorem mdlNext_safe (h : s.Wf) (hp : s.phase = .mdl S nOut) : (mdlNext S nOut s).Safe := by
  obtain ⟨hlow, hhigh, hlen, hcount, hdpos, hroom⟩ := (phaseOk_mdl hp).mp h.phase
  unfold mdlNext
  split
  · rename_i hn
    have hin : ReaderIn s.src (s.mdl.mstart + 4) s.rd.brlim s.rd := .of_le h.reader hlow rfl hhigh (hhigh.trans hlen)
    have hkeeps := ((readRel_in s.src .mdl (s.mdl.mstart + 4) s.rd.brlim).decodeMdl (by decide) s.cfg
      s.cfg.mdlStepBits_le (fun _ _ hr => hr) (s.rd.bitsLeft s.src + 1) S ⟨rfl, hin⟩).keeps
    generalize hdec : decodeMdl s.cfg (readGot s.src .mdl) (s.rd.bitsLeft s.src + 1) S s.rd = d at hkeeps ⊢
    cases hkeeps with
    | event i r hr =>
      have hwf : ({ s with rd := r } : State).Wf := State.MemOk.wf (h.memOk.withReader hr.ok)
        ((phaseOk_mdl (s := { s with rd := r }) hp).mpr
          ⟨hr.low_le, hr.range ▸ hr.le_brlim, hr.range ▸ hlen, hcount, hdpos, hroom⟩)
      obtain ⟨lo, sign, mag, rfl⟩ | ⟨lo, sign, run, x, rfl⟩ := wellFormed_mdl (decodeMdl_wellFormed hdec)
      · exact mdlSample_safe hwf hp hn lo sign _
      · exact mdlSample_safe hwf hp hn lo sign _
    | starved r hr | noCode r hr | badWidth r hr => exact mdlFinish_wf (h.memOk.withReader hr.ok) _
  · exact mdlFinish_wf h.memOk _

end Mdl

/-! ### `BLAST` -/

section Blast

variable {s : State} {s0 nSink : Nat}

/-- A piece of a command's pseudocode that goes on goes on with `P`, and one that stops stops with `Q`. -/
def Run.Gives (P Q : State → Prop) : Run → Prop
  | .on t => P t
  | .stop _ t => Q t

theorem blastEnd_wf (h : s.MemOk) (code : StatusCode) : (blastEnd code s0 nSink s).Wf :=
  State.MemOk.ended (s := (s.setLz (s.lz nSink).flush).seek (blastEndPosition s0 s)) (h.seek _) ..

/-- No clause speaks of the staging buffer. -/
theorem State.MemOk.blastStage (h : s.MemOk) (s0 : Nat) : (blastStage s0 s).MemOk := by
  obtain ⟨b, l, heq⟩ := blastStage_eq s0 s
  rw [heq]
  exact h

/-- The tables once `BLAST` has built those that were blank (44_blast_lz77.md R211). -/
def State.withStatics (s : State) : State :=
  { s with
    huf :=
      { s.huf with
        lit := s.cfg.staticTable .lit
        len := s.cfg.staticTable .len
        dist := s.cfg.staticTable .dist } }

theorem blastTables_statics (h : s.MemOk) : blastTables [.lit, .len, .dist] s = .on s.withStatics := by
  rw [blastTables_cons .lit _ s h.cfg (by decide) h.lit,
    blastTables_cons .len _ { s with huf := s.huf.set .lit (s.cfg.staticTable .lit) } h.cfg (by decide) h.len,
    blastTables_cons .dist _
      { s with huf := (s.huf.set .lit (s.cfg.staticTable .lit)).set .len (s.cfg.staticTable .len) } h.cfg (by decide)
      h.dist]
  rfl

theorem State.MemOk.withStatics (h : s.MemOk) : s.withStatics.MemOk :=
  { h with lit := .inr rfl, len := .inr rfl, dist := .inr rfl }

/-- What the header of `BLAST` leaves when it goes on: the point before the first event (44_blast_lz77.md R212). -/
def BlastReady (s0 : Nat) (t : State) : Prop := t.MemOk ∧ PhaseOk { t with phase := .blast s0 0 }

theorem blastHeaderDict_gives (h : s.MemOk) (hin : ReaderIn s.src s0 s.src.len s.rd) (hlit : s.blast.lit ≤ 1)
    (ht : s.withStatics = s) : (blastHeaderDict s).Gives (BlastReady s0) State.MemOk := by
  have hkeeps := (readRel_in s.src .pk s0 s.src.len 8 (by decide) s.rd s.rd ⟨rfl, hin⟩).keeps
  unfold blastHeaderDict
  generalize readGot s.src .pk 8 s.rd = g at hkeeps ⊢
  cases hkeeps with
  | starved r hr => exact h.withReader hr.ok
  | got v r hr =>
    dsimp only
    split
    · exact h.withReader hr.ok
    · rename_i hv
      have hhuf := congrArg State.huf ht
      refine ⟨h.withReader hr.ok, (phaseOk_blast rfl).mpr ⟨hr.low_le, hr.le_len, hr.range, hlit, ?_, ?_, ?_, ?_, ?_⟩⟩
      · exact Nat.not_lt.mp fun hlt => hv (.inl hlt)
      · exact Nat.not_lt.mp fun hlt => hv (.inr hlt)
      · exact (congrArg HufMem.lit hhuf).symm
      · exact (congrArg HufMem.len hhuf).symm
      · exact (congrArg HufMem.dist hhuf).symm

theorem blastHeader_gives (h : s.MemOk) (hin : ReaderIn s.src s0 s.src.len s.rd) (ht : s.withStatics = s) :
    (blastHeader s).Gives (BlastReady s0) State.MemOk := by
  have hkeeps := (readRel_in s.src .pk s0 s.src.len 8 (by decide) s.rd s.rd ⟨rfl, hin⟩).keeps
  unfold blastHeader
  generalize readGot s.src .pk 8 s.rd = g at hkeeps ⊢
  cases hkeeps with
  | starved r hr => exact h.withReader hr.ok
  | got v r hr =>
    dsimp only
    split
    · exact h.withReader hr.ok
    · rename_i hv
      refine blastHeaderDict_gives (h.withReader hr.ok) hr (Nat.not_lt.mp hv) ?_
      exact congrArg (fun x : State => { s with rd := r, blast := { s.blast with lit := v }, huf := x.huf }) ht

theorem blastStart_wf (h : s.MemOk) : (blastStart s).Wf := by
  unfold blastStart
  split
  · exact h.ended ..
  · rename_i hspos
    have hclear : (blastClear s).MemOk := h.withReader (ReaderOk.clear _ _ _ (by decide) (by decide))
    have hin : ReaderIn s.src s.rd.spos s.src.len (blastClear s).rd :=
      .of_le (ReaderOk.clear _ _ _ (by decide) (by decide)) (Nat.le_refl _) rfl (Nat.not_lt.mp hspos)
        (Nat.not_lt.mp hspos)
    have hgives : (blastPrepare (blastClear s)).Gives (BlastReady s.rd.spos) State.MemOk := by
      unfold blastPrepare
      rw [blastTables_statics hclear]
      exact blastHeader_gives hclear.withStatics hin rfl
    generalize blastPrepare (blastClear s) = run at hgives ⊢
    cases run with
    | on t =>
      obtain ⟨hmem, hphase⟩ := hgives
      obtain ⟨b, l, heq⟩ := blastStage_eq s.rd.spos t
      dsimp only
      rw [heq]
      exact State.MemOk.wf hmem ((phaseOk_blast rfl).mpr ((phaseOk_blast rfl).mp hphase))
    | stop code t => exact blastEnd_wf (State.MemOk.blastStage hgives _) code

theorem inBlast_of_phase (hp : s.phase = .blast s0 nSink) (body : Nat → Nat → State) :
    inBlast s body = .next (body s0 nSink) := by
  simp only [inBlast, hp]

/-- No clause of the phase speaks of the window. -/
theorem blastKeep_wf (h : s.Wf) (hp : s.phase = .blast s0 nSink) {z : Lz} (hz : z.win.cells.wf = true) :
    (blastKeep s0 z s).Wf :=
  State.MemOk.wf (h.memOk.withWin hz) ((phaseOk_blast rfl).mpr ((phaseOk_blast hp).mp h.phase))

theorem blastCopy_wf (h : s.Wf) (hp : s.phase = .blast s0 nSink) (len dist : Nat) :
    (blastCopy len dist s0 nSink s).Wf := by
  unfold blastCopy
  split
  · exact blastEnd_wf h.memOk _
  · exact blastKeep_wf h hp (Lz.copyLoop_wf _ _ h.win)

/-- An entry of a parameter's table, 0 where it has none, meets the table's bound. -/
theorem getD_zero_le {l : List Nat} {n : Nat} (h : ∀ x ∈ l, x ≤ n) (i : Nat) : l.getD i 0 ≤ n := by
  rw [List.getD_eq_getElem?_getD]
  cases hx : l[i]? with
  | none => exact Nat.zero_le _
  | some x => exact h x (List.mem_of_getElem? hx)

/-- The extra bits of a length are a read that a reader can make. -/
theorem lengthExtra_default_le (sym : Nat) : Config.default.lengthExtra sym ≤ NMAX :=
  getD_zero_le (l := Config.default.lextra) (by decide) sym

theorem blastNext_safe (h : s.Wf) (hp : s.phase = .blast s0 nSink) : (blastNext s0 nSink s).Safe := by
  obtain ⟨hlow, hlen, hrange, hlit, hdict4, hdict6, htables⟩ := (phaseOk_blast hp).mp h.phase
  have hin : ReaderIn s.src s0 s.src.len s.rd := .of_le h.reader hlow hrange hlen hlen
  have hkeeps := ((readRel_in s.src .pk s0 s.src.len).decodeBlast (by decide) s.cfg
    (by rw [h.cfg]; exact lengthExtra_default_le) s.blast.lit s.blast.dict (by simp only [NMAX]; omega) s.huf.lit
    s.huf.len s.huf.dist ⟨rfl, hin⟩).keeps
  unfold blastNext
  generalize hdec : decodeBlast s.cfg (readGot s.src .pk) s.blast.lit s.blast.dict s.huf.lit s.huf.len s.huf.dist s.rd
    = d at hkeeps ⊢
  cases hkeeps with
  | event i r hr =>
    obtain ⟨b, l, hstage⟩ := blastStage_eq s0 { s with rd := r }
    have hphase : (blastStage s0 { s with rd := r }).phase = .blast s0 nSink := by rw [hstage]; exact hp
    have hwf : (blastStage s0 { s with rd := r }).Wf := by
      refine State.MemOk.wf (State.MemOk.blastStage (h.memOk.withReader hr.ok) s0) ((phaseOk_blast hphase).mpr ?_)
      rw [hstage]
      exact ⟨hr.low_le, hr.le_len, hr.range, hlit, hdict4, hdict6, htables⟩
    obtain ⟨x, rfl⟩ | ⟨x, y, z, w, rfl⟩ | rfl := decodeBlast_event hdec
    · exact ⟨_, inBlast_of_phase hphase _, blastKeep_wf hwf hphase (Lz.put_wf _ hwf.win)⟩
    · exact ⟨_, inBlast_of_phase hphase _, blastCopy_wf hwf hphase _ _⟩
    · exact ⟨_, inBlast_of_phase hphase _, blastEnd_wf hwf.memOk _⟩
  | starved r hr | noCode r hr | badWidth r hr =>
    exact blastEnd_wf (State.MemOk.blastStage (h.memOk.withReader hr.ok) s0) _

end Blast

end Sys2Proof.Machine
end

section
/-! PROOFS, 45_mmcmp.md R246 to R251, R255, R260, R266. The MMCMP unpacker keeps the state well formed: its header and
block tests are what the reads of the source and the writes of `OUT` need. -/

namespace Sys2Proof.Machine

open Sys2Proof

section Mm

variable {s : State} {S : Width} {s0 b hdr p : Nat}

/-! ### Starts, stops and the end -/

/-- A piece of `MMCMP` that goes on leaves a well-formed state; one that stops, one that
the end of the command makes so. -/
abbrev Run.Ready : Run → Prop := Run.Gives State.Wf State.MemOk

theorem mmStop_wf (h : s.MemOk) (code : StatusCode) : (mmStop code s0 s).Wf :=
  State.MemOk.ended (s := { s.seek s0 with out := s.out.clear }) ((h.seek s0).withOut rfl) ..

theorem mmFinish_wf (h : s.MemOk) : (mmFinish s0 s).Wf :=
  State.MemOk.ended (s := { s.seek s0 with out := s.out.markValid }) ((h.seek s0).withOut h.out) ..

theorem mmSettle_wf {run : Run} (h : run.Ready) : (mmSettle s0 run).Wf := by
  cases run with
  | on t => exact h
  | stop code t => exact mmStop_wf h code

/-! ### The header -/

/-- What the header has found when it goes on: what `MmHeaderOk` asks of the registers before `OUT` is allocated
(45_mmcmp.md R247). -/
def MmHeaderRead (o : OutBuf) (t : State) : Prop :=
  t.MemOk ∧ t.mm.btab + 4 * t.mm.nblk ≤ t.src.len ∧ t.mm.fsize ≤ MM_MAXSIZE ∧ t.out = o

theorem mmHeaderTable_gives (h : s.MemOk) (hsize : s.mm.fsize ≤ MM_MAXSIZE) :
    (mmHeaderTable s).Gives (MmHeaderRead s.out) State.MemOk := by
  rw [mmHeaderTable_default h.layout]
  dsimp only
  split
  · exact h.seek _
  · rename_i hinside
    exact ⟨h.seek _, Nat.not_lt.mp hinside, hsize, rfl⟩

theorem mmHeaderSize_gives (h : s.MemOk) : (mmHeaderSize s).Gives (MmHeaderRead s.out) State.MemOk := by
  rw [mmHeaderSize_default h.layout]
  dsimp only
  split
  · exact h
  · split
    · exact h
    · rename_i hsize
      exact mmHeaderTable_gives h (Nat.not_lt.mp hsize)

theorem mmHeader_gives (h : s.MemOk) : (mmHeader s).Gives (MmHeaderRead s.out) State.MemOk := by
  rw [mmHeader_default h.layout]
  dsimp only
  split
  · exact h
  · split
    · exact h
    · exact mmHeaderSize_gives h

theorem mmStart_wf (h : s.MemOk) : (mmStart s).Wf := by
  have hcleared : s.mmCleared.MemOk := { h with reader := ReaderOk.emptied _, out := rfl }
  have hgives := mmHeader_gives hcleared
  cases hrun : mmHeader s.mmCleared with rw [hrun] at hgives
  | on t =>
    obtain ⟨hmem, htable, hsize, hout⟩ := hgives
    rw [mmStart_of_on hrun]
    exact State.MemOk.wf (hmem.withOut rfl)
      ((phaseOk_mmTop rfl).mpr ⟨⟨htable, hsize, rfl, congrArg OutBuf.valid hout⟩, Nat.zero_le _⟩)
  | stop code t =>
    rw [mmStart_of_stop hrun]
    exact mmStop_wf hgives code

/-! ### Blocks -/

/-- The test of the sub-blocks stays passed while the source, the parameters and the file size stay. -/
theorem mmSubsInside_keeps {t : State} {n k : Nat} (h : mmSubsInside s hdr k n = true) (hcfg : t.cfg = s.cfg)
    (hsrc : t.src = s.src) (hsize : t.mm.fsize = s.mm.fsize) : mmSubsInside t hdr k n = true :=
  (mmSubsInside_congr hcfg hsrc hsize hdr n k).trans h

/-- The registers of a compressed block that passes its tests (45_mmcmp.md R251). -/
theorem mmCompOpen_ready (h : s.MemOk) (hheader : MmHeaderOk s) (hb : b < s.mm.nblk)
    (hpay : s.mm.pay = hdr + 20 + 8 * s.mm.nsub) (hinside : s.mm.pay ≤ s.src.len)
    (hsubs : mmSubsInside s hdr 0 s.mm.nsub = true) : (mmCompOpen S s0 b hdr s).Ready := by
  unfold mmCompOpen
  dsimp only
  split
  · exact h
  · rename_i hwidth
    split
    · exact h
    · rename_i htable
      have hclear := (ReaderOk.clear s.rd (min (mmPayloadEnd s) s.src.len) 0 (by decide) (by decide)).seek
        (min (s.mm.pay + s.mm.tt) (min (mmPayloadEnd s) s.src.len))
      refine State.MemOk.wf (h.withReader hclear)
        ((phaseOk_mmComp rfl).mpr ⟨⟨⟨hheader.table, hheader.size, hheader.outLen, hheader.notYet⟩, hpay, hinside,
          mmSubsInside_keeps hsubs (by rfl) (by rfl) (by rfl), Nat.zero_le _,
          Nat.not_le.mp hwidth, fun hS => Nat.not_lt.mp fun hlt => htable ⟨hS, hlt⟩⟩, hb, Nat.min_le_right ..,
          Nat.min_le_right ..⟩)

theorem mmBlockBody_ready (h : s.MemOk) (hheader : MmHeaderOk s) (hb : b < s.mm.nblk)
    (hpay : s.mm.pay = hdr + 20 + 8 * s.mm.nsub) (hinside : s.mm.pay ≤ s.src.len)
    (hsubs : mmSubsInside s hdr 0 s.mm.nsub = true) : (mmBlockBody s0 b hdr s).Ready := by
  unfold mmBlockBody
  split
  · obtain ⟨o, hlen, hvalid, hcells, heq | ⟨code, heq⟩⟩ := mmRawBlock_cases hdr s.mm.nsub 0 s.mm.pay s h.out
    · rw [heq]
      exact State.MemOk.wf (h.withOut hcells) ((phaseOk_mmTop rfl).mpr
        ⟨⟨hheader.table, hheader.size, hlen.trans hheader.outLen, hvalid.trans hheader.notYet⟩, hb⟩)
    · rw [heq]
      exact h.withOut hcells
  · split <;> exact mmCompOpen_ready h hheader hb hpay hinside hsubs

theorem mmBlockAt_ready (h : s.MemOk) (hheader : MmHeaderOk s) (hb : b < s.mm.nblk) :
    (mmBlockAt s0 b p s).Ready := by
  unfold mmBlockAt
  dsimp only
  split
  · exact h
  · split
    · exact h.seek _
    · rename_i hinside
      split
      · rename_i hsubs
        refine mmBlockBody_ready ((h.seek _).seek _) ⟨hheader.table, hheader.size, hheader.outLen, hheader.notYet⟩ hb ?_
          (Nat.not_lt.mp hinside) hsubs
        simp only [h.layout]
        rfl
      · exact (h.seek _).seek _

theorem mmTopNext_safe (h : s.Wf) (hp : s.phase = .mmTop s0 b) : (mmTopNext s0 b s).Safe := by
  obtain ⟨hheader, -⟩ := (phaseOk_mmTop hp).mp h.phase
  have hentry : s.cfg.mm.entryLen = 4 := by rw [h.memOk.layout]; rfl
  unfold mmTopNext
  split
  · rename_i hb
    have htable := hheader.table
    rw [Source.le?, if_pos (by rw [hentry]; omega)]
    exact mmSettle_wf (mmBlockAt_ready h.memOk hheader hb)
  · exact mmFinish_wf h.memOk

/-! ### Events of a compressed block -/

/-- The fields of an MMCMP event that bound what it does (30_encoding.md R106). -/
theorem wellFormed_mm {c : Config} {w : Nat} {i : Instr} (h : WellFormed c (.mmcmp S w) i = true) :
    (∃ d, i = .mmV d ∧ d < c.mmCmd S w) ∨ (∃ d f, i = .mmW d f ∧ isEscape c S w d f = true) ∨
      (∃ d f x, i = .mmX d f x ∧ x < 2 ^ c.mmExt S) ∨ ∃ d f, i = .mmEnd d f := by
  cases i with
  | mmV d =>
    simp only [WellFormed, Bool.and_eq_true, decide_eq_true_eq] at h
    exact .inl ⟨d, rfl, h.2⟩
  | mmW d f =>
    simp only [WellFormed, Bool.and_eq_true] at h
    exact .inr (.inl ⟨d, f, rfl, h.1⟩)
  | mmX d f x =>
    simp only [WellFormed, Bool.and_eq_true, decide_eq_true_eq] at h
    exact .inr (.inr (.inl ⟨d, f, x, rfl, h.2⟩))
  | mmEnd d f => exact .inr (.inr (.inr ⟨d, f, rfl⟩))
  | _ => cases h

/-- An escape names a width of its table: the codes from `CMD[w]` to the last one, `2^FETCH[w]` widths each, are `N`
widths at most (45_mmcmp.md R252, R255). -/
theorem escapeWidth_lt {w d f : Nat} (hw : w < S.bits) (h : isEscape Config.default S w d f = true) :
    escapeWidth Config.default S w d f < S.bits := by
  have htable : ∀ (S : Width) (w : Fin S.bits),
      (2 ^ (w.val + 1) - Config.default.mmCmd S w) * 2 ^ Config.default.mmFetch S w ≤ S.bits := by
    intro S
    cases S <;> decide
  simp only [isEscape, Bool.and_eq_true, decide_eq_true_eq] at h
  obtain ⟨⟨hd, hcmd⟩, hf⟩ := h
  rw [escapeWidth, Nat.shiftLeft_eq]
  calc f + (d - Config.default.mmCmd S w) * 2 ^ Config.default.mmFetch S w
      < (d - Config.default.mmCmd S w + 1) * 2 ^ Config.default.mmFetch S w := by rw [Nat.add_mul]; omega
    _ ≤ (2 ^ (w + 1) - Config.default.mmCmd S w) * 2 ^ Config.default.mmFetch S w :=
        Nat.mul_le_mul_right _ (by omega)
    _ ≤ S.bits := htable S ⟨w, hw⟩

/-- A value field of the 8-bit tables names an entry of the permutation table (45_mmcmp.md R254). -/
theorem mmCmd_w8_le (w : Nat) : Config.default.mmCmd .w8 w ≤ 256 :=
  getD_zero_le (l := Config.default.mmCmd8) (by decide) w

/-- The fetch bits of an escape are a read that a reader can make. -/
theorem mmFetch_default_le (S : Width) (w : Nat) : Config.default.mmFetch S w ≤ NMAX := by
  have hlist : ∀ l ∈ [Config.default.mmFetch8, Config.default.mmFetch16], ∀ x ∈ l, x ≤ NMAX := by decide
  cases S with
  | w8 => exact getD_zero_le (hlist _ (by simp)) w
  | w16 => exact getD_zero_le (hlist _ (by simp)) w

theorem inMmComp_of_phase (hp : s.phase = .mmComp S s0 b hdr) (body : Width → Nat → Nat → Nat → Result) :
    inMmComp s body = body S s0 b hdr := by
  simp only [inMmComp, hp]

/-- The cursor of the current sub-block stands before an element with room in `OUT` (45_mmcmp.md R251, R260). -/
def MmRoom (S : Width) (hdr : Nat) (s : State) : Prop :=
  ∃ pos size, s.subBlock? hdr s.mm.subk = some (pos, size) ∧ pos + size ≤ s.out.len ∧ s.mm.subpos < subElems S size

/-- The reader of a compressed block stands inside its range. -/
theorem mmComp_readerIn (h : s.Wf) (hp : s.phase = .mmComp S s0 b hdr) : ReaderIn s.src 0 s.rd.brlim s.rd := by
  obtain ⟨-, -, hspos, hlim⟩ := (phaseOk_mmComp hp).mp h.phase
  exact .of_le h.reader (Nat.zero_le _) rfl hspos (hspos.trans hlim)

/-- What goes on inside a compressed block moves the reader in its range, `NUMBITS` in its table, `OLDVAL`, the
sub-block cursor and the cells of `OUT`: the block's clauses stay (45_mmcmp.md R251, R266). -/
theorem mmComp_wf (h : s.Wf) (hp : s.phase = .mmComp S s0 b hdr) {r : Reader} {w k q : Nat} {oldval : BitVec 16}
    {o : OutBuf} (hr : ReaderIn s.src 0 s.rd.brlim r) (hw : w < S.bits) (hk : k ≤ s.mm.nsub)
    (hlen : o.len = s.out.len) (hvalid : o.valid = s.out.valid) (hcells : o.cells.wf = true) :
    ({ s with
        rd := r
        mm := { s.mm with numbits := w, oldval := oldval, subk := k, subpos := q }
        out := o } : State).Wf := by
  obtain ⟨hblock, hb, -, hlim⟩ := (phaseOk_mmComp hp).mp h.phase
  have hheader := hblock.header
  exact State.MemOk.wf ((h.memOk.withReader hr.ok).withOut hcells) ((phaseOk_mmComp (by exact hp)).mpr
    ⟨⟨⟨hheader.table, hheader.size, hlen.trans hheader.outLen, hvalid.trans hheader.notYet⟩, hblock.pay, hblock.inside,
      mmSubsInside_keeps hblock.subs (by rfl) (by rfl) (by rfl), hk, hw,
      hblock.table⟩, hb, hr.range ▸ hr.le_brlim, hr.range ▸ hlim⟩)

/-- An element is stored inside `OUT`, its permutation entry read inside the source (45_mmcmp.md R266). -/
theorem mmStore_safe (h : s.Wf) (hp : s.phase = .mmComp S s0 b hdr) (hroom : MmRoom S hdr s) {d : Nat}
    (hd : S = .w8 → d < 256) : Safe (mmStore S hdr d s) := by
  obtain ⟨hblock, -⟩ := (phaseOk_mmComp hp).mp h.phase
  obtain ⟨pos, size, hsub, hfits, hcursor⟩ := hroom
  have hstored {oldval : BitVec 16} {o : OutBuf} (hlen : o.len = s.out.len) (hvalid : o.valid = s.out.valid)
      (hcells : o.cells.wf = true) : ({ s with mm := s.mm.advance oldval, out := o } : State).Wf :=
    mmComp_wf h hp (mmComp_readerIn h hp) hblock.width hblock.cursor hlen hvalid hcells
  cases S with
  | w16 =>
    have haddr : mmAddress .w16 hdr s = some (pos + 2 * s.mm.subpos) := by rw [mmAddress, hsub]; rfl
    have hbelow : pos + 2 * s.mm.subpos + 1 < s.out.len := by
      rw [subElems, Nat.shiftRight_eq_div_pow] at hcursor
      omega
    simp only [mmStore, haddr, if_pos hbelow]
    exact .next (hstored rfl rfl (Memory.wf_write _ _ (Memory.wf_write _ _ h.out)))
  | w8 =>
    have haddr : mmAddress .w8 hdr s = some (pos + 1 * s.mm.subpos) := by rw [mmAddress, hsub]; rfl
    have hbelow : pos + 1 * s.mm.subpos < s.out.len := by
      rw [subElems] at hcursor
      omega
    have hentry : s.mm.pay + d + 1 ≤ s.src.len := by
      have htable := hblock.table rfl
      have hindex := hd rfl
      omega
    simp only [mmStore, haddr, Source.le?, if_pos hentry, if_pos hbelow]
    exact .next (hstored rfl rfl (Memory.wf_write _ _ h.out))

/-- The end of a block leads to the next one, or past the last. -/
theorem mmNextBlock_wf (h : s.MemOk) (hheader : MmHeaderOk s) (hb : b < s.mm.nblk) :
    ({ s with phase := .mmTop s0 (b + 1) } : State).Wf :=
  State.MemOk.wf h ((phaseOk_mmTop rfl).mpr
    ⟨⟨hheader.table, hheader.size, hheader.outLen, hheader.notYet⟩, hb⟩)

theorem mmEvent_safe (h : s.Wf) (hp : s.phase = .mmComp S s0 b hdr) (hroom : MmRoom S hdr s) {i : Instr}
    (hi : WellFormed s.cfg (.mmcmp S s.mm.numbits) i = true) : Safe (exec i s) := by
  obtain ⟨hblock, hb, -⟩ := (phaseOk_mmComp hp).mp h.phase
  have hext : mmExtended s.cfg .w8 = (0xF8 + ·) ∧ s.cfg.mmExt .w8 = 3 := by rw [h.cfg]; exact ⟨rfl, rfl⟩
  have hends : s.cfg.mmEndsBlock = true := by rw [h.cfg]; rfl
  obtain ⟨d, rfl, hd⟩ | ⟨d, f, rfl, he⟩ | ⟨d, f, x, rfl, hx⟩ | ⟨d, f, rfl⟩ := wellFormed_mm hi
  · simp only [exec, execMmV, inMmComp_of_phase hp]
    exact mmStore_safe h hp hroom fun hS => hd.trans_le (by rw [h.cfg, hS]; exact mmCmd_w8_le _)
  · simp only [exec, execMmW, inMmComp_of_phase hp]
    have hw : escapeWidth s.cfg S s.mm.numbits d f < S.bits := by
      rw [h.cfg] at he ⊢
      exact escapeWidth_lt hblock.width he
    exact .next (mmComp_wf h hp (mmComp_readerIn h hp) hw hblock.cursor rfl rfl h.out)
  · simp only [exec, execMmX, inMmComp_of_phase hp]
    refine mmStore_safe h hp hroom ?_
    rintro rfl
    simp only [hext.1]
    rw [hext.2] at hx
    omega
  · simp only [exec, execMmEnd, inMmComp_of_phase hp, if_pos hends]
    exact .next (mmNextBlock_wf h.memOk hblock.header hb)

/-- Past the full sub-blocks the cursor has room: the sub-block lies inside `OUT` (45_mmcmp.md R249, R251). -/
theorem mmRoom_of_lt (h : s.Wf) (hblock : MmBlockOk S hdr s) (hk : s.mm.subk < s.mm.nsub)
    (hcursor : s.mm.subpos < subElems S (s.src.le (hdr + 24 + 8 * s.mm.subk) 4)) : MmRoom S hdr s := by
  have hinside := hblock.inside
  rw [hblock.pay] at hinside
  have hentry := subBlock_inside h.cfg hinside hk
  obtain ⟨pos, size, hsub, hfits⟩ := mmSubsInside_bounds hblock.subs (Nat.zero_le _) (by omega : s.mm.subk < 0 + _)
  obtain ⟨-, rfl⟩ := Prod.mk.inj (Option.some.inj (hsub.symm.trans hentry))
  exact ⟨pos, _, hsub, hblock.header.outLen ▸ hfits, hcursor⟩

theorem mmCompNext_safe (h : s.Wf) (hp : s.phase = .mmComp S s0 b hdr) : (mmCompNext S s0 b hdr s).Safe := by
  obtain ⟨hblock, hb, -⟩ := (phaseOk_mmComp hp).mp h.phase
  have hheader := hblock.header
  have htable := hblock.inside
  rw [hblock.pay] at htable
  obtain ⟨k, q, hadv, hk, hleft⟩ :=
    mmAdvance_cases S hdr (s.mm.nsub - s.mm.subk) s h.cfg htable (Nat.add_sub_cancel' hblock.cursor)
  unfold mmCompNext
  rw [hadv]
  dsimp only
  split
  · exact mmNextBlock_wf (s := { s with mm := { s.mm with subk := k, subpos := q } }) h.memOk
      ⟨hheader.table, hheader.size, hheader.outLen, hheader.notYet⟩ hb
  · rename_i hlt
    have hkeeps := ((readRel_in s.src .pk 0 s.rd.brlim).decodeMm s.cfg S s.mm.numbits
      (hblock.width.trans_le (by cases S <;> decide)) (by rw [h.cfg]; exact mmFetch_default_le S _)
      (by rw [h.cfg]; cases S <;> decide) ⟨rfl, mmComp_readerIn h hp⟩).keeps
    generalize hdec : decodeMm s.cfg (readGot s.src .pk) S s.mm.numbits s.rd = x at hkeeps ⊢
    cases hkeeps with
    | event i r hr =>
      have hmoved : ({ s with mm := { s.mm with subk := k, subpos := q }, rd := r } : State).Wf :=
        mmComp_wf h hp hr hblock.width hk rfl rfl h.out
      have hroom := mmRoom_of_lt hmoved ((phaseOk_mmComp (by exact hp)).mp hmoved.phase).1 (Nat.not_le.mp hlt)
        (hleft (Nat.not_le.mp hlt))
      exact mmEvent_safe hmoved hp hroom ((readFits_reader s.src .pk).decodeMm hdec)
    | starved r hr | noCode r hr | badWidth r hr =>
      exact mmStop_wf (s := { s with mm := { s.mm with subk := k, subpos := q }, rd := r }) (h.memOk.withReader hr.ok) _

end Mm

end Sys2Proof.Machine
end

section
/-! PROOFS, 20_memory.md R72. Every command and every fetch from a well-formed state, and so every step. -/

namespace Sys2Proof.Machine

open Sys2Proof

section Steps

variable {s : State}

/-- A command met by an idle block is safe, refused or not. -/
theorem execCommand_safe (h : s.MemOk) (hp : s.phase = .idle) {c : Config} {i : Instr}
    (hi : WellFormed c .command i = true) : Safe (exec i s) := by
  cases i with
  | nop => exact safe_whenIdle hp (h.ended ..)
  | itd8 f215 => exact safe_whenIdle hp (itStart_wf h)
  | itd16 f215 => exact safe_whenIdle hp (itStart_wf h)
  | mdld8 => exact safe_whenIdle hp (mdlStart_wf h)
  | mdld16 => exact safe_whenIdle hp (mdlStart_wf h)
  | blast => exact safe_whenIdle hp (blastStart_wf h)
  | mmcmp => exact safe_whenIdle hp (mmStart_wf h)
  | brinit => exact execBrinit_safe h hp
  | rdbitsIt n => exact safe_whenIdle hp (rdbits_wf h ..)
  | rdbitsMdl n => exact safe_whenIdle hp (rdbits_wf h ..)
  | rdbitsPk n => exact safe_whenIdle hp (rdbits_wf h ..)
  | brseed k => exact execBrseed_safe h hp k
  | hufcon t => exact execHufcon_safe h hp t
  | hufdec t => exact execHufdec_safe h hp t
  | wreset => exact execWreset_safe h hp
  | wput => exact safe_whenIdle hp (endWindow_wf h (Lz.put_wf _ h.win))
  | wcopy => exact execWcopy_safe h hp
  | wflush => exact safe_whenIdle hp (endWindow_wf h h.win)
  | _ => cases hi

theorem fetchCommand_safe (h : s.Wf) : (fetchCommand s).Safe := by
  rcases fetchCommand_cases s with ⟨i, hi, hf⟩ | ⟨e, -, hf⟩ <;> rw [hf]
  · exact execCommand_safe (s := s.takeCommand) h.memOk rfl (decodeCommand_wellFormed (c := s.cfg) hi)
  · exact h.memOk

theorem fetch_safe (h : s.Wf) : (fetch s).Safe := by
  unfold fetch
  split <;> rename_i hp
  · trivial
  · exact fetchCommand_safe h
  · exact itTopNext_safe h hp
  · exact itBlockNext_safe h hp
  · exact mdlNext_safe h hp
  · exact blastNext_safe h hp
  · exact mmTopNext_safe h hp
  · exact mmCompNext_safe h hp
  · exact hufconNext_safe h hp

end Steps

/-- Settles O57: what a well-formed state fetches is safe to run, whichever command is in progress. -/
theorem stepKeepsWellFormed : Obligations.StepKeepsWellFormed :=
  fun _ h => safeStep_of_fetch h (fetch_safe h)

end Sys2Proof.Machine
end

section
/-! PROOFS, 20_memory.md R61, R72, 10_state.md R22 to R26, 60_exceptions.md R290. What one step can do to what the host
gives the block and reads from it, said once for every step and every setting of the parameters. -/

namespace Sys2Proof.Machine

open Sys2Proof

/-! ### The kinds of effect -/

/-- What the host gives the block or reads between commands, `SINK`, `OUT` and `SPOS` aside. -/
structure HostView where
  cfg : Config
  src : Source
  dstCap : Nat
  host : HostRegs
  dst : Memory 16

def State.hostView (s : State) : HostView := ⟨s.cfg, s.src, s.dstCap, s.host, s.dst⟩

/-- The view but for the result registers, which the end of a command writes (60_exceptions.md R290). -/
def HostView.given (v : HostView) : HostView := { v with host := v.host.report 0 0 0 }

/-- What a step does to the host's view: nothing while the command runs, the result registers at its end, or one element
of `DST` at `DPOS`. -/
inductive HostEffect (s t : State) : Prop where
  | runs (h : t.hostView = s.hostView)
  | ends (hp : t.phase = .idle) (h : t.hostView.given = s.hostView.given)
  | stores (v : BitVec 16) (hcap : s.dpos < s.dstCap)
      (h : t.hostView = { s.hostView with dst := s.dst.write s.dpos v })

section Effects

variable {s t u : State}

/-- A state that has the view, ended. -/
theorem HostEffect.of_end (hview : u.hostView = s.hostView) (hp : t.phase = .idle)
    (h : t.hostView.given = u.hostView.given) : HostEffect s t :=
  .ends hp (h.trans (congrArg HostView.given hview))

/-- What an instruction does after a fetch that left the view and `DPOS` is what the step does. -/
theorem HostEffect.of_fetched (h : HostEffect u t) (hview : u.hostView = s.hostView) (hdpos : u.dpos = s.dpos) :
    HostEffect s t := by
  cases h with
  | runs h => exact .runs (h.trans hview)
  | ends hp h => exact .ends hp (h.trans (congrArg HostView.given hview))
  | stores v hcap h =>
    have hcap' : u.dstCap = s.dstCap := congrArg HostView.dstCap hview
    have hdst : u.dst = s.dst := congrArg HostView.dst hview
    rw [hview, hdst, hdpos] at h
    exact .stores v (hdpos ▸ hcap' ▸ hcap) h

theorem HostEffect.of_whenIdle {body : State → State} (hb : HostEffect s (body s)) (h : whenIdle s body = .next t) :
    HostEffect s t := by
  rcases whenIdle_cases h with ⟨-, rfl⟩ | ⟨-, rfl⟩
  · exact .runs rfl
  · exact hb

end Effects

/-! ### Commands -/

section Commands

variable {s t : State} {S : Width}

theorem rdbits_hostEffect (mode : Mode) (n : Nat) : HostEffect s (rdbits mode n s) := by
  unfold rdbits
  split
  · exact .ends rfl rfl
  · dsimp only
    split <;> exact .ends rfl rfl

theorem execBrinit_hostEffect (h : execBrinit s = .next t) : HostEffect s t := by
  refine .of_whenIdle ?_ h
  split
  · exact .ends rfl rfl
  · exact .ends rfl rfl

theorem execBrseed_hostEffect {k : BitVec 6} (h : execBrseed k s = .next t) : HostEffect s t := by
  refine .of_whenIdle ?_ h
  split
  · exact .ends rfl rfl
  · exact .ends rfl rfl

theorem itStart_hostEffect (f215 : Bool) : HostEffect s (itStart S f215 s) := by
  unfold itStart
  split
  · exact .ends rfl rfl
  · exact .runs rfl

theorem mdlStart_hostEffect : HostEffect s (mdlStart S s) := by
  unfold mdlStart
  split
  · exact .ends rfl rfl
  · dsimp only
    split
    · exact .ends rfl rfl
    · exact .runs rfl

theorem hufconStatic_hostEffect (x : TableSel) : HostEffect s (hufconStatic x s) := by
  unfold hufconStatic
  split
  · exact .ends rfl rfl
  · exact .ends rfl rfl

theorem hufconUser_hostEffect : HostEffect s (hufconUser s) := by
  unfold hufconUser
  split
  · exact .ends rfl rfl
  · exact .runs rfl

theorem execHufcon_hostEffect {x : TableSel} (h : execHufcon x s = .next t) : HostEffect s t := by
  refine .of_whenIdle ?_ h
  cases x with
  | lit => exact hufconStatic_hostEffect .lit
  | len => exact hufconStatic_hostEffect .len
  | dist => exact hufconStatic_hostEffect .dist
  | user => exact hufconUser_hostEffect

theorem hufdecRun_hostEffect (x : TableSel) : HostEffect s (hufdecRun x s) := by
  unfold hufdecRun
  split <;> exact .ends rfl rfl

theorem execHufdec_hostEffect {x : TableSel} (h : execHufdec x s = .next t) : HostEffect s t := by
  refine .of_whenIdle ?_ h
  split
  · exact hufdecRun_hostEffect x
  · exact .ends rfl rfl

theorem endWindow_hostEffect (z : Lz) : HostEffect s (endWindow z s) := .ends rfl rfl

theorem execWreset_hostEffect (h : execWreset s = .next t) : HostEffect s t := by
  refine .of_whenIdle ?_ h
  exact .ends rfl rfl

theorem execWcopy_hostEffect (h : execWcopy s = .next t) : HostEffect s t := by
  refine .of_whenIdle ?_ h
  split
  · exact .ends rfl rfl
  · split
    · exact .ends rfl rfl
    · exact endWindow_hostEffect _

end Commands

/-! ### `BLAST` -/

section Blast

variable {s t : State}

theorem blastTables_hostView (ts : List TableSel) (s : State) : (blastTables ts s).state.hostView = s.hostView := by
  induction ts generalizing s with
  | nil => rfl
  | cons x ts ih =>
    unfold blastTables
    split
    · exact ih s
    · split
      · exact ih (s.buildStatic x)
      · rfl

theorem blastHeaderDict_hostView (s : State) : (blastHeaderDict s).state.hostView = s.hostView := by
  unfold blastHeaderDict
  split
  · rfl
  · dsimp only
    split <;> rfl

theorem blastHeader_hostView (s : State) : (blastHeader s).state.hostView = s.hostView := by
  unfold blastHeader
  split
  · rfl
  · dsimp only
    split
    · rfl
    · exact blastHeaderDict_hostView _

theorem blastPrepare_hostView (s : State) : (blastPrepare s).state.hostView = s.hostView := by
  have htables := blastTables_hostView [.lit, .len, .dist] s
  unfold blastPrepare
  split <;> rename_i h <;> rw [h] at htables
  · exact (blastHeader_hostView _).trans htables
  · exact htables

theorem blastStage_hostView (s0 : Nat) (s : State) : (blastStage s0 s).hostView = s.hostView := by
  obtain ⟨b, l, h⟩ := blastStage_eq s0 s
  rw [h]
  rfl

theorem blastStart_hostEffect : HostEffect s (blastStart s) := by
  have hprepare := blastPrepare_hostView (blastClear s)
  unfold blastStart
  split
  · exact .ends rfl rfl
  · split <;> rename_i h <;> rw [h] at hprepare
    · exact .runs ((blastStage_hostView ..).trans hprepare)
    · exact .of_end ((blastStage_hostView ..).trans hprepare) rfl rfl

theorem blastCopy_hostEffect (len dist s0 n : Nat) : HostEffect s (blastCopy len dist s0 n s) := by
  unfold blastCopy
  split
  · exact .ends rfl rfl
  · exact .runs rfl

theorem inBlast_hostEffect {body : Nat → Nat → State} (hb : ∀ s0 n, HostEffect s (body s0 n))
    (h : inBlast s body = .next t) : HostEffect s t := by
  unfold inBlast at h
  split at h <;> cases h
  exact hb _ _

end Blast

/-! ### Events of the other commands -/

section Events

variable {s t : State}

theorem inItBlock_hostEffect {body : Width → Bool → Nat → Nat → Result}
    (hb : ∀ S f215 start nOut, body S f215 start nOut = .next t → HostEffect s t)
    (h : inItBlock s body = .next t) : HostEffect s t := by
  unfold inItBlock at h
  split at h
  · exact hb _ _ _ _ h
  all_goals cases h

/-- An IT sample is one element at `DPOS`, below `DST_CAP` (41_it.md R149). -/
theorem execItS_hostEffect {value : Nat} (h : execItS value s = .next t) : HostEffect s t := by
  refine inItBlock_hostEffect (fun S f215 start nOut hs => ?_) h
  split at hs
  · rename_i hcap
    cases hs
    exact .stores _ hcap rfl
  · cases hs

/-- An MDL sample is one element at `DPOS`, below `DST_CAP` (42_mdl.md R178). -/
theorem mdlSample_hostEffect {lo : Option Byte} {sign : Bool} {mag : Byte} (h : mdlSample lo sign mag s = .next t) :
    HostEffect s t := by
  unfold mdlSample inMdl at h
  split at h
  · split at h
    · rename_i hcap
      cases h
      exact .stores _ hcap rfl
    · cases h
  all_goals cases h

theorem execHdRun_hostEffect {rep len : BitVec 4} (h : execHdRun rep len s = .next t) : HostEffect s t := by
  unfold execHdRun at h
  split at h <;> cases h
  exact .runs rfl

theorem inMmComp_hostEffect {body : Width → Nat → Nat → Nat → Result}
    (hb : ∀ S s0 b hdr, body S s0 b hdr = .next t → HostEffect s t) (h : inMmComp s body = .next t) :
    HostEffect s t := by
  unfold inMmComp at h
  split at h
  · exact hb _ _ _ _ h
  all_goals cases h

theorem mmStore_hostEffect {S : Width} {hdr d : Nat} (h : mmStore S hdr d s = .next t) : HostEffect s t := by
  unfold mmStore at h
  split at h
  · cases h
  · split at h
    · split at h <;> cases h
      exact .runs rfl
    · split at h
      · cases h
      · split at h <;> cases h
        exact .runs rfl

theorem execMmEnd_hostEffect (d f : Nat) (h : execMmEnd d f s = .next t) : HostEffect s t := by
  refine inMmComp_hostEffect (fun S s0 b hdr hs => ?_) h
  split at hs <;> cases hs <;> exact .runs rfl

end Events

/-! ### `MMCMP` -/

section Mm

variable {s : State}

theorem mmHeaderTable_hostView (s : State) : (mmHeaderTable s).state.hostView = s.hostView := by
  unfold mmHeaderTable
  dsimp only
  split <;> rfl

theorem mmHeaderSize_hostView (s : State) : (mmHeaderSize s).state.hostView = s.hostView := by
  unfold mmHeaderSize
  dsimp only
  split
  · rfl
  · split
    · rfl
    · exact mmHeaderTable_hostView _

theorem mmHeader_hostView (s : State) : (mmHeader s).state.hostView = s.hostView := by
  unfold mmHeader
  dsimp only
  split
  · rfl
  · split
    · rfl
    · split
      · rfl
      · split
        · rfl
        · exact mmHeaderSize_hostView _

theorem mmStart_hostEffect : HostEffect s (mmStart s) := by
  have hheader := mmHeader_hostView s.mmCleared
  cases h : mmHeader s.mmCleared with rw [h] at hheader
  | on t =>
    rw [mmStart_of_on h]
    exact .runs hheader
  | stop code t =>
    rw [mmStart_of_stop h]
    exact .of_end hheader rfl rfl

theorem mmRawBlock_hostView (hdr n k q : Nat) (s : State) : (mmRawBlock hdr n k q s).state.hostView = s.hostView := by
  induction n generalizing k q s with
  | zero => rfl
  | succ n ih =>
    unfold mmRawBlock
    split
    · split
      · rfl
      · exact ih ..
    · rfl

theorem mmCompOpen_hostView (S : Width) (s0 b hdr : Nat) (s : State) :
    (mmCompOpen S s0 b hdr s).state.hostView = s.hostView := by
  unfold mmCompOpen
  dsimp only
  split
  · rfl
  · split <;> rfl

theorem mmBlockBody_hostView (s0 b hdr : Nat) (s : State) : (mmBlockBody s0 b hdr s).state.hostView = s.hostView := by
  have hraw := mmRawBlock_hostView hdr s.mm.nsub 0 s.mm.pay s
  unfold mmBlockBody
  split
  · split <;> rename_i h <;> rw [h] at hraw <;> exact hraw
  · split <;> exact mmCompOpen_hostView ..

theorem mmBlockAt_hostView (s0 b p : Nat) (s : State) : (mmBlockAt s0 b p s).state.hostView = s.hostView := by
  unfold mmBlockAt
  dsimp only
  split
  · rfl
  · split
    · rfl
    · split
      · exact mmBlockBody_hostView ..
      · rfl

theorem mmSettle_hostEffect {s0 : Nat} {run : Run} (h : run.state.hostView = s.hostView) :
    HostEffect s (mmSettle s0 run) := by
  cases run with
  | on t => exact .runs h
  | stop code t => exact .of_end h rfl rfl

theorem mmAdvance_hostView {S : Width} {hdr n : Nat} {t : State} (h : mmAdvance S hdr n s = some t) :
    t.hostView = s.hostView ∧ t.dpos = s.dpos := by
  induction n generalizing s with
  | zero => cases h; exact ⟨rfl, rfl⟩
  | succ n ih =>
    unfold mmAdvance at h
    split at h
    · split at h
      · obtain ⟨hview, hdpos⟩ := ih h
        exact ⟨hview, hdpos⟩
      · cases h; exact ⟨rfl, rfl⟩
    · cases h

end Mm

/-! ### Every instruction -/

theorem exec_hostEffect {i : Instr} {s t : State} (h : exec i s = .next t) : HostEffect s t := by
  cases i with
  | nop => exact .of_whenIdle (.ends rfl rfl) h
  | itd8 f215 => exact .of_whenIdle (itStart_hostEffect f215) h
  | itd16 f215 => exact .of_whenIdle (itStart_hostEffect f215) h
  | mdld8 => exact .of_whenIdle mdlStart_hostEffect h
  | mdld16 => exact .of_whenIdle mdlStart_hostEffect h
  | blast => exact .of_whenIdle blastStart_hostEffect h
  | mmcmp => exact .of_whenIdle mmStart_hostEffect h
  | brinit => exact execBrinit_hostEffect h
  | rdbitsIt n => exact .of_whenIdle (rdbits_hostEffect ..) h
  | rdbitsMdl n => exact .of_whenIdle (rdbits_hostEffect ..) h
  | rdbitsPk n => exact .of_whenIdle (rdbits_hostEffect ..) h
  | brseed k => exact execBrseed_hostEffect h
  | hufcon x => exact execHufcon_hostEffect h
  | hufdec x => exact execHufdec_hostEffect h
  | wreset => exact execWreset_hostEffect h
  | wput => exact .of_whenIdle (endWindow_hostEffect _) h
  | wcopy => exact execWcopy_hostEffect h
  | wflush => exact .of_whenIdle (endWindow_hostEffect _) h
  | itS value => exact execItS_hostEffect h
  | itWl field => exact inItBlock_hostEffect (fun _ _ _ _ hs => by cases hs; exact .runs rfl) h
  | itWm value => exact inItBlock_hostEffect (fun _ _ _ _ hs => by cases hs; exact .runs rfl) h
  | itWt low => exact inItBlock_hostEffect (fun _ _ _ _ hs => by cases hs; exact .runs rfl) h
  | mdlShort lo sign mag => exact mdlSample_hostEffect h
  | mdlLong lo sign run r => exact mdlSample_hostEffect h
  | blLit b => exact inBlast_hostEffect (fun _ _ => by exact .runs rfl) h
  | blMatch sym extra dsym dextra => exact inBlast_hostEffect (fun _ _ => blastCopy_hostEffect ..) h
  | blEnd => exact inBlast_hostEffect (fun _ _ => by exact .ends rfl rfl) h
  | mmV d => exact inMmComp_hostEffect (fun _ _ _ _ => mmStore_hostEffect) h
  | mmW d f => exact inMmComp_hostEffect (fun _ _ _ _ hs => by cases hs; exact .runs rfl) h
  | mmX d f x => exact inMmComp_hostEffect (fun _ _ _ _ => mmStore_hostEffect) h
  | mmEnd d f => exact execMmEnd_hostEffect d f h
  | hdRun rep len => exact execHdRun_hostEffect h

/-! ### Every fetch -/

/-- What a fetch does to the host's view: before an instruction nothing, in a control step what the step does. -/
inductive Fetched.HostKeeps (s : State) : Fetched → Prop where
  | rest : Fetched.HostKeeps s .rest
  | illegal (e : Illegal) (t : State) (h : t.hostView = s.hostView) : Fetched.HostKeeps s (.illegal e t)
  | instr (i : Instr) (t : State) (h : t.hostView = s.hostView) (hdpos : t.dpos = s.dpos) :
    Fetched.HostKeeps s (.instr i t)
  | control (t : State) (h : HostEffect s t) : Fetched.HostKeeps s (.control t)
  | fault (r : Fault) : Fetched.HostKeeps s (.fault r)

section Fetches

variable {s : State} {S : Width}

theorem fetchCommand_hostKeeps : (fetchCommand s).HostKeeps s := by
  rcases fetchCommand_cases s with ⟨i, -, hf⟩ | ⟨e, -, hf⟩ <;> rw [hf]
  · exact .instr i _ rfl rfl
  · exact .illegal e _ rfl

theorem itBlockStart_hostEffect (f215 : Bool) (start nOut : Nat) :
    HostEffect s (itBlockStart S f215 start nOut s) := by
  unfold itBlockStart
  split
  · exact .ends rfl rfl
  · dsimp only
    split
    · exact .ends rfl rfl
    · exact .runs rfl

theorem itTopNext_hostKeeps (f215 : Bool) (start nOut : Nat) : (itTopNext S f215 start nOut s).HostKeeps s := by
  unfold itTopNext
  split
  · exact .control _ (.ends rfl rfl)
  · exact .control _ (itBlockStart_hostEffect ..)

theorem itBlockNext_hostKeeps (f215 : Bool) (start nOut : Nat) : (itBlockNext S f215 start nOut s).HostKeeps s := by
  unfold itBlockNext
  split
  · split
    · exact .instr _ _ rfl rfl
    all_goals exact .control _ (.ends rfl rfl)
  · exact .control _ (.runs rfl)

theorem mdlNext_hostKeeps (nOut : Nat) : (mdlNext S nOut s).HostKeeps s := by
  unfold mdlNext
  split
  · split
    · exact .instr _ _ rfl rfl
    all_goals exact .control _ (.ends rfl rfl)
  · exact .control _ (.ends rfl rfl)

theorem blastStage_dpos (s0 : Nat) (s : State) : (blastStage s0 s).dpos = s.dpos := by
  obtain ⟨b, l, h⟩ := blastStage_eq s0 s
  rw [h]

theorem blastNext_hostKeeps (s0 n : Nat) : (blastNext s0 n s).HostKeeps s := by
  have hstage (r : Reader) : (blastStage s0 { s with rd := r }).hostView = s.hostView := blastStage_hostView ..
  unfold blastNext
  split
  · exact .instr _ _ (hstage _) (blastStage_dpos ..)
  all_goals exact .control _ (.of_end (hstage _) rfl rfl)

theorem mmTopNext_hostKeeps (s0 b : Nat) : (mmTopNext s0 b s).HostKeeps s := by
  unfold mmTopNext
  split
  · split
    · exact .control _ (mmSettle_hostEffect (mmBlockAt_hostView ..))
    · exact .fault _
  · exact .control _ (.ends rfl rfl)

theorem mmCompNext_hostKeeps (s0 b hdr : Nat) : (mmCompNext S s0 b hdr s).HostKeeps s := by
  unfold mmCompNext
  split
  · exact .fault _
  · rename_i t hadv
    obtain ⟨hview, hdpos⟩ := mmAdvance_hostView hadv
    split
    · exact .control _ (.runs hview)
    · split
      · exact .instr _ _ hview hdpos
      all_goals exact .control _ (.of_end hview rfl rfl)

theorem hufconNext_hostKeeps (n left : Nat) (lengths : List Nat) : (hufconNext n left lengths s).HostKeeps s := by
  unfold hufconNext
  split
  · exact .control _ (.ends rfl rfl)
  · split
    · exact .instr _ _ rfl rfl
    · exact .fault _

theorem fetch_hostKeeps (s : State) : (fetch s).HostKeeps s := by
  unfold fetch
  split
  · exact .rest
  · exact fetchCommand_hostKeeps
  · exact itTopNext_hostKeeps ..
  · exact itBlockNext_hostKeeps ..
  · exact mdlNext_hostKeeps ..
  · exact blastNext_hostKeeps ..
  · exact mmTopNext_hostKeeps ..
  · exact mmCompNext_hostKeeps ..
  · exact hufconNext_hostKeeps ..

end Fetches

/-! ### Every step -/

section Steps

variable {s t : State}

theorem step_hostEffect (h : step s = .next t) : HostEffect s t := by
  have hf := fetch_hostKeeps s
  unfold step at h
  generalize fetch s = f at h hf
  cases hf with
  | rest => cases h; exact .runs rfl
  | illegal e u hu => cases h; exact .of_end hu rfl rfl
  | instr i u hu hdpos => exact (exec_hostEffect h).of_fetched hu hdpos
  | control u hu => cases h; exact hu
  | fault r => cases h

/-- The inputs stay whatever the effect is; a step that ends the command, and so writes the result registers, leaves
`BUSY` = 0. -/
theorem HostEffect.inputs (h : HostEffect s t) :
    t.cfg = s.cfg ∧ t.src = s.src ∧ t.dstCap = s.dstCap ∧ t.host.cmd = s.host.cmd ∧ t.host.arg0 = s.host.arg0 ∧
      t.host.arg1 = s.host.arg1 ∧ t.host.arg2 = s.host.arg2 ∧ t.host.arg3 = s.host.arg3 ∧
      (t.busy = true → t.host = s.host) := by
  cases h with
  | runs h | stores v hcap h =>
    have hhost : t.host = s.host := congrArg HostView.host h
    rw [hhost]
    exact ⟨congrArg HostView.cfg h, congrArg HostView.src h, congrArg HostView.dstCap h, rfl, rfl, rfl, rfl, rfl,
      fun _ => rfl⟩
  | ends hp h =>
    have hreg {x : Type} (f : HostRegs → x) : f (t.host.report 0 0 0) = f (s.host.report 0 0 0) :=
      congrArg (f ·.host) h
    exact ⟨congrArg HostView.cfg h, congrArg HostView.src h, congrArg HostView.dstCap h, hreg HostRegs.cmd,
      hreg HostRegs.arg0, hreg HostRegs.arg1, hreg HostRegs.arg2, hreg HostRegs.arg3,
      fun hbusy => by simp [State.busy, hp] at hbusy⟩

/-- `DST` stays, or it is the memory before with one element written at `DPOS`. -/
theorem HostEffect.dst (h : HostEffect s t) :
    t.dst = s.dst ∨ s.dpos < s.dstCap ∧ ∃ v, t.dst = s.dst.write s.dpos v := by
  cases h with
  | runs h => exact .inl (congrArg HostView.dst h)
  | ends hp h => exact .inl (congrArg HostView.dst h)
  | stores v hcap h => exact .inr ⟨hcap, v, congrArg HostView.dst h⟩

end Steps

/-- Settles O52: no kind of effect changes an input, and the result registers are written at the end of a command
only. -/
theorem inputsAndResults : Obligations.InputsAndResults := by
  intro s t hstep
  obtain ⟨hcfg, hsrc, hcap, hcmd, harg0, harg1, harg2, harg3, hhost⟩ := (step_hostEffect hstep).inputs
  refine ⟨hcfg, hsrc, hcap, hcmd, harg0, harg1, harg2, harg3, fun hbusy => ?_⟩
  rw [hhost hbusy]
  exact ⟨rfl, rfl, rfl⟩

/-- Settles O54: a write at `DPOS` is the only effect on `DST`. -/
theorem destinationWrites : Obligations.DestinationWrites := by
  intro s t hstep
  rcases (step_hostEffect hstep).dst with hkept | ⟨hcap, v, hwritten⟩
  · exact ⟨fun i _ => by rw [hkept], fun hne => absurd hkept hne⟩
  · exact ⟨fun i hi => by rw [hwritten, Memory.read_write_ne _ _ hi], fun _ => hcap⟩

end Sys2Proof.Machine
end

section
/-! PROOFS, 30_encoding.md R91, R92, R93, R96. The command decoder: the three fields of a word, what each form of command
asks of them, which words are illegal, and that words and commands stand for each other. -/

namespace Sys2Proof

/-! ### The fields of a command word -/

section Commands

variable {w : Word} {i j : Instr}

/-- The three fields do not overlap (30_encoding.md R91). -/
theorem cmdWord_toNat {op : Nat} (hop : op < 32) (f215 : Bool) (n : BitVec 6) :
    (cmdWord op f215 n).toNat = n.toNat * 65536 + (f215.toNat * 256 + op) := by
  have hf := Bool.toNat_lt f215
  have hn := n.isLt
  have hlow : op ||| f215.toNat <<< 8 = f215.toNat * 256 + op := by
    rw [Nat.or_comm, ← Nat.shiftLeft_add_eq_or_of_lt (by omega), Nat.shiftLeft_eq]
  have hall : f215.toNat * 256 + op ||| n.toNat <<< 16 = n.toNat * 65536 + (f215.toNat * 256 + op) := by
    rw [Nat.or_comm, ← Nat.shiftLeft_add_eq_or_of_lt (by omega), Nat.shiftLeft_eq]
  have hfw : ((BitVec.ofBool f215).setWidth 32 <<< 8).toNat = f215.toNat <<< 8 := by cases f215 <;> rfl
  have hnw : (n.setWidth 32 <<< 16).toNat = n.toNat <<< 16 := by
    rw [BitVec.toNat_shiftLeft, BitVec.toNat_setWidth, Nat.mod_eq_of_lt (a := n.toNat) (by omega),
      Nat.mod_eq_of_lt (by rw [Nat.shiftLeft_eq]; omega)]
  rw [cmdWord, BitVec.toNat_or, BitVec.toNat_or, hfw, hnw, BitVec.toNat_ofNat, Nat.mod_eq_of_lt (by omega), hlow, hall]

theorem cmdOp_toNat (w : Word) : cmdOp w = w.toNat % 32 := by
  simp [cmdOp]

theorem cmdF215_toNat (w : Word) : (cmdF215 w).toNat = w.toNat / 256 % 2 := by
  rw [cmdF215, BitVec.getLsbD, Nat.toNat_testBit]

theorem cmdN_toNat (w : Word) : (cmdN w).toNat = w.toNat / 65536 % 64 := by
  simp [cmdN, Nat.shiftRight_eq_div_pow]

theorem cmdReservedClear_iff : cmdReservedClear w = true ↔
    w.toNat / 32 % 8 = 0 ∧ w.toNat / 512 % 128 = 0 ∧ w.toNat / 4194304 % 1024 = 0 := by
  simp [cmdReservedClear, ← BitVec.toNat_inj, Nat.shiftRight_eq_div_pow, and_assoc]

/-- A word without reserved bits is its three fields. -/
theorem cmdWord_fields (h : cmdReservedClear w = true) : cmdWord (cmdOp w) (cmdF215 w) (cmdN w) = w := by
  obtain ⟨hlow, hmid, hhigh⟩ := cmdReservedClear_iff.mp h
  have hop := cmdOp_toNat w
  apply BitVec.eq_of_toNat_eq
  rw [cmdWord_toNat (by omega), cmdF215_toNat, cmdN_toNat, hop]
  omega

/-! ### What each form of command refuses and takes -/

theorem plainCmd_ok (h : plainCmd w j = .ok i) : cmdF215 w = false ∧ cmdN w = 0 ∧ i = j := by
  unfold plainCmd at h
  split at h
  next => cases h
  next hf =>
    split at h
    next => cases h
    next hn => cases h; exact ⟨by simpa using hf, by simpa using hn, rfl⟩

theorem f215Cmd_ok {k : Bool → Instr} (h : f215Cmd w k = .ok i) : cmdN w = 0 ∧ i = k (cmdF215 w) := by
  unfold f215Cmd at h
  split at h
  next => cases h
  next hn => cases h; exact ⟨by simpa using hn, rfl⟩

theorem nCmd_ok {bound : Nat} {k : BitVec 6 → Instr} (h : nCmd w bound k = .ok i) :
    cmdF215 w = false ∧ (cmdN w).toNat ≤ bound ∧ i = k (cmdN w) := by
  unfold nCmd at h
  split at h
  next => cases h
  next hf =>
    split at h
    next => cases h
    next hn => cases h; exact ⟨by simpa using hf, Nat.not_lt.mp hn, rfl⟩

theorem cmdN_ne_zero : cmdN w ≠ 0 ↔ (cmdN w).toNat ≠ 0 := by
  simp [← BitVec.toNat_inj]

theorem plainCmd_error : (∃ e, plainCmd w i = .error e) ↔ cmdF215 w = true ∨ (cmdN w).toNat ≠ 0 := by
  rw [plainCmd, ← cmdN_ne_zero]
  cases cmdF215 w with
  | true => simp
  | false => by_cases hn : cmdN w = 0#6 <;> simp [hn]

theorem f215Cmd_error {k : Bool → Instr} : (∃ e, f215Cmd w k = .error e) ↔ (cmdN w).toNat ≠ 0 := by
  rw [f215Cmd, ← cmdN_ne_zero]
  by_cases hn : cmdN w = 0#6 <;> simp [hn]

theorem nCmd_error {bound : Nat} {k : BitVec 6 → Instr} :
    (∃ e, nCmd w bound k = .error e) ↔ cmdF215 w = true ∨ bound < (cmdN w).toNat := by
  rw [nCmd]
  cases cmdF215 w with
  | true => simp
  | false => by_cases hn : (cmdN w).toNat > bound <;> simp [hn]

theorem tableOf_index (n : BitVec 6) (h : n.toNat ≤ 3) : BitVec.ofNat 6 (tableOf n).index = n := by
  revert n
  decide

/-! ### Round trips -/

/-- A legal word is the word of the command it decodes to: no two words stand for one command. -/
theorem encodeCommand_decodeCommand (h : decodeCommand w = .ok i) : encodeCommand i = w := by
  unfold decodeCommand at h
  split at h
  next hclear =>
    have hw := cmdWord_fields hclear
    have plain {op : Nat} {j : Instr} (hop : cmdOp w = op) (hj : encodeCommand j = cmdWord op false 0)
        (h : plainCmd w j = .ok i) : encodeCommand i = w := by
      obtain ⟨hf, hn, rfl⟩ := plainCmd_ok h
      rw [hj, ← hw, hop, hf, hn]
    have flag {op : Nat} {k : Bool → Instr} (hop : cmdOp w = op) (hk : ∀ f, encodeCommand (k f) = cmdWord op f 0)
        (h : f215Cmd w k = .ok i) : encodeCommand i = w := by
      obtain ⟨hn, rfl⟩ := f215Cmd_ok h
      rw [hk, ← hop, ← hn, hw]
    have number {op bound : Nat} {k : BitVec 6 → Instr} (hop : cmdOp w = op)
        (hk : ∀ n, n.toNat ≤ bound → encodeCommand (k n) = cmdWord op false n)
        (h : nCmd w bound k = .ok i) : encodeCommand i = w := by
      obtain ⟨hf, hn, rfl⟩ := nCmd_ok h
      rw [hk _ hn, ← hop, ← hf, hw]
    split at h <;> rename_i hop
    · exact plain hop rfl h
    · exact flag hop (fun _ => rfl) h
    · exact flag hop (fun _ => rfl) h
    · exact plain hop rfl h
    · exact plain hop rfl h
    · exact plain hop rfl h
    · exact plain hop rfl h
    · exact plain hop rfl h
    · exact number hop (fun _ _ => rfl) h
    · exact number hop (fun _ _ => rfl) h
    · exact number hop (fun _ _ => rfl) h
    · exact number hop (fun _ _ => rfl) h
    · exact number hop (fun n hn => by rw [encodeCommand, tableOf_index n hn]) h
    · exact number hop (fun n hn => by rw [encodeCommand, tableOf_index n hn]) h
    · exact plain hop rfl h
    · exact plain hop rfl h
    · exact plain hop rfl h
    · exact plain hop rfl h
    · cases h
  next => cases h

theorem decodeCommand_encodeCommand (h : WellFormed Config.default .command i = true) :
    decodeCommand (encodeCommand i) = .ok i := by
  cases i with
  | nop => exact Laws.CommandRoundTrip.nop h
  | itd8 f => exact Laws.CommandRoundTrip.itd8 f h
  | itd16 f => exact Laws.CommandRoundTrip.itd16 f h
  | mdld8 => exact Laws.CommandRoundTrip.mdld8 h
  | mdld16 => exact Laws.CommandRoundTrip.mdld16 h
  | blast => exact Laws.CommandRoundTrip.blast h
  | mmcmp => exact Laws.CommandRoundTrip.mmcmp h
  | brinit => exact Laws.CommandRoundTrip.brinit h
  | rdbitsIt n => exact Laws.CommandRoundTrip.rdbitsIt n h
  | rdbitsMdl n => exact Laws.CommandRoundTrip.rdbitsMdl n h
  | rdbitsPk n => exact Laws.CommandRoundTrip.rdbitsPk n h
  | brseed k => exact Laws.CommandRoundTrip.brseed k h
  | hufcon t => exact Laws.CommandRoundTrip.hufcon t h
  | hufdec t => exact Laws.CommandRoundTrip.hufdec t h
  | wreset => exact Laws.CommandRoundTrip.wreset h
  | wput => exact Laws.CommandRoundTrip.wput h
  | wcopy => exact Laws.CommandRoundTrip.wcopy h
  | wflush => exact Laws.CommandRoundTrip.wflush h
  | _ => cases h

/-! ### Illegal words -/

/-- The values of `OP` that name no operation (30_encoding.md R92, R96). -/
def ReservedOp (op : Nat) : Prop := (0x07 ≤ op ∧ op ≤ 0x0F) ∨ (0x15 ≤ op ∧ op ≤ 0x17) ∨ op = 0x1A ∨ op = 0x1B

/-- The values of the three fields that R96 makes illegal. -/
def IllegalFields (op : Nat) (f215 : Bool) (n : Nat) : Prop :=
  ReservedOp op ∨ (f215 = true ∧ op ≠ 0x01 ∧ op ≠ 0x02) ∨ (n ≠ 0 ∧ op ∉ [0x11, 0x12, 0x13, 0x14, 0x18, 0x19]) ∨
    (n > 57 ∧ op ∈ [0x11, 0x12, 0x13]) ∨ (n > 8 ∧ op = 0x14) ∨ (n > 3 ∧ op ∈ [0x18, 0x19])

theorem decodeCommand_error_iff : (∃ e, decodeCommand w = .error e) ↔
    cmdReservedClear w = false ∨ IllegalFields (cmdOp w) (cmdF215 w) (cmdN w).toNat := by
  have hlt : cmdOp w < 32 := by rw [cmdOp_toNat]; omega
  unfold decodeCommand
  split
  next hclear =>
    simp only [hclear, Bool.true_eq_false, false_or]
    split
    case h_19 =>
      refine iff_of_true ⟨_, rfl⟩ ?_
      refine .inl ?_
      simp only [imp_false] at *
      unfold ReservedOp
      omega
    all_goals
      rename_i hop
      simp [plainCmd_error, f215Cmd_error, nCmd_error, hop, ACCW, IllegalFields, ReservedOp]
  next hset => simp [hset]

/-! ### The masks of R96 -/

theorem and_mask_op (w : Word) : (w &&& 0x1F).toNat = cmdOp w := by
  rw [cmdOp_toNat]
  exact Nat.and_two_pow_sub_one_eq_mod w.toNat 5

theorem and_mask_n (w : Word) : ((w >>> 16) &&& 0x3F).toNat = (cmdN w).toNat := by
  rw [cmdN_toNat, ← Nat.shiftRight_eq_div_pow _ 16]
  exact Nat.and_two_pow_sub_one_eq_mod (w.toNat >>> 16) 6

/-- The mask of the `len` bits from `start` on. -/
def fieldMask (start len : Nat) : Word := (BitVec.allOnes len).setWidth 32 <<< start

theorem getLsbD_fieldMask {start len : Nat} (hfit : start + len ≤ 32) (i : Nat) :
    (fieldMask start len).getLsbD i = decide (start ≤ i ∧ i < start + len) := by
  rw [fieldMask, BitVec.getLsbD_shiftLeft, BitVec.getLsbD_setWidth, BitVec.getLsbD_allOnes, Bool.eq_iff_iff]
  simp only [Bool.and_eq_true, Bool.not_eq_true', decide_eq_true_eq, decide_eq_false_iff_not]
  omega

/-- A field is 0 when its mask leaves nothing of the word: bit `i` of the word is bit `i - start` of the field. -/
theorem extractLsb'_eq_zero_iff {start len : Nat} (hfit : start + len ≤ 32) (w : Word) :
    w.extractLsb' start len = 0 ↔ w &&& fieldMask start len = 0 := by
  have hmask := getLsbD_fieldMask hfit
  constructor <;> intro h <;> apply BitVec.eq_of_getLsbD_eq <;> intro i hi
  · have hfield := congrArg (BitVec.getLsbD · (i - start)) h
    grind
  · have hbit := congrArg (BitVec.getLsbD · (start + i)) h
    grind

/-- The mask of R96 is that of the three reserved fields. -/
theorem reserved_mask (w : Word) : cmdReservedClear w = true ↔ w &&& 0xFFC0FEE0 = 0 := by
  have hmask : (0xFFC0FEE0 : Word) = fieldMask 5 3 ||| (fieldMask 9 7 ||| fieldMask 22 10) := by decide
  have hor (x y : Word) : x ||| y = 0 ↔ x = 0 ∧ y = 0 := BitVec.or_eq_zero_iff
  rw [hmask, BitVec.and_or_distrib_left, BitVec.and_or_distrib_left, hor, hor,
    ← extractLsb'_eq_zero_iff (by decide), ← extractLsb'_eq_zero_iff (by decide), ← extractLsb'_eq_zero_iff (by decide)]
  simp [cmdReservedClear, and_assoc]

end Commands

end Sys2Proof

namespace Sys2Proof.Machine

open Sys2Proof

/-- Settles O6: the masks are the fields, so the decoder's errors are the list of R96; an illegal word is refused in its
write. -/
theorem illegalWord : Obligations.IllegalWord := by
  intro w op n bad
  have hbad : (∃ e, decodeCommand w = .error e) ↔ bad := by
    rw [decodeCommand_error_iff, ← Bool.not_eq_true, reserved_mask, ← and_mask_op, ← and_mask_n, IllegalFields,
      or_left_comm, ReservedOp]
    simp only [or_assoc]
    exact Iff.rfl
  refine ⟨hbad, fun s hp hb => ?_⟩
  obtain ⟨e, he⟩ := hbad.mpr hb
  rw [hostWrite_idle hp, hostWriteIdle, hostIssue_error he, refuse_eq_ended]
  exact ⟨rfl, rfl⟩

/-- Settles O7: each word is the encoder's for its command. -/
theorem commandWords : Obligations.CommandWords := by
  have read {i : Instr} {w : Word} (hw : encodeCommand i = w) (hi : WellFormed Config.default .command i = true) :
      decodeCommand w = .ok i := hw ▸ decodeCommand_encodeCommand hi
  exact ⟨read rfl rfl, read rfl rfl, read rfl rfl, read rfl rfl, read rfl rfl, read rfl rfl, read rfl rfl, read rfl rfl,
    read rfl rfl, read rfl rfl, read rfl rfl, read rfl rfl, read rfl rfl, read rfl rfl, read rfl rfl, read rfl rfl,
    read rfl rfl, read rfl rfl⟩

end Sys2Proof.Machine
end

section
/-! PROOFS, 30_encoding.md R99, R101, R102, R104, R106. The stream decoders over a list of bits, two lemmas for each format:
the decoder reads an event back from the bits the encoder gives it (`decode..._encode`), and an event that was read is
spelled by exactly the bits it took (`decode..._spelled`). -/

namespace Sys2Proof

section Streams

variable {c : Config} {S : Width} {w : Nat} {i : Instr} {bs rest : List Bool}

theorem readFits_listRead : ReadFits listRead := fun _ _ _ _ h => (listRead_got h).2

/-- A field that an event has begun with: its bits were there, and the rest of the event follows them. -/
theorem listRead_bind_eq_event {n : Nat} {k : Nat → List Bool → Decoded (List Bool)}
    (h : (listRead n bs).bind k = .event i rest) :
    ∃ v t, bs = natBits n v ++ t ∧ v < 2 ^ n ∧ k v t = .event i rest := by
  obtain ⟨v, t, hread, hk⟩ := Got.bind_eq_event h
  obtain ⟨hbits, hv⟩ := listRead_got hread
  exact ⟨v, t, hbits, hv, hk⟩

/-- One bit that is not `b` is the other. -/
theorem eq_not_toNat {v : Nat} {b : Bool} (hv : v < 2 ^ 1) (hne : v ≠ b.toNat) : v = (!b).toNat := by
  cases b <;> simp only [Bool.toNat_false, Bool.toNat_true, Bool.not_false, Bool.not_true] at hne ⊢ <;> omega

theorem natBits_one {v : Nat} (h : v < 2 ^ 1) : natBits 1 v = [decide (v = 1)] := by
  obtain rfl | rfl : v = 0 ∨ v = 1 := by omega
  all_goals rfl

theorem natBits_ofNat (n v : Nat) : natBits n (BitVec.ofNat n v).toNat = natBits n v := by
  rw [BitVec.toNat_ofNat, natBits_mod]

/-! ### IT events -/

theorem Width.itMax_eq (S : Width) : S.itMax = S.bits + 1 := by cases S <;> rfl

/-- The escape field and the top-bit field are read as what they stand for. -/
theorem decodeIt_encode (h : WellFormed c (.it S w) i = true) (rest : List Bool) :
    decodeIt c listRead S w (encode c (.it S w) i ++ rest) = .event i rest := by
  have hmax := S.itMax_eq
  cases i with
  | itS v =>
    simp only [WellFormed, Bool.and_eq_true, decide_eq_true_eq] at h
    obtain ⟨⟨⟨hpos, hle⟩, hv⟩, hkind⟩ := h
    rw [decodeIt, if_neg (by omega), encode, listRead_natBits hv, Got.bind_got]
    split
    next hlow => rw [if_neg (by simpa [hlow, Nat.one_shiftLeft] using hkind)]
    next hlow =>
      rw [if_neg hlow] at hkind
      split
      next hmid => rw [if_neg (by simpa [hmid] using hkind)]
      next hmid =>
        rw [if_neg (by rw [Nat.testBit_lt_two_pow (by simpa [hmid] using hkind)]; decide)]
  | itWl f =>
    simp only [WellFormed, Bool.and_eq_true, decide_eq_true_eq] at h
    obtain ⟨⟨hpos, hlow⟩, hf⟩ := h
    have hesc : 1 <<< (w - 1) < 2 ^ w := by
      rw [Nat.one_shiftLeft]; exact Nat.pow_lt_pow_right (by decide) (by omega)
    have hbits : 7 ≤ S.bits := by cases S <;> decide
    rw [decodeIt, if_neg (by omega), encode, List.append_assoc, listRead_natBits hesc, Got.bind_got, if_pos hlow,
      if_pos rfl, listRead_natBits hf, Got.bind_got]
  | itWm v =>
    simp only [WellFormed, Bool.and_eq_true, decide_eq_true_eq] at h
    obtain ⟨⟨⟨hlow, hmid⟩, hv⟩, hwin⟩ := h
    rw [decodeIt, if_neg (by omega), encode, listRead_natBits hv, Got.bind_got, if_neg (by omega), if_pos hmid,
      if_pos hwin]
  | itWt n =>
    simp only [WellFormed, Bool.and_eq_true, decide_eq_true_eq] at h
    obtain ⟨rfl, hn⟩ := h
    have hbits : 7 ≤ S.bits := by cases S <;> decide
    have hfit : 2 ^ S.bits + n < 2 ^ S.itMax := by rw [hmax, Nat.pow_succ]; omega
    rw [decodeIt, if_neg (by omega), encode, listRead_natBits hfit, Got.bind_got, if_neg (by omega),
      if_neg (Nat.lt_irrefl _), hmax, Nat.add_sub_cancel,
      if_pos (by rw [Nat.testBit_two_pow_add_eq, Nat.testBit_lt_two_pow hn]; rfl), Nat.add_mod_left,
      Nat.mod_eq_of_lt hn]
  | _ => cases h

theorem decodeIt_spelled (h : decodeIt c listRead S w bs = .event i rest) : bs = encode c (.it S w) i ++ rest := by
  have hmax := S.itMax_eq
  unfold decodeIt at h
  split at h
  next => cases h
  next hw =>
    obtain ⟨v, t, rfl, hv, hkind⟩ := listRead_bind_eq_event h
    split at hkind
    next hlow =>
      split at hkind
      next hesc =>
        obtain ⟨f, u, rfl, -, hevent⟩ := listRead_bind_eq_event hkind
        cases hevent
        rw [encode, ← hesc, List.append_assoc]
      next => cases hkind; rfl
    next hlow =>
      split at hkind
      next hmid => split at hkind <;> cases hkind <;> rfl
      next hmid =>
        split at hkind
        next htop =>
          cases hkind
          obtain rfl : w = S.bits + 1 := by omega
          rw [Nat.add_sub_cancel] at htop ⊢
          have hge := Nat.ge_two_pow_of_testBit htop
          rw [Nat.pow_succ] at hv
          rw [encode, Nat.mod_eq_sub_mod hge, Nat.mod_eq_of_lt (by omega), Nat.add_sub_cancel' hge]
        next => cases hkind; rfl

/-! ### MMCMP events -/

theorem decodeMm_encode (h : WellFormed c (.mmcmp S w) i = true) (rest : List Bool) :
    decodeMm c listRead S w (encode c (.mmcmp S w) i ++ rest) = .event i rest := by
  have hones : 2 ^ c.mmExt S - 1 < 2 ^ c.mmExt S := Nat.sub_lt (Nat.two_pow_pos _) (by decide)
  cases i with
  | mmV d =>
    simp only [WellFormed, Bool.and_eq_true, decide_eq_true_eq] at h
    rw [decodeMm, encode, listRead_natBits h.1, Got.bind_got, if_pos h.2]
  | mmW d f =>
    simp only [WellFormed, isEscape, Bool.and_eq_true, decide_eq_true_eq] at h
    obtain ⟨⟨⟨hd, hcmd⟩, hf⟩, hwidth⟩ := h
    rw [decodeMm, encode, List.append_assoc, listRead_natBits hd, Got.bind_got, if_neg (by omega),
      listRead_natBits hf, Got.bind_got, if_pos hwidth]
  | mmX d f x =>
    simp only [WellFormed, isEscape, Bool.and_eq_true, decide_eq_true_eq] at h
    obtain ⟨⟨⟨⟨hd, hcmd⟩, hf⟩, hwidth⟩, hx⟩ := h
    rw [decodeMm, encode]
    simp only [List.append_assoc]
    rw [listRead_natBits hd, Got.bind_got, if_neg (by omega),
      listRead_natBits hf, Got.bind_got, if_neg (by simpa using hwidth), listRead_natBits hx, Got.bind_got]
    split
    next => cases c.mmEndBit <;> simp [listRead_bit]
    next => rfl
  | mmEnd d f =>
    simp only [WellFormed, isEscape, Bool.and_eq_true, decide_eq_true_eq] at h
    obtain ⟨⟨⟨hd, hcmd⟩, hf⟩, hwidth⟩ := h
    rw [decodeMm, encode]
    simp only [List.append_assoc]
    rw [listRead_natBits hd, Got.bind_got, if_neg (by omega),
      listRead_natBits hf, Got.bind_got, if_neg (by simpa using hwidth), listRead_natBits hones, Got.bind_got,
      if_pos rfl]
    cases c.mmEndBit <;> simp [listRead_bit]
  | _ => cases h

theorem decodeMm_spelled (h : decodeMm c listRead S w bs = .event i rest) :
    bs = encode c (.mmcmp S w) i ++ rest := by
  unfold decodeMm at h
  obtain ⟨d, t, rfl, -, hvalue⟩ := listRead_bind_eq_event h
  split at hvalue
  next => cases hvalue; rfl
  next =>
    obtain ⟨f, u, rfl, -, hescape⟩ := listRead_bind_eq_event hvalue
    split at hescape
    next => cases hescape; rw [encode, List.append_assoc]
    next =>
      obtain ⟨x, v, rfl, -, hextended⟩ := listRead_bind_eq_event hescape
      split at hextended
      next hones =>
        obtain ⟨t, u, rfl, ht, hend⟩ := listRead_bind_eq_event hextended
        rw [natBits_one ht]
        split at hend
        next hbit => cases hend; simp [encode, hones, hbit]
        next hbit => cases hend; simp [encode, hones, Bool.eq_not.mpr hbit]
      next hones => cases hextended; simp [encode, hones]

/-! ### MDL events -/

/-- A served read of an event that ends with its low byte, or has had it already. -/
theorem mdlFinishEvent_cases {late : Bool} {lo : Option Byte} {mk : Option Byte → Instr}
    (h : mdlFinishEvent listRead late lo mk bs = .event i rest) :
    (late = false ∧ i = mk lo ∧ bs = rest) ∨
      (late = true ∧ ∃ b : Byte, i = mk (some b) ∧ bs = lowBits (some b) ++ rest) := by
  unfold mdlFinishEvent at h
  split at h
  next hlate =>
    obtain ⟨v, t, rfl, -, hevent⟩ := listRead_bind_eq_event h
    cases hevent
    exact .inr ⟨hlate, _, rfl, by rw [lowBits, natBits_ofNat]⟩
  next hearly => cases h; exact .inl ⟨by simpa using hearly, rfl, rfl⟩

theorem mdlFinishEvent_late (mk : Option Byte → Instr) (lo : Option Byte) (b : Byte) (rest : List Bool) :
    mdlFinishEvent listRead true lo mk (lowBits (some b) ++ rest) = .event (mk (some b)) rest := by
  rw [mdlFinishEvent, if_pos rfl, lowBits, listRead_natBits b.isLt, Got.bind_got, BitVec.ofNat_toNat,
    BitVec.setWidth_eq]

/-- The unary steps of a long form before the one that ends it (42_mdl.md R176). -/
def unarySteps (c : Config) (run : Nat) : List Bool :=
  (List.replicate run (natBits c.mdlStepBits (!c.mdlUnaryStop).toNat)).flatten

theorem unarySteps_succ (c : Config) (run : Nat) :
    unarySteps c (run + 1) = natBits c.mdlStepBits (!c.mdlUnaryStop).toNat ++ unarySteps c run := by
  simp [unarySteps, List.replicate_succ]

/-- A step has at least a bit, so a run is no longer than its bits. -/
theorem le_length_unarySteps (c : Config) (run : Nat) : run ≤ (unarySteps c run).length := by
  simp [unarySteps, Config.mdlStepBits, Nat.le_mul_of_pos_right]

theorem bool_lt_step (c : Config) (b : Bool) : b.toNat < 2 ^ c.mdlStepBits :=
  Nat.lt_of_lt_of_le (Bool.toNat_lt b) (Nat.le_self_pow (Nat.succ_ne_zero _) 2)

/-- The unary run is read back when the fuel exceeds it. -/
theorem mdlRun_steps (late : Bool) (lo : Option Byte) (sign : Bool) (r : BitVec 4) (rest : List Bool) {fuel run : Nat}
    (hfuel : run < fuel) (k : Nat) :
    mdlRun c listRead late lo sign fuel k
        (unarySteps c run ++ (natBits c.mdlStepBits c.mdlUnaryStop.toNat ++ (natBits 4 r.toNat ++ rest))) =
      mdlFinishEvent listRead late lo (.mdlLong · sign (k + run) r) rest := by
  induction run generalizing fuel k with
  | zero =>
    obtain ⟨fuel, rfl⟩ := Nat.exists_eq_succ_of_ne_zero (Nat.ne_of_gt hfuel)
    rw [mdlRun, unarySteps, List.replicate_zero, List.flatten_nil, List.nil_append,
      listRead_natBits (bool_lt_step c _), Got.bind_got, if_pos rfl, listRead_natBits r.isLt, Got.bind_got,
      BitVec.ofNat_toNat, BitVec.setWidth_eq, Nat.add_zero]
  | succ run ih =>
    obtain ⟨fuel, rfl⟩ := Nat.exists_eq_succ_of_ne_zero (Nat.ne_of_gt (Nat.zero_lt_of_lt hfuel))
    rw [mdlRun, unarySteps_succ, List.append_assoc, listRead_natBits (bool_lt_step c _), Got.bind_got,
      if_neg (by cases c.mdlUnaryStop <;> decide), ih (Nat.lt_of_succ_lt_succ hfuel), Nat.add_right_comm, Nat.add_assoc]

/-- A run that gave an event has read its steps, when a step is one bit. -/
theorem mdlRun_spelled (hstep : c.mdlStepBits = 1) {late : Bool} {lo : Option Byte} {sign : Bool} {fuel k : Nat}
    (h : mdlRun c listRead late lo sign fuel k bs = .event i rest) :
    ∃ (run : Nat) (r : BitVec 4) (t : List Bool),
      bs = unarySteps c run ++ (natBits c.mdlStepBits c.mdlUnaryStop.toNat ++ (natBits 4 r.toNat ++ t)) ∧
        mdlFinishEvent listRead late lo (.mdlLong · sign (k + run) r) t = .event i rest := by
  induction fuel generalizing k bs with
  | zero => cases h
  | succ fuel ih =>
    unfold mdlRun at h
    obtain ⟨b, t, rfl, hb, hrest⟩ := listRead_bind_eq_event h
    split at hrest
    next hstop =>
      obtain ⟨r, u, rfl, -, hfinish⟩ := listRead_bind_eq_event hrest
      refine ⟨0, BitVec.ofNat 4 r, u, ?_, hfinish⟩
      rw [natBits_ofNat, hstop]
      rfl
    next hmore =>
      obtain ⟨run, r, u, rfl, hfinish⟩ := ih hrest
      refine ⟨run + 1, r, u, ?_, by rw [← hfinish, Nat.add_right_comm, Nat.add_assoc]⟩
      have hgo : b = (!c.mdlUnaryStop).toNat := by
        rw [hstep] at hb
        exact eq_not_toNat hb hmore
      rw [unarySteps_succ, List.append_assoc, hgo]

/-- `body` is what stands in the stream of the events `mk lo` beside their low byte. -/
structure MdlBody (c : Config) (mk : Option Byte → Instr) (body : List Bool) : Prop where
  encode : ∀ S lo, encode c (.mdl S) (mk lo) = mdlBits c lo body
  decode : ∀ fuel, body.length ≤ fuel → ∀ late lo rest,
    mdlBody c listRead fuel late lo (body ++ rest) = mdlFinishEvent listRead late lo mk rest

theorem mdlBody_short (c : Config) (sign : Bool) (mag : BitVec 3) :
    MdlBody c (.mdlShort · sign mag) (sign :: true :: natBits 3 mag.toNat) where
  encode _ _ := rfl
  decode fuel _ late lo rest := by
    rw [mdlBody, List.cons_append, listRead_bit, Got.bind_got, List.cons_append, listRead_bit, Got.bind_got,
      if_pos Bool.toNat_true, listRead_natBits mag.isLt, Got.bind_got, BitVec.ofNat_toNat, BitVec.setWidth_eq]
    cases sign <;> rfl

theorem mdlBody_long (c : Config) (sign : Bool) (run : Nat) (r : BitVec 4) :
    MdlBody c (.mdlLong · sign run r)
      (sign :: false :: (unarySteps c run ++ natBits c.mdlStepBits c.mdlUnaryStop.toNat ++ natBits 4 r.toNat)) where
  encode _ _ := rfl
  decode fuel hfuel late lo rest := by
    have hrun := le_length_unarySteps c run
    simp only [List.length_cons, List.length_append] at hfuel
    rw [mdlBody, List.cons_append, listRead_bit, Got.bind_got, List.cons_append, listRead_bit, Got.bind_got,
      if_neg (by decide), List.append_assoc, List.append_assoc, mdlRun_steps late lo _ r rest (by omega), Nat.zero_add]
    cases sign <;> rfl

/-- An event that has been read from its sign bit on is one of the two forms. -/
theorem mdlBody_spelled (hstep : c.mdlStepBits = 1) {fuel : Nat} {late : Bool} {lo : Option Byte}
    (h : mdlBody c listRead fuel late lo bs = .event i rest) :
    ∃ mk body t, MdlBody c mk body ∧ bs = body ++ t ∧ mdlFinishEvent listRead late lo mk t = .event i rest := by
  unfold mdlBody at h
  obtain ⟨sign, t, rfl, hsign, hform⟩ := listRead_bind_eq_event h
  obtain ⟨short, t, rfl, hshort, hrest⟩ := listRead_bind_eq_event hform
  rw [natBits_one hsign, natBits_one hshort]
  split at hrest
  next hs =>
    obtain ⟨m, t, rfl, -, hfinish⟩ := listRead_bind_eq_event hrest
    refine ⟨_, _, t, mdlBody_short c (decide (sign = 1)) (BitVec.ofNat 3 m), ?_, hfinish⟩
    rw [natBits_ofNat]
    simp [hs]
  next hs =>
    obtain ⟨run, r, t, rfl, hfinish⟩ := mdlRun_spelled hstep hrest
    rw [Nat.zero_add] at hfinish
    exact ⟨_, _, t, mdlBody_long c (decide (sign = 1)) run r, by simp [hs], hfinish⟩

/-- An event with its low byte where the parameter puts it is read back. -/
theorem MdlBody.decodeMdl {mk : Option Byte → Instr} {body : List Bool} (hb : MdlBody c mk body) {lo : Option Byte}
    (hlo : (lo.isSome == (S == .w16)) = true) (rest : List Bool) {fuel : Nat} (hfuel : body.length ≤ fuel) :
    decodeMdl c listRead fuel S (mdlBits c lo body ++ rest) = .event (mk lo) rest := by
  have hdec := hb.decode fuel hfuel
  unfold Sys2Proof.decodeMdl mdlBits
  match S, lo, hlo with
  | .w8, none, _ => cases c.mdl16LowFirst <;> simp [lowBits, hdec, mdlFinishEvent]
  | .w16, some b, _ =>
    cases c.mdl16LowFirst with
    | true => simp [lowBits, listRead_natBits b.isLt, hdec, mdlFinishEvent]
    | false => simp [hdec, mdlFinishEvent_late]

theorem decodeMdl_encode (h : WellFormed c (.mdl S) i = true) (rest : List Bool) {fuel : Nat}
    (hfuel : (encode c (.mdl S) i).length ≤ fuel) :
    decodeMdl c listRead fuel S (encode c (.mdl S) i ++ rest) = .event i rest := by
  have hevent : ∃ mk body lo, MdlBody c mk body ∧ i = mk lo ∧ (lo.isSome == (S == .w16)) = true := by
    cases i with
    | mdlShort lo sign mag => exact ⟨_, _, lo, mdlBody_short c sign mag, rfl, h⟩
    | mdlLong lo sign run r => exact ⟨_, _, lo, mdlBody_long c sign run r, rfl, h⟩
    | _ => cases h
  obtain ⟨mk, body, lo, hb, rfl, hlo⟩ := hevent
  rw [hb.encode] at hfuel ⊢
  refine hb.decodeMdl hlo rest (Nat.le_trans ?_ hfuel)
  unfold mdlBits
  split <;> simp

theorem decodeMdl_spelled (hstep : c.mdlStepBits = 1) {fuel : Nat}
    (h : decodeMdl c listRead fuel S bs = .event i rest) : bs = encode c (.mdl S) i ++ rest := by
  unfold decodeMdl at h
  split at h
  next =>
    obtain ⟨mk, body, t, hb, rfl, hfinish⟩ := mdlBody_spelled hstep h
    obtain ⟨-, rfl, rfl⟩ | ⟨hlate, -⟩ := mdlFinishEvent_cases hfinish
    · rw [hb.encode]; simp [mdlBits, lowBits]
    · cases hlate
  next =>
    split at h
    next hfirst =>
      obtain ⟨v, t, rfl, -, hbody⟩ := listRead_bind_eq_event h
      obtain ⟨mk, body, t, hb, rfl, hfinish⟩ := mdlBody_spelled hstep hbody
      obtain ⟨-, rfl, rfl⟩ | ⟨hlate, -⟩ := mdlFinishEvent_cases hfinish
      · rw [hb.encode, mdlBits, if_pos hfirst, lowBits, natBits_ofNat, List.append_assoc]
      · cases hlate
    next hlast =>
      obtain ⟨mk, body, t, hb, rfl, hfinish⟩ := mdlBody_spelled hstep h
      obtain ⟨hearly, -⟩ | ⟨-, b, rfl, rfl⟩ := mdlFinishEvent_cases hfinish
      · cases hearly
      · rw [hb.encode]; simp [mdlBits, hlast]

/-! ### Blast events -/

/-- The length 519 of the end is that of one symbol and its last extra value only (44_blast_lz77.md R214, R218). -/
theorem matchLength_end {sym extra : Nat} (h : extra < 2 ^ Config.default.lengthExtra sym) :
    matchLength Config.default sym extra = 519 ↔ sym = 15 ∧ extra = 255 := by
  rw [matchLength]
  rcases Nat.lt_trichotomy sym 15 with hlt | rfl | hgt
  · have hbound : ∀ s < 15, Config.default.lengthBase s + 2 ^ Config.default.lengthExtra s ≤ 519 := by decide
    have := hbound sym hlt
    omega
  · have hbase : Config.default.lengthBase 15 = 264 := rfl
    omega
  · have hbase : Config.default.lengthBase sym = 0 := List.getD_eq_default _ _ hgt
    have hextra : Config.default.lengthExtra sym = 0 := List.getD_eq_default _ _ hgt
    rw [hextra] at h
    omega

/-- The end's length symbol has a code. -/
theorem codeOf_end : (codeOf Config.default (Config.default.staticTable .len) 15).isSome = true := by decide +kernel

/-- The events of a stream over the static tables, as `decodeBits` reads them. -/
abbrev decodeBlastBits (lit dict : Nat) (bs : List Bool) : Decoded (List Bool) :=
  decodeBlast Config.default listRead lit dict (Config.default.staticTable .lit) (Config.default.staticTable .len)
    (Config.default.staticTable .dist) bs

theorem decodeBlast_encode {lit dict : Nat} (h : WellFormed Config.default (.blast lit dict) i = true)
    (rest : List Bool) :
    decodeBlastBits lit dict (encode Config.default (.blast lit dict) i ++ rest) = .event i rest := by
  cases i with
  | blLit b =>
    rw [decodeBlastBits, decodeBlast, encode, List.cons_append, listRead_bit, Got.bind_got, if_pos Bool.toNat_false]
    split
    next hlit =>
      have hcode : (codeOf Config.default (Config.default.staticTable .lit) b.toNat).isSome = true := by
        simpa [WellFormed, hlit] using h
      rw [static_lit_fits.decode b.isLt hcode, Walked.bind_sym, BitVec.ofNat_toNat, BitVec.setWidth_eq]
    next => rw [listRead_natBits b.isLt, Got.bind_got, BitVec.ofNat_toNat, BitVec.setWidth_eq]
  | blMatch sym extra dsym dextra =>
    simp only [WellFormed, Bool.and_eq_true, decide_eq_true_eq] at h
    obtain ⟨⟨⟨⟨⟨⟨hcode, hsym⟩, hextra⟩, hlen⟩, hdcode⟩, hdsym⟩, hdextra⟩ := h
    rw [decodeBlastBits, decodeBlast, encode, List.cons_append, listRead_bit, Got.bind_got, if_neg (by decide),
      decodeMatch]
    simp only [List.append_assoc]
    rw [static_len_fits.decode hsym hcode, Walked.bind_sym, listRead_natBits hextra, Got.bind_got, if_neg hlen,
      static_dist_fits.decode hdsym hdcode, Walked.bind_sym, listRead_natBits hdextra, Got.bind_got]
  | blEnd =>
    have hextra : 255 < 2 ^ Config.default.lengthExtra 15 := by decide
    rw [decodeBlastBits, decodeBlast, encode, List.cons_append, listRead_bit, Got.bind_got, if_neg (by decide),
      decodeMatch, List.append_assoc, static_len_fits.decode (by decide) codeOf_end, Walked.bind_sym,
      listRead_natBits hextra, Got.bind_got, if_pos ((matchLength_end hextra).mpr ⟨rfl, rfl⟩)]
  | _ => cases h

/-- What a walk of an event has found: the symbol's code was there. -/
theorem TableFits.bind_eq_event {T : HufTable} (hT : TableFits c T) {k : Nat → List Bool → Decoded (List Bool)}
    (h : (huffDecode c listRead T bs).bind k = .event i rest) :
    ∃ sym t, bs = symbolBits c T sym ++ t ∧ sym < 256 ∧ (codeOf c T sym).isSome = true ∧ k sym t = .event i rest := by
  obtain ⟨sym, t, hwalk, hk⟩ := Walked.bind_eq_event h
  obtain ⟨hbits, hsym, hcode⟩ := hT.decoded hwalk
  exact ⟨sym, t, hbits, hsym, hcode, hk⟩

theorem decodeBlast_spelled {lit dict : Nat} (h : decodeBlastBits lit dict bs = .event i rest) :
    WellFormed Config.default (.blast lit dict) i = true ∧ bs = encode Config.default (.blast lit dict) i ++ rest := by
  unfold decodeBlastBits decodeBlast at h
  obtain ⟨sel, t, rfl, hsel, hkind⟩ := listRead_bind_eq_event h
  rw [natBits_one hsel]
  split at hkind
  next hzero =>
    subst hzero
    split at hkind
    next hlit =>
      obtain ⟨b, t, hbits, hb, hcode, hevent⟩ := static_lit_fits.bind_eq_event hkind
      cases hevent
      have hbyte : (BitVec.ofNat 8 b).toNat = b := by rw [BitVec.toNat_ofNat, Nat.mod_eq_of_lt hb]
      rw [hbits, WellFormed, encode, hbyte, hcode, Bool.or_true, if_pos hlit]
      exact ⟨rfl, by simp⟩
    next hlit =>
      obtain ⟨b, t, rfl, -, hevent⟩ := listRead_bind_eq_event hkind
      cases hevent
      rw [encode, if_neg hlit, natBits_ofNat]
      exact ⟨by simp [WellFormed, hlit], rfl⟩
  next hone =>
    obtain rfl : sel = 1 := by omega
    unfold decodeMatch at hkind
    obtain ⟨sym, t, rfl, hsym, hcode, hmatch⟩ := static_len_fits.bind_eq_event hkind
    obtain ⟨extra, t, rfl, hextra, hrest⟩ := listRead_bind_eq_event hmatch
    split at hrest
    next hend =>
      obtain ⟨rfl, rfl⟩ := (matchLength_end hextra).mp hend
      cases hrest
      simp [WellFormed, encode]
    next hlen =>
      obtain ⟨dsym, t, rfl, hdsym, hdcode, hdist⟩ := static_dist_fits.bind_eq_event hrest
      obtain ⟨dextra, t, rfl, hdextra, hevent⟩ := listRead_bind_eq_event hdist
      cases hevent
      simp [WellFormed, encode, hcode, hsym, hextra, hlen, hdcode, hdsym, hdextra]

/-! ### Descriptor bytes -/

/-- The byte of two nibbles, low one first. -/
theorem natBits_nibbles (hi lo : BitVec 4) : natBits 8 (hi ++ lo).toNat = natBits 4 lo.toNat ++ natBits 4 hi.toNat := by
  revert hi lo
  decide +kernel

theorem byte_nibbles (b : Byte) : b.extractLsb' 4 4 ++ b.extractLsb' 0 4 = b := by
  revert b
  decide +kernel

/-- The byte of a descriptor's two fields. -/
def descByte (c : Config) (rep len : BitVec 4) : Byte := if c.descCountHigh then rep ++ len else len ++ rep

theorem encode_hdRun (c : Config) (rep len : BitVec 4) :
    encode c .descriptor (.hdRun rep len) = natBits 8 (descByte c rep len).toNat := by
  rw [encode, descByte]
  split <;> rw [natBits_nibbles]

theorem descFields_descByte (c : Config) (rep len : BitVec 4) :
    descRep c (descByte c rep len) = rep ∧ descLen c (descByte c rep len) = len := by
  have hhigh (x y : BitVec 4) : (x ++ y).extractLsb' 4 4 = x := by revert x y; decide +kernel
  have hlow (x y : BitVec 4) : (x ++ y).extractLsb' 0 4 = y := by revert x y; decide +kernel
  unfold descRep descLen descByte
  cases c.descCountHigh <;> simp [hhigh, hlow]

theorem descByte_descFields (c : Config) (b : Byte) : descByte c (descRep c b) (descLen c b) = b := by
  unfold descRep descLen descByte
  cases c.descCountHigh <;> exact byte_nibbles b

/-- Every byte is a descriptor byte, and its fields are read back. -/
theorem decodeDescriptor_encode (h : WellFormed Config.default .descriptor i = true) (rest : List Bool) :
    decodeBits Config.default .descriptor (encode Config.default .descriptor i ++ rest) = .event i rest := by
  cases i with
  | hdRun rep len =>
    obtain ⟨hrep, hlen⟩ := descFields_descByte Config.default rep len
    rw [encode_hdRun, decodeBits, listRead_natBits (BitVec.isLt _), Got.bind_got, BitVec.ofNat_toNat,
      BitVec.setWidth_eq, decodeDescriptor, hrep, hlen]
  | _ => cases h

theorem decodeDescriptor_spelled (h : decodeBits Config.default .descriptor bs = .event i rest) :
    WellFormed Config.default .descriptor i = true ∧ bs = encode Config.default .descriptor i ++ rest := by
  obtain ⟨b, t, rfl, -, hevent⟩ := listRead_bind_eq_event h
  cases hevent
  rw [decodeDescriptor, encode_hdRun, descByte_descFields, natBits_ofNat]
  exact ⟨rfl, rfl⟩

/-! ### Command words in a stream -/

/-- A word that decoded is the word of a well-formed command. -/
theorem decodeCommandBits_spelled (h : decodeBits Config.default .command bs = .event i rest) :
    WellFormed Config.default .command i = true ∧ bs = encode Config.default .command i ++ rest := by
  obtain ⟨v, t, rfl, -, hevent⟩ := listRead_bind_eq_event h
  split at hevent
  next i hword =>
    cases hevent
    exact ⟨decodeCommand_wellFormed hword, by rw [encode, encodeCommand_decodeCommand hword, natBits_ofNat]⟩
  next => cases hevent

end Streams

end Sys2Proof

namespace Sys2Proof.Machine

open Sys2Proof

/-- Settles O10, format by format: a command from its word, an event from its fields, the fuel of an MDL run being more
than the bits there are. -/
theorem decodeEncode : Obligations.DecodeEncode := by
  intro x i rest h
  cases x with
  | command =>
    rw [decodeBits, encode, listRead_natBits (encodeCommand i).isLt, Got.bind_got, BitVec.ofNat_toNat,
      BitVec.setWidth_eq, decodeCommand_encodeCommand h]
  | it S w => exact decodeIt_encode h rest
  | mdl S => exact decodeMdl_encode h rest (by rw [List.length_append]; omega)
  | blast lit dict => exact decodeBlast_encode h rest
  | mmcmp S w => exact decodeMm_encode h rest
  | descriptor => exact decodeDescriptor_encode h rest

/-- Settles O11, format by format: a decoder gives events of its own format only, and has read their fields. -/
theorem encodeDecode : Obligations.EncodeDecode := by
  intro x i bs rest h
  cases x with
  | command => exact decodeCommandBits_spelled h
  | it S w => exact ⟨readFits_listRead.decodeIt h, decodeIt_spelled h⟩
  | mdl S => exact ⟨decodeMdl_wellFormed h, decodeMdl_spelled rfl h⟩
  | blast lit dict => exact decodeBlast_spelled h
  | mmcmp S w => exact ⟨readFits_listRead.decodeMm h, decodeMm_spelled h⟩
  | descriptor => exact decodeDescriptor_spelled h

end Sys2Proof.Machine
end

section
/-! PROOFS, 30_encoding.md R90, R95, R96, 70_reset_and_hazards.md R316. What an instruction met in the wrong state does, and
`NOP`. -/

namespace Sys2Proof.Machine

open Sys2Proof

section WrongState

variable {s : State} {c : Config} {i : Instr}

/-- A command met while another is in progress has no effect (70_reset_and_hazards.md R316, log 20). -/
theorem exec_command_busy (hi : WellFormed c .command i = true) (hp : s.phase ≠ .idle) : exec i s = .next s := by
  cases i with
  | nop | itd8 | itd16 | mdld8 | mdld16 | blast | mmcmp | brinit | rdbitsIt | rdbitsMdl | rdbitsPk | brseed | hufcon
  | hufdec | wreset | wput | wcopy | wflush =>
    simp only [exec, execNop, execItd8, execItd16, execMdld8, execMdld16, execBlast, execMmcmp, execBrinit, execRdbitsIt,
      execRdbitsMdl, execRdbitsPk, execBrseed, execHufcon, execHufdec, execWreset, execWput, execWcopy, execWflush,
      whenIdle_busy hp]
  | _ => cases hi

/-- No command has begun to run: the block is idle, or has not yet taken its word. -/
def State.NotRunning (s : State) : Prop := s.phase = .idle ∨ s.phase = .issued

theorem inItBlock_notRunning (hp : s.NotRunning) (body : Width → Bool → Nat → Nat → Result) :
    inItBlock s body = .fault .eventOutsideCommand := by
  rcases hp with hp | hp <;> simp only [inItBlock, hp]

theorem inMdl_notRunning (hp : s.NotRunning) (body : Width → Nat → Result) :
    inMdl s body = .fault .eventOutsideCommand := by
  rcases hp with hp | hp <;> simp only [inMdl, hp]

theorem inBlast_notRunning (hp : s.NotRunning) (body : Nat → Nat → State) :
    inBlast s body = .fault .eventOutsideCommand := by
  rcases hp with hp | hp <;> simp only [inBlast, hp]

theorem inMmComp_notRunning (hp : s.NotRunning) (body : Width → Nat → Nat → Nat → Result) :
    inMmComp s body = .fault .eventOutsideCommand := by
  rcases hp with hp | hp <;> simp only [inMmComp, hp]

theorem execHdRun_notRunning (hp : s.NotRunning) (rep len : BitVec 4) :
    execHdRun rep len s = .fault .eventOutsideCommand := by
  rcases hp with hp | hp <;> simp only [execHdRun, hp]

/-- An event met outside its command faults, whichever stream it is of (30_encoding.md R90, log 15). -/
theorem exec_event_notRunning {x : Ctx} (hi : WellFormed c x i = true) (hx : x ≠ .command) (hp : s.NotRunning) :
    exec i s = .fault .eventOutsideCommand := by
  cases i with
  | itS | itWl | itWm | itWt => exact inItBlock_notRunning hp _
  | mdlShort | mdlLong => exact inMdl_notRunning hp _
  | blLit | blMatch | blEnd => exact inBlast_notRunning hp _
  | mmV | mmW | mmX | mmEnd => exact inMmComp_notRunning hp _
  | hdRun rep len => exact execHdRun_notRunning hp rep len
  | _ =>
    cases x with
    | command => exact absurd rfl hx
    | _ => cases hi

/-- A placed illegal word is refused by the step that takes it (30_encoding.md R96, log 2). -/
theorem step_illegal {e : Illegal} (hp : s.phase = .issued) (he : decodeCommand s.host.cmd = .error e) :
    step s = .next (s.ended (-11) 0 0) := by
  have hf : fetch s = .illegal e s.takeCommand := by rw [fetch_of_issued hp, fetchCommand, he]
  simp only [step, hf, refuse_eq_ended]
  rfl

end WrongState

/-- Settles O5: a command is guarded by `BUSY`, an event by the phase of its own command, an illegal word by the fetch. -/
theorem wrongContext : Obligations.WrongContext := by
  intro s c x i hi
  refine ⟨?command, fun hx hp => exec_event_notRunning hi hx hp, fun e hp he => step_illegal hp he⟩
  rintro rfl hbusy
  exact exec_command_busy hi fun hp => by rw [busy_eq_false.mpr hp] at hbusy; cases hbusy

/-- Settles O8: an idle block runs the command, which only ends. -/
theorem nopResult : Obligations.NopResult := fun _ hp => whenIdle_idle hp _

end Sys2Proof.Machine
end

section
/-! PROOFS, 40_bitreader.md R120 to R133. The leaf commands of the BitReader: what `BRINIT`, `RDBITS.*` and `BRSEED` leave
in an idle block, how the three refill disciplines read, and how many bits each keeps in the accumulator. -/

namespace Sys2Proof.Machine

open Sys2Proof

section BitReader

variable {m : Source} {mode : Mode} {n base p : Nat} {r : Reader} {s : State}

/-! ### The ends of the leaf commands -/

/-- Completion, its result registers as numbers (60_exceptions.md R281). -/
theorem endCommand_ok_eq_ended (consumed result : Nat) (s : State) :
    endCommand .ok consumed result s = s.ended 0 consumed result := rfl

/-- A truncated input, its result registers as numbers (60_exceptions.md R281). -/
theorem endCommand_truncated_eq_ended (consumed result : Nat) (s : State) :
    endCommand .stopTruncated consumed result s = s.ended 1 consumed result := rfl

/-- A read past the range gives no value (40_bitreader.md R128, R130). -/
theorem rdbits_of_starved (hn : n ≤ NMAX) (h : (s.rd.readBits s.src mode n).2.starved = true) :
    rdbits mode n s =
      ({ s with rd := (s.rd.readBits s.src mode n).2 } : State).ended 1
        ((s.rd.readBits s.src mode n).2.spos - s.rd.spos) 0 := by
  simp only [rdbits, if_neg (Nat.not_lt.mpr hn), h, if_true, endCommand_truncated_eq_ended]

/-- A read that its range can serve gives its value (40_bitreader.md R130). -/
theorem rdbits_of_fresh (hn : n ≤ NMAX) (h : (s.rd.readBits s.src mode n).2.starved = false) :
    rdbits mode n s =
      ({ s with rd := (s.rd.readBits s.src mode n).2 } : State).ended 0
        ((s.rd.readBits s.src mode n).2.spos - s.rd.spos) (s.rd.readBits s.src mode n).1 := by
  simp only [rdbits, if_neg (Nat.not_lt.mpr hn), h, Bool.false_eq_true, if_false, endCommand_ok_eq_ended]

/-- `BRINIT` with the cursor inside the source is not refused (40_bitreader.md R129). -/
theorem exec_brinit_idle (hp : s.phase = .idle) (hspos : s.rd.spos ≤ s.src.len) :
    exec .brinit s =
      .next (endCommand .ok 0 0 { s with rd := s.rd.clear (min (s.rd.spos + s.argLimit) s.src.len) 0 }) := by
  simp only [exec, execBrinit, whenIdle_idle hp, if_neg (Nat.not_lt.mpr hspos)]

/-- `BRSEED` within its bound is a change of the seed level and a lookahead (40_bitreader.md R133). -/
theorem exec_brseed_idle (hp : s.phase = .idle) {k : BitVec 6} (hk : k.toNat ≤ ACCW / 8) :
    exec (.brseed k) s =
      let r := { s.rd with seedlv := 8 * k.toNat }.topUp s.src (8 * k.toNat)
      .next (endCommand .ok (r.spos - s.rd.spos) 0 { s with rd := r }) := by
  simp only [exec, execBrseed, whenIdle_idle hp, if_neg (Nat.not_lt.mpr hk)]

/-- Each of the three read commands is the read in its mode (40_bitreader.md R130 to R132). -/
theorem exec_rdbits_idle (hp : s.phase = .idle) {k : BitVec 6} {i : Instr}
    (hi : i ∈ [Instr.rdbitsIt k, .rdbitsMdl k, .rdbitsPk k]) :
    ∃ mode, exec i s = .next (rdbits mode k.toNat s) := by
  simp only [List.mem_cons, List.not_mem_nil, or_false] at hi
  rcases hi with rfl | rfl | rfl
  · exact ⟨.it, whenIdle_idle hp _⟩
  · exact ⟨.mdl, whenIdle_idle hp _⟩
  · exact ⟨.pk, whenIdle_idle hp _⟩

/-! ### The refill disciplines -/

/-- Mode `PK` reads as mode `IT` does (40_bitreader.md R132). -/
theorem Reader.readBits_pk (m : Source) (n : Nat) (r : Reader) : r.readBits m .pk n = r.readBits m .it n := rfl

/-- Mode `MDL` is mode `IT` with the lookahead after it (40_bitreader.md R123, R131). -/
theorem Reader.readBits_mdl (m : Source) (n : Nat) (r : Reader) :
    r.readBits m .mdl n = ((r.readBits m .it n).1, (r.readBits m .it n).2.topUp m r.seedlv) := by
  have hseed : (r.readBits m .it n).2.seedlv = r.seedlv := Reader.readBits_seedlv
  rw [← hseed]
  rfl

/-- A refill fetches nothing when the bits are in. -/
theorem Reader.fill_of_le (turns : Nat) (h : n ≤ r.cnt) : r.fill m n turns = r := by
  cases turns with
  | zero => rfl
  | succ turns => rw [Reader.fill, if_neg (Nat.not_lt.mpr h)]

/-- The lookahead fetches nothing within a byte of the seed level. -/
theorem Reader.topUp_of_lt (turns : Nat) (h : r.seedlv < r.cnt + 8) : r.topUp m turns = r := by
  cases turns with
  | zero => rfl
  | succ turns => rw [Reader.topUp, if_neg (Nat.not_le.mpr h)]

/-- A lookahead with turns enough ends within a byte of the seed level, and above it only where the reader stood above
it (40_bitreader.md R125 (d)). -/
theorem Reader.topUp_bounds (turns : Nat) (h : r.seedlv ≤ r.cnt + 8 * turns) :
    r.seedlv < (r.topUp m turns).cnt + 8 ∧ (r.topUp m turns).cnt ≤ max r.cnt r.seedlv := by
  by_cases hlevel : r.cnt ≤ r.seedlv
  · obtain ⟨hlow, hhigh⟩ := Reader.topUp_level m turns r h hlevel
    exact ⟨hlow, hhigh.trans (Nat.le_max_right ..)⟩
  · have hlt : r.seedlv < r.cnt + 8 := by omega
    rw [Reader.topUp_of_lt turns hlt]
    exact ⟨hlt, Nat.le_max_left ..⟩

/-- A read without lookahead leaves less than a byte, or what stood beyond its bits already (40_bitreader.md R123). -/
theorem Reader.readBits_it_level (m : Source) (n : Nat) (r : Reader) :
    (r.readBits m .it n).2.cnt < 8 ∨ (r.readBits m .it n).2.cnt + n = r.cnt := by
  have hcnt : (r.readBits m .it n).2.cnt = (r.fill m n n).cnt - n := (Reader.consume_level ..).1
  by_cases h : n ≤ r.cnt
  · rw [Reader.fill_of_le n h] at hcnt
    omega
  · have hfill := (Reader.fill_level m n n r (by omega)).1
    omega

/-- Between reads mode `MDL` stays within a byte below the seed level (40_bitreader.md R125 (d)). -/
theorem Reader.readBits_mdl_level (m : Source) (n : Nat) (hseed : 8 ≤ r.seedlv) (hcnt : r.cnt ≤ r.seedlv) :
    r.seedlv < (r.readBits m .mdl n).2.cnt + 8 ∧ (r.readBits m .mdl n).2.cnt ≤ r.seedlv := by
  have hkeeps : (r.readBits m .it n).2.seedlv = r.seedlv := Reader.readBits_seedlv
  have hlevel : (r.readBits m .it n).2.cnt ≤ r.seedlv := by
    have := Reader.readBits_it_level m n r
    omega
  have htop := Reader.topUp_level m r.seedlv (r.readBits m .it n).2 (by omega) (by omega)
  rw [hkeeps] at htop
  rw [Reader.readBits_mdl]
  exact htop

/-- Where the reader stands does not depend on its seed level. -/
theorem ReaderAt.withSeed (h : ReaderAt m base p r) {level : Nat} (hlevel : level ≤ ACCW) :
    ReaderAt m base p { r with seedlv := level } :=
  { h with seed_le := hlevel }

end BitReader

/-- Settles O17: an idle block takes `BRINIT`, and a cursor inside the source is not refused. -/
theorem brinitResult : Obligations.BrinitResult := by
  intro s hp hspos
  rw [exec_brinit_idle hp hspos]
  rfl

/-- Settles O18, in every mode at once: the read from a place in the stream, and the starved reader that stays so. -/
theorem rdbitsReads : Obligations.RdbitsReads := by
  intro s k hp hn i hi
  obtain ⟨mode, hexec⟩ := exec_rdbits_idle hp hi
  rw [hexec]
  refine ⟨fun base p hat => ?_, fun hstarved => ?_⟩
  · rcases hat.readBits mode hn with ⟨hle, hvalue, hafter⟩ | ⟨hlt, hstarved, hend⟩
    · refine ⟨fun _ => ⟨_, hafter, ?_⟩, fun hlt => absurd hle (Nat.not_le.mpr hlt)⟩
      rw [rdbits_of_fresh hn hafter.fresh, hvalue]
    · refine ⟨fun hle => absurd hle (Nat.not_le.mpr hlt), fun _ => ⟨_, hstarved, hend, ?_⟩⟩
      rw [rdbits_of_starved hn hstarved]
  · have hstays := Reader.readBits_starved s.src mode k.toNat s.rd hstarved
    exact ⟨_, hstays, by rw [rdbits_of_starved hn hstays]⟩

/-- Settles O19: the levels from what one read leaves, the agreement of the commands from that of the reads. -/
theorem readModes : Obligations.ReadModes := by
  refine ⟨fun m r n _ => ⟨fun hcnt => ?_, fun hdvd hpos _ _ hcnt => ?_⟩, fun s k => ⟨rfl, fun hseed => ?_⟩⟩
  · have hlt : (r.readBits m .it n).2.cnt < 8 := by
      have := Reader.readBits_it_level m n r
      omega
    exact ⟨hlt, hlt⟩
  · exact Reader.readBits_mdl_level m n (Nat.le_of_dvd hpos hdvd) hcnt
  · have hread : s.rd.readBits s.src .mdl k.toNat = s.rd.readBits s.src .it k.toNat := by
      rw [Reader.readBits_mdl, hseed]
      rfl
    have hbody : rdbits .mdl k.toNat s = rdbits .it k.toNat s := by simp only [rdbits, hread]
    simp only [exec, execRdbitsMdl, execRdbitsIt, whenIdle, hbody]

/-- Settles O20: `BRSEED` is a change of the seed level and a lookahead, and neither moves the reader on its stream. -/
theorem brseedFills : Obligations.BrseedFills := by
  intro s k base p hp hk hat
  have hlevel : 8 * k.toNat ≤ ACCW := Nat.mul_le_mul_left 8 hk
  obtain ⟨hlow, hhigh⟩ :=
    Reader.topUp_bounds (m := s.src) (r := { s.rd with seedlv := 8 * k.toNat }) (8 * k.toNat)
      (by dsimp only; omega)
  refine ⟨_, (hat.withSeed hlevel).topUp (8 * k.toNat), by simp, hlow, hhigh, by simp, ?_⟩
  rw [exec_brseed_idle hp hk]
  rfl

end Sys2Proof.Machine
end

section
/-! PROOFS, 40_bitreader.md R121, 41_it.md R145, R151, 42_mdl.md R175, R180, 44_blast_lz77.md R213, R219, R225, R231,
45_mmcmp.md R253, R261. The codec commands decode the bits ahead of their reader: the decoder over the registers and the
decoder over the list of bits have the same outcome, an event is run, and a starved one ends the command. -/

namespace Sys2Proof

section Outcomes

variable {σ τ : Type} {R E : σ → τ → Prop} {a : Decoded σ} {b : Decoded τ} {s : σ}

/-- Where one decoder reads an event, a related one reads the same event. -/
theorem DecodedRel.of_event {i : Instr} (h : DecodedRel R E a b) (ha : a = .event i s) : ∃ t, b = .event i t ∧ R s t := by
  subst ha
  rcases h with ⟨_, _, t, ⟨⟩, hb, hr⟩ | ⟨_, _, ⟨⟩, -⟩ | ⟨_, _, ⟨⟩, -⟩ | ⟨_, _, ⟨⟩, -⟩
  exact ⟨t, hb, hr⟩

/-- Where one decoder starves, a related one starves. -/
theorem DecodedRel.of_starved (h : DecodedRel R E a b) (ha : a = .starved s) : ∃ t, b = .starved t ∧ E s t := by
  subst ha
  rcases h with ⟨_, _, _, ⟨⟩, -⟩ | ⟨_, t, ⟨⟩, hb, he⟩ | ⟨_, _, ⟨⟩, -⟩ | ⟨_, _, ⟨⟩, -⟩
  exact ⟨t, hb, he⟩

end Outcomes

end Sys2Proof

namespace Sys2Proof.Machine

open Sys2Proof

section Starving

variable {s t : State} {r : Reader} {S : Width}

/-! ### What a sequencer answers when its decoder starves -/

theorem itBlockNext_of_starved (f215 : Bool) (start nOut : Nat) (hpos : s.it.blkpos < s.it.blklen)
    (h : decodeIt s.cfg (readGot s.src .it) S s.it.width s.rd = .starved r) :
    itBlockNext S f215 start nOut s = .control (itEnd .stopTruncated start nOut { s with rd := r }) := by
  simp only [itBlockNext, if_pos hpos, h]

theorem mdlNext_of_starved {nOut : Nat} (hlen : nOut < s.argLen)
    (h : decodeMdl s.cfg (readGot s.src .mdl) (s.rd.bitsLeft s.src + 1) S s.rd = .starved r) :
    mdlNext S nOut s = .control (mdlFinish .stopTruncated nOut (mdlSeekEnd { s with rd := r })) := by
  simp only [mdlNext, if_pos hlen, h]

theorem blastNext_of_starved (s0 nSink : Nat)
    (h : decodeBlast s.cfg (readGot s.src .pk) s.blast.lit s.blast.dict s.huf.lit s.huf.len s.huf.dist s.rd =
      .starved r) :
    blastNext s0 nSink s = .control (blastEnd .errStarved s0 nSink (blastStage s0 { s with rd := r })) := by
  simp only [blastNext, h]

theorem mmCompNext_of_starved (s0 b : Nat) {hdr : Nat}
    (hadv : mmAdvance S hdr (s.mm.nsub - s.mm.subk) s = some t) (hsub : t.mm.subk < t.mm.nsub)
    (h : decodeMm t.cfg (readGot t.src .pk) S t.mm.numbits t.rd = .starved r) :
    mmCompNext S s0 b hdr s = .control (mmStop .errStarved s0 { t with rd := r }) := by
  simp only [mmCompNext, hadv, if_neg (Nat.not_le_of_lt hsub), h]

theorem step_of_fetch_control (h : fetch s = .control t) : step s = .next t := by
  simp only [step, h]

/-! ### What an event needs beside the reader -/

/-- A unary run is given as many turns as there are bits ahead (42_mdl.md R176). -/
theorem ReaderBefore.bitsLeft {m : Source} {base : Nat} {bs : List Bool} (h : ReaderBefore m base bs r) :
    r.bitsLeft m = bs.length := by
  obtain ⟨p, hat, rfl⟩ := h
  exact hat.bitsLeft

/-- The sub-block cursor stays where its sub-block has room (45_mmcmp.md R251). -/
theorem mmAdvance_of_room {hdr n pos size : Nat} (hsub : s.subBlock? hdr s.mm.subk = some (pos, size))
    (hroom : s.mm.subpos < subElems S size) : mmAdvance S hdr n s = some s := by
  cases n with
  | zero => rfl
  | succ n => simp only [mmAdvance, hsub, if_neg (Nat.not_le.mpr hroom)]

end Starving

/-! ### `BLAST` at the end of its source -/

section Exhausted

variable {s : State} {s0 : Nat}

@[simp] theorem Window.firstBytes_length (w : Window) (n : Nat) : (w.firstBytes n).length = n := by
  simp [Window.firstBytes]

/-- The end of `BLAST`: the window's bytes go to `SINK`, the cursor to the end position, and `WFIRST` stays
(44_blast_lz77.md R225, R229, R231). -/
theorem blastEnd_eq (code : StatusCode) (s0 n : Nat) (s : State) :
    blastEnd code s0 n s =
      endCommand code (blastEndPosition s0 s - s0) (n + s.win.next.val)
        { s with
          rd := { s.rd with spos := blastEndPosition s0 s }
          win := { s.win with next := 0 }
          sink := s.sink ++ s.win.firstBytes s.win.next.val } := by
  simp only [blastEnd, Lz.flush, Lz.append, Window.firstBytes_length]
  rfl

/-- Chunks of 64 KiB cover the bytes taken (44_blast_lz77.md R231). -/
theorem le_chunksRead_default (u : Nat) : u ≤ 65536 * chunksRead Config.default u := by
  have hdef : chunksRead Config.default u = (u + 65535) / 65536 := rfl
  omega

/-- When the source is exhausted the end position is its end (44_blast_lz77.md R231). -/
theorem blastEndPosition_of_exhausted (hcfg : s.cfg = Config.default) (hspos : s.rd.spos = s.src.len) :
    blastEndPosition s0 s = s.src.len := by
  have hcover := le_chunksRead_default (s.src.len - s0)
  have hchunk : Config.default.pkChunk = 65536 := rfl
  rw [blastEndPosition, hcfg, hspos, hchunk]
  omega

/-- When the source is exhausted the staging holds the last chunk, with nothing left of it (log 18). -/
theorem blastStage_of_exhausted (hcfg : s.cfg = Config.default) (hspos : s.rd.spos = s.src.len) :
    blastStage s0 s =
      let u := s.src.len - s0
      let chunk := s0 + 65536 * ((u + 65535) / 65536 - 1)
      { s with
        blast :=
          if u = 0 then s.blast
          else { s.blast with inbuf := s.src.slice chunk (s.src.len - chunk), inleft := 0 } } := by
  have hchunk : s.cfg.pkChunk = 65536 := by rw [hcfg]; rfl
  have hchunks (u : Nat) : chunksRead s.cfg u = (u + 65535) / 65536 := by rw [hcfg]; rfl
  simp only [blastStage, blastEndPosition_of_exhausted hcfg hspos, hspos, hchunk, hchunks, Nat.sub_self]
  split <;> rfl

/-- The end of `BLAST` when the source is exhausted takes all of it and leaves the reader there. -/
theorem blastEnd_of_exhausted (code : StatusCode) (n : Nat) (hcfg : s.cfg = Config.default)
    (hspos : s.rd.spos = s.src.len) :
    blastEnd code s0 n s =
      endCommand code (s.src.len - s0) (n + s.win.next.val)
        { s with
          win := { s.win with next := 0 }
          sink := s.sink ++ s.win.firstBytes s.win.next.val } := by
  rw [blastEnd_eq, blastEndPosition_of_exhausted hcfg hspos, ← hspos]

end Exhausted

/-- Settles O13: the decoder over the block's bytes and the one over its bits agree; a starved event ends the command
where its range ends. -/
theorem itStream : Obligations.ItStream := by
  intro s S f start n base bs rest hp hpos hbefore
  have hrel := (readRel_stream s.src base (s.rd.limit s.src) .it).decodeIt (by decide) s.cfg S s.it.width
    ⟨hbefore, rfl⟩
  refine ⟨fun i hdec => ?_, fun hdec => ?_⟩
  · obtain ⟨r, hread, hafter, -⟩ := hrel.of_event hdec
    exact ⟨r, hafter, step_of_fetch_instr ((fetch_of_itBlock hp).trans (itBlockNext_of_event f start n hpos hread))⟩
  · obtain ⟨r, hread, -, hend⟩ := hrel.of_starved hdec
    exact ⟨r, hend, step_of_fetch_control ((fetch_of_itBlock hp).trans (itBlockNext_of_starved f start n hpos hread))⟩

/-- Settles O14: the unary run has the same turns over the bits and over the registers, so the decoders agree; a starved
event ends the command after the final seek. -/
theorem mdlStream : Obligations.MdlStream := by
  intro s S n base bs rest hp hlen hbefore
  have hrel := (readRel_stream s.src base (s.rd.limit s.src) .mdl).forget.decodeMdl (by decide) s.cfg
    s.cfg.mdlStepBits_le (fun _ _ _ => trivial) (bs.length + 1) S ⟨hbefore, rfl⟩
  rw [← hbefore.bitsLeft] at hrel
  refine ⟨fun i hdec => ?_, fun hdec => ?_⟩
  all_goals simp only [decodeBits, ← hbefore.bitsLeft] at hdec
  · obtain ⟨r, hread, hafter, -⟩ := hrel.of_event hdec
    exact ⟨r, hafter, step_of_fetch_instr ((fetch_of_mdl hp).trans (mdlNext_of_event hlen hread))⟩
  · obtain ⟨r, hread, -⟩ := hrel.of_starved hdec
    exact ⟨r, step_of_fetch_control ((fetch_of_mdl hp).trans (mdlNext_of_starved hlen hread))⟩

/-- Settles O15: the decoders agree over the static tables; a starved event leaves the source exhausted, so the staging
and the final flush are those of its end. -/
theorem blastStream : Obligations.BlastStream := by
  intro s a n base bs rest hp hcfg hdict hlit hlenTable hdist ha hlim hbefore
  have hstop : s.rd.limit s.src = s.src.len := by rw [Reader.limit, hlim, Nat.min_self]
  have hrel := (readRel_streamIn s.src base s.src.len s.rd.brlim s.rd.seedlv .pk).decodeBlast (by decide) s.cfg
    (fun sym => by rw [hcfg]; exact lengthExtra_default_le sym) s.blast.lit s.blast.dict
    (hdict.trans (by decide)) s.huf.lit s.huf.len s.huf.dist ⟨⟨hbefore, hstop⟩, rfl, rfl⟩
  refine ⟨fun i hdec => ?_, fun hdec => ?_⟩
  all_goals simp only [decodeBits, ← hlit, ← hlenTable, ← hdist] at hdec
  · obtain ⟨r, hread, ⟨hafter, -⟩, -⟩ := hrel.of_event hdec
    exact ⟨r, hafter, step_of_fetch_instr ((fetch_of_blast hp).trans (blastNext_of_event a n hread))⟩
  · obtain ⟨r, hread, ⟨hstarved, hend⟩, hbrlim, hseed⟩ := hrel.of_starved hdec
    refine ⟨r, hstarved, hend, hbrlim, hseed, ?_⟩
    rw [step_of_fetch_control ((fetch_of_blast hp).trans (blastNext_of_starved a n hread)),
      blastStage_of_exhausted (s := { s with rd := r }) hcfg hend]
    exact congrArg Host.Outcome.next (blastEnd_of_exhausted .errStarved n (by exact hcfg) (by exact hend))

/-- Settles O16: the cursor has room and stays, the decoders agree; a starved event stops `MMCMP` without a buffer. -/
theorem mmStream : Obligations.MmStream := by
  intro s S a b hdr base pos size bs rest hp hcfg hwidth hsubk hentry hroom hbefore
  have hadv := mmAdvance_of_room (n := s.mm.nsub - s.mm.subk) hentry hroom
  have hrel := (readRel_stream s.src base (s.rd.limit s.src) .pk).decodeMm s.cfg S s.mm.numbits
    (hwidth.trans_le (by cases S <;> decide)) (by rw [hcfg]; exact mmFetch_default_le S _)
    (by rw [hcfg]; cases S <;> decide) ⟨hbefore, rfl⟩
  refine ⟨fun i hdec => ?_, fun hdec => ?_⟩
  · obtain ⟨r, hread, hafter, -⟩ := hrel.of_event hdec
    exact ⟨r, hafter, step_of_fetch_instr ((fetch_of_mmComp hp).trans (mmCompNext_of_event a b hadv hsubk hread))⟩
  · obtain ⟨r, hread, -⟩ := hrel.of_starved hdec
    exact ⟨r, step_of_fetch_control ((fetch_of_mmComp hp).trans (mmCompNext_of_starved a b hadv hsubk hread))⟩

end Sys2Proof.Machine
end

section
/-! PROOFS, 41_it.md R141 to R150, R152, R153, R155, R157 to R159. The IT decoder: what `ITD*` leaves before its first
block, the steps at a block's start and end, the sample, and the changes of width, whose targets are the legal
widths. -/

namespace Sys2Proof

/-! ### Changes of width -/

section Widths

variable {c : Config} {S : Width} {w n x : Nat}

/-- The number a low or mid-range change holds for a target: the current width is left out (41_it.md R146, R147). -/
def changeNumber (w n : Nat) : Nat := if n < w then n else n - 1

/-- The numbers of the legal targets are 1 to `S`. -/
theorem changeNumber_range (hw : 1 ≤ w) (hwS : w ≤ S.bits + 1) (hn : 1 ≤ n) (hnS : n ≤ S.bits + 1) (hne : n ≠ w) :
    1 ≤ changeNumber w n ∧ changeNumber w n ≤ S.bits := by
  unfold changeNumber
  split <;> omega

/-- How 30_encoding.md R110 writes a change, by the range of the current width. -/
theorem asmWidthChange_low (h : w ≤ 6) : asmWidthChange c S w n = .itWl (changeNumber w n - c.itLowBias) := if_pos h

theorem asmWidthChange_mid (h : 6 < w) (hmax : w < S.itMax) :
    asmWidthChange c S w n = .itWm (c.itBorder S w + changeNumber w n) :=
  (if_neg (Nat.not_le.mpr h)).trans (if_pos hmax)

theorem asmWidthChange_top (h : 6 < w) (hmax : S.itMax ≤ w) : asmWidthChange c S w n = .itWt (n - c.itTopBias) :=
  (if_neg (Nat.not_le.mpr h)).trans (if_neg (Nat.not_lt.mpr hmax))

theorem wellFormed_itWl_iff :
    WellFormed c (.it S w) (.itWl x) = true ↔ 1 ≤ w ∧ w ≤ 6 ∧ x < 2 ^ S.itField := by
  simp only [WellFormed, Bool.and_eq_true, decide_eq_true_eq, and_assoc]

theorem wellFormed_itWm_iff :
    WellFormed c (.it S w) (.itWm x) = true ↔ 7 ≤ w ∧ w < S.itMax ∧ x < 2 ^ w ∧ c.inItWindow S w x = true := by
  simp only [WellFormed, Bool.and_eq_true, decide_eq_true_eq, and_assoc]

theorem wellFormed_itWt_iff : WellFormed c (.it S w) (.itWt x) = true ↔ w = S.itMax ∧ x < 2 ^ S.bits := by
  simp only [WellFormed, Bool.and_eq_true, decide_eq_true_eq]

/-- `2^FB` = `S`: the low-range field has a value for each target (41_it.md R140). -/
theorem Width.two_pow_itField (S : Width) : 2 ^ S.itField = S.bits := by cases S <;> rfl

/-- So has the window of the mid range, at the default parameters (41_it.md R147). -/
theorem inItWindow_default_iff : Config.default.inItWindow S w x = true ↔
    Config.default.itBorder S w < x ∧ x ≤ Config.default.itBorder S w + S.bits := by
  have hwindow : Config.default.itWindow S = S.bits := by cases S <;> rfl
  simp only [Config.inItWindow, hwindow, Bool.and_eq_true, decide_eq_true_eq]

/-- The window lies inside the `WIDTH`-bit values of each of the 2 or 10 widths of the mid range. -/
theorem itWindow_default_lt (hw : 6 < w) (hmax : w < S.itMax) : Config.default.itBorder S w + S.bits < 2 ^ w := by
  have hall : ∀ w < S.itMax, 6 < w → Config.default.itBorder S w + S.bits < 2 ^ w := by cases S <;> decide
  exact hall w hmax hw

/-- Every legal target has an event of the current width (41_it.md R146 to R148). -/
theorem asmWidthChange_wellFormed (hw : 1 ≤ w) (hwS : w ≤ S.bits + 1) (hn : 1 ≤ n) (hnS : n ≤ S.bits + 1)
    (hne : n ≠ w) :
    WellFormed Config.default (.it S w) (asmWidthChange Config.default S w n) = true := by
  have hmax := S.itMax_eq
  obtain ⟨hpos, hle⟩ := changeNumber_range hw hwS hn hnS hne
  rcases Nat.lt_or_ge 6 w with hlow | hlow
  · rcases Nat.lt_or_ge w S.itMax with hmid | htop
    · have hfit := itWindow_default_lt hlow hmid
      rw [asmWidthChange_mid hlow hmid, wellFormed_itWm_iff, inItWindow_default_iff]
      omega
    · have hfit : S.bits + 1 < 2 ^ S.bits := by cases S <;> decide
      rw [asmWidthChange_top hlow htop, wellFormed_itWt_iff]
      omega
  · have hbias : Config.default.itLowBias = 1 := rfl
    rw [asmWidthChange_low hlow, wellFormed_itWl_iff, S.two_pow_itField]
    omega

end Widths

end Sys2Proof

namespace Sys2Proof.Machine

open Sys2Proof

/-- The length field of a block, low byte first (41_it.md R143, 20_memory.md R64). -/
theorem Source.le_two (m : Source) (a : Nat) : m.le a 2 = (m.byte a).toNat + 256 * (m.byte (a + 1)).toNat := by
  simp only [Source.le, Nat.mul_zero, Nat.add_zero]

section ItDecoder

variable {s : State} {S : Width} {f215 : Bool} {start nOut : Nat}

/-! ### The start of `ITD*` -/

/-- A start that is not refused (41_it.md R141). -/
theorem itStart_of_accepted (hstride : s.argStride ≠ 0) (hspos : s.rd.spos ≤ s.src.len)
    (hroom : 0 < s.argLen → s.argBase + (s.argLen - 1) * s.argStride < s.dstCap) :
    itStart S f215 s =
      { s with
        rd := s.rd.emptied
        it := { s.it with rem := s.argLen }
        dpos := s.argBase
        phase := .itTop S f215 s.rd.spos 0 } := by
  have haccepted : ¬ itRefused s = true := by
    rw [itRefused_iff]
    push Not
    exact ⟨hstride, hspos, hroom⟩
  rw [itStart, if_neg haccepted]

/-! ### The steps between events -/

/-- The end of `ITD*`, its result registers as numbers (41_it.md R153). -/
theorem itEnd_eq_ended (code : StatusCode) (start nOut : Nat) (s : State) :
    itEnd code start nOut s = s.ended (BitVec.ofInt 32 code.num) (s.rd.spos - start) nOut := rfl

theorem fetch_of_itTop (hp : s.phase = .itTop S f215 start nOut) : fetch s = itTopNext S f215 start nOut s := by
  simp only [fetch, hp]

/-- With no samples left the command ends (41_it.md R141, R159). -/
theorem step_itTop_done (hp : s.phase = .itTop S f215 start nOut) (hrem : s.it.rem = 0) :
    step s = .next (itEnd .ok start nOut s) :=
  step_of_fetch_control ((fetch_of_itTop hp).trans (if_pos hrem))

/-- With samples left a block starts (41_it.md R141). -/
theorem step_itTop_start (hp : s.phase = .itTop S f215 start nOut) (hrem : s.it.rem ≠ 0) :
    step s = .next (itBlockStart S f215 start nOut s) :=
  step_of_fetch_control ((fetch_of_itTop hp).trans (if_neg hrem))

/-- The length field is cut short (41_it.md R144). -/
theorem itBlockStart_of_short (h : s.src.len < s.rd.spos + 2) :
    itBlockStart S f215 start nOut s = itEnd .stopTruncated start nOut (s.seek s.src.len) := if_pos h

/-- The block reaches beyond the source (41_it.md R144). -/
theorem itBlockStart_of_beyond (h : s.rd.spos + 2 ≤ s.src.len)
    (hbeyond : s.src.len < s.rd.spos + 2 + s.src.le s.rd.spos 2) :
    itBlockStart S f215 start nOut s = itEnd .stopTruncated start nOut (s.seek (s.rd.spos + 2)) :=
  (if_neg (Nat.not_lt.mpr h)).trans (if_pos hbeyond)

/-- The block lies inside the source (41_it.md R143). -/
theorem itBlockStart_of_inside (h : s.rd.spos + 2 + s.src.le s.rd.spos 2 ≤ s.src.len) :
    itBlockStart S f215 start nOut s =
      itOpenBlock S f215 start nOut (s.src.le s.rd.spos 2) (s.seek (s.rd.spos + 2)) :=
  (if_neg (by omega)).trans (if_neg (Nat.not_lt.mpr h))

/-- After its last sample a block ends (41_it.md R152). -/
theorem step_itBlock_full (hp : s.phase = .itBlock S f215 start nOut) (hfull : s.it.blklen ≤ s.it.blkpos) :
    step s = .next (itBlockEnd S f215 start nOut s) :=
  step_of_fetch_control ((fetch_of_itBlock hp).trans (if_neg (Nat.not_lt.mpr hfull)))

/-- An illegal width is found before anything is read (41_it.md R150). -/
theorem step_itBlock_badWidth (hp : s.phase = .itBlock S f215 start nOut) (hpos : s.it.blkpos < s.it.blklen)
    (hwidth : s.it.width = 0 ∨ S.itMax < s.it.width) : step s = .next (itEnd .errWidth start nOut s) := by
  have hdec : decodeIt s.cfg (readGot s.src .it) S s.it.width s.rd = .badWidth s.rd := if_pos hwidth
  refine step_of_fetch_control ((fetch_of_itBlock hp).trans ?_)
  simp only [itBlockNext, if_pos hpos, hdec]

/-! ### The sample -/

@[simp] theorem itIntegrate_d1 (S : Width) (f215 : Bool) (v : Int) (r : ItRegs) :
    (itIntegrate S f215 v r).1.d1 = sampleAdd S r.d1 v := by
  cases f215 <;> rfl

@[simp] theorem itIntegrate_d2_true (S : Width) (v : Int) (r : ItRegs) :
    (itIntegrate S true v r).1.d2 = sampleAdd S r.d2 (sampleAdd S r.d1 v).toNat := rfl

@[simp] theorem itIntegrate_d2_false (S : Width) (v : Int) (r : ItRegs) : (itIntegrate S false v r).1.d2 = r.d2 := rfl

/-- The sample emitted is the second integrator with `F215`, else the first (41_it.md R149, R155). -/
theorem itIntegrate_out (S : Width) (f215 : Bool) (v : Int) (r : ItRegs) :
    (itIntegrate S f215 v r).2 = if f215 then (itIntegrate S f215 v r).1.d2 else (itIntegrate S f215 v r).1.d1 := by
  cases f215 <;> rfl

/-- The sum of two elements, as natural numbers. -/
theorem sampleAdd_natCast_toNat (S : Width) (a : BitVec 16) (k : Nat) :
    (sampleAdd S a k).toNat = (a.toNat + k) % 2 ^ S.bits := by
  exact_mod_cast sampleAdd_toNat S a k

theorem exec_itS_of_room (hp : s.phase = .itBlock S f215 start nOut) (hroom : s.dpos < s.dstCap) (v : Nat) :
    exec (.itS v) s = .next (itSample S f215 start nOut v s) :=
  (inItBlock_of_phase hp _).trans (if_pos hroom)

/-- A sample in the registers: the integrators, one element of `DST`, and the two counters (41_it.md R149, R157). -/
theorem itSample_eq (S : Width) (f215 : Bool) (start nOut v : Nat) (s : State) :
    itSample S f215 start nOut v s =
      let next := itIntegrate S f215 (sext s.it.width v) s.it
      { s with
        dst := s.dst.write s.dpos next.2
        dpos := s.dpos + s.argStride
        it := { s.it with d1 := next.1.d1, d2 := next.1.d2, blkpos := s.it.blkpos + 1 }
        phase := .itBlock S f215 start (nOut + 1) } := by
  cases f215 <;> rfl

/-! ### Changes of width -/

theorem exec_itWl (hp : s.phase = .itBlock S f215 start nOut) (x : Nat) :
    exec (.itWl x) s = .next (s.setWidth (stepWidth s.it.width (x + s.cfg.itLowBias))) :=
  inItBlock_of_phase hp _

theorem exec_itWm (hp : s.phase = .itBlock S f215 start nOut) (x : Nat) :
    exec (.itWm x) s = .next (s.setWidth (stepWidth s.it.width (x - s.cfg.itBorder S s.it.width))) :=
  inItBlock_of_phase hp _

theorem exec_itWt (hp : s.phase = .itBlock S f215 start nOut) (x : Nat) :
    exec (.itWt x) s = .next (s.setWidth (x + s.cfg.itTopBias)) :=
  inItBlock_of_phase hp _

/-- The step undoes the numbering of the targets. -/
theorem stepWidth_changeNumber {w n : Nat} (hne : n ≠ w) : stepWidth w (changeNumber w n) = n := by
  unfold stepWidth changeNumber
  rcases Nat.lt_or_gt_of_ne hne with hbelow | habove
  · rw [if_pos hbelow, if_pos hbelow]
  · rw [if_neg (Nat.lt_asymm habove), if_neg (by omega)]
    omega

/-- The numbers 1 to `S` step to legal widths other than the current one (41_it.md R146, R147). -/
theorem stepWidth_legal {new : Nat} (w : Nat) (hpos : 1 ≤ new) (hle : new ≤ S.bits) :
    1 ≤ stepWidth w new ∧ stepWidth w new ≤ S.bits + 1 ∧ stepWidth w new ≠ w := by
  unfold stepWidth
  split <;> omega

/-- The event for a target makes that change (41_it.md R146 to R148). -/
theorem exec_asmWidthChange (hp : s.phase = .itBlock S f215 start nOut) (hcfg : s.cfg = Config.default)
    (hw : 1 ≤ s.it.width) (hwS : s.it.width ≤ S.bits + 1) {n : Nat} (hn : 1 ≤ n) (hnS : n ≤ S.bits + 1)
    (hne : n ≠ s.it.width) :
    exec (asmWidthChange s.cfg S s.it.width n) s = .next (s.setWidth n) := by
  have hlowBias : s.cfg.itLowBias = 1 := by rw [hcfg]; rfl
  have htopBias : s.cfg.itTopBias = 0 := by rw [hcfg]; rfl
  obtain ⟨hpos, -⟩ := changeNumber_range hw hwS hn hnS hne
  rcases Nat.lt_or_ge 6 s.it.width with hlow | hlow
  · rcases Nat.lt_or_ge s.it.width S.itMax with hmid | htop
    · rw [asmWidthChange_mid hlow hmid, exec_itWm hp, Nat.add_sub_cancel_left, stepWidth_changeNumber hne]
    · rw [asmWidthChange_top hlow htop, exec_itWt hp, htopBias, Nat.sub_zero, Nat.add_zero]
  · rw [asmWidthChange_low hlow, exec_itWl hp, hlowBias, Nat.sub_add_cancel hpos, stepWidth_changeNumber hne]

/-- A low-range event leads to another legal width (41_it.md R146, R150). -/
theorem exec_itWl_legal {t : State} {x : Nat} (hp : s.phase = .itBlock S f215 start nOut)
    (hcfg : s.cfg = Config.default) (hx : WellFormed s.cfg (.it S s.it.width) (.itWl x) = true)
    (h : exec (.itWl x) s = .next t) :
    1 ≤ t.it.width ∧ t.it.width ≤ S.bits + 1 ∧ t.it.width ≠ s.it.width := by
  obtain ⟨-, -, hfield⟩ := wellFormed_itWl_iff.mp hx
  rw [S.two_pow_itField] at hfield
  have hbias : s.cfg.itLowBias = 1 := by rw [hcfg]; rfl
  rw [exec_itWl hp, hbias] at h
  cases h
  exact stepWidth_legal _ (Nat.le_add_left ..) hfield

/-- A mid-range event leads to another legal width (41_it.md R147, R150). -/
theorem exec_itWm_legal {t : State} {x : Nat} (hp : s.phase = .itBlock S f215 start nOut)
    (hcfg : s.cfg = Config.default) (hx : WellFormed s.cfg (.it S s.it.width) (.itWm x) = true)
    (h : exec (.itWm x) s = .next t) :
    1 ≤ t.it.width ∧ t.it.width ≤ S.bits + 1 ∧ t.it.width ≠ s.it.width := by
  obtain ⟨-, -, -, hwindow⟩ := wellFormed_itWm_iff.mp hx
  rw [exec_itWm hp] at h
  cases h
  rw [hcfg, inItWindow_default_iff] at hwindow
  rw [hcfg]
  exact stepWidth_legal _ (by omega) (by omega)

end ItDecoder

/-- Settles O24: the registers after a sample are those of the integration, and the element at `DPOS` is what it
emits. -/
theorem itSample_integrates : Obligations.ItSample := by
  intro s S f start n v hp hroom
  refine ⟨_, exec_itS_of_room hp hroom v, ?_⟩
  rw [itSample_eq]
  refine ⟨?d1, ?d2, ?kept, ?stored, fun a ha => Memory.read_write_ne _ _ ha, rfl⟩
  case d1 =>
    rw [itIntegrate_d1, sampleAdd_toNat]
    rfl
  case d2 =>
    rintro rfl
    simp only [itIntegrate_d2_true, itIntegrate_d1, sampleAdd_natCast_toNat]
  case kept =>
    rintro rfl
    rw [itIntegrate_d2_false]
  case stored =>
    rw [Memory.read_write_same, itIntegrate_out]

/-- Settles O26: the numbers of the targets fill the low-range field and the mid-range window. -/
theorem itWidthTargets : Obligations.ItWidthTargets := by
  intro s S f start n hp hcfg hw hwS
  refine ⟨fun w hpos hle hne => ⟨?_, exec_asmWidthChange hp hcfg hw hwS hpos hle hne⟩, ?_⟩
  · rw [hcfg]
    exact asmWidthChange_wellFormed hw hwS hpos hle hne
  · rintro x t (⟨hx, h⟩ | ⟨hx, h⟩)
    · exact exec_itWl_legal hp hcfg hx h
    · exact exec_itWm_legal hp hcfg hx h

/-- Settles O21: an idle block takes `ITD*`, and its arguments are not refused. -/
theorem itdStarts : Obligations.ItdStarts := by
  intro s f hp hstride hspos hroom
  have hstart (S : Width) := itStart_of_accepted (S := S) (f215 := f) hstride hspos hroom
  exact ⟨(whenIdle_idle hp _).trans (congrArg Host.Outcome.next (hstart .w8)),
    (whenIdle_idle hp _).trans (congrArg Host.Outcome.next (hstart .w16))⟩

/-- Settles O22: with samples left the step is the block's start, which has three outcomes. -/
theorem itBlockStarts : Obligations.ItBlockStarts := by
  intro s S f start n hp hrem
  have hstep := step_itTop_start hp (Nat.ne_of_gt hrem)
  have hcount := s.src.le_two s.rd.spos
  refine ⟨fun hshort => ?_, fun hlength hbeyond => ?_, fun hinside => ?_⟩
  · rw [hstep, itBlockStart_of_short hshort]
    rfl
  · rw [← hcount] at hbeyond
    rw [hstep, itBlockStart_of_beyond hlength hbeyond]
    rfl
  · rw [← hcount] at hinside ⊢
    rw [hstep, itBlockStart_of_inside hinside]
    cases S <;> rfl

/-- Settles O23: a full block ends, a command without samples left ends, and an illegal width is found before its
event. -/
theorem itBlockEnds : Obligations.ItBlockEnds := by
  intro s S f start n
  refine ⟨step_itBlock_full, step_itTop_done, fun hp hpos hwidth => ?_⟩
  rw [← S.itMax_eq] at hwidth
  exact step_itBlock_badWidth hp hpos hwidth

/-- Settles O25: each width change is `setWidth` of its own target. -/
theorem itWidthChanges : Obligations.ItWidthChanges := fun _ _ _ _ _ x hp =>
  ⟨exec_itWl hp x, exec_itWm hp x, exec_itWt hp x⟩

end Sys2Proof.Machine
end

section
/-! PROOFS, 42_mdl.md R171 to R178, R180, R181, R183 and 30_encoding.md R110. The MDL decoder: what `MDLD*` leaves before
its first sample, the sample that integrates a signed magnitude, the event for each step of `DLT`, and the end of the
command. -/

namespace Sys2Proof.Machine

open Sys2Proof

/-- A lookahead adds whole bytes (40_bitreader.md R122). -/
theorem Reader.topUp_cnt_mod_eight (m : Source) (turns : Nat) (r : Reader) :
    (r.topUp m turns).cnt % 8 = r.cnt % 8 := by
  induction turns generalizing r with
  | zero => rfl
  | succ turns ih =>
    rw [Reader.topUp]
    split
    · rw [ih, Reader.fetch_cnt, Nat.add_mod_right]
    · rfl

/-- From the empty accumulator a lookahead reaches a level of whole bytes exactly (42_mdl.md R174). -/
theorem Reader.topUp_cnt_of_empty {m : Source} {r : Reader} {turns : Nat} (hempty : r.cnt = 0)
    (hturns : r.seedlv ≤ 8 * turns) (hbytes : 8 ∣ r.seedlv) : (r.topUp m turns).cnt = r.seedlv := by
  have hlevel := Reader.topUp_level m turns r (by omega) (by omega)
  have hmod := Reader.topUp_cnt_mod_eight m turns r
  omega

section MdlDecoder

variable {s : State} {S : Width} {n : Nat} {lo : Option Byte} {sign : Bool} {b : Byte}

/-! ### The start of `MDLD*` -/

/-- The tests of the start, passed (42_mdl.md R171). -/
theorem mdlRefused_of_accepted (hspos : s.rd.spos ≤ s.src.len)
    (hroom : 0 < s.argLen → s.argBase + (s.argLen - 1) < s.dstCap) : ¬ mdlRefused s = true := by
  rw [mdlRefused_iff]
  push Not
  exact ⟨hspos, hroom⟩

/-- The length field is cut short (42_mdl.md R173). -/
theorem mdlStart_of_short (haccepted : ¬ mdlRefused s = true) (hshort : s.src.len < s.rd.spos + 4) :
    mdlStart S s = mdlFinish .stopTruncated 0 ((mdlOpen S s).seek s.src.len) :=
  (if_neg haccepted).trans (if_pos hshort)

/-- The reader of the sample loop: emptied after the length field `plen`, bounded by the declared payload cut to the source,
and filled to its seed level (42_mdl.md R171, R174). -/
def mdlSeededReader (S : Width) (s : State) (plen : Nat) : Reader :=
  (({ s.rd with spos := s.rd.spos + 4 } : Reader).clear (min (s.rd.spos + 4 + plen) s.src.len)
    (8 * S.mdlSeed)).topUp s.src (8 * S.mdlSeed)

/-- The length field is whole: the sample loop begins (42_mdl.md R171). -/
theorem mdlStart_of_whole (haccepted : ¬ mdlRefused s = true) (hwhole : s.rd.spos + 4 ≤ s.src.len) :
    mdlStart S s =
      { s with
        mdl := { s.mdl with mstart := s.rd.spos, plen := s.src.le s.rd.spos 4, dlt := 0 }
        dpos := s.argBase
        rd := mdlSeededReader S s (s.src.le s.rd.spos 4)
        phase := .mdl S 0 } :=
  (if_neg haccepted).trans (if_neg (Nat.not_lt.mpr hwhole))

/-- The seeded reader stands before the first payload bit, for any declared length. -/
theorem mdlSeededReader_at (S : Width) (plen : Nat) (hwhole : s.rd.spos + 4 ≤ s.src.len) :
    ReaderAt s.src (s.rd.spos + 4) 0 (mdlSeededReader S s plen) :=
  (ReaderAt.clear { s.rd with spos := s.rd.spos + 4 } s.src _ _ (mdlSeed_bytes S).1
    (Nat.le_min.mpr ⟨Nat.le_min.mpr ⟨Nat.le_add_right .., hwhole⟩, hwhole⟩)).topUp _

theorem mdlSeededReader_seedlv (S : Width) (s : State) (plen : Nat) :
    (mdlSeededReader S s plen).seedlv = 8 * S.mdlSeed := Reader.topUp_seedlv ..

theorem mdlSeededReader_brlim (S : Width) (s : State) (plen : Nat) :
    (mdlSeededReader S s plen).brlim = min (s.rd.spos + 4 + plen) s.src.len := Reader.topUp_brlim ..

/-- The seeded reader holds 4 or 8 bytes, phantom ones where the payload is shorter (42_mdl.md R174). -/
theorem mdlSeededReader_cnt (S : Width) (s : State) (plen : Nat) :
    (mdlSeededReader S s plen).cnt = 8 * S.mdlSeed :=
  Reader.topUp_cnt_of_empty rfl (Nat.mul_le_mul_left 8 (Nat.le_mul_of_pos_left _ (by decide))) (mdlSeed_bytes S).2

/-! ### The sample -/

/-- The signed step as a number below 256 (42_mdl.md R175, R177). -/
theorem mdlStep_toNat (c : Config) (sign : Bool) (b : Byte) :
    (mdlStep c sign b).toNat =
      if sign then (if c.mdlNegOnes then 255 - b.toNat else (256 - b.toNat) % 256) else b.toNat := by
  have hb := b.isLt
  unfold mdlStep
  split
  · split
    · rw [BitVec.toNat_sub, show (0xFF : Byte).toNat = 255 from rfl]
      omega
    · rw [BitVec.toNat_sub, show (0 : Byte).toNat = 0 from rfl, Nat.add_zero]
  · rfl

/-- An 8-bit element is `DLT` (42_mdl.md R178). -/
theorem mdlElement_w8_toNat (r : MdlRegs) : (mdlElement .w8 r).toNat = r.dlt.toNat :=
  BitVec.toNat_setWidth_of_le (by decide)

/-- A 16-bit element is `DLT` above the copied low byte (42_mdl.md R178). -/
theorem mdlElement_w16_toNat (r : MdlRegs) : (mdlElement .w16 r).toNat = r.dlt.toNat * 256 + r.mlo.toNat := by
  rw [mdlElement, BitVec.toNat_append, ← Nat.shiftLeft_add_eq_or_of_lt r.mlo.isLt, Nat.shiftLeft_eq]

/-- A sample in the registers: the low byte, the sign, the signed step and `DLT`, and one element of `DST`
(42_mdl.md R175, R178). -/
theorem mdlSample_of_room (hp : s.phase = .mdl S n) (hroom : s.dpos < s.dstCap) (lo : Option Byte) (sign : Bool)
    (b : Byte) :
    mdlSample lo sign b s =
      let regs := mdlRegsAfter s.cfg S lo sign b s.mdl
      .next
        { s with
          dst := s.dst.write s.dpos (mdlElement S regs)
          dpos := s.dpos + 1
          mdl := regs
          phase := .mdl S (n + 1) } := by
  simp only [mdlSample, inMdl, hp, if_pos hroom]
  rfl

theorem mdlLongMagnitude_toNat (c : Config) (run : Nat) (r : BitVec 4) :
    (mdlLongMagnitude c run r).toNat = (c.mdlLongBase + 16 * run + r.toNat) % 256 := BitVec.toNat_ofNat ..

/-- Both forms of `mdl.s` are a sample of their magnitude (42_mdl.md R175, R176). -/
theorem exec_mdlEvent {i : Instr} {mag : Nat} (s : State)
    (hi : (∃ m : BitVec 3, i = .mdlShort lo sign m ∧ mag = m.toNat) ∨
      ∃ k r, i = .mdlLong lo sign k r ∧ mag = (s.cfg.mdlLongBase + 16 * k + r.toNat) % 256) :
    ∃ b : Byte, b.toNat = mag ∧ exec i s = mdlSample lo sign b s := by
  rcases hi with ⟨m, rfl, rfl⟩ | ⟨k, r, rfl, rfl⟩
  · exact ⟨m.setWidth 8, BitVec.toNat_setWidth_of_le (by decide), rfl⟩
  · exact ⟨mdlLongMagnitude s.cfg k r, mdlLongMagnitude_toNat .., rfl⟩

/-! ### The event for a step -/

/-- The event has the low byte the width asks for (30_encoding.md R101). -/
theorem asmMdl_wellFormed (c : Config) (sign : Bool) (m : Nat) (hlo : lo.isSome = (S == .w16)) :
    WellFormed c (.mdl S) (asmMdl c lo sign m) = true := by
  unfold asmMdl
  split <;> exact beq_iff_eq.mpr hlo

/-- The short form holds a magnitude below 8, the long form 8 and more (30_encoding.md R110). -/
theorem asmMdl_forms {c : Config} {m : Nat} (lo : Option Byte) (sign : Bool) (hbase : c.mdlLongBase = 8)
    (hm : m < 256) :
    (∃ x : BitVec 3, asmMdl c lo sign m = .mdlShort lo sign x ∧ m = x.toNat) ∨
      ∃ k r, asmMdl c lo sign m = .mdlLong lo sign k r ∧ m = (c.mdlLongBase + 16 * k + r.toNat) % 256 := by
  unfold asmMdl
  split
  · rename_i hshort
    exact .inl ⟨_, rfl, (Nat.mod_eq_of_lt hshort).symm⟩
  · refine .inr ⟨_, _, rfl, ?_⟩
    rw [hbase, BitVec.toNat_ofNat]
    omega

/-! ### The end of `MDLD*` -/

/-- With no samples left to produce the command ends (42_mdl.md R180). -/
theorem step_mdl_done (hp : s.phase = .mdl S n) (hdone : s.argLen ≤ n) :
    step s = .next (mdlFinish .ok n (mdlSeekEnd s)) :=
  step_of_fetch_control ((fetch_of_mdl hp).trans (if_neg (Nat.not_lt.mpr hdone)))

end MdlDecoder

/-- Settles O30: the end of the sample loop is the final seek and completion. -/
theorem mdlEnds : Obligations.MdlEnds := fun _ _ _ hp hdone => step_mdl_done hp hdone

/-- Settles O27: an idle block takes `MDLD*`, its arguments are not refused, and the length field is cut short or whole. -/
theorem mdldStarts : Obligations.MdldStarts := by
  intro s hp hspos hroom S i seed hi
  obtain ⟨hexec, rfl⟩ : exec i s = .next (mdlStart S s) ∧ seed = S.mdlSeed := by
    rcases hi with ⟨rfl, rfl, rfl⟩ | ⟨rfl, rfl, rfl⟩
    · exact ⟨whenIdle_idle hp _, rfl⟩
    · exact ⟨whenIdle_idle hp _, rfl⟩
  have haccepted := mdlRefused_of_accepted hspos hroom
  refine ⟨fun hshort => ?_, fun hwhole => ?_⟩
  · rw [hexec, mdlStart_of_short haccepted hshort]
    rfl
  · refine ⟨mdlSeededReader S s (s.src.le s.rd.spos 4), mdlSeededReader_at S _ hwhole, mdlSeededReader_seedlv ..,
      mdlSeededReader_cnt .., mdlSeededReader_brlim .., ?_⟩
    rw [hexec, mdlStart_of_whole haccepted hwhole]
    rfl

/-- Settles O28: either form is a sample of its magnitude, whose registers and element are those of the integration. -/
theorem mdlSample_integrates : Obligations.MdlSample := by
  intro s S n lo sign i mag hp hroom hlo hi
  obtain ⟨b, rfl, hexec⟩ := exec_mdlEvent s hi
  rw [hexec, mdlSample_of_room hp hroom]
  refine ⟨_, rfl, ?dlt, mdlStep_toNat .., ?mlo, ⟨_, Memory.read_write_same .., ?element⟩,
    fun a ha => Memory.read_write_ne _ _ ha, rfl⟩
  case dlt =>
    rw [← mdlStep_toNat]
    exact BitVec.toNat_add ..
  case mlo =>
    cases S with
    | w8 => rfl
    | w16 =>
      obtain ⟨low, rfl⟩ := Option.isSome_iff_exists.mp hlo
      rfl
  case element =>
    cases S with
    | w8 => exact mdlElement_w8_toNat _
    | w16 =>
      obtain ⟨low, rfl⟩ := Option.isSome_iff_exists.mp hlo
      exact mdlElement_w16_toNat _

/-- Settles O29 from O28: the event for a magnitude is one of the two forms of it. -/
theorem mdlCoding : Obligations.MdlCoding := by
  intro s S n m lo sign hp hroom hcfg hlo hm
  refine ⟨asmMdl_wellFormed s.cfg sign m hlo, ?_⟩
  have hbase : s.cfg.mdlLongBase = 8 := by rw [hcfg]; rfl
  have hones : s.cfg.mdlNegOnes = false := by rw [hcfg]; rfl
  obtain ⟨t, hexec, hdlt, -⟩ :=
    mdlSample_integrates s S n lo sign _ m hp hroom hlo (asmMdl_forms lo sign hbase hm)
  refine ⟨t, hexec, ?_⟩
  rw [hdlt, hones]
  cases sign with
  | false =>
    simp only [Bool.false_eq_true, if_false]
    omega
  | true =>
    simp only [Bool.false_eq_true, if_false, if_true]
    omega

end Sys2Proof.Machine
end

section
/-! PROOFS, 43_huffman.md R190, R191, R193, R194, R195, R197. What `construct` makes of a list of code lengths, said once for
each field of the table; the code each symbol has by the counts and the place it has in `SYMBOL`. -/

namespace Sys2Proof.Machine

open Sys2Proof

section Construct

variable {c : Config} {old : HufTable} {lengths : List Nat} {sym l : Nat}

/-! ### The fields of a constructed table -/

theorem noCodes_iff : noCodes lengths = true ↔ ∀ l ∈ lengths, l = 0 := by
  rw [noCodes, beq_iff_eq, List.count_eq_length]
  exact forall₂_congr fun _ _ => eq_comm

theorem noCodes_of_code (h : ∃ l ∈ lengths, l ≠ 0) : noCodes lengths = false := by
  obtain ⟨l, hl, hne⟩ := h
  exact Bool.eq_false_iff.mpr fun hno => hne (noCodes_iff.mp hno l hl)

theorem constructStatus_of_noCodes (h : noCodes lengths = true) : constructStatus c lengths = 0 := if_pos h

theorem constructStatus_of_code (h : ∃ l ∈ lengths, l ≠ 0) :
    constructStatus c lengths = kraftLeft ((tally c lengths).drop 1) 1 := by
  rw [constructStatus, noCodes_of_code h]
  rfl

/-- Without a code to give every symbol is left without one. -/
theorem noCodes_of_not_code (h : ¬ ∃ l ∈ lengths, l ≠ 0) : noCodes lengths = true := by
  push Not at h
  exact noCodes_iff.mpr h

/-- An over-subscribed set has codes, for "no codes" has status 0 (43_huffman.md R195). -/
theorem exists_code_of_neg (h : constructStatus c lengths < 0) : ∃ l ∈ lengths, l ≠ 0 := by
  by_contra hno
  rw [constructStatus_of_noCodes (noCodes_of_not_code hno)] at h
  exact lt_irrefl 0 h

theorem constructTable_of_noCodes (h : noCodes lengths = true) :
    constructTable c old lengths =
      { old with count := tally c lengths, nsym := lengths.length, valid := true } := if_pos h

theorem constructTable_of_neg (h : constructStatus c lengths < 0) :
    constructTable c old lengths =
      { old with count := tally c lengths, nsym := lengths.length, valid := false } := by
  rw [constructTable, noCodes_of_code (exists_code_of_neg h), if_neg Bool.false_ne_true, if_pos h]

theorem constructTable_of_nonneg (h : 0 ≤ constructStatus c lengths) (hcode : ∃ l ∈ lengths, l ≠ 0) :
    constructTable c old lengths =
      { count := tally c lengths
        symbol := (sortedSymbols c lengths).map (BitVec.ofNat 8) ++ old.symbol.drop (sortedSymbols c lengths).length
        nsym := lengths.length
        valid := true } := by
  simp only [constructTable, noCodes_of_code hcode, if_neg Bool.false_ne_true, if_neg (not_lt.mpr h), List.length_map]

/-- The three ways `construct` can end (43_huffman.md R195). -/
theorem construct_cases (c : Config) (lengths : List Nat) :
    noCodes lengths = true ∨ constructStatus c lengths < 0 ∨
      0 ≤ constructStatus c lengths ∧ ∃ l ∈ lengths, l ≠ 0 := by
  rcases lt_or_ge (constructStatus c lengths) 0 with hneg | hnonneg
  · exact .inr (.inl hneg)
  · by_cases hcode : ∃ l ∈ lengths, l ≠ 0
    · exact .inr (.inr ⟨hnonneg, hcode⟩)
    · exact .inl (noCodes_of_not_code hcode)

@[simp] theorem constructTable_count : (constructTable c old lengths).count = tally c lengths := by
  rcases construct_cases c lengths with hno | hneg | ⟨hnonneg, hcode⟩
  · rw [constructTable_of_noCodes hno]
  · rw [constructTable_of_neg hneg]
  · rw [constructTable_of_nonneg hnonneg hcode]

@[simp] theorem constructTable_nsym : (constructTable c old lengths).nsym = lengths.length := by
  rcases construct_cases c lengths with hno | hneg | ⟨hnonneg, hcode⟩
  · rw [constructTable_of_noCodes hno]
  · rw [constructTable_of_neg hneg]
  · rw [constructTable_of_nonneg hnonneg hcode]

theorem constructTable_valid : (constructTable c old lengths).valid = decide (0 ≤ constructStatus c lengths) := by
  rcases construct_cases c lengths with hno | hneg | ⟨hnonneg, hcode⟩
  · rw [constructTable_of_noCodes hno, constructStatus_of_noCodes hno]
    rfl
  · rw [constructTable_of_neg hneg, decide_eq_false (not_le.mpr hneg)]
  · rw [constructTable_of_nonneg hnonneg hcode, decide_eq_true hnonneg]

/-- A length that is not malformed is at most `MAXBITS`, and the set has at most 256 symbols (43_huffman.md R193). -/
theorem malformed_eq_false : malformed c lengths = false ↔ lengths.length ≤ 256 ∧ ∀ l ∈ lengths, l ≤ c.maxBits := by
  simp [malformed]

/-! ### The counts from a length on -/

theorem tally_getElem? (h : l ≤ c.maxBits) : (tally c lengths)[l]? = some (lengths.count l) := by
  simp [tally, List.getElem?_range (Nat.lt_succ_of_le h)]

theorem tally_drop_one : (tally c lengths).drop 1 = (List.range' 1 c.maxBits).map lengths.count := by
  simp [tally, List.range_eq_range', List.range'_succ]

/-- `decode` walks over the counts of the lengths 1 to `MAXBITS` (43_huffman.md R197). -/
theorem codeCounts_constructTable :
    codeCounts c (constructTable c old lengths) = (List.range' 1 c.maxBits).map lengths.count := by
  rw [codeCounts, List.range'_eq_map_range, List.map_map]
  refine List.map_congr_left fun i hi => ?_
  rw [constructTable_count, List.getD_eq_getElem?_getD, tally_getElem? (List.mem_range.mp hi), Option.getD_some,
    Function.comp, Nat.add_comm]

/-- The recursion of the first codes (43_huffman.md R191). -/
theorem firstCode_succ (lengths : List Nat) (h : 1 ≤ l) :
    firstCode lengths (l + 1) = (firstCode lengths l + lengths.count l) * 2 := by
  obtain ⟨k, rfl⟩ := Nat.exists_eq_add_of_le' h
  rfl

/-- The `j`-th code of a length is the first code of the length plus `j` (43_huffman.md R191). -/
theorem codeAt_counts {d k j : Nat} (hl : 1 ≤ l) (hk : k < d) (hj : j < lengths.count (l + k)) :
    codeAt ((List.range' l d).map lengths.count) (((List.range' l k).map lengths.count).sum + j) (firstCode lengths l) l =
      some (l + k, firstCode lengths (l + k) + j) := by
  induction k generalizing l d with
  | zero =>
    obtain ⟨d, rfl⟩ := Nat.exists_eq_add_of_le' hk
    simp only [Nat.add_zero] at hj
    simp [List.range'_succ, codeAt, hj]
  | succ k ih =>
    obtain ⟨d, rfl⟩ : ∃ e, d = e + 1 := ⟨d - 1, by omega⟩
    have hnext := ih (l := l + 1) (d := d) (by omega) (by omega) (by rwa [Nat.add_right_comm])
    rw [List.range'_succ, List.range'_succ, List.map_cons, List.map_cons, List.sum_cons, codeAt, if_neg (by omega),
      ← firstCode_succ lengths hl, Nat.add_assoc, Nat.add_sub_cancel_left, hnext, Nat.add_right_comm, Nat.add_assoc]

/-! ### The places of the symbols -/

/-- The symbols of a length, the first symbol split off. -/
theorem symbolsOfLength_cons (x : Nat) (xs : List Nat) (l : Nat) :
    symbolsOfLength (x :: xs) l = (if x = l then [0] else []) ++ (symbolsOfLength xs l).map Nat.succ := by
  simp only [symbolsOfLength, List.length_cons, List.range_succ_eq_map, List.filter_cons, List.filter_map]
  by_cases h : x = l <;> simp [h, Function.comp_def]

@[simp] theorem symbolsOfLength_length (lengths : List Nat) (l : Nat) :
    (symbolsOfLength lengths l).length = lengths.count l := by
  induction lengths with
  | nil => rfl
  | cons x xs ih =>
    rw [symbolsOfLength_cons, List.length_append, List.length_map, ih, List.count_cons]
    by_cases h : x = l <;> simp [h, Nat.add_comm]

theorem mem_symbolsOfLength : sym ∈ symbolsOfLength lengths l ↔ lengths[sym]? = some l := by
  simp only [symbolsOfLength, List.mem_filter, List.mem_range, List.getD_eq_getElem?_getD, beq_iff_eq,
    List.getElem?_eq_some_iff]
  constructor
  · rintro ⟨hlt, hlen⟩
    rw [List.getElem?_eq_getElem hlt] at hlen
    exact ⟨hlt, hlen⟩
  · rintro ⟨hlt, hlen⟩
    rw [List.getElem?_eq_getElem hlt]
    exact ⟨hlt, hlen⟩

/-- A symbol's place among those of its length is the number of earlier symbols of that length (43_huffman.md R190). -/
theorem symbolsOfLength_rank (h : lengths[sym]? = some l) :
    (symbolsOfLength lengths l)[(lengths.take sym).count l]? = some sym := by
  induction lengths generalizing sym with
  | nil => simp at h
  | cons x xs ih =>
    rw [symbolsOfLength_cons]
    cases sym with
    | zero =>
      have hx : x = l := by simpa using h
      simp [hx]
    | succ sym =>
      have hrest := ih (by simpa using h)
      by_cases hx : x = l <;> simp [hx, hrest]

/-- A symbol's rank is below the number of symbols of its length. -/
theorem rank_lt_count (h : lengths[sym]? = some l) : (lengths.take sym).count l < lengths.count l := by
  obtain ⟨hlt, -⟩ := List.getElem?_eq_some_iff.mp (symbolsOfLength_rank h)
  rwa [symbolsOfLength_length] at hlt

theorem sortedSymbols_eq : sortedSymbols c lengths = (List.range' 1 c.maxBits).flatMap (symbolsOfLength lengths) := by
  simp [sortedSymbols, List.range'_eq_map_range, List.flatMap_map, Nat.add_comm]

/-- Behind the symbols of the shorter lengths stand those of a length. -/
theorem symbols_getElem? {d k j : Nat} (hk : k < d) (hj : j < lengths.count (l + k)) :
    ((List.range' l d).flatMap (symbolsOfLength lengths))[((List.range' l k).map lengths.count).sum + j]? =
      (symbolsOfLength lengths (l + k))[j]? := by
  induction k generalizing l d with
  | zero =>
    obtain ⟨d, rfl⟩ := Nat.exists_eq_add_of_le' hk
    rw [List.range'_succ, List.flatMap_cons, List.getElem?_append_left (by simpa using hj)]
    simp
  | succ k ih =>
    obtain ⟨d, rfl⟩ : ∃ e, d = e + 1 := ⟨d - 1, by omega⟩
    have hnext := ih (l := l + 1) (d := d) (by omega) (by rwa [Nat.add_right_comm])
    rw [List.range'_succ, List.range'_succ, List.map_cons, List.sum_cons, List.flatMap_cons,
      List.getElem?_append_right (by simp; omega), symbolsOfLength_length, Nat.add_assoc, Nat.add_sub_cancel_left, hnext,
      Nat.add_right_comm, Nat.add_assoc]

/-- A place of `SYMBOL` holds the symbol that sorting puts there (43_huffman.md R190). -/
theorem symbolAt_of_sorted {i : Nat} (h : 0 ≤ constructStatus c lengths) (hcode : ∃ l ∈ lengths, l ≠ 0)
    (hsym : (sortedSymbols c lengths)[i]? = some sym) :
    (constructTable c old lengths).symbolAt i = BitVec.ofNat 8 sym := by
  obtain ⟨hi, -⟩ := List.getElem?_eq_some_iff.mp hsym
  rw [constructTable_of_nonneg h hcode, HufTable.symbolAt, List.getD_eq_getElem?_getD,
    List.getElem?_append_left (by simpa using hi), List.getElem?_map, hsym]
  rfl

end Construct

/-- Settles O33: the symbol's code stands in the counts where the symbol stands in `SYMBOL`, and the walk over the bits of
a code gives the symbol at the code's place. -/
theorem canonicalDecode : Obligations.CanonicalDecode := by
  intro c old lengths sym l rest hmal hstatus hsym hl
  obtain ⟨hsize, hmax⟩ := malformed_eq_false.mp hmal
  have hmem : l ∈ lengths := List.mem_of_getElem? hsym
  have hbits := hmax l hmem
  have hcode : ∃ l ∈ lengths, l ≠ 0 := ⟨l, hmem, hl⟩
  obtain ⟨k, rfl⟩ : ∃ k, l = 1 + k := ⟨l - 1, by omega⟩
  have hrank := rank_lt_count hsym
  have hat := codeAt_counts (l := 1) (d := c.maxBits) (Nat.le_refl 1) (by omega) hrank
  have hbyte : sym < 256 := (List.getElem?_eq_some_iff.mp hsym).1.trans_le hsize
  have hplace : (constructTable c old lengths).symbolAt
      (((List.range' 1 k).map lengths.count).sum + (lengths.take sym).count (1 + k)) = BitVec.ofNat 8 sym := by
    have hsorted := (symbols_getElem? (l := 1) (d := c.maxBits) (by omega) hrank).trans (symbolsOfLength_rank hsym)
    rw [← sortedSymbols_eq] at hsorted
    exact symbolAt_of_sorted hstatus hcode hsorted
  have hfits : firstCode lengths (1 + k) + (lengths.take sym).count (1 + k) < 2 ^ (1 + k) := by
    refine codeAt_lt (left := 1) hat ?_ (by norm_num [firstCode])
    rwa [← tally_drop_one, ← constructStatus_of_code hcode]
  have hwalk := huffWalk_code (T := constructTable c old lengths) (rest := rest) (index := 0) k hat
  rw [Nat.zero_add, hplace, Nat.add_comm k 1, Nat.shiftRight_eq_div_pow, Nat.div_eq_of_lt hfits, BitVec.toNat_ofNat,
    Nat.mod_eq_of_lt hbyte] at hwalk
  rw [huffDecode, codeCounts_constructTable]
  exact hwalk

end Sys2Proof.Machine
end

section
/-! PROOFS, 43_huffman.md R190, R194, R195. The status of `construct` from the code lengths alone, and the order of
`SYMBOL`. -/

namespace Sys2Proof.Machine

open Sys2Proof

section Status

variable {c : Config} {lengths : List Nat} {sym l : Nat}

/-! ### The status -/

/-- What remains at a length is what its first code and its count leave of `2^l` (43_huffman.md R191, R194). -/
theorem constructStatus_remaining (hcode : ∃ l ∈ lengths, l ≠ 0) :
    (∀ j, 0 < j → j ≤ c.maxBits → 2 ^ j < firstCode lengths j + lengths.count j →
        (∀ k, 0 < k → k < j → firstCode lengths k + lengths.count k ≤ 2 ^ k) →
          constructStatus c lengths = 2 ^ j - ((firstCode lengths j + lengths.count j : Nat) : Int)) ∧
      ((∀ j, 0 < j → j ≤ c.maxBits → firstCode lengths j + lengths.count j ≤ 2 ^ j) → 0 < c.maxBits →
        constructStatus c lengths =
          2 ^ c.maxBits - ((firstCode lengths c.maxBits + lengths.count c.maxBits : Nat) : Int)) := by
  have hleft := kraftLeft_counts lengths c.maxBits 0 1 (by norm_num [firstCode])
  have hcounts : ((List.range c.maxBits).map fun i => lengths.count (0 + 1 + i)) = (tally c lengths).drop 1 := by
    rw [tally_drop_one, List.range'_eq_map_range, List.map_map]
    rfl
  simp only [hcounts, Nat.zero_add] at hleft
  rw [constructStatus_of_code hcode]
  exact hleft

/-- With no codes no length asks for any (43_huffman.md R195 (a)). -/
theorem asked_of_noCodes (h : ∀ l ∈ lengths, l = 0) (hl : 0 < l) : firstCode lengths l + lengths.count l = 0 := by
  have hcount (k : Nat) (hk : 0 < k) : lengths.count k = 0 :=
    List.count_eq_zero.mpr fun hmem => hk.ne' (h k hmem)
  induction l, hl using Nat.le_induction with
  | base => exact (Nat.zero_add _).trans (hcount 1 one_pos)
  | succ k hk ih => rw [firstCode_succ lengths hk, ih, hcount (k + 1) k.succ_pos]

/-- Only a set with codes asks for more than there are. -/
theorem exists_code_of_overasked (hl : 0 < l) (h : 2 ^ l < firstCode lengths l + lengths.count l) :
    ∃ l ∈ lengths, l ≠ 0 := by
  by_contra hno
  push Not at hno
  rw [asked_of_noCodes hno hl] at h
  exact absurd h (Nat.not_lt_zero _)

/-- The first length that asks for more codes than remain gives the status (43_huffman.md R195 (b)). -/
theorem constructStatus_of_overasked (hl : 0 < l) (hmax : l ≤ c.maxBits)
    (h : 2 ^ l < firstCode lengths l + lengths.count l)
    (hbefore : ∀ k, 0 < k → k < l → firstCode lengths k + lengths.count k ≤ 2 ^ k) :
    constructStatus c lengths = 2 ^ l - ((firstCode lengths l + lengths.count l : Nat) : Int) :=
  (constructStatus_remaining (exists_code_of_overasked hl h)).1 l hl hmax h hbefore

/-- A set with a code has a length for it (43_huffman.md R193). -/
theorem maxBits_pos (hmal : malformed c lengths = false) (hcode : ∃ l ∈ lengths, l ≠ 0) : 0 < c.maxBits := by
  obtain ⟨l, hl, hne⟩ := hcode
  exact (Nat.pos_of_ne_zero hne).trans_le ((malformed_eq_false.mp hmal).2 l hl)

/-- Where every length's codes fit the status is what is left at `MAXBITS` (43_huffman.md R195 (c), (d)). -/
theorem constructStatus_of_fits (hmal : malformed c lengths = false) (hcode : ∃ l ∈ lengths, l ≠ 0)
    (hfits : ∀ l, 0 < l → l ≤ c.maxBits → firstCode lengths l + lengths.count l ≤ 2 ^ l) :
    constructStatus c lengths =
      2 ^ c.maxBits - ((firstCode lengths c.maxBits + lengths.count c.maxBits : Nat) : Int) :=
  (constructStatus_remaining hcode).2 hfits (maxBits_pos hmal hcode)

/-- The status is negative exactly where some length asks for more codes than remain (43_huffman.md R195 (b)). -/
theorem constructStatus_neg_iff (hmal : malformed c lengths = false) :
    constructStatus c lengths < 0 ↔
      ∃ l, 0 < l ∧ l ≤ c.maxBits ∧ 2 ^ l < firstCode lengths l + lengths.count l := by
  constructor
  · intro hneg
    by_contra hfits
    push Not at hfits
    have hcode := exists_code_of_neg hneg
    rw [constructStatus_of_fits hmal hcode hfits, sub_neg] at hneg
    exact absurd (hfits c.maxBits (maxBits_pos hmal hcode) le_rfl) (not_le.mpr (by exact_mod_cast hneg))
  · intro hover
    obtain ⟨hl, hmax, h⟩ := Nat.find_spec hover
    have hbefore (k : Nat) (hk : 0 < k) (hlt : k < Nat.find hover) :
        firstCode lengths k + lengths.count k ≤ 2 ^ k := by
      have hnot := Nat.find_min hover hlt
      push Not at hnot
      exact hnot hk (hlt.le.trans hmax)
    rw [constructStatus_of_overasked hl hmax h hbefore, sub_neg]
    exact_mod_cast h

/-! ### The order of the symbols -/

/-- `SYMBOL` lists exactly the symbols that have a code (43_huffman.md R190). -/
theorem mem_sortedSymbols (hmal : malformed c lengths = false) :
    sym ∈ sortedSymbols c lengths ↔ ∃ l, lengths[sym]? = some l ∧ l ≠ 0 := by
  simp only [sortedSymbols_eq, List.mem_flatMap, List.mem_range'_1, mem_symbolsOfLength]
  constructor
  · rintro ⟨l, ⟨hl, -⟩, hsym⟩
    exact ⟨l, hsym, by omega⟩
  · rintro ⟨l, hsym, hl⟩
    have hmax := (malformed_eq_false.mp hmal).2 l (List.mem_of_getElem? hsym)
    exact ⟨l, ⟨by omega, by omega⟩, hsym⟩

/-- By length, and by number within a length (43_huffman.md R190). -/
theorem sortedSymbols_pairwise (c : Config) (lengths : List Nat) :
    (sortedSymbols c lengths).Pairwise fun x y =>
      lengths.getD x 0 < lengths.getD y 0 ∨ (lengths.getD x 0 = lengths.getD y 0 ∧ x < y) := by
  have hlength {x l : Nat} (h : x ∈ symbolsOfLength lengths l) : lengths.getD x 0 = l := by
    rw [List.getD_eq_getElem?_getD, mem_symbolsOfLength.mp h, Option.getD_some]
  rw [sortedSymbols_eq, List.pairwise_flatMap]
  constructor
  · intro l _
    refine (List.pairwise_lt_range.filter _).imp_of_mem fun hx hy hlt => .inr ⟨?_, hlt⟩
    rw [hlength hx, hlength hy]
  · refine (List.pairwise_lt_range' (step := 1)).imp fun hlt x hx y hy => .inl ?_
    rw [hlength hx, hlength hy]
    exact hlt

end Status

/-- Settles O32: the fields of the table one by one, the status from what remains at each length. -/
theorem constructTable_result : Obligations.ConstructTable := by
  intro c old lengths hmal
  dsimp only
  refine ⟨constructTable_nsym, fun l hl => ?count, constructTable_valid, constructStatus_neg_iff hmal,
    fun l hl hmax hover hbefore => ?overasked, fun hnonneg hcode => ?left, fun hno => ?noCodes, fun hneg => ?oversub,
    fun hnonneg hcode => ⟨sortedSymbols c lengths, ?symbols, fun x => mem_sortedSymbols hmal,
      sortedSymbols_pairwise c lengths⟩⟩
  case count =>
    rw [constructTable_count]
    exact tally_getElem? hl
  case overasked => exact constructStatus_of_overasked hl hmax hover hbefore
  case left =>
    refine constructStatus_of_fits hmal hcode fun l hl hmax => ?_
    by_contra hover
    exact absurd ((constructStatus_neg_iff hmal).mpr ⟨l, hl, hmax, not_le.mp hover⟩) (not_lt.mpr hnonneg)
  case noCodes =>
    have hnone := noCodes_iff.mpr hno
    exact ⟨constructStatus_of_noCodes hnone, by rw [constructTable_of_noCodes hnone]⟩
  case oversub => rw [constructTable_of_neg hneg]
  case symbols => rw [constructTable_of_nonneg hnonneg hcode]

end Sys2Proof.Machine
end

section
/-! PROOFS, 43_huffman.md R195, R197, R203. The bit strings on which `decode` finds no code: in the canonical order they are
the highest code words of `MAXBITS` bits, as many as the status says. -/

namespace Sys2Proof.Machine

open Sys2Proof

section Unused

variable {T : HufTable} {ns : List Nat} {first index len w : Nat} {left : Int}

/-! ### What a walk leaves unused -/

/-- What remains unused is at most every code under what is left (43_huffman.md R195). -/
theorem kraftLeft_le (h : 0 ≤ left) : kraftLeft ns left ≤ left * 2 ^ ns.length := by
  induction ns generalizing left with
  | nil => simp [kraftLeft]
  | cons n ns ih =>
    rw [kraftLeft, List.length_cons, pow_succ, mul_comm _ (2 : Int), ← mul_assoc]
    split
    · rename_i hneg
      exact hneg.le.trans (by positivity)
    · rename_i hnonneg
      exact (ih (not_lt.mp hnonneg)).trans (by gcongr; omega)

/-- The walk over the bits of a code word of full length finds no code exactly when the word is among the highest, as many as
are left: `len` bits have been walked, and `first` is the first code of `len` + 1 bits (43_huffman.md R195, R197). -/
theorem huffWalk_noCode_iff (hk : 0 ≤ kraftLeft ns left) (hf : (first : Int) + 2 * left = 2 * 2 ^ len)
    (hfc : first ≤ 2 * (w >>> ns.length)) :
    foundNoCode (huffWalk listRead T ns (2 * (w >>> ns.length)) first index (codeBits ns.length w)) = true ↔
      2 ^ (len + ns.length) - kraftLeft ns left ≤ (w : Int) := by
  induction ns generalizing first left index len with
  | nil =>
    simp only [huffWalk, foundNoCode, List.length_nil, kraftLeft, Nat.add_zero, true_iff]
    rw [List.length_nil, Nat.shiftRight_zero] at hfc
    omega
  | cons n ns ih =>
    rw [kraftLeft] at hk ⊢
    split at hk
    · omega
    · rename_i hn
      rw [if_neg hn, List.length_cons, codeBits_succ, huffWalk, listRead_bit]
      simp only [walk_bit]
      split
      · rename_i hlt
        have hle := kraftLeft_le (ns := ns) (not_lt.mp hn)
        have hw : (w : Int) < (first + n) * 2 ^ ns.length := by
          rw [Nat.shiftRight_eq_div_pow, Nat.div_lt_iff_lt_mul (by positivity)] at hlt
          exact_mod_cast hlt
        have hsplit : (2 : Int) ^ (len + (ns.length + 1)) =
            (first + n) * 2 ^ ns.length + (2 * left - n) * 2 ^ ns.length := by
          rw [← add_mul, show (first : Int) + n + (2 * left - n) = 2 * 2 ^ len by omega]
          ring
        simp only [foundNoCode, Bool.false_eq_true, false_iff, not_le]
        omega
      · rename_i hge
        have hnext := ih (first := (first + n) <<< 1) (left := 2 * left - n) (index := index + n) (len := len + 1) hk
          (by rw [Nat.shiftLeft_eq]; push_cast; rw [pow_succ]; omega) (by rw [Nat.shiftLeft_eq]; omega)
        rw [Nat.add_right_comm, Nat.add_assoc] at hnext
        rw [← hnext, Nat.shiftLeft_eq _ 1, pow_one, mul_comm _ 2]

/-! ### Code words and bit strings -/

/-- The code word whose bits stand in the stream as these: the first is its highest bit, every bit is inverted
(43_huffman.md R197). -/
def codeWord (bs : List Bool) : Nat := bitsNat (bs.reverse.map (!·))

theorem codeBits_eq (n w : Nat) : codeBits n w = ((natBits n w).map (!·)).reverse := by
  induction n with
  | zero => rfl
  | succ n ih => rw [codeBits_succ, ih, natBits, natBits, List.range_succ]; simp

theorem codeWord_lt (bs : List Bool) : codeWord bs < 2 ^ bs.length := by
  simpa [codeWord] using bitsNat_lt (bs.reverse.map (!·))

theorem codeBits_codeWord (bs : List Bool) : codeBits bs.length (codeWord bs) = bs := by
  have hbits := natBits_bitsNat (bs.reverse.map (!·))
  rw [List.length_map, List.length_reverse] at hbits
  rw [codeBits_eq, codeWord, hbits]
  simp [Function.comp_def]

theorem codeWord_codeBits {n : Nat} (h : w < 2 ^ n) : codeWord (codeBits n w) = w := by
  rw [codeWord, codeBits_eq, List.reverse_reverse, List.map_map]
  simp [Function.comp_def, bitsNat_natBits_of_lt h]

/-- `decode` finds no code in a string of `MAXBITS` bits exactly when its code word is among the highest, as many as the
status says (43_huffman.md R195 (c), (d)). -/
theorem huffDecode_noCode_iff {c : Config} {old : HufTable} {lengths : List Nat} {bs : List Bool}
    (hstatus : 0 ≤ constructStatus c lengths) (hcode : ∃ l ∈ lengths, l ≠ 0) (hbs : bs.length = c.maxBits) :
    foundNoCode (huffDecode c listRead (constructTable c old lengths) bs) = true ↔
      2 ^ c.maxBits - constructStatus c lengths ≤ (codeWord bs : Int) := by
  rw [constructStatus_of_code hcode, tally_drop_one] at hstatus ⊢
  have hlength : ((List.range' 1 c.maxBits).map lengths.count).length = bs.length := by simp [hbs]
  have hstart : codeWord bs >>> bs.length = 0 := by
    rw [Nat.shiftRight_eq_div_pow, Nat.div_eq_of_lt (codeWord_lt bs)]
  have hwalk := huffWalk_noCode_iff (T := constructTable c old lengths) (index := 0) (first := 0) (len := 0)
    (w := codeWord bs) hstatus (by norm_num) (Nat.zero_le _)
  rw [hlength, hstart, codeBits_codeWord, Nat.zero_add, hbs] at hwalk
  rwa [huffDecode, codeCounts_constructTable]

/-- A list of numbers counted as a set. -/
theorem length_filter_range (f : Nat → Bool) (n : Nat) :
    ((List.range n).filter f).length = ((Finset.range n).filter fun v => f v = true).card := by
  rw [← Nat.count_eq_card_filter_range, Nat.count, List.countP_eq_length_filter]
  simp

/-- The strings of `n` bits whose code word is among the highest `k` are `k`: numbering strings by their code words is a
bijection. -/
theorem card_highest_codeWords {n k : Nat} (hk : k ≤ 2 ^ n) :
    ((Finset.range (2 ^ n)).filter fun v => 2 ^ n - k ≤ codeWord (natBits n v)).card = k := by
  have hword (v : Nat) : codeBits n (codeWord (natBits n v)) = natBits n v := by
    simpa using codeBits_codeWord (natBits n v)
  have hbits (w : Nat) : natBits n (bitsNat (codeBits n w)) = codeBits n w := by
    simpa using natBits_bitsNat (codeBits n w)
  calc _ = (Finset.Ico (2 ^ n - k) (2 ^ n)).card := by
        refine Finset.card_nbij' (fun v => codeWord (natBits n v)) (fun w => bitsNat (codeBits n w)) ?_ ?_ ?_ ?_
        · intro v hv
          obtain ⟨-, hhigh⟩ := Finset.mem_filter.mp hv
          exact Finset.mem_Ico.mpr ⟨hhigh, by simpa using codeWord_lt (natBits n v)⟩
        · intro w hw
          obtain ⟨hhigh, hlt⟩ := Finset.mem_Ico.mp hw
          refine Finset.mem_filter.mpr ⟨Finset.mem_range.mpr (by simpa using bitsNat_lt (codeBits n w)), ?_⟩
          rwa [hbits, codeWord_codeBits hlt]
        · intro v hv
          obtain ⟨hlt, -⟩ := Finset.mem_filter.mp hv
          simp only [hword, bitsNat_natBits_of_lt (Finset.mem_range.mp hlt)]
        · intro w hw
          obtain ⟨-, hlt⟩ := Finset.mem_Ico.mp hw
          simp only [hbits, codeWord_codeBits hlt]
    _ = k := by rw [Nat.card_Ico]; omega

end Unused

/-- Settles O34: numbered by their code words the strings without a code are the interval of the highest ones. -/
theorem unusedCodes : Obligations.UnusedCodes := by
  intro c old lengths hmal hstatus hcode
  obtain ⟨k, hk⟩ := Int.eq_ofNat_of_zero_le hstatus
  have hle : k ≤ 2 ^ c.maxBits := by
    have hall := kraftLeft_le (ns := (tally c lengths).drop 1) zero_le_one
    rw [← constructStatus_of_code hcode, hk, tally_drop_one] at hall
    simp only [List.length_map, List.length_range', one_mul] at hall
    exact_mod_cast hall
  have hno (v : Nat) : foundNoCode (huffDecode c listRead (constructTable c old lengths) (natBits c.maxBits v)) = true ↔
      2 ^ c.maxBits - k ≤ codeWord (natBits c.maxBits v) := by
    rw [huffDecode_noCode_iff hstatus hcode (natBits_length ..), hk, ← Nat.cast_le (α := Int), Nat.cast_sub hle]
    norm_num
  rw [hk, length_filter_range]
  simp only [hno, card_highest_codeWords hle]

end Sys2Proof.Machine
end

section
/-! PROOFS, 43_huffman.md R192, R195, R196, R198 to R201, R204. The commands of the Huffman engine: `HUFCON` on a static
table and on table 3, `HUFDEC`, and what the three static tables are at the default parameters. -/

namespace Sys2Proof

section Walks

variable {σ τ : Type} {R E : σ → τ → Prop} {a : Walked σ} {b : Walked τ} {s : σ}

/-- Where one walk finds a symbol, a related one finds it. -/
theorem WalkedRel.of_sym {v : Nat} (h : WalkedRel R E a b) (ha : a = .sym v s) : ∃ t, b = .sym v t ∧ R s t := by
  subst ha
  rcases h with ⟨_, _, t, ⟨⟩, hb, hr⟩ | ⟨_, _, ⟨⟩, -⟩ | ⟨_, _, ⟨⟩, -⟩
  exact ⟨t, hb, hr⟩

/-- Where one walk starves, a related one starves. -/
theorem WalkedRel.of_starved (h : WalkedRel R E a b) (ha : a = .starved s) : ∃ t, b = .starved t ∧ E s t := by
  subst ha
  rcases h with ⟨_, _, _, ⟨⟩, -⟩ | ⟨_, t, ⟨⟩, hb, he⟩ | ⟨_, _, ⟨⟩, -⟩
  exact ⟨t, hb, he⟩

/-- Where one walk finds no code, a related one finds none. -/
theorem WalkedRel.of_noCode (h : WalkedRel R E a b) (ha : a = .noCode s) : ∃ t, b = .noCode t ∧ R s t := by
  subst ha
  rcases h with ⟨_, _, _, ⟨⟩, -⟩ | ⟨_, _, ⟨⟩, -⟩ | ⟨_, t, ⟨⟩, hb, hr⟩
  exact ⟨t, hb, hr⟩

end Walks

end Sys2Proof

namespace Sys2Proof.Machine

open Sys2Proof

section Commands

variable {s : State} {t : TableSel}

/-! ### `HUFCON` on a static table -/

/-- `HUFCON` of a static table in an idle block (43_huffman.md R198). -/
theorem exec_hufcon_static (hp : s.phase = .idle) (ht : t ≠ .user) : exec (.hufcon t) s = .next (hufconStatic t s) := by
  cases t with
  | user => exact absurd rfl ht
  | lit | len | dist => exact whenIdle_idle hp _

theorem hufconStatic_of_valid (h : (s.huf.get t).valid = true) :
    hufconStatic t s = s.ended 0 0 (s.huf.get t).nsym := by
  rw [hufconStatic, if_pos h]
  rfl

theorem hufconStatic_of_invalid (h : (s.huf.get t).valid = false) :
    hufconStatic t s =
      (s.buildStatic t).ended (BitVec.ofInt 32 (constructStatus s.cfg (expand s.cfg (s.cfg.staticDesc t)))) 0
        (expand s.cfg (s.cfg.staticDesc t)).length := by
  rw [hufconStatic, h, if_neg Bool.false_ne_true]
  simp only [State.buildStatic_huf, HufMem.get_set_same, constructTable_nsym]
  rfl

/-! ### `HUFCON 3` -/

/-- A byte of the descriptor appends its run, and one byte fewer is left (43_huffman.md R192). -/
theorem exec_hdRun {n left : Nat} {lengths : List Nat} (hp : s.phase = .hufcon n (left + 1) lengths) (rep len : BitVec 4) :
    exec (.hdRun rep len) s = .next { s with phase := .hufcon n left (lengths ++ expandRun s.cfg rep len) } := by
  simp only [exec, execHdRun, hp]

/-- The step of a descriptor byte moves the cursor past it and appends what it expands to (43_huffman.md R192, log 22). -/
theorem step_hufcon_byte {n left : Nat} {lengths : List Nat} (hp : s.phase = .hufcon n (left + 1) lengths)
    (hpos : s.rd.spos < s.src.len) :
    step s =
      .next { s with
        rd := { s.rd with spos := s.rd.spos + 1 }
        phase := .hufcon n left (lengths ++ expand s.cfg [s.src.byte s.rd.spos]) } := by
  rw [step_of_fetch_instr ((fetch_of_hufcon hp).trans (hufconNext_succ n left lengths hpos)), decodeDescriptor,
    exec_hdRun (s := s.seek (s.rd.spos + 1)) hp]
  simp [expand, State.seek]

/-- The step after the last descriptor byte constructs table 3 (43_huffman.md R194, R198). -/
theorem step_hufcon_last {n : Nat} {lengths : List Nat} (hp : s.phase = .hufcon n 0 lengths) :
    step s = .next (hufconFinish n lengths s) :=
  step_of_fetch_control (fetch_of_hufcon hp)

theorem run_succ_of_step {k : Nat} {u : State} (h : step s = .next u) :
    Sys2Proof.core.run (k + 1) s = Sys2Proof.core.run k u := by
  have hcore : Sys2Proof.core.step s = .next u := h
  simp only [Host.Core.run, hcore]

/-- With `left` descriptor bytes inside the source to go, `HUFCON 3` ends after a step for each and one to construct, from
the lengths expanded so far and those of the bytes to go (43_huffman.md R192, R198, log 22). -/
theorem run_hufcon {n left : Nat} {lengths : List Nat} (hp : s.phase = .hufcon n left lengths)
    (hinside : s.rd.spos + left ≤ s.src.len) :
    Sys2Proof.core.run (left + 1) s =
      .next (hufconFinish n (lengths ++ expand s.cfg (s.src.slice s.rd.spos left))
        { s with rd := { s.rd with spos := s.rd.spos + left } }) := by
  induction left generalizing s lengths with
  | zero =>
    rw [run_succ_of_step (step_hufcon_last hp)]
    simp [Host.Core.run, Source.slice, expand]
  | succ left ih =>
    rw [run_succ_of_step (step_hufcon_byte hp (by omega)), ih rfl (by dsimp only; omega)]
    simp [hufconFinish, Source.slice, expand, endWith, Nat.add_assoc, Nat.add_comm 1]

/-! ### `HUFDEC` -/

theorem exec_hufdec_idle (hp : s.phase = .idle) (hv : (s.huf.get t).valid = true) :
    exec (.hufdec t) s = .next (hufdecRun t s) := by
  simp only [exec, execHufdec, whenIdle_idle hp, if_pos hv]

theorem hufdecRun_of_sym {v : Nat} {r : Reader}
    (h : huffDecode s.cfg (readGot s.src .pk) (s.huf.get t) s.rd = .sym v r) :
    hufdecRun t s = ({ s with rd := r } : State).ended 0 (r.spos - s.rd.spos) v := by
  simp only [hufdecRun, h, endCommand_ok_eq_ended]

theorem hufdecRun_of_noCode {r : Reader} (h : huffDecode s.cfg (readGot s.src .pk) (s.huf.get t) s.rd = .noCode r) :
    hufdecRun t s = ({ s with rd := r } : State).ended (-9) (r.spos - s.rd.spos) 0 := by
  simp only [hufdecRun, h]
  rfl

theorem hufdecRun_of_starved {r : Reader} (h : huffDecode s.cfg (readGot s.src .pk) (s.huf.get t) s.rd = .starved r) :
    hufdecRun t s = ({ s with rd := r } : State).ended (-5) (r.spos - s.rd.spos) 0 := by
  simp only [hufdecRun, h]
  rfl

end Commands

/-- Settles O35: an idle block takes `HUFCON`, and the table is valid or is built. -/
theorem hufconStatic_result : Obligations.HufconStatic := by
  intro s hp t ht
  have hne : t ≠ .user := by
    rintro rfl
    simp at ht
  rw [exec_hufcon_static hp hne]
  refine ⟨fun hv => by rw [hufconStatic_of_valid hv], fun hv => ?_⟩
  rw [hufconStatic_of_invalid hv]
  exact ⟨_, rfl, HufMem.get_set_same .., fun v hv => HufMem.get_set_other _ _ hv, rfl⟩

/-- Settles O36: a byte's run by its meaning, the command by induction on the descriptor bytes left. -/
theorem hufconUser_result : Obligations.HufconUser := by
  intro s
  refine ⟨fun n left l rep len hp => exec_hdRun hp rep len, fun hp hpos hcount hinside hmal => ⟨?start, ?run⟩⟩
  case start =>
    have haccepted : ¬ hufconUserRefused s = true := by
      rw [hufconUserRefused_iff, hmal]
      simp only [Bool.false_eq_true, or_false]
      omega
    exact (whenIdle_idle hp _).trans (congrArg Host.Outcome.next (if_neg haccepted))
  case run => exact run_hufcon (s := { s with phase := .hufcon s.argDescLen s.argDescLen [] }) rfl hinside

/-- Settles O37: the walk over the reader's registers and the walk over the bits ahead of it have the same outcome. -/
theorem hufdecResult : Obligations.HufdecResult := by
  intro s t base bs hp hv hbefore
  have hrel := (readRel_stream s.src base (s.rd.limit s.src) .pk).huffDecode (by decide) s.cfg (s.huf.get t)
    ⟨hbefore, rfl⟩
  rw [exec_hufdec_idle hp hv]
  refine ⟨fun v rest hdec => ?sym, fun rest hdec => ?noCode, fun rest hdec => ?starved⟩
  case sym =>
    obtain ⟨r, hread, hafter, -⟩ := hrel.of_sym hdec
    exact ⟨r, hafter, congrArg Host.Outcome.next (hufdecRun_of_sym hread)⟩
  case noCode =>
    obtain ⟨r, hread, hafter, -⟩ := hrel.of_noCode hdec
    exact ⟨r, hafter, congrArg Host.Outcome.next (hufdecRun_of_noCode hread)⟩
  case starved =>
    obtain ⟨r, hread, -, hend⟩ := hrel.of_starved hdec
    exact ⟨r, hend, congrArg Host.Outcome.next (hufdecRun_of_starved hread)⟩

/-! ### The static tables -/

/-- The table `LIT` at the default parameters (43_huffman.md R200, R201). -/
theorem static_lit_codes :
    let t := Config.default.staticTable .lit
    t.nsym = 256 ∧ t.count = [0, 0, 0, 0, 1, 11, 20, 21, 16, 7, 5, 10, 91, 74] ∧
      t.symbol.take 16 =
        [0x20, 0x45, 0x61, 0x65, 0x69, 0x6C, 0x6E, 0x6F, 0x72, 0x73, 0x74, 0x75, 0x2D, 0x31, 0x41, 0x43] ∧
      [0x20, 0x65, 0x41, 0x49, 0x00, 0xFF].map (codeOf Config.default t) =
        [some (4, 0b0000), some (5, 0b00100), some (6, 0b011100), some (6, 0b011111), some (11, 0b11110110110),
          some (13, 0b1111111111111)] := by
  decide +kernel

/-- The table `LEN` at the default parameters (43_huffman.md R200, R201). -/
theorem static_len_codes :
    let t := Config.default.staticTable .len
    t.nsym = 16 ∧ t.count = [0, 0, 1, 3, 3, 4, 3, 2, 0, 0, 0, 0, 0, 0] ∧
      t.symbol = (List.range 16).map (BitVec.ofNat 8) ∧
      (List.range 16).map (codeOf Config.default t) =
        [some (2, 0b00), some (3, 0b010), some (3, 0b011), some (3, 0b100), some (4, 0b1010), some (4, 0b1011),
          some (4, 0b1100), some (5, 0b11010), some (5, 0b11011), some (5, 0b11100), some (5, 0b11101),
          some (6, 0b111100), some (6, 0b111101), some (6, 0b111110), some (7, 0b1111110), some (7, 0b1111111)] ∧
      symbolBits Config.default t 0 = [true, true] ∧
      symbolBits Config.default t 8 = [false, false, true, false, false] ∧
      symbolBits Config.default t 15 = [false, false, false, false, false, false, false] := by
  decide +kernel

/-- The table `DIST` at the default parameters (43_huffman.md R200, R201). -/
theorem static_dist_codes :
    let t := Config.default.staticTable .dist
    t.nsym = 64 ∧ t.count = [0, 0, 1, 0, 2, 4, 15, 26, 16, 0, 0, 0, 0, 0] ∧
      t.symbol = (List.range 64).map (BitVec.ofNat 8) ∧
      [0, 1, 2, 3, 6, 7, 21, 22, 47, 48, 63].map (codeOf Config.default t) =
        [some (2, 0b00), some (4, 0b0100), some (4, 0b0101), some (5, 0b01100), some (5, 0b01111), some (6, 0b100000),
          some (6, 0b101110), some (7, 0b1011110), some (7, 0b1110111), some (8, 0b11110000), some (8, 0b11111111)] := by
  decide +kernel

/-- Settles O31: each of the three tables is computed from its descriptor. -/
theorem staticTables : Obligations.StaticTables := by
  obtain ⟨hlitSize, hlitCount, hlitSymbol, hlitCode⟩ := static_lit_codes
  obtain ⟨hlenSize, hlenCount, hlenSymbol, hlenCode, hlenFirst, hlenEight, hlenLast⟩ := static_len_codes
  obtain ⟨hdistSize, hdistCount, hdistSymbol, hdistCode⟩ := static_dist_codes
  have hstatus : ∀ t ∈ [TableSel.lit, .len, .dist],
      constructStatus Config.default (expand Config.default (Config.default.staticDesc t)) = 0 := fun t ht =>
    (static_built t (by rintro rfl; simp at ht)).1
  exact ⟨hstatus, hlitSize, hlenSize, hdistSize, hlitCount, hlenCount, hdistCount, hlitSymbol, hlenSymbol, hdistSymbol,
    hlenCode, hdistCode, hlitCode, hlenFirst, hlenEight, hlenLast⟩

end Sys2Proof.Machine
end

section
/-! PROOFS, 44_blast_lz77.md R213, R215 to R218, R220 to R227, R229, R231. The window and what stands for its output:
the leaf commands `WRESET`, `WPUT`, `WCOPY`, `WFLUSH` and the events of `BLAST`. -/

namespace Sys2Proof.Machine

open Sys2Proof

section Windows

variable {s : State} {z z' : Lz} {base out : List Byte} {dist : Nat}

/-! ### How much has been appended -/

/-- What an operation counts is what the sink gains. -/
theorem Lz.Grows.count (h : z.Grows z') : z'.n + z.sink.length = z.n + z'.sink.length := by
  obtain ⟨bs, hsink, hn⟩ := h.sink
  rw [hsink, hn, List.length_append]
  omega

/-! ### Distances -/

/-- A distance the window can hold is too far exactly when it reaches before the start of the output
(44_blast_lz77.md R226). -/
theorem WindowAt.tooFar_iff (h : WindowAt base out z) (hdist : dist ≤ WIN_SIZE) :
    z.win.tooFar dist = true ↔ out.length < dist := by
  rw [Window.tooFar, h.first, h.cursor, Bool.and_eq_true, decide_eq_true_iff, decide_eq_true_iff]
  constructor
  · rintro ⟨hshort, hlt⟩
    rwa [Nat.mod_eq_of_lt hshort] at hlt
  · intro hlt
    have hshort : out.length < WIN_SIZE := hlt.trans_le hdist
    exact ⟨hshort, by rwa [Nat.mod_eq_of_lt hshort]⟩

/-- Before the first fill the cursor is the count of bytes produced. -/
theorem WindowAt.next_of_first (h : WindowAt base out z) (hshort : out.length < WIN_SIZE) :
    z.win.next.val = out.length := by
  rw [h.cursor, Nat.mod_eq_of_lt hshort]

/-! ### The leaf commands -/

/-- The end of a window command writes the window, the sink and the result registers (44_blast_lz77.md R222). -/
theorem endWindow_eq_ended (z : Lz) (s : State) :
    endWindow z s = ({ s with win := z.win, sink := z.sink } : State).ended 0 0 z.n := rfl

/-- `WRESET` empties the window and keeps its cells (44_blast_lz77.md R221). -/
theorem exec_wreset_idle (hp : s.phase = .idle) :
    exec .wreset s = .next (({ s with win := s.win.reset } : State).ended 0 0 0) := by
  rw [exec, execWreset, whenIdle_idle hp]
  rfl

/-- `WFLUSH` appends the bytes below the cursor and keeps `WFIRST` (44_blast_lz77.md R225). -/
theorem exec_wflush_idle (hp : s.phase = .idle) :
    exec .wflush s =
      .next (({ s with
        win := { s.win with next := 0 }
        sink := s.sink ++ s.win.firstBytes s.win.next.val } : State).ended 0 0 s.win.next.val) := by
  rw [exec, execWflush, whenIdle_idle hp, endWindow_eq_ended]
  simp only [Lz.flush, Lz.append, Window.firstBytes_length, lz_n, Nat.zero_add]
  rfl

/-- `WPUT` is one `put` of its argument's byte (44_blast_lz77.md R222). -/
theorem exec_wput_idle (hp : s.phase = .idle) :
    exec .wput s = .next (endWindow ((s.lz 0).put s.argByte) s) :=
  whenIdle_idle hp _

/-- `WCOPY` with accepted arguments copies unless its distance is too far (44_blast_lz77.md R223, R226). -/
theorem exec_wcopy_idle (hp : s.phase = .idle) (hok : wcopyRefused s = false) :
    exec .wcopy s =
      .next (if s.win.tooFar s.argCopyDist then s.ended (-3) 0 0
        else endWindow (Lz.copyLoop s.argCopyDist s.argCopyLen (s.lz 0)) s) := by
  rw [exec, execWcopy, whenIdle_idle hp, hok, if_neg Bool.false_ne_true]
  rfl

end Windows

/-- Settles O42: `WPUT` is `put` below the last cell or the `put` that fills the window. -/
theorem windowCommands : Obligations.WindowCommands := by
  intro s hp
  refine ⟨exec_wreset_idle hp, ⟨_, exec_wput_idle hp, fun i => ?cell, fun hlow => ?low, fun hlast => ?last⟩,
    exec_wflush_idle hp⟩
  case cell => exact Lz.byte_put (s.lz 0) s.argByte i
  case low =>
    have hnext : (s.lz 0).win.next.val + 1 < WIN_SIZE := Nat.succ_lt_succ hlow
    rw [Lz.put_low (s.lz 0) s.argByte hnext]
    exact ⟨rfl, rfl, rfl, rfl⟩
  case last =>
    have hnext : ¬ (s.lz 0).win.next.val + 1 < WIN_SIZE := by simp [hlast, WIN_SIZE]
    rw [Lz.put_fill (s.lz 0) s.argByte hnext]
    exact ⟨rfl, rfl, rfl, rfl⟩

/-- Settles O43: the copy loop extends the output, from a distance that is not too far. -/
theorem wcopyExtends : Obligations.WcopyExtends := by
  intro s hp hlen hpos hmax
  have haccepted : wcopyRefused s = false := by
    rw [Bool.eq_false_iff, Ne, wcopyRefused_iff]
    omega
  rw [exec_wcopy_idle hp haccepted]
  refine ⟨fun hfirst hlt => ?far, fun hnear => ?near⟩
  case far =>
    rw [if_pos (by rw [Window.tooFar, hfirst, decide_eq_true hlt, Bool.and_self])]
  case near =>
    have hreach : s.win.tooFar s.argCopyDist = false := by
      rw [Window.tooFar, Bool.and_eq_false_iff, decide_eq_false_iff_not, Nat.not_lt]
      exact hnear
    have hcount := (Lz.copyLoop_grows s.argCopyDist s.argCopyLen (s.lz 0)).count
    rw [hreach, if_neg Bool.false_ne_true]
    refine ⟨Lz.copyLoop s.argCopyDist s.argCopyLen (s.lz 0), rfl, ?_, fun base out h => ?_⟩
    · rw [lz_sink, lz_n] at hcount
      omega
    · have hdist : s.argCopyDist ≤ out.length := by
        have hfar := mt (h.tooFar_iff hmax).mpr (by rw [lz_win, hreach]; exact Bool.false_ne_true)
        exact Nat.not_lt.mp hfar
      exact h.copyLoop hpos hmax _ hdist

section Events

variable {s : State} {a n : Nat} {base out : List Byte}

/-! ### The events of `BLAST` -/

theorem exec_blLit (hp : s.phase = .blast a n) (b : Byte) :
    exec (.blLit b) s = .next (blastKeep a ((s.lz n).put b) s) :=
  inBlast_of_phase hp _

theorem exec_blEnd (hp : s.phase = .blast a n) : exec .blEnd s = .next (blastEnd .ok a n s) :=
  inBlast_of_phase hp _

/-- A match is a copy, its distance the symbol above the extra bits (44_blast_lz77.md R216, R217). -/
theorem exec_blMatch (hp : s.phase = .blast a n) (hhigh : s.cfg.distSymHigh = true) (sym extra dsym dextra : Nat) :
    exec (.blMatch sym extra dsym dextra) s =
      .next (blastCopy (s.cfg.lengthBase sym + extra)
        (dsym * 2 ^ (if s.cfg.lengthBase sym + extra = 2 then 2 else s.blast.dict) + dextra + 1) a n s) := by
  rw [exec, execBlMatch, inBlast_of_phase hp, matchDistance, if_pos hhigh, Nat.shiftLeft_eq]
  rfl

end Events

/-- Settles O41: the end event is the end of `BLAST`, and a flush completes the output. -/
theorem blastEnds : Obligations.BlastEnds := by
  intro s a n hp
  refine ⟨?_, fun base out h => h.flush⟩
  rw [exec_blEnd hp, blastEnd_eq]
  rfl

/-- Settles O40: a literal is a `put`, a match inside the output the copy loop, and a match beyond its start the end of
`BLAST` with the output flushed. -/
theorem blastEvents : Obligations.BlastEvents := by
  intro s a n base out hp hhigh h
  refine ⟨fun b => ⟨_, h.put b, (Lz.put_grows (s.lz n) b).count, exec_blLit hp b⟩, ?_⟩
  intro sym extra dsym dextra len dist hmax
  have hexec : exec (.blMatch sym extra dsym dextra) s = .next (blastCopy len dist a n s) :=
    exec_blMatch hp hhigh sym extra dsym dextra
  have hfar : s.win.tooFar dist = true ↔ out.length < dist := h.tooFar_iff hmax
  have hpos : 1 ≤ dist := Nat.le_add_left ..
  rw [hexec]
  refine ⟨fun hin => ⟨_, h.copyLoop hpos hmax len hin, (Lz.copyLoop_grows dist len (s.lz n)).count, ?near⟩,
    fun hout => ?far⟩
  case near =>
    rw [blastCopy, if_neg (mt hfar.mp (Nat.not_lt.mpr hin))]
    rfl
  case far =>
    have hnext : s.win.next.val = out.length := h.next_of_first (hout.trans_le hmax)
    have hsink : s.sink ++ s.win.firstBytes s.win.next.val = base ++ out := h.flush
    rw [blastCopy, if_pos (hfar.mpr hout), blastEnd_eq, hsink, hnext]
    rfl

end Sys2Proof.Machine
end

section
/-! PROOFS, 44_blast_lz77.md R211, R212, R229 to R231. The start of `BLAST`: its static tables at every setting of the
parameters, the two header bytes at the default one, and the stops before the first event. -/

namespace Sys2Proof.Machine

open Sys2Proof

/-! ### A byte read by an empty reader -/

section Bytes

variable {m : Source} {r : Reader} {brlim : Nat}

/-- A reader whose range has come to its end, once it has drawn a phantom byte for a read of one byte
(40_bitreader.md R126, R127). -/
def Reader.starvedByte (r : Reader) (brlim : Nat) : Reader :=
  { r.clear brlim 0 with starved := true, draws := r.draws + 1 }

/-- A byte read by an empty reader is one fetch (40_bitreader.md R122, R123). -/
theorem Reader.readBits_byte_of_clear (m : Source) (r : Reader) (brlim : Nat) :
    (r.clear brlim 0).readBits m .pk 8 =
      (((r.clear brlim 0).fetch m).acc.toNat % 256, (((r.clear brlim 0).fetch m).drop 8).noteConsumed 8) := by
  have hcnt : (r.clear brlim 0).cnt < 8 := Nat.zero_lt_succ 7
  have hfill : (r.clear brlim 0).fill m 8 8 = (r.clear brlim 0).fetch m := by
    rw [Reader.fill, if_pos hcnt, Reader.fill_of_le 7 (by rw [Reader.fetch_cnt]; exact Nat.le_add_left ..)]
  rw [Reader.readBits, hfill]
  rfl

/-- Nothing of a byte alone in the accumulator is left once its 8 bits have left. -/
theorem byte_shiftRight_eq_zero (b : Byte) : b.setWidth 64 >>> 8 = 0#64 := by
  have hlt := b.isLt
  bv_omega

/-- An empty reader reads the byte at its cursor and is empty after it (40_bitreader.md R122, R123). -/
theorem readGot_byte_of_clear (hin : r.spos < brlim) (hlen : r.spos < m.len) :
    readGot m .pk 8 (r.clear brlim 0) =
      .got (m.byte r.spos).toNat (({ r with spos := r.spos + 1 } : Reader).clear brlim 0) := by
  have hlt : (m.byte r.spos).toNat < 256 := (m.byte r.spos).isLt
  have hcan : (r.clear brlim 0).canFetch m = true := Reader.canFetch_iff.mpr (Nat.lt_min.mpr ⟨hin, hlen⟩)
  rw [readGot, Reader.readBits_byte_of_clear, Reader.fetch, if_pos hcan]
  simp [Reader.clear, Reader.take, Reader.drop, Reader.noteConsumed, hlt, byte_shiftRight_eq_zero]

/-- At the end of its range an empty reader starves on a byte and stays empty (40_bitreader.md R126 to R128). -/
theorem readGot_byte_at_end (hend : r.spos = m.len) :
    readGot m .pk 8 (r.clear brlim 0) = .starved (r.starvedByte brlim) := by
  have hcan : ¬ (r.clear brlim 0).canFetch m = true :=
    fun h => Nat.lt_irrefl _ (hend ▸ (Nat.lt_min.mp (Reader.canFetch_iff.mp h)).2)
  rw [readGot, Reader.readBits_byte_of_clear, Reader.fetch, if_neg hcan]
  simp [Reader.clear, Reader.take, Reader.drop, Reader.noteConsumed, Reader.starvedByte,
    byte_shiftRight_eq_zero]

end Bytes

/-! ### The static tables -/

section Tables

variable {s : State} {t u : TableSel}

/-- The table memory once `BLAST` has passed a static table: built unless it was valid (44_blast_lz77.md R211). -/
def HufMem.builtStatic (c : Config) (h : HufMem) (t : TableSel) : HufMem :=
  if (h.get t).valid then h else h.set t (constructTable c (h.get t) (expand c (c.staticDesc t)))

/-- Passing one table leaves the others. -/
theorem HufMem.builtStatic_get_other (c : Config) (h : HufMem) (hne : u ≠ t) :
    (h.builtStatic c t).get u = h.get u := by
  unfold HufMem.builtStatic
  split
  · rfl
  · exact HufMem.get_set_other h _ hne

/-- A table that is valid or constructs to status 0 is passed (44_blast_lz77.md R211). -/
theorem blastTables_passes (ts : List TableSel)
    (h : (s.huf.get t).valid = true ∨ constructStatus s.cfg (expand s.cfg (s.cfg.staticDesc t)) = 0) :
    blastTables (t :: ts) s = blastTables ts { s with huf := s.huf.builtStatic s.cfg t } := by
  rw [blastTables, HufMem.builtStatic]
  by_cases hv : (s.huf.get t).valid = true
  · simp only [if_pos hv]
  · simp only [if_neg hv, if_pos (h.resolve_left hv)]
    rfl

/-- A table that is not valid and does not construct to status 0 is built and stops (44_blast_lz77.md R211, R230). -/
theorem blastTables_stops (ts : List TableSel) (hv : (s.huf.get t).valid = false)
    (hs : constructStatus s.cfg (expand s.cfg (s.cfg.staticDesc t)) ≠ 0) :
    blastTables (t :: ts) s = .stop .errOversub { s with huf := s.huf.builtStatic s.cfg t } := by
  rw [blastTables, HufMem.builtStatic, hv, if_neg Bool.false_ne_true, if_neg hs]
  rfl

/-- The first table that does not construct stops the construction, that table and those before it built. -/
theorem blastTables_append_stops {before after : List TableSel} (hnodup : (before ++ t :: after).Nodup)
    (hbefore : ∀ u ∈ before,
      (s.huf.get u).valid = true ∨ constructStatus s.cfg (expand s.cfg (s.cfg.staticDesc u)) = 0)
    (hv : (s.huf.get t).valid = false) (hs : constructStatus s.cfg (expand s.cfg (s.cfg.staticDesc t)) ≠ 0) :
    blastTables (before ++ t :: after) s =
      .stop .errOversub { s with huf := (before ++ [t]).foldl (HufMem.builtStatic s.cfg) s.huf } := by
  induction before generalizing s with
  | nil => exact blastTables_stops after hv hs
  | cons u before ih =>
    obtain ⟨hfresh, hnodup⟩ := List.nodup_cons.mp hnodup
    have hother (v : TableSel) (hmem : v ∈ before ++ t :: after) :
        (s.huf.builtStatic s.cfg u).get v = s.huf.get v :=
      HufMem.builtStatic_get_other _ _ fun heq => hfresh (heq ▸ hmem)
    rw [List.cons_append, blastTables_passes _ (hbefore u (List.mem_cons_self ..)), ih hnodup]
    · rfl
    · intro v hmem
      rw [hother v (List.mem_append_left _ hmem)]
      exact hbefore v (List.mem_cons_of_mem _ hmem)
    · rw [hother t (by simp)]
      exact hv
    · exact hs

/-- From static tables that are blank or built the default descriptors build all three (44_blast_lz77.md R211). -/
theorem blastTables_default (hc : s.cfg = Config.default) (hlit : StaticOk s.cfg s.huf.lit .lit)
    (hlen : StaticOk s.cfg s.huf.len .len) (hdist : StaticOk s.cfg s.huf.dist .dist) :
    blastTables [.lit, .len, .dist] s = .on s.withStatics := by
  rw [blastTables_cons .lit _ s hc (by decide) hlit,
    blastTables_cons .len _ { s with huf := s.huf.set .lit (s.cfg.staticTable .lit) } hc (by decide) hlen,
    blastTables_cons .dist _
      { s with huf := (s.huf.set .lit (s.cfg.staticTable .lit)).set .len (s.cfg.staticTable .len) } hc (by decide)
      hdist]
  rfl

end Tables

/-! ### The header -/

section Header

variable {s : State} {r : Reader}

/-- The state with a header byte taken by an empty reader. -/
def State.tookByte (s : State) (r : Reader) (regs : BlastRegs) : State :=
  { s with rd := ({ r with spos := r.spos + 1 } : Reader).clear s.src.len 0, blast := regs }

/-- With no byte left the header starves (44_blast_lz77.md R212). -/
theorem blastHeader_of_none (hrd : s.rd = r.clear s.src.len 0) (hpos : r.spos = s.src.len) :
    blastHeader s = .stop .errStarved { s with rd := r.starvedByte s.src.len } := by
  rw [blastHeader, hrd, readGot_byte_at_end hpos]

/-- A first byte above 1 stops the header before its second (44_blast_lz77.md R212). -/
theorem blastHeader_of_badLit (hrd : s.rd = r.clear s.src.len 0) (hpos : r.spos < s.src.len)
    (hbad : 1 < (s.src.byte r.spos).toNat) :
    blastHeader s = .stop .errHdrLit (s.tookByte r { s.blast with lit := (s.src.byte r.spos).toNat }) := by
  rw [blastHeader, hrd, readGot_byte_of_clear hpos hpos]
  exact if_pos hbad

/-- After a first byte of 0 or 1 the header reads its second (44_blast_lz77.md R212). -/
theorem blastHeader_of_goodLit (hrd : s.rd = r.clear s.src.len 0) (hpos : r.spos < s.src.len)
    (hgood : (s.src.byte r.spos).toNat ≤ 1) :
    blastHeader s = blastHeaderDict (s.tookByte r { s.blast with lit := (s.src.byte r.spos).toNat }) := by
  rw [blastHeader, hrd, readGot_byte_of_clear hpos hpos]
  exact if_neg (Nat.not_lt.mpr hgood)

/-- With one byte only the header starves on the second (44_blast_lz77.md R212). -/
theorem blastHeaderDict_of_none (hrd : s.rd = r.clear s.src.len 0) (hpos : r.spos = s.src.len) :
    blastHeaderDict s = .stop .errStarved { s with rd := r.starvedByte s.src.len } := by
  rw [blastHeaderDict, hrd, readGot_byte_at_end hpos]

/-- A second byte outside 4 to 6 stops the header (44_blast_lz77.md R212). -/
theorem blastHeaderDict_of_bad (hrd : s.rd = r.clear s.src.len 0) (hpos : r.spos < s.src.len)
    (hbad : (s.src.byte r.spos).toNat < 4 ∨ 6 < (s.src.byte r.spos).toNat) :
    blastHeaderDict s = .stop .errHdrDict (s.tookByte r { s.blast with dict := (s.src.byte r.spos).toNat }) := by
  rw [blastHeaderDict, hrd, readGot_byte_of_clear hpos hpos]
  exact if_pos hbad

/-- A second byte of 4 to 6 completes the header (44_blast_lz77.md R212). -/
theorem blastHeaderDict_of_good (hrd : s.rd = r.clear s.src.len 0) (hpos : r.spos < s.src.len)
    (hlow : 4 ≤ (s.src.byte r.spos).toNat) (hhigh : (s.src.byte r.spos).toNat ≤ 6) :
    blastHeaderDict s = .on (s.tookByte r { s.blast with dict := (s.src.byte r.spos).toNat }) := by
  rw [blastHeaderDict, hrd, readGot_byte_of_clear hpos hpos]
  exact if_neg (by omega)

end Header

/-! ### The command -/

section Command

variable {s t : State} {s0 used : Nat} {code : StatusCode}

/-- `BLAST` that goes on stands before its first event (44_blast_lz77.md R211). -/
theorem exec_blast_of_on (hp : s.phase = .idle) (hspos : s.rd.spos ≤ s.src.len)
    (h : blastPrepare (blastClear s) = .on t) :
    exec .blast s = .next { blastStage s.rd.spos t with phase := .blast s.rd.spos 0 } := by
  rw [exec, execBlast, whenIdle_idle hp, blastStart, if_neg (Nat.not_lt.mpr hspos), h]

/-- `BLAST` that stops before its first event ends as it ends later (44_blast_lz77.md R211, R229). -/
theorem exec_blast_of_stop (hp : s.phase = .idle) (hspos : s.rd.spos ≤ s.src.len)
    (h : blastPrepare (blastClear s) = .stop code t) :
    exec .blast s = .next (blastEnd code s.rd.spos 0 (blastStage s.rd.spos t)) := by
  rw [exec, execBlast, whenIdle_idle hp, blastStart, if_neg (Nat.not_lt.mpr hspos), h]

/-- The header is read once the tables are built (44_blast_lz77.md R211). -/
theorem blastPrepare_default (hc : s.cfg = Config.default) (hlit : StaticOk s.cfg s.huf.lit .lit)
    (hlen : StaticOk s.cfg s.huf.len .len) (hdist : StaticOk s.cfg s.huf.dist .dist) :
    blastPrepare s = blastHeader s.withStatics := by
  rw [blastPrepare, blastTables_default hc hlit hlen hdist]

/-- Tables that stop leave no header to read (44_blast_lz77.md R211). -/
theorem blastPrepare_of_tables_stop (h : blastTables [.lit, .len, .dist] s = .stop code t) :
    blastPrepare s = .stop code t := by
  rw [blastPrepare, h]

/-! ### The end position and the staging before the first event -/

/-- Before a byte is taken no chunk has been read (44_blast_lz77.md R231). -/
theorem chunksRead_zero (c : Config) : chunksRead c 0 = 0 := by
  rw [chunksRead, Nat.div_eq_zero_iff]
  omega

/-- Before a byte is taken the end position is the cursor (44_blast_lz77.md R231). -/
theorem blastEndPosition_of_untaken (hspos : s.rd.spos = s0) (hle : s0 ≤ s.src.len) : blastEndPosition s0 s = s0 := by
  rw [blastEndPosition, hspos, Nat.sub_self, chunksRead_zero, Nat.mul_zero, Nat.add_zero, Nat.min_eq_right hle]

/-- Before a byte is taken the staging buffer keeps what it held (log 18). -/
theorem blastStage_of_untaken (hspos : s.rd.spos = s0) : blastStage s0 s = s := by
  rw [blastStage, hspos, Nat.sub_self, if_pos rfl]

/-- The end position in chunks of 64 KiB (44_blast_lz77.md R231). -/
theorem blastEndPosition_default (hcfg : s.cfg = Config.default) (hspos : s.rd.spos = s0 + used) :
    blastEndPosition s0 s = min s.src.len (s0 + 65536 * ((used + 65535) / 65536)) := by
  rw [blastEndPosition, hcfg, hspos, Nat.add_sub_cancel_left]
  rfl

/-- Within the first chunk the staging buffer holds that chunk (log 18). -/
theorem blastStage_in_first_chunk (hcfg : s.cfg = Config.default) (hspos : s.rd.spos = s0 + used) (hpos : 0 < used)
    (hchunk : used ≤ 65536) :
    let q := min s.src.len (s0 + 65536 * ((used + 65535) / 65536))
    blastStage s0 s =
      { s with blast := { s.blast with inbuf := s.src.slice s0 (q - s0), inleft := q - (s0 + used) } } := by
  intro q
  have hend : blastEndPosition s0 s = q := blastEndPosition_default hcfg hspos
  have hone : chunksRead s.cfg used - 1 = 0 := by
    rw [hcfg, show chunksRead Config.default used = (used + 65535) / 65536 from rfl]
    omega
  have htaken : s.rd.spos - s0 = used := by omega
  simp only [blastStage, htaken, if_neg (Nat.pos_iff_ne_zero.mp hpos), hone, Nat.mul_zero, Nat.add_zero, hend]
  rw [hspos]

/-- With an empty window the end of `BLAST` appends nothing (44_blast_lz77.md R225, R229, R231). -/
theorem blastEnd_of_emptyWindow {q : Nat} (n : Nat) (hnext : s.win.next = 0) (hend : blastEndPosition s0 s = q) :
    blastEnd code s0 n s = endCommand code (q - s0) n { s with rd := { s.rd with spos := q } } := by
  have hwin : ({ s.win with next := 0 } : Window) = s.win := by rw [← hnext]
  rw [blastEnd_eq, hend, hwin, hnext, show s.win.firstBytes (0 : Fin WIN_SIZE).val = [] from rfl, List.append_nil]
  rfl

/-- A stop before a byte is taken leaves the cursor and the staging buffer (44_blast_lz77.md R229, R231). -/
theorem blastEnd_untaken (n : Nat) (hnext : s.win.next = 0) (hspos : s.rd.spos = s0) (hle : s0 ≤ s.src.len) :
    blastEnd code s0 n (blastStage s0 s) = endCommand code 0 n s := by
  rw [blastStage_of_untaken hspos, blastEnd_of_emptyWindow n hnext (blastEndPosition_of_untaken hspos hle),
    Nat.sub_self, ← hspos]

/-- A stop within the first chunk with an empty window is at the end of that chunk, the staging brought up to date when
a byte has been taken (44_blast_lz77.md R229, R231, log 18). -/
theorem blastEnd_staged (n : Nat) (hcfg : s.cfg = Config.default) (hnext : s.win.next = 0)
    (hspos : s.rd.spos = s0 + used) (hchunk : used ≤ 65536) :
    let q := min s.src.len (s0 + 65536 * ((used + 65535) / 65536))
    blastEnd code s0 n (blastStage s0 s) =
      endCommand code (q - s0) n
        { s with
          rd := { s.rd with spos := q }
          blast :=
            if used = 0 then s.blast
            else { s.blast with inbuf := s.src.slice s0 (q - s0), inleft := q - (s0 + used) } } := by
  intro q
  rcases Nat.eq_zero_or_pos used with rfl | hpos
  · rw [blastStage_of_untaken (by exact hspos), if_pos rfl]
    exact blastEnd_of_emptyWindow n hnext (blastEndPosition_default hcfg hspos)
  · rw [blastStage_in_first_chunk hcfg hspos hpos hchunk, if_neg (Nat.pos_iff_ne_zero.mp hpos)]
    exact blastEnd_of_emptyWindow n (by exact hnext) (blastEndPosition_default (by exact hcfg) (by exact hspos))

/-- `BLAST` with its registers initialised, its tables built and a good first header byte read (44_blast_lz77.md R211,
R212). -/
def State.blastLitRead (s : State) : State :=
  (blastClear s).withStatics.tookByte s.rd { (blastClear s).blast with lit := (s.src.byte s.rd.spos).toNat }

/-- After a good first byte `BLAST` reads the second (44_blast_lz77.md R212). -/
theorem blastHeader_of_start (hpos : s.rd.spos < s.src.len) (hgood : (s.src.byte s.rd.spos).toNat ≤ 1) :
    blastHeader (blastClear s).withStatics = blastHeaderDict s.blastLitRead :=
  blastHeader_of_goodLit (s := (blastClear s).withStatics) (r := s.rd) rfl hpos hgood

/-- A stop of the header after `used` bytes ends `BLAST` with the tables built (44_blast_lz77.md R211, R212, R229,
R231). -/
theorem exec_blast_of_header_stop (used : Nat) (hp : s.phase = .idle) (hspos : s.rd.spos ≤ s.src.len)
    (hcfg : s.cfg = Config.default) (hlit : StaticOk s.cfg s.huf.lit .lit) (hlen : StaticOk s.cfg s.huf.len .len)
    (hdist : StaticOk s.cfg s.huf.dist .dist) (h : blastHeader (blastClear s).withStatics = .stop code t)
    (htcfg : t.cfg = Config.default) (hnext : t.win.next = 0) (hused : t.rd.spos = s.rd.spos + used)
    (hchunk : used ≤ 65536) :
    let q := min t.src.len (s.rd.spos + 65536 * ((used + 65535) / 65536))
    exec .blast s =
      .next (endCommand code (q - s.rd.spos) 0
        { t with
          rd := { t.rd with spos := q }
          blast :=
            if used = 0 then t.blast
            else
              { t.blast with
                inbuf := t.src.slice s.rd.spos (q - s.rd.spos)
                inleft := q - (s.rd.spos + used) } }) := by
  intro q
  have hprepare := (blastPrepare_default (s := blastClear s) hcfg hlit hlen hdist).trans h
  rw [exec_blast_of_stop hp hspos hprepare]
  exact congrArg Host.Outcome.next (blastEnd_staged 0 htcfg hnext hused hchunk)

end Command

/-- Settles O38: both bytes of the header are there and good, so the header goes on to the first event. -/
theorem blastStarts : Obligations.BlastStarts := by
  intro s hp hcfg hlit hlen hdist hinside hgoodLit hlow hhigh
  have hfirst : s.rd.spos < s.src.len := by omega
  have hsecond : s.rd.spos + 1 < s.src.len := by omega
  have hprepare := blastPrepare_default (s := blastClear s) hcfg hlit hlen hdist
  have hheader := blastHeader_of_start hfirst hgoodLit
  have hdict := blastHeaderDict_of_good (s := s.blastLitRead) (r := { s.rd with spos := s.rd.spos + 1 }) rfl hsecond
    hlow hhigh
  have hexec := exec_blast_of_on hp hfirst.le (hprepare.trans (hheader.trans hdict))
  obtain ⟨b, l, hstage⟩ := blastStage_eq s.rd.spos _
  rw [hstage] at hexec
  exact ⟨_, hexec, rfl⟩

/-- Settles O39: the first table that does not construct, then the four stops of the header. -/
theorem blastHeaderStops : Obligations.BlastHeaderStops := by
  intro s hp hspos start lengths built
  refine ⟨fun before after t hall hbefore hv hs => ?tables, fun hcfg hlit hlen hdist => ?header⟩
  case tables =>
    have hnodup : (before ++ t :: after).Nodup := by
      rw [← hall]
      decide
    have htables := blastTables_append_stops (s := blastClear s) hnodup hbefore hv hs
    rw [← hall] at htables
    rw [exec_blast_of_stop hp hspos (blastPrepare_of_tables_stop htables)]
    exact congrArg Host.Outcome.next (blastEnd_untaken 0 rfl rfl hspos)
  case header =>
    refine ⟨fun hnone => ?none, fun hone hbad => ?lit, fun hone hgood => ?one, fun htwo hgood hbad => ?dict⟩
    case none =>
      have hheader := blastHeader_of_none (s := (blastClear s).withStatics) (r := s.rd) rfl hnone
      exact exec_blast_of_header_stop 0 hp hspos hcfg hlit hlen hdist hheader hcfg rfl rfl (by decide)
    case lit =>
      have hheader := blastHeader_of_badLit (s := (blastClear s).withStatics) (r := s.rd) rfl hone hbad
      exact exec_blast_of_header_stop 1 hp hspos hcfg hlit hlen hdist hheader hcfg rfl rfl (by decide)
    case one =>
      have hdict := blastHeaderDict_of_none (s := s.blastLitRead) (r := { s.rd with spos := s.rd.spos + 1 }) rfl hone
      have hheader := (blastHeader_of_start hone.le hgood).trans hdict
      exact exec_blast_of_header_stop 1 hp hspos hcfg hlit hlen hdist hheader hcfg rfl rfl (by decide)
    case dict =>
      have hdict := blastHeaderDict_of_bad (s := s.blastLitRead) (r := { s.rd with spos := s.rd.spos + 1 }) rfl htwo
        hbad
      have hheader := (blastHeader_of_start (Nat.lt_of_succ_lt htwo) hgood).trans hdict
      exact exec_blast_of_header_stop 2 hp hspos hcfg hlit hlen hdist hheader hcfg rfl rfl (by decide)

end Sys2Proof.Machine
end

section
/-! PROOFS, 45_mmcmp.md R240, R251, R252, R254 to R260, R262, R263. The events of a compressed block: what a store
leaves in `OUT`, which width an escape names, and how the sub-block cursor and the blocks come to their end. -/

namespace Sys2Proof.Machine

open Sys2Proof

/-! ### What `OUT` reads after a write -/

theorem OutBuf.read_write_same {o : OutBuf} {a : Nat} (h : a < o.len) (v : Byte) :
    (o.write a v).read a = some v := by
  simp only [OutBuf.read, OutBuf.write, if_pos h, Memory.read_write_same, Option.getD_some]

theorem OutBuf.read_write_ne {o : OutBuf} {a x : Nat} (v : Byte) (hne : x ≠ a) :
    (o.write a v).read x = o.read x := by
  simp only [OutBuf.read, OutBuf.write, Memory.read_write_ne _ _ hne]

@[simp] theorem OutBuf.write_len (o : OutBuf) (a : Nat) (v : Byte) : (o.write a v).len = o.len := rfl

/-! ### What the events do -/

section Events

variable {s : State} {S : Width} {a b hdr d pos size : Nat} {i : Instr}

theorem exec_mmV (hp : s.phase = .mmComp S a b hdr) (d : Nat) : exec (.mmV d) s = mmStore S hdr d s :=
  inMmComp_of_phase hp _

theorem exec_mmW (hp : s.phase = .mmComp S a b hdr) (d f : Nat) :
    exec (.mmW d f) s =
      .next { s with mm := { s.mm with numbits := escapeWidth s.cfg S s.mm.numbits d f } } :=
  inMmComp_of_phase hp _

theorem exec_mmX (hp : s.phase = .mmComp S a b hdr) (d f x : Nat) :
    exec (.mmX d f x) s = mmStore S hdr (mmExtended s.cfg S x) s :=
  inMmComp_of_phase hp _

theorem exec_mmEnd (hp : s.phase = .mmComp S a b hdr) (hends : s.cfg.mmEndsBlock = true) (d f : Nat) :
    exec (.mmEnd d f) s = .next { s with phase := .mmTop a (b + 1) } :=
  (inMmComp_of_phase hp _).trans (if_pos hends)

/-- A value event and an extended one both store; they differ in the value (45_mmcmp.md R254, R256). -/
theorem exec_mmStoring (hp : s.phase = .mmComp S a b hdr)
    (hi : i = .mmV d ∨ ∃ e f x, i = .mmX e f x ∧ d = s.cfg.mmExtBase S + x) : exec i s = mmStore S hdr d s := by
  rcases hi with rfl | ⟨e, f, x, rfl, rfl⟩
  · exact exec_mmV hp d
  · exact exec_mmX hp e f x

/-! ### The two stores -/

theorem mmAddress_of_entry (S : Width) (hsub : s.subBlock? hdr s.mm.subk = some (pos, size)) :
    mmAddress S hdr s = some (pos + S.bits / 8 * s.mm.subpos) := by
  rw [mmAddress, hsub, Option.map_some]

theorem mmStore_w16 (hsub : s.subBlock? hdr s.mm.subk = some (pos, size))
    (hroom : pos + 2 * s.mm.subpos + 1 < s.out.len) (d : Nat) :
    mmStore .w16 hdr d s = .next (mmStoreWord (pos + 2 * s.mm.subpos) d s) := by
  rw [mmStore, mmAddress_of_entry .w16 hsub]
  exact if_pos hroom

theorem mmStore_w8 (hsub : s.subBlock? hdr s.mm.subk = some (pos, size)) (hroom : pos + s.mm.subpos < s.out.len)
    (hentry : s.mm.pay + d < s.src.len) :
    mmStore .w8 hdr d s = .next (mmStoreByte (pos + s.mm.subpos) (s.src.byte (s.mm.pay + d)) s) := by
  have haddr : mmAddress .w8 hdr s = some (pos + s.mm.subpos) := by
    rw [mmAddress_of_entry .w8 hsub, show Width.w8.bits / 8 = 1 from rfl, Nat.one_mul]
  have hbyte : BitVec.ofNat 8 (s.src.le (s.mm.pay + d) 1) = s.src.byte (s.mm.pay + d) := by
    simp [Source.le]
  rw [mmStore, haddr]
  simp only [Source.le?, if_pos (show s.mm.pay + d + 1 ≤ s.src.len from hentry), if_pos hroom, hbyte]

/-- The word stored and `OLDVAL` after it, at the default flag bits (45_mmcmp.md R258). -/
theorem mmWord_default {c : Config} (hc : c = Config.default) (r : MmRegs) (d : Nat) :
    mmWord c r d =
      let fold : BitVec 16 := if d % 2 = 1 then BitVec.ofNat 16 (0x10000 - (d + 1) / 2 % 0x10000)
        else BitVec.ofNat 16 (d / 2)
      let v : BitVec 16 :=
        if r.flags.getLsbD 1 then fold + r.oldval else if r.flags.getLsbD 9 then fold else fold ^^^ 0x8000
      (v, if r.flags.getLsbD 1 then v else r.oldval) := by
  have hfold := mmFold_eq c (by rw [hc]; rfl) d
  have hdelta : r.flag c.mm.deltaBit = r.flags.getLsbD 1 := by rw [hc]; rfl
  have habs : r.flag c.mm.abs16Bit = r.flags.getLsbD 9 := by rw [hc]; rfl
  simp only [mmWord, hfold, hdelta, habs]
  split_ifs <;> rfl

/-- The byte stored and `OLDVAL` after it, at the default flag bits (45_mmcmp.md R259). -/
theorem mmByte_default {c : Config} (hc : c = Config.default) (r : MmRegs) (p : Byte) :
    mmByte c r p =
      let v : Byte := if r.flags.getLsbD 1 then p + r.oldval.setWidth 8 else p
      (v, if r.flags.getLsbD 1 then v.setWidth 16 else r.oldval) := by
  have hdelta : r.flag c.mm.deltaBit = r.flags.getLsbD 1 := by rw [hc]; rfl
  simp only [mmByte, hdelta]
  split_ifs <;> rfl

end Events

/-- Settles O49: both events by their meaning, the escape's shift as a product. -/
theorem mmWidthAndEnd : Obligations.MmWidthAndEnd := by
  intro s S a b hdr d f hp
  refine ⟨?_, fun hends => exec_mmEnd hp hends d f⟩
  rw [exec_mmW hp, escapeWidth, Nat.shiftLeft_eq]

/-- Settles O47: the event stores its word, whose two bytes stand at the cursor. -/
theorem mmStoreWord_result : Obligations.MmStoreWord := by
  intro s a b hdr d pos size i hp hc hsub hroom hi fold v at0
  have hexec : exec i s = .next (mmStoreWord at0 d s) := by
    rw [exec_mmStoring hp (by rw [hc]; exact hi), mmStore_w16 hsub hroom]
  have hword : mmWord s.cfg s.mm d = (v, if s.mm.flags.getLsbD 1 then v else s.mm.oldval) :=
    mmWord_default hc s.mm d
  have hout : (mmStoreWord at0 d s).out =
      (s.out.write at0 (v.extractLsb' 0 8)).write (at0 + 1) (v.extractLsb' 8 8) := by
    rw [mmStoreWord, hword]
  refine ⟨mmStoreWord at0 d s, hexec, ?low, ?high, fun x h0 h1 => ?other, rfl, rfl, rfl, ?frame⟩
  case low =>
    rw [hout, OutBuf.read_write_ne _ (Nat.ne_of_lt (Nat.lt_succ_self at0)),
      OutBuf.read_write_same (Nat.lt_of_succ_lt hroom)]
  case high =>
    rw [hout]
    exact OutBuf.read_write_same (by exact hroom) _
  case other => rw [hout, OutBuf.read_write_ne _ h1, OutBuf.read_write_ne _ h0]
  case frame => simp only [mmStoreWord, MmRegs.advance, hword]

/-- Settles O48: the event stores its byte at the cursor. -/
theorem mmStoreByte_result : Obligations.MmStoreByte := by
  intro s a b hdr d pos size i hp hc hsub hroom hentry hi p v at0
  have hexec : exec i s = .next (mmStoreByte at0 p s) := by
    rw [exec_mmStoring hp (by rw [hc]; exact hi), mmStore_w8 hsub hroom hentry]
  have hbyte : mmByte s.cfg s.mm p = (v, if s.mm.flags.getLsbD 1 then v.setWidth 16 else s.mm.oldval) :=
    mmByte_default hc s.mm p
  have hout : (mmStoreByte at0 p s).out = s.out.write at0 v := by rw [mmStoreByte, hbyte]
  refine ⟨mmStoreByte at0 p s, hexec, ?stored, fun x hne => ?other, rfl, rfl, rfl, ?frame⟩
  case stored => rw [hout, OutBuf.read_write_same hroom]
  case other => rw [hout, OutBuf.read_write_ne _ hne]
  case frame => simp only [mmStoreByte, MmRegs.advance, hbyte]

/-! ### The widths the escapes name -/

/-- At every width the escape fields with their fetch bits are as many as there are widths (45_mmcmp.md R252). -/
theorem escapeCount_default {S : Width} {w : Nat} (hw : w < S.bits) :
    (2 ^ (w + 1) - Config.default.mmCmd S w) * 2 ^ Config.default.mmFetch S w = S.bits := by
  have htable : ∀ S : Width, ∀ w : Fin S.bits,
      (2 ^ (w.val + 1) - Config.default.mmCmd S w) * 2 ^ Config.default.mmFetch S w = S.bits := fun S => by
    cases S with
    | w8 => decide
    | w16 => decide
  exact htable S ⟨w, hw⟩

/-- An escape field and its fetch bits are the quotient and the remainder of the width they name (45_mmcmp.md R255). -/
theorem escapeWidth_eq_iff {c : Config} {S : Width} {w d f : Nat} (n : Nat) (hd : c.mmCmd S w ≤ d)
    (hf : f < 2 ^ c.mmFetch S w) :
    escapeWidth c S w d f = n ↔ d = c.mmCmd S w + n / 2 ^ c.mmFetch S w ∧ f = n % 2 ^ c.mmFetch S w := by
  have hpos : 0 < 2 ^ c.mmFetch S w := Nat.two_pow_pos _
  rw [escapeWidth, Nat.shiftLeft_eq]
  constructor
  · rintro rfl
    rw [Nat.add_mul_div_right _ _ hpos, Nat.div_eq_of_lt hf, Nat.add_mul_mod_self_right, Nat.mod_eq_of_lt hf]
    omega
  · rintro ⟨rfl, rfl⟩
    rw [Nat.add_sub_cancel_left, Nat.mod_add_div']

/-- Settles O51: an escape and its fetch bits name a width below `N`, and each width has its quotient and remainder. -/
theorem escapeWidths : Obligations.EscapeWidths := by
  intro S w hw
  refine ⟨fun d f hcmd hd hf => escapeWidth_lt hw (by simp [isEscape, hd, hcmd, hf]), fun n hn => ?_⟩
  have hpos : 0 < 2 ^ Config.default.mmFetch S w := Nat.two_pow_pos _
  have hquot : n / 2 ^ Config.default.mmFetch S w < 2 ^ (w + 1) - Config.default.mmCmd S w := by
    rwa [Nat.div_lt_iff_lt_mul hpos, escapeCount_default hw]
  have hrem := Nat.mod_lt n hpos
  have hcmd := Nat.le_add_right (Config.default.mmCmd S w) (n / 2 ^ Config.default.mmFetch S w)
  exact ⟨_, _, hcmd, by omega, hrem, (escapeWidth_eq_iff n hcmd hrem).mpr ⟨rfl, rfl⟩,
    fun d' f' hd' _ hf' hname => (escapeWidth_eq_iff n hd' hf').mp hname⟩

/-! ### The cursor, the blocks and their end -/

section Advance

variable {s : State} {S : Width} {a b hdr pos size : Nat}

theorem fetch_of_mmTop (hp : s.phase = .mmTop a b) : fetch s = mmTopNext a b s := by
  simp only [fetch, hp]

/-- The sequencer reads the state through its fetch, unless there is nothing to do. -/
theorem step_congr {t : State} (h : fetch s = fetch t) (hne : fetch s ≠ .rest) : step s = step t := by
  unfold step
  rw [← h]
  cases hf : fetch s with
  | rest => exact absurd hf hne
  | _ => rfl

/-- A compressed block in progress always has something to do (45_mmcmp.md R251). -/
theorem mmCompNext_ne_rest : mmCompNext S a b hdr s ≠ .rest := by
  unfold mmCompNext
  split
  · nofun
  · split
    · nofun
    · split <;> nofun

/-- No sub-block is left (45_mmcmp.md R251). -/
theorem mmCompNext_done (h : s.mm.nsub ≤ s.mm.subk) :
    mmCompNext S a b hdr s = .control { s with phase := .mmTop a (b + 1) } := by
  rw [mmCompNext, Nat.sub_eq_zero_of_le h]
  exact if_pos h

/-- A full sub-block is passed over (45_mmcmp.md R260). -/
theorem mmCompNext_full (hsubk : s.mm.subk < s.mm.nsub) (hsub : s.subBlock? hdr s.mm.subk = some (pos, size))
    (hfull : subElems S size ≤ s.mm.subpos) :
    mmCompNext S a b hdr s =
      mmCompNext S a b hdr { s with mm := { s.mm with subk := s.mm.subk + 1, subpos := 0 } } := by
  have hleft : s.mm.nsub - s.mm.subk = s.mm.nsub - (s.mm.subk + 1) + 1 := by omega
  simp only [mmCompNext, hleft, mmAdvance, hsub, if_pos hfull]

end Advance

/-- Settles O50: the three steps by what the sequencer answers. -/
theorem mmAdvances : Obligations.MmAdvances := by
  intro s S a b hdr
  refine ⟨fun hp hdone => ?done, fun hp hsubk pos size hsub hfull => ?full, fun hp hlast => ?finish⟩
  case done => exact step_of_fetch_control ((fetch_of_mmComp hp).trans (mmCompNext_done hdone))
  case full =>
    have hfetch := (fetch_of_mmComp hp).trans (mmCompNext_full hsubk hsub hfull)
    exact step_congr (hfetch.trans (fetch_of_mmComp (by exact hp)).symm)
      (fetch_of_mmComp hp ▸ mmCompNext_ne_rest)
  case finish => exact step_of_fetch_control ((fetch_of_mmTop hp).trans (if_neg (Nat.not_lt.mpr hlast)))

end Sys2Proof.Machine
end

section
/-! PROOFS, 45_mmcmp.md R240, R242 to R246, R249 to R251, R262 to R265. The blocks of a file: the tests of a block at
the default layout, the set-up of a compressed one, and what the raw copy leaves in `OUT`. -/

namespace Sys2Proof.Machine

open Sys2Proof

/-! ### The block's tables in the source -/

/-- `pos_k` of the block whose header is at `hdr` (45_mmcmp.md R244). -/
def Source.subPos (m : Source) (hdr k : Nat) : Nat := m.le (hdr + 20 + 8 * k) 4

/-- `size_k` of the block whose header is at `hdr` (45_mmcmp.md R244). -/
def Source.subSize (m : Source) (hdr k : Nat) : Nat := m.le (hdr + 24 + 8 * k) 4

/-- Where the bytes of sub-block `k` of a raw block stand: they follow one another from the payload (45_mmcmp.md
R264). -/
def Source.rawStart (m : Source) (hdr pay k : Nat) : Nat := pay + ((List.range k).map (m.subSize hdr)).sum

/-- The offset of the payload: past the header and the sub-block table (45_mmcmp.md R243, R244). -/
def Source.payload (m : Source) (p : Nat) : Nat := p + 20 + 8 * m.le (p + 12) 2

/-- The registers after the block header at `p` (45_mmcmp.md R243). -/
def State.mmHeaderRead (s : State) (p : Nat) : MmRegs :=
  { s.mm with
    unpk := s.src.le p 4
    pk := s.src.le (p + 4) 4
    xorChk := s.src.le (p + 8) 4
    nsub := s.src.le (p + 12) 2
    flags := BitVec.ofNat 16 (s.src.le (p + 14) 2)
    tt := s.src.le (p + 16) 2
    nbits := s.src.le (p + 18) 2 }

/-- The state past the header and the sub-block table of the block at `p` (45_mmcmp.md R250, 10_state.md R29). -/
def State.mmTablesRead (s : State) (p : Nat) : State :=
  { s with
    rd := { s.rd with spos := s.src.payload p }
    mm := { s.mmHeaderRead p with pay := s.src.payload p } }

/-- The sub-block lies inside `OUT` (45_mmcmp.md R249). -/
def State.SubInside (s : State) (hdr k : Nat) : Prop :=
  s.src.subPos hdr k ≤ s.mm.fsize ∧ s.src.subSize hdr k ≤ s.mm.fsize - s.src.subPos hdr k

theorem Source.rawStart_succ (m : Source) (hdr pay k : Nat) :
    m.rawStart hdr pay (k + 1) = m.rawStart hdr pay k + m.subSize hdr k := by
  simp [rawStart, List.range_succ, Nat.add_assoc]

/-! ### The tests of a block -/

section Tests

variable {s t : State} {S : Width} {a b p hdr : Nat}

/-- An entry of a table inside the source, by the names of its fields. -/
theorem subBlock_eq {n k : Nat} (hc : s.cfg = Config.default) (htable : hdr + 20 + 8 * n ≤ s.src.len) (hk : k < n) :
    s.subBlock? hdr k = some (s.src.subPos hdr k, s.src.subSize hdr k) := subBlock_inside hc htable hk

/-- The test of the sub-blocks is that each of them lies inside `OUT` (45_mmcmp.md R249). -/
theorem mmSubsInside_iff {n k : Nat} (hc : s.cfg = Config.default) (htable : hdr + 20 + 8 * (k + n) ≤ s.src.len) :
    mmSubsInside s hdr k n = true ↔ ∀ j, k ≤ j → j < k + n → s.SubInside hdr j := by
  induction n generalizing k with
  | zero => exact ⟨fun _ j hle hlt => absurd hle (Nat.not_le.mpr hlt), fun _ => rfl⟩
  | succ n ih =>
    have hrest := ih (k := k + 1) (by omega)
    simp only [mmSubsInside, subBlock_eq hc htable (show k < k + (n + 1) by omega), Bool.and_eq_true,
      decide_eq_true_eq, hrest]
    constructor
    · rintro ⟨hfirst, hall⟩ j hle hlt
      rcases Nat.eq_or_lt_of_le hle with rfl | hlater
      · exact hfirst
      · exact hall j hlater (by omega)
    · exact fun hall => ⟨hall k (Nat.le_refl k) (by omega), fun j hle hlt => hall j (by omega) (by omega)⟩

/-- Before a block that is left the step reads its pointer and takes the block (45_mmcmp.md R240, R242). -/
theorem step_mmTop_block (hp : s.phase = .mmTop a b) (hc : s.cfg = Config.default) (hb : b < s.mm.nblk)
    (htable : s.mm.btab + 4 * s.mm.nblk ≤ s.src.len) :
    step s = .next (mmSettle a (mmBlockAt a b (s.src.le (s.mm.btab + 4 * b) 4) s)) := by
  have hentry : s.cfg.mm.entryLen = 4 := by rw [hc]; rfl
  refine step_of_fetch_control ((fetch_of_mmTop hp).trans ?_)
  simp only [mmTopNext, if_pos hb, hentry, Source.le?, if_pos (show s.mm.btab + 4 * b + 4 ≤ s.src.len by omega)]

/-- A stop of `MMCMP` puts `SPOS` back and leaves no buffer, whatever stood there (45_mmcmp.md R240, R263). -/
theorem mmStop_eq_ended (code : StatusCode) (a x : Nat) (regs : MmRegs) {o : OutBuf} (ho : o.epoch = s.out.epoch) :
    mmStop code a { s with rd := { s.rd with spos := x }, mm := regs, out := o } =
      (({ s with
        rd := { s.rd with spos := a }
        mm := regs
        out := { len := 0, cells := [], valid := false, epoch := s.out.epoch } } : State).ended
          (BitVec.ofInt 32 code.num) 0 0) := by
  rw [← ho]
  rfl

/-- The block's tests of the source, in order (45_mmcmp.md R250). -/
theorem mmBlockAt_default (hc : s.cfg = Config.default) :
    mmBlockAt a b p s =
      if s.src.len < p + 20 then .stop .errStarved s
      else if s.src.len < s.src.payload p then
        .stop .errStarved { s with rd := { s.rd with spos := p + 20 }, mm := s.mmHeaderRead p }
      else if mmSubsInside (s.mmTablesRead p) p 0 (s.src.le (p + 12) 2) then
        mmBlockBody a b p (s.mmTablesRead p)
      else .stop .errBounds (s.mmTablesRead p) := by
  have hl : s.cfg.mm = MmLayout.default := by rw [hc]; rfl
  simp only [mmBlockAt, mmBlockRegs, hl]
  rfl

/-- With the tables inside the source the test of the sub-blocks is left (45_mmcmp.md R249, R250). -/
theorem mmBlockAt_of_tables (hc : s.cfg = Config.default) (hpay : s.src.payload p ≤ s.src.len) :
    mmBlockAt a b p s =
      if mmSubsInside (s.mmTablesRead p) p 0 (s.src.le (p + 12) 2) then mmBlockBody a b p (s.mmTablesRead p)
      else .stop .errBounds (s.mmTablesRead p) := by
  have hheader : p + 20 ≤ s.src.len := Nat.le_trans (Nat.le_add_right _ _) hpay
  rw [mmBlockAt_default hc, if_neg (Nat.not_lt.mpr hheader), if_neg (Nat.not_lt.mpr hpay)]

theorem mmTablesRead_inside_iff (hc : s.cfg = Config.default) (hpay : s.src.payload p ≤ s.src.len) :
    mmSubsInside (s.mmTablesRead p) p 0 (s.src.le (p + 12) 2) = true ↔
      ∀ k < s.src.le (p + 12) 2, s.SubInside p k := by
  rw [mmSubsInside_iff (by exact hc) (by rwa [Nat.zero_add]), Nat.zero_add]
  exact ⟨fun hall k => hall k (Nat.zero_le k), fun hall k _ => hall k⟩

theorem mmBlockAt_outside (hc : s.cfg = Config.default) (hpay : s.src.payload p ≤ s.src.len)
    (h : ∃ k < s.src.le (p + 12) 2, ¬ s.SubInside p k) :
    mmBlockAt a b p s = .stop .errBounds (s.mmTablesRead p) := by
  obtain ⟨k, hk, hout⟩ := h
  rw [mmBlockAt_of_tables hc hpay, if_neg fun htest => hout ((mmTablesRead_inside_iff hc hpay).mp htest k hk)]

theorem mmBlockAt_inside (hc : s.cfg = Config.default) (hpay : s.src.payload p ≤ s.src.len)
    (h : ∀ k < s.src.le (p + 12) 2, s.SubInside p k) :
    mmBlockAt a b p s = mmBlockBody a b p (s.mmTablesRead p) := by
  rw [mmBlockAt_of_tables hc hpay, if_pos ((mmTablesRead_inside_iff hc hpay).mpr h)]

/-! ### A compressed block -/

theorem mmBlockBody_compressed (hc : s.cfg = Config.default) (h : s.mm.flags.getLsbD 0 = true) :
    mmBlockBody a b hdr s = mmCompOpen (if s.mm.flags.getLsbD 2 then .w16 else .w8) a b hdr s := by
  have hcomp : s.mm.flag s.cfg.mm.compBit = true := by rw [hc]; exact h
  have hwide : s.mm.flag s.cfg.mm.wideBit = s.mm.flags.getLsbD 2 := by rw [hc]; rfl
  simp only [mmBlockBody, hcomp, hwide]
  cases s.mm.flags.getLsbD 2 <;> rfl

theorem mmCompOpen_of_badWidth (h : S.bits ≤ s.mm.nbits) : mmCompOpen S a b hdr s = .stop .errWidth s := if_pos h

theorem mmCompOpen_of_noTable (hw : s.mm.nbits < S.bits) (hS : S = .w8) (h : s.src.len < s.mm.pay + 256) :
    mmCompOpen S a b hdr s = .stop .errStarved s :=
  (if_neg (Nat.not_le.mpr hw)).trans (if_pos ⟨hS, h⟩)

theorem mmCompOpen_of_good (hc : s.cfg = Config.default) (hw : s.mm.nbits < S.bits)
    (h : S = .w8 → s.mm.pay + 256 ≤ s.src.len) :
    mmCompOpen S a b hdr s =
      let lim := min (s.mm.pay + s.mm.pk) s.src.len
      .on
        { s with
          mm := { s.mm with numbits := s.mm.nbits, oldval := 0, subk := 0, subpos := 0 }
          rd := { s.rd.clear lim 0 with spos := min (s.mm.pay + s.mm.tt) lim }
          phase := .mmComp S a b hdr } := by
  have hpay : mmPayloadEnd s = s.mm.pay + s.mm.pk := by rw [mmPayloadEnd, hc]; rfl
  rw [← hpay]
  exact (if_neg (Nat.not_le.mpr hw)).trans (if_neg fun ⟨hS, hshort⟩ => Nat.not_lt.mpr (h hS) hshort)

end Tests

/-- Settles O45: the first test that fails says where the block stops; when none does the block is set up. -/
theorem mmBlockOpens : Obligations.MmBlockOpens := by
  intro s a b hp hc hb htable stops p pk nsub flags nbits tt pay header inside S
  have hstep : step s = .next (mmSettle a (mmBlockAt a b p s)) := step_mmTop_block hp hc hb htable
  have stopped {code : StatusCode} {x : Nat} {regs : MmRegs}
      (h : mmBlockAt a b p s = .stop code { s with rd := { s.rd with spos := x }, mm := regs }) :
      stops (BitVec.ofInt 32 code.num) regs := by
    show step s = _
    rw [hstep, h]
    exact congrArg Host.Outcome.next (mmStop_eq_ended code a x regs rfl)
  refine ⟨fun hshort => ?header, fun hwhole hshort => ?table, fun hpay hout => ?bounds,
    fun hpay hin hcomp => ⟨fun hw => ?width, fun hw hS hshort => ?permutation, fun hw hperm => ?opens⟩⟩
  case header => exact stopped (x := s.rd.spos) ((mmBlockAt_default hc).trans (if_pos hshort))
  case table =>
    exact stopped ((mmBlockAt_default hc).trans ((if_neg (Nat.not_lt.mpr hwhole)).trans (if_pos hshort)))
  case bounds => exact stopped (mmBlockAt_outside hc hpay hout)
  all_goals
    have hbody : mmBlockAt a b p s = mmCompOpen S a b p (s.mmTablesRead p) :=
      (mmBlockAt_inside hc hpay hin).trans (mmBlockBody_compressed hc hcomp)
  case width => exact stopped (hbody.trans (mmCompOpen_of_badWidth hw))
  case permutation => exact stopped (hbody.trans (mmCompOpen_of_noTable hw hS hshort))
  case opens =>
    rw [hstep, hbody.trans (mmCompOpen_of_good hc hw hperm)]
    rfl

/-! ### What the raw copy leaves in `OUT` -/

section RawCopy

variable {m : Source} {hdr pay : Nat} {o : OutBuf}

/-- `n` bytes copied are read where they were put, in order; the rest of `OUT` as before (45_mmcmp.md R264). -/
theorem OutBuf.read_copyFrom {n a q : Nat} (h : a + n ≤ o.len) (x : Nat) :
    (o.copyFrom m n a q).read x = if a ≤ x ∧ x < a + n then some (m.byte (q + (x - a))) else o.read x := by
  induction n generalizing a q o with
  | zero => rw [OutBuf.copyFrom, if_neg (by omega)]
  | succ n ih =>
    rw [OutBuf.copyFrom, ih (by rw [OutBuf.write_len]; omega)]
    rcases Nat.lt_trichotomy x a with hlt | rfl | hgt
    · rw [if_neg (by omega), if_neg (by omega), OutBuf.read_write_ne _ (by omega)]
    · rw [if_neg (by omega), if_pos (by omega), OutBuf.read_write_same (by omega), Nat.sub_self, Nat.add_zero]
    · rw [OutBuf.read_write_ne _ (by omega), show q + 1 + (x - (a + 1)) = q + (x - a) by omega]
      exact if_congr (by omega) rfl rfl

@[simp] theorem OutBuf.copyFrom_epoch (m : Source) (n a q : Nat) (o : OutBuf) :
    (o.copyFrom m n a q).epoch = o.epoch := by
  induction n generalizing a q o with
  | zero => rfl
  | succ n ih => exact ih _ _ _

/-- `OUT` after the first `n` sub-blocks of the raw block at `hdr` (45_mmcmp.md R264). -/
def OutBuf.copySubs (m : Source) (hdr pay : Nat) : Nat → OutBuf → OutBuf
  | 0, o => o
  | n + 1, o =>
    (OutBuf.copySubs m hdr pay n o).copyFrom m (m.subSize hdr n) (m.subPos hdr n) (m.rawStart hdr pay n)

@[simp] theorem OutBuf.copySubs_len (m : Source) (hdr pay n : Nat) (o : OutBuf) :
    (o.copySubs m hdr pay n).len = o.len := by
  induction n with
  | zero => rfl
  | succ n ih => rw [copySubs, copyFrom_len, ih]

@[simp] theorem OutBuf.copySubs_valid (m : Source) (hdr pay n : Nat) (o : OutBuf) :
    (o.copySubs m hdr pay n).valid = o.valid := by
  induction n with
  | zero => rfl
  | succ n ih => rw [copySubs, copyFrom_valid, ih]

@[simp] theorem OutBuf.copySubs_epoch (m : Source) (hdr pay n : Nat) (o : OutBuf) :
    (o.copySubs m hdr pay n).epoch = o.epoch := by
  induction n with
  | zero => rfl
  | succ n ih => rw [copySubs, copyFrom_epoch, ih]

/-- Address `x` of `OUT` belongs to sub-block `k`. -/
abbrev Source.InSub (m : Source) (hdr k x : Nat) : Prop := m.subPos hdr k ≤ x ∧ x < m.subPos hdr k + m.subSize hdr k

/-- The last sub-block over an address is the one whose byte stands there (45_mmcmp.md R265). -/
theorem OutBuf.read_copySubs_of_last {n k i : Nat} (hroom : ∀ j < n, m.subPos hdr j + m.subSize hdr j ≤ o.len)
    (hk : k < n) (hi : i < m.subSize hdr k)
    (hlast : ∀ j, k < j → j < n → ¬ m.InSub hdr j (m.subPos hdr k + i)) :
    (o.copySubs m hdr pay n).read (m.subPos hdr k + i) = some (m.byte (m.rawStart hdr pay k + i)) := by
  induction n with
  | zero => omega
  | succ n ih =>
    rw [copySubs, read_copyFrom (by rw [copySubs_len]; exact hroom n (by omega))]
    rcases Nat.eq_or_lt_of_le (Nat.le_of_lt_succ hk) with rfl | hearlier
    · rw [if_pos (by omega), Nat.add_sub_cancel_left]
    · rw [if_neg (hlast n hearlier (Nat.lt_succ_self n))]
      exact ih (fun j hj => hroom j (by omega)) hearlier fun j hkj hj => hlast j hkj (by omega)

/-- Where no sub-block puts a byte `OUT` reads as before (45_mmcmp.md R265). -/
theorem OutBuf.read_copySubs_of_none {n x : Nat} (hroom : ∀ j < n, m.subPos hdr j + m.subSize hdr j ≤ o.len)
    (hnone : ∀ j < n, ¬ m.InSub hdr j x) : (o.copySubs m hdr pay n).read x = o.read x := by
  induction n with
  | zero => rfl
  | succ n ih =>
    rw [copySubs, read_copyFrom (by rw [copySubs_len]; exact hroom n (by omega)),
      if_neg (hnone n (Nat.lt_succ_self n))]
    exact ih (fun j hj => hroom j (by omega)) fun j hj => hnone j (by omega)

end RawCopy

/-! ### The raw block -/

section RawBlock

variable {s t : State} {a b hdr pay : Nat}

/-- The state after the first `k` sub-blocks of the raw block at `hdr`. -/
def State.copiedSubs (s : State) (hdr pay k : Nat) : State := { s with out := s.out.copySubs s.src hdr pay k }

/-- One sub-block of the raw copy: its bytes are in the source and are copied, or the copy stops (45_mmcmp.md R264). -/
theorem mmRawBlock_succ {n k : Nat} (hc : s.cfg = Config.default)
    (htable : hdr + 20 + 8 * (k + (n + 1)) ≤ s.src.len) :
    mmRawBlock hdr (n + 1) k (s.src.rawStart hdr pay k) (s.copiedSubs hdr pay k) =
      if s.src.len < s.src.rawStart hdr pay k + s.src.subSize hdr k then
        .stop .errStarved (s.copiedSubs hdr pay k)
      else mmRawBlock hdr n (k + 1) (s.src.rawStart hdr pay (k + 1)) (s.copiedSubs hdr pay (k + 1)) := by
  have hgap : s.cfg.mm.rawGap = 0 := by rw [hc]; rfl
  have hentry : (s.copiedSubs hdr pay k).subBlock? hdr k = some (s.src.subPos hdr k, s.src.subSize hdr k) :=
    subBlock_eq (by exact hc) htable (by omega)
  rw [mmRawBlock, hentry, Source.rawStart_succ]
  simp only [State.copiedSubs, hgap, Nat.add_zero]
  rfl

/-- With every sub-block's bytes in the source the copy ends after the last of them. -/
theorem mmRawBlock_rest_whole {n k : Nat} (hc : s.cfg = Config.default)
    (htable : hdr + 20 + 8 * (k + n) ≤ s.src.len)
    (hfit : ∀ j, k ≤ j → j < k + n → s.src.rawStart hdr pay j + s.src.subSize hdr j ≤ s.src.len) :
    mmRawBlock hdr n k (s.src.rawStart hdr pay k) (s.copiedSubs hdr pay k) =
      .on (s.copiedSubs hdr pay (k + n)) := by
  induction n generalizing k with
  | zero => rfl
  | succ n ih =>
    rw [mmRawBlock_succ hc htable, if_neg (Nat.not_lt.mpr (hfit k (Nat.le_refl k) (by omega))),
      ih (by omega) fun j hle hlt => hfit j (by omega) (by omega), Nat.add_right_comm k 1 n, Nat.add_assoc]

/-- With a sub-block that reaches beyond the source the copy stops before the first such one. -/
theorem mmRawBlock_rest_short {n k : Nat} (hc : s.cfg = Config.default)
    (htable : hdr + 20 + 8 * (k + n) ≤ s.src.len)
    (hshort : ∃ j, k ≤ j ∧ j < k + n ∧ s.src.len < s.src.rawStart hdr pay j + s.src.subSize hdr j) :
    ∃ j, mmRawBlock hdr n k (s.src.rawStart hdr pay k) (s.copiedSubs hdr pay k) =
      .stop .errStarved (s.copiedSubs hdr pay j) := by
  induction n generalizing k with
  | zero =>
    obtain ⟨j, hle, hlt, -⟩ := hshort
    omega
  | succ n ih =>
    rw [mmRawBlock_succ hc htable]
    by_cases hfirst : s.src.len < s.src.rawStart hdr pay k + s.src.subSize hdr k
    · exact ⟨k, if_pos hfirst⟩
    · obtain ⟨j, hle, hlt, hbeyond⟩ := hshort
      have hne : k ≠ j := fun h => hfirst (h ▸ hbeyond)
      rw [if_neg hfirst]
      exact ih (by omega) ⟨j, by omega, by omega, hbeyond⟩

theorem mmRawBlock_whole {n : Nat} (hc : s.cfg = Config.default) (htable : hdr + 20 + 8 * n ≤ s.src.len)
    (hfit : ∀ j < n, s.src.rawStart hdr pay j + s.src.subSize hdr j ≤ s.src.len) :
    mmRawBlock hdr n 0 pay s = .on (s.copiedSubs hdr pay n) := by
  rw [← Nat.zero_add n] at htable
  have hrest := mmRawBlock_rest_whole hc htable fun j _ hj => hfit j (by omega)
  rwa [Nat.zero_add] at hrest

theorem mmRawBlock_short {n : Nat} (hc : s.cfg = Config.default) (htable : hdr + 20 + 8 * n ≤ s.src.len)
    (hshort : ∃ j < n, s.src.len < s.src.rawStart hdr pay j + s.src.subSize hdr j) :
    ∃ j, mmRawBlock hdr n 0 pay s = .stop .errStarved (s.copiedSubs hdr pay j) := by
  obtain ⟨j, hj, hbeyond⟩ := hshort
  rw [← Nat.zero_add n] at htable hj
  exact mmRawBlock_rest_short hc htable ⟨j, Nat.zero_le j, hj, hbeyond⟩

/-- A block without its compression bit is copied from its first sub-block on (45_mmcmp.md R250). -/
theorem mmBlockBody_of_raw_on (hc : s.cfg = Config.default) (h : s.mm.flags.getLsbD 0 = false)
    (hraw : mmRawBlock hdr s.mm.nsub 0 s.mm.pay s = .on t) :
    mmBlockBody a b hdr s = .on { t with phase := .mmTop a (b + 1) } := by
  have hcomp : s.mm.flag s.cfg.mm.compBit = false := by rw [hc]; exact h
  simp only [mmBlockBody, hcomp, hraw, Bool.not_false, if_true]

theorem mmBlockBody_of_raw_stop {code : StatusCode} (hc : s.cfg = Config.default) (h : s.mm.flags.getLsbD 0 = false)
    (hraw : mmRawBlock hdr s.mm.nsub 0 s.mm.pay s = .stop code t) : mmBlockBody a b hdr s = .stop code t := by
  have hcomp : s.mm.flag s.cfg.mm.compBit = false := by rw [hc]; exact h
  simp only [mmBlockBody, hcomp, hraw, Bool.not_false, if_true]

end RawBlock

/-- Settles O46: the copy ends with every sub-block in `OUT`, where the last one over an address is read, or it stops
before the first that reaches beyond the source. -/
theorem mmRawCopy : Obligations.MmRawCopy := by
  intro s a b hp hc hb htable hlen p nsub flags pay mm pos size q hpay hin hraw
  have hstep : step s = .next (mmSettle a (mmBlockAt a b p s)) := step_mmTop_block hp hc hb htable
  have hbody : mmBlockAt a b p s = mmBlockBody a b p (s.mmTablesRead p) := mmBlockAt_inside hc hpay hin
  have hroom : ∀ k < nsub, pos k + size k ≤ s.out.len := fun k hk => by
    obtain ⟨hpos, hsize⟩ := hin k hk
    omega
  refine ⟨fun hfit => ⟨s.out.copySubs s.src p pay nsub, fun k hk i => OutBuf.read_copySubs_of_last hroom hk,
    fun x => OutBuf.read_copySubs_of_none hroom, OutBuf.copySubs_len .., OutBuf.copySubs_valid ..,
    OutBuf.copySubs_epoch .., ?whole⟩, fun hbeyond => ?short⟩
  case whole =>
    have hcopy := mmRawBlock_whole (s := s.mmTablesRead p) (pay := pay) hc hpay hfit
    rw [hstep, hbody, mmBlockBody_of_raw_on (s := s.mmTablesRead p) hc hraw hcopy]
    rfl
  case short =>
    obtain ⟨k, hcopy⟩ := mmRawBlock_short (s := s.mmTablesRead p) (pay := pay) hc hpay hbeyond
    rw [hstep, hbody, mmBlockBody_of_raw_stop (s := s.mmTablesRead p) hc hraw hcopy]
    exact congrArg Host.Outcome.next (mmStop_eq_ended .errStarved a pay mm (OutBuf.copySubs_epoch ..))

end Sys2Proof.Machine
end

section
/-! PROOFS, 60_exceptions.md R289 (b). What a command does with arguments that fail its tests: the tests stand in
`commandRefused`, and a command refuses whichever of its tests fails (`exec_of_commandRefused`). -/

namespace Sys2Proof.Machine

open Sys2Proof

section Refusals

variable {s : State} {i : Instr}

/-- A command whose arguments fail its test ends at once, its result registers as numbers. -/
theorem exec_refused (hp : s.phase = .idle) (h : commandRefused i s = true) :
    exec i s = .next (s.ended (-11) 0 0) := by
  rw [exec_of_commandRefused hp h, refuse_eq_ended]

/-- Each of these commands tests that `SPOS` is not beyond the source. -/
theorem commandRefused_of_spos_beyond (h : s.src.len < s.rd.spos)
    (hi : i ∈ [Instr.itd8 false, .itd8 true, .itd16 false, .itd16 true, .mdld8, .mdld16, .blast, .brinit]) :
    commandRefused i s = true := by
  have hit : itRefused s = true := itRefused_iff.mpr (.inr (.inl h))
  have hmdl : mdlRefused s = true := mdlRefused_iff.mpr (.inl h)
  have hcursor : decide (s.rd.spos > s.src.len) = true := decide_eq_true h
  simp only [List.mem_cons, List.not_mem_nil, or_false] at hi
  obtain rfl | rfl | rfl | rfl | rfl | rfl | rfl | rfl := hi
  exacts [hit, hit, hit, hit, hmdl, hmdl, hcursor, hcursor]

/-- `ITD8` and `ITD16` have one test, with and without the IT 2.15 integration. -/
theorem exec_itd_refused (hp : s.phase = .idle) (h : itRefused s = true) (f215 : Bool) :
    exec (.itd8 f215) s = .next (s.ended (-11) 0 0) ∧ exec (.itd16 f215) s = .next (s.ended (-11) 0 0) :=
  ⟨exec_refused hp h, exec_refused hp h⟩

/-- `MDLD8` and `MDLD16` have one test. -/
theorem exec_mdld_refused (hp : s.phase = .idle) (h : mdlRefused s = true) :
    exec .mdld8 s = .next (s.ended (-11) 0 0) ∧ exec .mdld16 s = .next (s.ended (-11) 0 0) :=
  ⟨exec_refused hp h, exec_refused hp h⟩

end Refusals

/-- Settles O9: each clause is a test of its commands, and a command refuses whichever of its tests fails. -/
theorem refusals : Obligations.Refusals := by
  intro s hp
  refine ⟨fun hbeyond i hi => ?cursor, fun hstride => ?stride, fun hlen hlast => ?itCapacity,
    fun hlen hlast => ?mdlCapacity, fun t hinvalid => ?table, fun hdesc => ?descriptor, fun hcopy => ?copy⟩
  case cursor => exact exec_refused hp (commandRefused_of_spos_beyond hbeyond hi)
  case stride => exact exec_itd_refused hp (itRefused_iff.mpr (.inl hstride))
  case itCapacity => exact exec_itd_refused hp (itRefused_iff.mpr (.inr (.inr ⟨hlen, hlast⟩)))
  case mdlCapacity => exact exec_mdld_refused hp (mdlRefused_iff.mpr (.inr ⟨hlen, hlast⟩))
  case table => exact exec_refused hp (by simp [commandRefused, hinvalid])
  case descriptor => exact exec_refused hp (hufconUserRefused_iff.mpr hdesc)
  case copy => exact exec_refused hp (wcopyRefused_iff.mpr hcopy)

end Sys2Proof.Machine
end

section
/-! PROOFS, 70_reset_and_hazards.md R314, R316, R317, R325, 41_it.md R156, 42_mdl.md R182, 44_blast_lz77.md R232,
45_mmcmp.md R266. Every step of a command in progress brings its end nearer: a block is opened or put behind, an event uses
bits of a range that is not refilled, or a descriptor byte is taken. Then what the host's accesses and power-on leave. -/

namespace Sys2Proof.Machine

open Sys2Proof

/-! ### The work left -/

/-- The bits the reader can still give. -/
def State.bits (s : State) : Nat := s.rd.bitsLeft s.src

/-- What is left of the command in progress, most significant part first: whether the block has taken it, its blocks, and
the bits or descriptor bytes of the block it stands in. An `ITD*` or `MMCMP` block counts two, one for opening it and one
for closing it. -/
def State.work (s : State) : Nat × Nat × Nat :=
  match s.phase with
  | .idle => (0, 0, 0)
  | .issued => (2, 0, 0)
  | .itTop _ _ _ _ => (1, 2 * s.it.rem, 0)
  | .itBlock _ _ _ _ => (1, 2 * s.it.rem - 1, s.bits)
  | .mdl _ _ => (1, 0, s.bits)
  | .blast _ _ => (1, 0, s.bits)
  | .mmTop _ b => (1, 2 * (s.mm.nblk - b), 0)
  | .mmComp _ _ b _ => (1, 2 * (s.mm.nblk - b) - 1, s.bits)
  | .hufcon _ left _ => (1, 0, left)

/-- Less work is left at `t` than at `s`. -/
def Nearer (t s : State) : Prop := Prod.Lex (· < ·) (Prod.Lex (· < ·) (· < ·)) t.work s.work

theorem nearer_wellFounded : WellFounded Nearer :=
  InvImage.wf State.work (WellFounded.prod_lex Nat.lt_wfRel.wf (WellFounded.prod_lex Nat.lt_wfRel.wf Nat.lt_wfRel.wf))

section Work

variable {s t : State} {S : Width} {f215 : Bool} {start nOut a b hdr : Nat}

theorem work_of_idle (hp : s.phase = .idle) : s.work = (0, 0, 0) := by simp only [State.work, hp]

theorem work_of_issued (hp : s.phase = .issued) : s.work = (2, 0, 0) := by simp only [State.work, hp]

theorem work_of_itTop (hp : s.phase = .itTop S f215 start nOut) : s.work = (1, 2 * s.it.rem, 0) := by
  simp only [State.work, hp]

theorem work_of_itBlock (hp : s.phase = .itBlock S f215 start nOut) : s.work = (1, 2 * s.it.rem - 1, s.bits) := by
  simp only [State.work, hp]

theorem work_of_mdl (hp : s.phase = .mdl S nOut) : s.work = (1, 0, s.bits) := by simp only [State.work, hp]

theorem work_of_blast (hp : s.phase = .blast a nOut) : s.work = (1, 0, s.bits) := by simp only [State.work, hp]

theorem work_of_mmTop (hp : s.phase = .mmTop a b) : s.work = (1, 2 * (s.mm.nblk - b), 0) := by
  simp only [State.work, hp]

theorem work_of_mmComp (hp : s.phase = .mmComp S a b hdr) : s.work = (1, 2 * (s.mm.nblk - b) - 1, s.bits) := by
  simp only [State.work, hp]

theorem work_of_hufcon {n left : Nat} {lengths : List Nat} (hp : s.phase = .hufcon n left lengths) :
    s.work = (1, 0, left) := by
  simp only [State.work, hp]

/-- A command in progress has work left. -/
theorem work_pos (hp : s.phase ≠ .idle) : 0 < s.work.1 := by
  unfold State.work
  split
  case h_1 h => exact absurd h hp
  all_goals simp

/-- A command that the block has taken has less left than one it has not. -/
theorem work_lt_two (hp : s.phase ≠ .issued) : s.work.1 < 2 := by
  unfold State.work
  split
  case h_2 h => exact absurd h hp
  all_goals simp

/-- The end of the command. -/
theorem Nearer.ended (hs : s.phase ≠ .idle) (ht : t.phase = .idle) : Nearer t s := by
  rw [Nearer, work_of_idle ht]
  exact .left _ _ (work_pos hs)

/-- The block takes the command. -/
theorem Nearer.taken (hs : s.phase = .issued) (ht : t.phase ≠ .issued) : Nearer t s := by
  have hlt := work_lt_two ht
  rw [Nearer, work_of_issued hs]
  exact .left _ _ hlt

/-- Fewer blocks are left. -/
theorem Nearer.of_blocks {m n x y : Nat} (hs : s.work = (1, n, y)) (ht : t.work = (1, m, x)) (h : m < n) :
    Nearer t s := by
  rw [Nearer, hs, ht]
  exact .right _ (.left _ _ h)

/-- As many blocks are left, and less of the one in progress. -/
theorem Nearer.of_items {m n x y : Nat} (hs : s.work = (1, n, y)) (ht : t.work = (1, m, x)) (hblocks : m = n)
    (h : x < y) : Nearer t s := by
  rw [Nearer, hs, ht, hblocks]
  exact .right _ (.right _ h)

end Work

/-- Running what was fetched from `s` brings the end nearer. -/
def Fetched.Advances (s : State) : Fetched → Prop
  | .rest => s.phase = .idle
  | .illegal _ _ => s.phase = .issued
  | .instr i t => ∀ u, exec i t = .next u → Nearer u s
  | .control t => Nearer t s
  | .fault _ => True

theorem nearer_of_fetch {s t : State} (hp : s.phase ≠ .idle) (hf : (fetch s).Advances s) (h : step s = .next t) :
    Nearer t s := by
  unfold step at h
  cases hfetch : fetch s with rw [hfetch] at hf h
  | rest => exact absurd hf hp
  | illegal e u => cases h; exact .ended hp rfl
  | instr i u => exact hf t h
  | control u => cases h; exact hf
  | fault r => cases h

/-! ### The step that takes the command -/

section Take

variable {s t : State} {S : Width}

/-- A command's own meaning does not issue another: it ends the command or stands inside it. -/
theorem whenIdle_not_issued {body : State → State} (hp : s.phase = .idle) (hb : (body s).phase ≠ .issued)
    (h : whenIdle s body = .next t) : t.phase ≠ .issued := by
  rw [whenIdle_idle hp] at h
  cases h
  exact hb

theorem rdbits_not_issued {mode : Mode} {n : Nat} : (rdbits mode n s).phase ≠ .issued := by
  unfold rdbits
  split
  · nofun
  · dsimp only
    split <;> nofun

theorem itStart_not_issued {f215 : Bool} : (itStart S f215 s).phase ≠ .issued := by
  unfold itStart
  split <;> nofun

theorem mdlStart_not_issued : (mdlStart S s).phase ≠ .issued := by
  unfold mdlStart
  split
  · nofun
  · dsimp only
    split <;> nofun

theorem blastStart_not_issued : (blastStart s).phase ≠ .issued := by
  unfold blastStart
  split
  · nofun
  · split <;> nofun

theorem mmStart_not_issued : (mmStart s).phase ≠ .issued := by
  unfold mmStart
  split <;> nofun

theorem hufconStatic_not_issued {x : TableSel} : (hufconStatic x s).phase ≠ .issued := by
  unfold hufconStatic
  split <;> nofun

theorem hufconUser_not_issued : (hufconUser s).phase ≠ .issued := by
  unfold hufconUser
  split <;> nofun

theorem hufdecRun_not_issued {x : TableSel} : (hufdecRun x s).phase ≠ .issued := by
  unfold hufdecRun
  split <;> nofun

theorem execHufcon_not_issued (hp : s.phase = .idle) {x : TableSel} (h : execHufcon x s = .next t) :
    t.phase ≠ .issued := by
  refine whenIdle_not_issued hp ?_ h
  cases x with
  | lit | len | dist => exact hufconStatic_not_issued
  | user => exact hufconUser_not_issued

theorem execHufdec_not_issued (hp : s.phase = .idle) {x : TableSel} (h : execHufdec x s = .next t) :
    t.phase ≠ .issued := by
  refine whenIdle_not_issued hp ?_ h
  split
  · exact hufdecRun_not_issued
  · nofun

theorem execBrinit_not_issued (hp : s.phase = .idle) (h : execBrinit s = .next t) : t.phase ≠ .issued := by
  refine whenIdle_not_issued hp ?_ h
  split <;> nofun

theorem execBrseed_not_issued (hp : s.phase = .idle) {k : BitVec 6} (h : execBrseed k s = .next t) :
    t.phase ≠ .issued := by
  refine whenIdle_not_issued hp ?_ h
  split <;> nofun

theorem execWreset_not_issued (hp : s.phase = .idle) (h : execWreset s = .next t) : t.phase ≠ .issued :=
  whenIdle_not_issued hp (by nofun) h

theorem execWcopy_not_issued (hp : s.phase = .idle) (h : execWcopy s = .next t) : t.phase ≠ .issued := by
  refine whenIdle_not_issued hp ?_ h
  split
  · nofun
  · split <;> nofun

theorem execCommand_not_issued (hp : s.phase = .idle) {c : Config} {i : Instr} (hi : WellFormed c .command i = true)
    (h : exec i s = .next t) : t.phase ≠ .issued := by
  cases i with
  | itd8 f215 | itd16 f215 => exact whenIdle_not_issued hp itStart_not_issued h
  | mdld8 | mdld16 => exact whenIdle_not_issued hp mdlStart_not_issued h
  | blast => exact whenIdle_not_issued hp blastStart_not_issued h
  | mmcmp => exact whenIdle_not_issued hp mmStart_not_issued h
  | brinit => exact execBrinit_not_issued hp h
  | rdbitsIt n | rdbitsMdl n | rdbitsPk n => exact whenIdle_not_issued hp rdbits_not_issued h
  | brseed k => exact execBrseed_not_issued hp h
  | hufcon x => exact execHufcon_not_issued hp h
  | hufdec x => exact execHufdec_not_issued hp h
  | wreset => exact execWreset_not_issued hp h
  | wcopy => exact execWcopy_not_issued hp h
  | nop | wput | wflush => exact whenIdle_not_issued hp (by nofun) h
  | _ => cases hi

theorem fetchCommand_advances (hp : s.phase = .issued) : (fetchCommand s).Advances s := by
  rcases fetchCommand_cases s with ⟨i, hi, hf⟩ | ⟨e, -, hf⟩ <;> rw [hf]
  · exact fun u hu => .taken hp
      (execCommand_not_issued (s := s.takeCommand) rfl (decodeCommand_wellFormed (c := s.cfg) hi) hu)
  · exact hp

end Take

/-! ### `ITD*` -/

section It

variable {s : State} {S : Width} {f215 : Bool} {start nOut : Nat}

/-- Opening a block of samples that are still to come is one of the two things counted for it (41_it.md R143). -/
theorem itTopNext_advances (hp : s.phase = .itTop S f215 start nOut) :
    (itTopNext S f215 start nOut s).Advances s := by
  have hbusy : s.phase ≠ .idle := by rw [hp]; nofun
  unfold itTopNext
  split
  · exact .ended hbusy rfl
  · rename_i hrem
    change Nearer (itBlockStart S f215 start nOut s) s
    unfold itBlockStart
    split
    · exact .ended hbusy rfl
    · dsimp only
      split
      · exact .ended hbusy rfl
      · refine .of_blocks (work_of_itTop hp) (work_of_itBlock rfl) ?_
        change 2 * s.it.rem - 1 < 2 * s.it.rem
        omega

/-- An IT event leaves the reader as its reads left it, and the block in progress (41_it.md R145 to R149). -/
theorem itEvent_frame {t : State} (hp : s.phase = .itBlock S f215 start nOut) {c : Config} {w : Nat} {i : Instr}
    (hi : WellFormed c (.it S w) i = true) (h : exec i s = .next t) :
    (∃ n, t.phase = .itBlock S f215 start n) ∧ t.it.rem = s.it.rem ∧ t.bits = s.bits := by
  obtain ⟨v, rfl⟩ | ⟨f, rfl⟩ | ⟨v, rfl⟩ | ⟨n, rfl⟩ := wellFormed_it hi
  · rw [exec, execItS, inItBlock_of_phase hp] at h
    split at h <;> cases h
    rw [itSample_eq]
    exact ⟨⟨_, rfl⟩, rfl, rfl⟩
  · rw [exec_itWl hp] at h
    cases h
    exact ⟨⟨_, hp⟩, rfl, rfl⟩
  · rw [exec_itWm hp] at h
    cases h
    exact ⟨⟨_, hp⟩, rfl, rfl⟩
  · rw [exec_itWt hp] at h
    cases h
    exact ⟨⟨_, hp⟩, rfl, rfl⟩

/-- Inside a block an event uses bits of the block's bytes; its end takes samples from those to come (41_it.md R156). -/
theorem itBlockNext_advances (h : s.Wf) (hp : s.phase = .itBlock S f215 start nOut) :
    (itBlockNext S f215 start nOut s).Advances s := by
  have hbusy : s.phase ≠ .idle := by rw [hp]; nofun
  obtain ⟨-, -, -, -, -, hrem, hblk, -⟩ := (phaseOk_itBlock hp).mp h.phase
  unfold itBlockNext
  split
  · split
    case h_1 i r hdec =>
      intro u hu
      obtain ⟨⟨n, hphase⟩, hkept, hbits⟩ :=
        itEvent_frame (s := { s with rd := r }) hp ((readFits_reader s.src .it).decodeIt hdec) hu
      refine .of_items (work_of_itBlock hp) (work_of_itBlock hphase) (by rw [hkept]) ?_
      rw [hbits]
      exact (readUses_reader s.src .it).decodeIt _ _ _ hdec
    all_goals exact .ended hbusy rfl
  · refine .of_blocks (work_of_itBlock hp) (work_of_itTop rfl) ?_
    change 2 * (s.it.rem - s.it.blklen) < 2 * s.it.rem - 1
    omega

end It

/-! ### `MDLD*` -/

section Mdl

variable {s t : State} {S : Width} {nOut : Nat}

theorem mdlSample_frame (hp : s.phase = .mdl S nOut) {lo : Option Byte} {sign : Bool} {mag : Byte}
    (h : mdlSample lo sign mag s = .next t) : t.phase = .mdl S (nOut + 1) ∧ t.bits = s.bits := by
  simp only [mdlSample, inMdl, hp] at h
  split at h <;> cases h
  exact ⟨rfl, rfl⟩

/-- A sample uses bits of the declared block (42_mdl.md R182). -/
theorem mdlNext_advances (hp : s.phase = .mdl S nOut) : (mdlNext S nOut s).Advances s := by
  have hbusy : s.phase ≠ .idle := by rw [hp]; nofun
  unfold mdlNext
  split
  · split
    case h_1 i r hdec =>
      intro u hu
      have hframe : u.phase = .mdl S (nOut + 1) ∧ u.bits = r.bitsLeft s.src := by
        obtain ⟨lo, sign, mag, rfl⟩ | ⟨lo, sign, run, x, rfl⟩ := wellFormed_mdl (decodeMdl_wellFormed hdec)
        · exact mdlSample_frame (s := { s with rd := r }) hp hu
        · exact mdlSample_frame (s := { s with rd := r }) hp hu
      obtain ⟨hphase, hbits⟩ := hframe
      refine .of_items (work_of_mdl hp) (work_of_mdl hphase) rfl ?_
      rw [hbits]
      exact (readUses_reader s.src .mdl).decodeMdl _ _ _ hdec
    all_goals exact .ended hbusy rfl
  · exact .ended hbusy rfl

end Mdl

/-! ### `BLAST` -/

section Blast

variable {s t : State} {s0 nSink : Nat}

/-- An event of `BLAST` ends the command, or leaves it in progress with the reader as the event's reads left it. -/
theorem blastEvent_frame (hp : s.phase = .blast s0 nSink) {i : Instr}
    (hi : (∃ x, i = .blLit x) ∨ (∃ x y z w, i = .blMatch x y z w) ∨ i = .blEnd) (h : exec i s = .next t) :
    t.phase = .idle ∨ (∃ n, t.phase = .blast s0 n) ∧ t.bits = s.bits := by
  obtain ⟨x, rfl⟩ | ⟨x, y, z, w, rfl⟩ | rfl := hi
  · rw [exec, execBlLit, inBlast_of_phase hp] at h
    cases h
    exact .inr ⟨⟨_, rfl⟩, rfl⟩
  · rw [exec, execBlMatch, inBlast_of_phase hp] at h
    cases h
    unfold blastCopy
    split
    · exact .inl rfl
    · exact .inr ⟨⟨_, rfl⟩, rfl⟩
  · rw [exec_blEnd hp] at h
    cases h
    exact .inl rfl

/-- An event uses bits of the source (44_blast_lz77.md R232). -/
theorem blastNext_advances (hp : s.phase = .blast s0 nSink) : (blastNext s0 nSink s).Advances s := by
  have hbusy : s.phase ≠ .idle := by rw [hp]; nofun
  unfold blastNext
  split
  case h_1 i r hdec =>
    intro u hu
    obtain ⟨b, l, hstage⟩ := blastStage_eq s0 { s with rd := r }
    rw [hstage] at hu
    rcases blastEvent_frame (by exact hp) (decodeBlast_event hdec) hu with hidle | ⟨⟨n, hphase⟩, hbits⟩
    · exact .ended hbusy hidle
    · refine .of_items (work_of_blast hp) (work_of_blast hphase) rfl ?_
      rw [hbits]
      exact (readUses_reader s.src .pk).decodeBlast _ _ _ _ _ _ hdec
  all_goals exact .ended hbusy rfl

end Blast

/-! ### `MMCMP` -/

section Mm

variable {s t : State} {S : Width} {s0 b hdr p : Nat}

/-- A block of `MMCMP` that does not stop the command is behind it, or is a compressed one that it stands in; the count of
blocks stays (45_mmcmp.md R250). -/
def MmBlockTaken (nblk s0 b : Nat) (t : State) : Prop :=
  t.mm.nblk = nblk ∧ (t.phase = .mmTop s0 (b + 1) ∨ ∃ S hdr, t.phase = .mmComp S s0 b hdr)

theorem mmCompOpen_taken : (mmCompOpen S s0 b hdr s).Gives (MmBlockTaken s.mm.nblk s0 b) fun _ => True := by
  unfold mmCompOpen
  dsimp only
  split
  · trivial
  · split
    · trivial
    · exact ⟨rfl, .inr ⟨S, hdr, rfl⟩⟩

theorem mmBlockBody_taken (hout : s.out.cells.wf = true) :
    (mmBlockBody s0 b hdr s).Gives (MmBlockTaken s.mm.nblk s0 b) fun _ => True := by
  unfold mmBlockBody
  split
  · obtain ⟨o, -, -, -, heq | ⟨code, heq⟩⟩ := mmRawBlock_cases hdr s.mm.nsub 0 s.mm.pay s hout
    · rw [heq]
      exact ⟨rfl, .inl rfl⟩
    · rw [heq]
      trivial
  · split <;> exact mmCompOpen_taken

theorem mmBlockAt_taken (hout : s.out.cells.wf = true) :
    (mmBlockAt s0 b p s).Gives (MmBlockTaken s.mm.nblk s0 b) fun _ => True := by
  unfold mmBlockAt
  dsimp only
  split
  · trivial
  · split
    · trivial
    · split
      · exact mmBlockBody_taken hout
      · trivial

/-- A block that is behind the command, or that it stands in, counts less than one to come. -/
theorem mmTopNext_advances (h : s.Wf) (hp : s.phase = .mmTop s0 b) : (mmTopNext s0 b s).Advances s := by
  have hbusy : s.phase ≠ .idle := by rw [hp]; nofun
  unfold mmTopNext
  split
  · rename_i hb
    split
    · rename_i p _
      have htaken := mmBlockAt_taken (s0 := s0) (b := b) (p := p) h.out
      cases hrun : mmBlockAt s0 b p s with rw [hrun] at htaken
      | stop code t => exact .ended hbusy rfl
      | on t =>
        change Nearer t s
        obtain ⟨hnblk, hphase | ⟨S, hdr, hphase⟩⟩ := htaken
        · exact .of_blocks (work_of_mmTop hp) (work_of_mmTop hphase) (by omega)
        · exact .of_blocks (work_of_mmTop hp) (work_of_mmComp hphase) (by omega)
    · trivial
  · exact .ended hbusy rfl

/-- An event of a compressed block leaves the block in progress with the reader as the event's reads left it, or the block
behind it; the count of blocks stays (45_mmcmp.md R254 to R257). -/
def MmEventKeeps (S : Width) (s0 b hdr : Nat) (s t : State) : Prop :=
  t.mm.nblk = s.mm.nblk ∧ (t.phase = .mmTop s0 (b + 1) ∨ t.phase = .mmComp S s0 b hdr ∧ t.bits = s.bits)

theorem mmStore_keeps (hp : s.phase = .mmComp S s0 b hdr) {d : Nat} (h : mmStore S hdr d s = .next t) :
    MmEventKeeps S s0 b hdr s t := by
  unfold mmStore at h
  split at h
  · cases h
  · split at h
    · split at h <;> cases h
      exact ⟨rfl, .inr ⟨hp, rfl⟩⟩
    · split at h
      · cases h
      · split at h <;> cases h
        exact ⟨rfl, .inr ⟨hp, rfl⟩⟩

theorem mmEvent_keeps (hp : s.phase = .mmComp S s0 b hdr) {c : Config} {w : Nat} {i : Instr}
    (hi : WellFormed c (.mmcmp S w) i = true) (h : exec i s = .next t) : MmEventKeeps S s0 b hdr s t := by
  obtain ⟨d, rfl, -⟩ | ⟨d, f, rfl, -⟩ | ⟨d, f, x, rfl, -⟩ | ⟨d, f, rfl⟩ := wellFormed_mm hi
  · rw [exec_mmV hp] at h
    exact mmStore_keeps hp h
  · rw [exec_mmW hp] at h
    cases h
    exact ⟨rfl, .inr ⟨hp, rfl⟩⟩
  · rw [exec_mmX hp] at h
    exact mmStore_keeps hp h
  · rw [exec, execMmEnd, inMmComp_of_phase hp] at h
    split at h <;> cases h
    · exact ⟨rfl, .inl rfl⟩
    · exact ⟨rfl, .inr ⟨hp, rfl⟩⟩

/-- Inside a compressed block an event uses bits of the payload; its end puts the block behind (45_mmcmp.md R266). -/
theorem mmCompNext_advances (h : s.Wf) (hp : s.phase = .mmComp S s0 b hdr) : (mmCompNext S s0 b hdr s).Advances s := by
  have hbusy : s.phase ≠ .idle := by rw [hp]; nofun
  obtain ⟨hblock, hb, -⟩ := (phaseOk_mmComp hp).mp h.phase
  have htable := hblock.inside
  rw [hblock.pay] at htable
  obtain ⟨k, q, hadv, -⟩ :=
    mmAdvance_cases S hdr (s.mm.nsub - s.mm.subk) s h.cfg htable (Nat.add_sub_cancel' hblock.cursor)
  have hbehind {t : State} (hnblk : t.mm.nblk = s.mm.nblk) (hphase : t.phase = .mmTop s0 (b + 1)) : Nearer t s :=
    .of_blocks (work_of_mmComp hp) (work_of_mmTop hphase) (by omega)
  unfold mmCompNext
  rw [hadv]
  dsimp only
  split
  · exact hbehind rfl rfl
  · split
    case h_1 i r hdec =>
      intro u hu
      obtain ⟨hnblk, hphase | ⟨hphase, hbits⟩⟩ :=
        mmEvent_keeps (by exact hp) ((readFits_reader s.src .pk).decodeMm hdec) hu
      · exact hbehind hnblk hphase
      · refine .of_items (work_of_mmComp hp) (work_of_mmComp hphase) (by rw [hnblk]) ?_
        rw [hbits]
        exact (readUses_reader s.src .pk).decodeMm _ _ _ hdec
    all_goals exact .ended hbusy rfl

end Mm

/-! ### Every step -/

section Steps

variable {s t : State}

/-- Each descriptor byte of `HUFCON 3` is taken once (43_huffman.md R192). -/
theorem hufconNext_advances {n left : Nat} {lengths : List Nat} (hp : s.phase = .hufcon n left lengths) :
    (hufconNext n left lengths s).Advances s := by
  have hbusy : s.phase ≠ .idle := by rw [hp]; nofun
  unfold hufconNext
  cases left with
  | zero => exact .ended hbusy rfl
  | succ left =>
    rw [if_neg (Nat.succ_ne_zero left)]
    split
    · intro u hu
      rw [decodeDescriptor, exec_hdRun (s := s.seek (s.rd.spos + 1)) hp] at hu
      cases hu
      exact .of_items (work_of_hufcon hp) (work_of_hufcon rfl) rfl (Nat.lt_succ_self left)
    · trivial

theorem fetch_advances (h : s.Wf) : (fetch s).Advances s := by
  unfold fetch
  split <;> rename_i hp
  · exact hp
  · exact fetchCommand_advances hp
  · exact itTopNext_advances hp
  · exact itBlockNext_advances h hp
  · exact mdlNext_advances hp
  · exact blastNext_advances hp
  · exact mmTopNext_advances h hp
  · exact mmCompNext_advances h hp
  · exact hufconNext_advances hp

theorem step_nearer (h : s.Wf) (hp : s.phase ≠ .idle) (hstep : step s = .next t) : Nearer t s :=
  nearer_of_fetch hp (fetch_advances h) hstep

end Steps

/-- Settles O59, by induction on the work left: a well-formed state steps to a well-formed one with less of it, until the
block is idle. -/
theorem everyCommandEnds : Obligations.EveryCommandEnds := by
  intro s
  induction s using nearer_wellFounded.induction with
  | _ s ih =>
    intro h
    by_cases hp : s.phase = .idle
    · exact ⟨0, s, rfl, busy_eq_false.mpr hp⟩
    · obtain ⟨u, hstep, hu⟩ := stepKeepsWellFormed s h
      obtain ⟨k, t, hrun, ht⟩ := ih u (step_nearer h hp hstep) hu
      exact ⟨k + 1, t, (run_succ_of_step hstep).trans hrun, ht⟩

/-! ### What the host does -/

section HostAccess

variable {s : State}

/-- With no command in progress, the clauses that hold at every point are all. -/
theorem State.MemOk.wf_of_idle (h : s.MemOk) (hp : s.phase = .idle) : s.Wf :=
  h.wf (by simp only [PhaseOk, hp])

/-- A write of `CMD` starts a command or refuses it; no clause speaks of `CMD` or of the result registers. -/
theorem hostIssue_wf (h : s.MemOk) (v : Word) : (hostIssue v s).Wf := by
  rcases hostIssue_cases v s with ⟨i, -, -, heq⟩ | heq <;> rw [heq]
  · exact State.MemOk.wf h trivial
  · exact h.ended ..

theorem hostWriteIdle_wf (h : s.Wf) (hp : s.phase = .idle) (index : Nat) (v : Word) : (hostWriteIdle index v s).Wf := by
  have hmem := h.memOk
  unfold hostWriteIdle
  split
  · exact hostIssue_wf hmem v
  · exact State.MemOk.wf_of_idle hmem hp
  · exact State.MemOk.wf_of_idle hmem hp
  · exact State.MemOk.wf_of_idle hmem hp
  · exact State.MemOk.wf_of_idle hmem hp
  · exact (hmem.seek _).wf_of_idle hp
  · exact h

end HostAccess

/-- Settles O58: while a command is in progress the host changes nothing, and between commands each access meets the
clauses of what it writes. -/
theorem hostKeepsWellFormed : Obligations.HostKeepsWellFormed := by
  intro s h
  have hmem := h.memOk
  cases hb : s.busy with
  | true =>
    simp only [hostWrite_busy hb, hostLoadSource, hostGiveDst, hostTakeSink, hb, if_true]
    exact ⟨fun _ _ => h, fun _ _ => h, fun _ _ _ _ => h, h⟩
  | false =>
    have hp := busy_eq_false.mp hb
    simp only [hostWrite_idle hp, hostLoadSource, hostGiveDst, hostTakeSink, hb, Bool.false_eq_true, if_false]
    refine ⟨hostWriteIdle_wf h hp, fun bytes hlen => ?source, fun cap cells hcap hcells => ?destination, ?sink⟩
    case source =>
      exact State.MemOk.wf_of_idle (s := { s with src := Source.ofBytes bytes })
        { hmem with srcLen := hlen, src := Memory.wf_ofBytes 0 bytes } hp
    case destination =>
      exact State.MemOk.wf_of_idle (s := { s with dst := cells, dstCap := cap })
        { hmem with dstCap := hcap, dst := hcells } hp
    case sink => exact State.MemOk.wf_of_idle (s := { s with sink := [] }) hmem hp

/-- Settles O1: the registers as `State.reset` has them, and an idle block that fetches nothing. -/
theorem resetLeaves : Obligations.ResetLeaves :=
  ⟨rfl, rfl, rfl, rfl, fun t => by cases t <;> rfl, rfl, rfl, rfl⟩

/-- Settles O4: a busy block ignores a write at any index, those of `CMD`, `ARG` and `SPOS` among them. -/
theorem busyHostWritesIgnored : Obligations.BusyHostWritesIgnored :=
  fun _ v hb index _ => hostWrite_busy hb index v

end Sys2Proof.Machine
end
